-- ==== Sys2Proof/Word.lean ====
section
/-! DEFINITION. The widths of the JM-214's data: bytes on the line, 16-bit registers, node addresses, slot
indices, and the plain placement of a field in a register. -/

namespace Sys2Proof

/-- One byte on the line or in image memory (R1, R70). -/
abbrev Byte := BitVec 8

/-- One 16-bit register of the register window (chapter 10). -/
abbrev Word := BitVec 16

/-- A node address, 0 to 31. Address 0 has no node entry: it is the broadcast address (section 3.0, R10). -/
abbrev NodeAddr := BitVec 5

/-- A slot index of a schedule table, 0 to 15 (R24). -/
abbrev SlotIndex := BitVec 4

/-- A set of node addresses, one bit for each address (R68, R80). Bit 0 is never set. -/
abbrev NodeSet := BitVec 32

/-- One bit as a number. -/
def bit (b : Bool) : Nat := if b then 1 else 0

/-- A value of any width placed in a register with its lowest bit at `pos` (chapter 10). -/
def place {w : Nat} (v : BitVec w) (pos : Nat) : Word := (v.setWidth 16) <<< pos

/-- One bit placed in a register. -/
def placeBit (b : Bool) (pos : Nat) : Word := BitVec.ofNat 16 (bit b) <<< pos

end Sys2Proof
end

