-- ==== Sys2Proof/Config.lean ====
section
/-! DEFINITION. The timing constants of the link (General Information, "Terms and Abbreviations"), the part
identity, the sizes of its tables, and the length of the model's clock tick. -/

namespace Sys2Proof.Config

/-- The part identity that IDENT reads (R174, section 10.2). -/
def identity : Word := 0x2141#16

/-- E: the end guard at the close of a slot, in bt. -/
def endGuard : Nat := 12

/-- V: the gap between the two windows of a PAIR slot, in bt (R14). -/
def pairGap : Nat := 8

/-- H: the head segment, in bt (R45). -/
def headSegment : Nat := 128

/-- Q: the line-quiet interval, in bt (R22). -/
def quietInterval : Nat := 256

/-- The length of the abort mark, in bt (R4). -/
def abortMark : Nat := 20

/-- The most trailer bytes, as line time: 35 bytes, 350 bt (R11). -/
def largestTrailer : Nat := 350

/-- The longest ORDER frame, in bt (R10, R35). -/
def longestOrder : Nat := 430

/-- The shortest non-zero slot, in bt (R38). -/
def shortestSlot : Nat := 64

/-- Capacities: command queue (R93), outstanding table (R95), response queue (R134). -/
def queueCapacity : Nat := 16
/-- See `queueCapacity`. -/
def outstandingCapacity : Nat := 8
/-- See `queueCapacity`. -/
def responseCapacity : Nat := 16

/-- The bytes of one image bank (R70). -/
def bankSize : Nat := 1024

/-- The ninth activity report in RECOVERY halts the part (R148). -/
def restartLimit : Nat := 9

/-- BUSY acknowledgements at which a command settles NODE_BUSY (R106). -/
def busyLimit : Nat := 15

/-- The idle line that ends a reception once it has passed, in bt (R2). -/
def characterGap : Nat := 10

/-- Clock ticks in one bit time. One tick of the model's clock is 0.05 µs, so that half a bit time is a whole number of
ticks at every rate (DESIGN CHOICE, log entry 2); a bit time is 0.8, 0.4, 0.2 or 0.1 µs by the rate code (R1). -/
def ticksPerBit (rate : BitVec 2) : Nat := 2 ^ (4 - rate.toNat)

/-- Clock ticks of one line copy: 0.4 µs (R183, section 9.7). -/
def lineCopyTicks : Nat := 8

/-- Clock ticks by which a host image access puts back the next line copy: 0.1 µs (R183). -/
def accessTicks : Nat := 2

end Sys2Proof.Config
end

