-- ==== Sys2Proof/Syntax.lean ====
section
/-! DEFINITION. The commands of the block: one constructor of `Instr` for each row of spec/opcode_table.json, with
the operands each carries. Host rows carry what the host puts on the bus, line rows what the line shows, and the
rows by which one block of the part takes what another hands it carry what is handed. -/

namespace Sys2Proof

/-- Schedule table A or B (R24). -/
inductive TableId where
  | a
  | b
  deriving DecidableEq, Repr

/-- The settings registers of a SETTINGS_WRITE (R153). -/
inductive SettingReg where
  | lset
  | cset
  | tset
  deriving DecidableEq, Repr

/-- The registers of a SLOT_RECORD_WRITE (R25). -/
inductive SlotReg where
  | srule
  | snodeb
  | slen
  deriving DecidableEq, Repr

/-- The registers of a SLICE_OFFSET_WRITE (R54). -/
inductive OffsetReg where
  | noutoff
  | ninoff
  deriving DecidableEq, Repr

/-- The two registers of a set of node addresses or of the sticky flags: CHG0 and CHG1 (R68), FFLAG0 and FFLAG1
(R161). -/
inductive Half where
  | reg0
  | reg1
  deriving DecidableEq, Repr

/-- Which byte lanes of a bus cycle are enabled (R172). -/
inductive Lanes where
  | word
  | low
  | high
  | null
  deriving DecidableEq, Repr

/-- A bus cycle as the host presents it: which selects, strobes and lane enables are asserted, the word address
on A1 to A11 and the data on D0 to D15 (R171 to R173). -/
structure BusCycle where
  /-- /RS asserted -/
  rs : Bool
  /-- /IS asserted -/
  is : Bool
  /-- /RD asserted -/
  rd : Bool
  /-- /WR asserted -/
  wr : Bool
  lanes : Lanes
  addr : BitVec 11
  data : Word
  deriving DecidableEq, Repr

/-- What a node reported about itself in an IDENT reply (R12, R49). -/
structure IdentRecord where
  typeCode : Word
  revision : Byte
  outSize : Byte
  inSize : Byte
  deriving DecidableEq, Repr

/-- The kinds of reply window by which the node table sorts outcomes (R57). -/
inductive WindowKind where
  | data
  | pair
  | order
  | probe
  deriving DecidableEq, Repr

/-- Why a reply was found BAD (R16, R159). -/
inductive BadCause where
  /-- a header field or further check that differs: 1 -/
  | field
  /-- a framing error: 2 -/
  | framing
  /-- a character gap of more than 10 bt: 3 -/
  | gap
  /-- a wrong CRC: 4 -/
  | crc
  /-- cut by the opening of window 2: 5 -/
  | cutByWindow2
  /-- cut by the slot end: 6 -/
  | cutBySlotEnd
  deriving DecidableEq, Repr

/-- A window outcome as the node table takes it (R57): a GOOD reply, a GOOD IDENT with its record, NONE, or BAD
with its cause. -/
inductive Verdict where
  | good
  | ident (r : IdentRecord)
  | silent
  | bad (c : BadCause)
  deriving DecidableEq, Repr

/-- An ACK window outcome as the command engine takes it (R104 to R108). -/
inductive AckVerdict where
  | accept
  | busy
  | reject (reason : Byte)
  | silent
  | bad
  deriving DecidableEq, Repr

/-- The two link faults (R19, R20). -/
inductive LinkFaultKind where
  | foreign
  | readback
  deriving DecidableEq, Repr

/-- The nineteen fault codes (section 8.1). -/
inductive FaultCode where
  | hAccess | hLocked | hPush | hPop | hSched | hBudget | hImage
  | nLost | nMismatch | nBad | nLate | nStray
  | mHostrd | mLinkrd | mCopy
  | lForeign | lReadback
  | xRecovery | xResume
  deriving DecidableEq, Repr

/-- A fault report as a block hands it to the fault and interrupt unit (R157). -/
structure FaultReport where
  code : FaultCode
  node : NodeAddr
  detail : Word
  deriving DecidableEq, Repr

/-- The commands: one constructor for each row of spec/opcode_table.json. -/
inductive Instr where
  -- run commands, written to RCMD
  | run
  | stop
  | abort
  | restart
  | creset
  -- settings, schedule and node registers
  | settingsWrite (reg : SettingReg) (value : Word)
  | slotRecordWrite (reg : SlotReg) (value : Word)
  | switch (table : TableId)
  | cancel (table : TableId)
  | nodeConfigWrite (value : Word)
  | enableRequest (value : Word)
  | disable (value : Word)
  | sliceOffsetWrite (reg : OffsetReg) (value : Word)
  | nlenWrite (value : Word)
  | ncntWrite (value : Word)
  | changeSetRemove (half : Half) (value : Word)
  -- image control and the image window
  | publish (value : Word)
  | holdSet (value : Word)
  | holdClear (value : Word)
  | ptestWrite (value : Word)
  | imageWrite (lanes : Lanes) (addr : BitVec 11) (data : Word)
  | imageRead (lanes : Lanes) (addr : BitVec 11)
  -- commands, responses, interrupts and faults
  | cqput (value : Word)
  | rqtake (value : Word)
  | ipendClear (value : Word)
  | ienWrite (value : Word)
  | flagClear (half : Half) (value : Word)
  | fccodeWrite (value : Word)
  | registerWrite (offset : BitVec 8) (value : Word)
  | accessFault (cycle : BusCycle)
  | byteWrite (offset : BitVec 8) (high : Bool) (data : Word)
  -- the bus port and the reset pin
  | waitingAccessTaken
  | strobeRelease
  | hardwareReset
  -- the line and the part's timers
  | activityOnset
  | characterEnd (byte : Byte) (stopBit : Bool)
  | characterGap
  | windowClose
  | window2Open
  | slotEnd
  | headSegmentEnd
  | frameEnd
  | lReadback (received : Bool)
  | markEnd
  | lineQuiet
  -- what one block takes from another
  | activityReport
  | linkFault (kind : LinkFaultKind)
  | nodeOutcome (node : NodeAddr) (kind : WindowKind) (slot : SlotIndex) (verdict : Verdict)
  | lateNotice (node : NodeAddr) (slot : SlotIndex)
  | ackOutcome (verdict : AckVerdict)
  | replyStorage (node : NodeAddr) (bytes : List Byte)
  | resultTrailer (node : NodeAddr) (tag : Byte) (serial : BitVec 4) (outcome : BitVec 4) (data : List Byte)
  | nodeDownNotice (node : NodeAddr)
  | abandonNotice
  | resultTimeout
  | lineCopy
  | faultReport (report : FaultReport)
  | lineReturnsTo1
  | resetPinRelease
  deriving DecidableEq, Repr

end Sys2Proof
end

