-- ==== Sys2Proof/WellFormed.lean ====
section
/-! DEFINITION. Which commands are well formed. The operand types already hold every register, address and code to
its width; what is left are the limits the spec puts on what one block can hand another. The checks are Bools. -/

namespace Sys2Proof

/-- A verdict fits the window it comes from: a GOOD PROBE window carries an IDENT record, and no other window does
(R12, R15, R57). -/
def WindowKind.admits : WindowKind → Verdict → Bool
  | .probe, .good => false
  | .probe, _ => true
  | _, .ident _ => false
  | _, _ => true

/-- The NODE class of fault codes, whose node is always 1 to 31 (R159). -/
def FaultCode.isNodeClass : FaultCode → Bool
  | .nLost | .nMismatch | .nBad | .nLate | .nStray => true
  | _ => false

/-- The limits on what a command carries: a window, notice or NODE fault names a node 1 to 31 (R57, R62, R159), an
input slice is at most 64 bytes (R11) and a trailer's result data at most 32 (R11). -/
def Instr.wellFormed : Instr → Bool
  | .nodeOutcome n k _ v => n != 0 && k.admits v
  | .lateNotice n _ => n != 0
  | .replyStorage n bytes => n != 0 && decide (bytes.length ≤ 64)
  | .resultTrailer n _ _ _ data => n != 0 && decide (data.length ≤ 32)
  | .nodeDownNotice n => n != 0
  | .faultReport r => !r.code.isNodeClass || r.node != 0
  | .run | .stop | .abort | .restart | .creset => true
  | .settingsWrite .. | .slotRecordWrite .. | .switch .. | .cancel .. => true
  | .nodeConfigWrite .. | .enableRequest .. | .disable .. | .sliceOffsetWrite .. | .nlenWrite .. => true
  | .ncntWrite .. | .changeSetRemove .. => true
  | .publish .. | .holdSet .. | .holdClear .. | .ptestWrite .. | .imageWrite .. | .imageRead .. => true
  | .cqput .. | .rqtake .. | .ipendClear .. | .ienWrite .. | .flagClear .. | .fccodeWrite .. => true
  | .registerWrite .. | .accessFault .. | .byteWrite .. => true
  | .waitingAccessTaken | .strobeRelease | .hardwareReset | .resetPinRelease => true
  | .activityOnset | .characterEnd .. | .characterGap | .windowClose | .window2Open | .slotEnd => true
  | .headSegmentEnd | .frameEnd | .lReadback .. | .markEnd | .lineQuiet | .lineReturnsTo1 => true
  | .activityReport | .linkFault .. | .ackOutcome .. | .abandonNotice | .resultTimeout | .lineCopy => true

end Sys2Proof
end

