-- ==== Sys2Proof/Machine/State.lean ====
section
/-! DEFINITION. The state of the JM-214 as plain data, block by block (General Information, "Block Overview"), the
reasons a command can stop, and the state after a hardware reset. -/

namespace Sys2Proof.Machine

open Sys2Proof

/-- Why a command stops with a fault. -/
inductive Fault where
  /-- Raised by SLOT_END, HEAD_SEGMENT_END and REPLY_STORAGE when a slice runs past the last byte of its bank, where
  no byte exists (R70). R52 refuses to enable such a node, so no state that a run reaches raises it. Safe: the
  machine stops where the spec gives no effect. -/
  | sliceBeyondBank
  deriving DecidableEq, Repr

/-- Why a command is refused. -/
inductive Refusal where
  /-- The form the host reads for a command without a meaning. No arm answers it: every row has its meaning. Safe. -/
  | notModelled (mnemonic : String)
  /-- Raised by the rows by which one block takes what another hands it, when the operands are not well formed
  (`Instr.wellFormed`): the part hands no such thing. Safe: the machine stops where the spec gives no effect. -/
  | illFormed
  deriving DecidableEq, Repr

/-! ### Schedule unit (chapter 2) -/

/-- A slot record (R24). Every value its widths can hold is stored as written. -/
structure SlotRecord where
  rule : BitVec 3
  nodeA : NodeAddr
  nodeB : NodeAddr
  length : Word
  deriving DecidableEq, Repr

/-- The reason of a failed validation (R38). -/
inductive FailReason where
  | rule
  | length
  | node
  | budget
  | empty
  deriving DecidableEq, Repr

/-- The last validation result that SSTAT shows (R39). -/
inductive Validation where
  | unset
  | pass
  | fail (table : TableId) (slot : SlotIndex) (reason : FailReason)
  deriving DecidableEq, Repr

/-- The state of the schedule unit (R44). -/
inductive SchedState where
  | idle
  | head
  | slot (k : SlotIndex)
  deriving DecidableEq, Repr

/-- The schedule unit's state. -/
structure Sched where
  tableA : Vector SlotRecord 16
  tableB : Vector SlotRecord 16
  active : TableId
  pendingSwitch : Option TableId
  validation : Validation
  /-- pacing counter (R33) -/
  pacing : BitVec 2
  /-- G, the pacing setting of CSET (R33, R117) -/
  pacingSetting : BitVec 2
  cycleNumber : Word
  state : SchedState
  /-- SSEL: the addressed table and slot index (R25) -/
  selTable : TableId
  selSlot : SlotIndex
  deriving DecidableEq, Repr

/-! ### Node table (chapter 3) -/

/-- A node's state (section 3.3). -/
inductive NodeState where
  | disabled
  | offline
  | online
  | lagging
  | mismatch
  deriving DecidableEq, Repr

/-- A node entry (R49). The enable field is not stored beside the state: the two agree at all times (R49). -/
structure NodeEntry where
  state : NodeState
  credit : BitVec 3
  missLimit : BitVec 4
  outOff : BitVec 10
  outLen : BitVec 7
  inOff : BitVec 10
  inLen : BitVec 7
  missCount : BitVec 4
  badCount : Byte
  lateCount : Byte
  ident : Option IdentRecord
  /-- serial counter, the command engine's (R102) -/
  serial : BitVec 4
  deriving DecidableEq, Repr

/-- The node table: entries of nodes 1 to 31 at positions 0 to 30, NSEL, and the change set (R49, R50, R68). -/
structure NodeTable where
  entries : Vector NodeEntry 31
  nsel : NodeAddr
  changeSet : NodeSet
  deriving DecidableEq, Repr

/-- The slice fields of a node as handed to the blocks that serve a slot (R56). -/
structure SliceCopy where
  node : NodeAddr
  outOff : BitVec 10
  outLen : BitVec 7
  inOff : BitVec 10
  inLen : BitVec 7
  deriving DecidableEq, Repr

/-! ### Link engine (chapter 1) -/

/-- The states of the link engine (R13). -/
inductive LinkState where
  | linkOff
  | quietWait
  | send
  | mark
  | window
  | receive
  | lateWatch
  | guarding
  deriving DecidableEq, Repr

/-- What the current part of the cycle carries: HEAD, or what its slot resolved to (R7, R27). -/
inductive Exchange where
  | silent
  | head
  | data (node : NodeAddr) (trailer : Bool)
  | pair (a b : NodeAddr)
  | probe (node : NodeAddr)
  | order (node : NodeAddr) (tag : Byte)
  | broadcast
  deriving DecidableEq, Repr

/-- The link engine's state. -/
structure Link where
  state : LinkState
  /-- rate code of LSET (R1) -/
  rate : BitVec 2
  /-- W of LSET, in bt (R1) -/
  window : Byte
  exchange : Exchange
  /-- the bytes of the frame in transmission, CRC included -/
  frame : List Byte
  /-- the rate code at which that frame, and the abort mark that cuts it, stand on the line (R1, R4) -/
  frameRate : BitVec 2
  /-- the link engine's slice copies of the slot (R56) -/
  slices : List SliceCopy
  /-- window 2 of a PAIR slot has opened (R14) -/
  second : Bool
  /-- the node of the last window decided in the slot (R160) -/
  lastDecided : Option NodeAddr
  /-- the LATE notice of this LATE_WATCH has been given (R17) -/
  lateGiven : Bool
  /-- bytes of the reply received so far -/
  received : List Byte
  /-- the fault that already makes the reply BAD, while its reception goes on (R16) -/
  badFound : Option BadCause
  /-- the direction that waits for the end of the abort mark is QUIET_WAIT (R4) -/
  quietAfterMark : Bool
  /-- the line-quiet timer runs (R22) -/
  quietRunning : Bool
  /-- an onset has come since the line-quiet timer was started (R22) -/
  burstSeen : Bool
  /-- the level of receive data -/
  rxd : Bool
  deriving DecidableEq, Repr

/-! ### Image unit (chapter 4) -/

/-- A stored byte with its parity bit: data in bits 7 to 0, parity in bit 8 (R70). -/
abbrev ImageByte := BitVec 9

/-- One bank, as the pairs of bank offset and stored byte that differ from the byte of a hardware reset, in rising
order of offset. -/
abbrev Memory := List (Nat × ImageByte)

/-- The two directions of the process image. -/
inductive Direction where
  | output
  | input
  deriving DecidableEq, Repr

/-- The image unit's state. A bank role is the number of the host bank: `false` bank 0, `true` bank 1 (R70). -/
structure Image where
  out0 : Memory
  out1 : Memory
  in0 : Memory
  in1 : Memory
  outHost : Bool
  inHost : Bool
  publishPending : Bool
  /-- the next line of the output catch-up copy while it is active (R77) -/
  outCopy : Option (BitVec 6)
  /-- the next line of the input catch-up copy while it is active (R84) -/
  inCopy : Option (BitVec 6)
  /-- this copy has raised M_COPY already (R88) -/
  outCopyBad : Bool
  inCopyBad : Bool
  /-- written-byte maps: bit k is bank offset k (R76, R79) -/
  outMap : BitVec 1024
  inMap : BitVec 1024
  hold : Bool
  ptest : Bool
  linkFresh : NodeSet
  hostFresh : NodeSet
  snapCycle : Word
  /-- the image unit's slice copies of the slot (R56, R79) -/
  slices : List SliceCopy
  /-- the direction whose line copy is in progress, if one is (R177) -/
  lineInProgress : Option Direction
  /-- the direction whose line copy comes next while both copies run (R183) -/
  copyTurn : Direction
  deriving DecidableEq, Repr

/-! ### Command engine (chapter 5) and result unit (chapter 6) -/

/-- The op of an accepted command (R90). -/
inductive Op where
  | read
  | write
  | invoke
  | reset
  deriving DecidableEq, Repr

/-- The statuses of a response (R133). -/
inductive Status where
  | done
  | nodeError
  | rejected
  | noAck
  | nodeBusy
  | resultTimeout
  | nodeDown
  | aborted
  | sent
  deriving DecidableEq, Repr

/-- The put status (R91). -/
inductive PutStatus where
  | noneYet
  | putOk
  | full
  | tagBusy
  | badPut
  deriving DecidableEq, Repr

/-- The staging record (R90). -/
structure Staging where
  tag : Byte
  node : NodeAddr
  op : BitVec 3
  barrier : Bool
  param : Word
  len : BitVec 6
  data : Vector Word 16
  deriving DecidableEq, Repr

/-- The settled part of an item that waits to be posted (R129, R130). -/
structure Settlement where
  order : Nat
  cycle : Word
  status : Status
  code : Byte
  data : List Byte
  deriving DecidableEq, Repr

/-- A command queue entry (R92, R93): WAITING while `doomed` is none, DOOMED with its settled part otherwise. -/
structure QueueEntry where
  tag : Byte
  node : NodeAddr
  op : Op
  barrier : Bool
  param : Word
  len : BitVec 6
  data : Vector Word 16
  push : Nat
  doomed : Option Settlement
  deriving DecidableEq, Repr

/-- The state of an outstanding entry (section 5.1). -/
inductive OutState where
  | awaitAck
  | retry
  | accepted
  | held (s : Settlement)
  deriving DecidableEq, Repr

/-- An outstanding entry (R95). -/
structure OutEntry where
  tag : Byte
  node : NodeAddr
  op : Op
  param : Word
  len : BitVec 6
  data : Vector Word 16
  serial : BitVec 4
  push : Nat
  state : OutState
  retries : BitVec 3
  busy : BitVec 4
  cyclesLeft : Byte
  deriving DecidableEq, Repr

/-- The command engine's state. Push-order numbers do not wrap, so that they compare correctly (R92). -/
structure CmdEngine where
  staging : Staging
  putStatus : PutStatus
  /-- command queue, oldest at the head (R93) -/
  queue : List QueueEntry
  /-- the occupied places of the outstanding table (R95) -/
  outstanding : List OutEntry
  nextPush : Nat
  /-- the in-flight mark, naming an entry by its push order (R104) -/
  inFlightMark : Option Nat
  /-- the marks of ended slots whose ACK outcomes are handed and not yet taken, oldest first, where a later slot start has
  set the mark anew (R104) -/
  endedMarks : List (Option Nat)
  /-- the push order of the last barrier transaction sent, which holds back later ones while unsettled (R98) -/
  barrierSent : Option Nat
  /-- retry limit of CSET (R117) -/
  retryLimit : BitVec 3
  /-- result timeout of TSET (R117) -/
  resultTimeout : Byte
  deriving DecidableEq, Repr

/-- A response record (R133). -/
structure Response where
  tag : Byte
  node : NodeAddr
  op : Op
  status : Status
  code : Byte
  cycle : Word
  data : List Byte
  deriving DecidableEq, Repr

/-- The result unit's state. Settle-order numbers do not wrap, so that they compare correctly (R120). -/
structure ResultUnit where
  /-- response queue, oldest at the head (R134) -/
  responses : List Response
  nextOrder : Nat
  deriving DecidableEq, Repr

/-! ### Run controller (chapter 7), fault and interrupt unit (chapter 8), host bus port (chapter 9) -/

/-- The run states (R138). -/
inductive RunState where
  | stopped
  | settling
  | running
  | draining
  | recovery
  | resuming
  | halted
  deriving DecidableEq, Repr

/-- The run controller's state. -/
structure RunControl where
  state : RunState
  /-- recovery restart counter (R138) -/
  restarts : BitVec 4
  deriving DecidableEq, Repr

/-- The report the capture record holds (R162). -/
structure Capture where
  code : FaultCode
  node : NodeAddr
  detail : Word
  cycle : Word
  deriving DecidableEq, Repr

/-- The fault and interrupt unit's state. Flags, latches and enables stand at their register positions (R161,
section 10.7). -/
structure FaultUnit where
  fflag0 : Word
  fflag1 : Word
  capture : Option Capture
  latches : Word
  enables : Word
  deriving DecidableEq, Repr

/-- The two windows of the host bus (R173). -/
inductive BusWindow where
  | registers
  | image
  deriving DecidableEq, Repr

/-- An access as the port latches it (R171). -/
structure Access where
  window : BusWindow
  write : Bool
  lanes : Lanes
  addr : BitVec 11
  data : Word
  deriving DecidableEq, Repr

/-- The states of the port (R171). -/
inductive PortState where
  | idle
  | waiting
  | taken
  deriving DecidableEq, Repr

/-- The host bus port's state: in WAITING the latched access, whether its strobe has been released, and the access
presented after it (R178), or that a null access presented after it is still under its strobe (R172); and the value driven
on D0 to D15, if one is. -/
structure Port where
  state : PortState
  first : Option Access
  firstReleased : Bool
  second : Option Access
  secondReleased : Bool
  nullHeld : Bool
  dataOut : Option Word
  deriving DecidableEq, Repr

/-- The part's timers, in clock ticks of 0.05 µs. A timer that does not run is `none`; one that runs holds the ticks
left. `gap`, `quiet` and `idle` count ticks up. -/
structure Timers where
  /-- to the end of the head segment or of the slot (R37, R45) -/
  segment : Option Nat
  /-- to the frame end (R3) -/
  frame : Option Nat
  /-- to the bit boundary at which the abort mark begins, while a frame is being cut (R4) -/
  cut : Option Nat
  /-- to the end of the abort mark (R4) -/
  mark : Option Nat
  /-- to the close of the open window (R14) -/
  window : Option Nat
  /-- to the opening of window 2 (R14) -/
  window2 : Option Nat
  /-- to the end of the character being received (R2) -/
  character : Option Nat
  /-- to the end of the line copy in progress (R183) -/
  lineCopy : Option Nat
  /-- by which host image accesses put back the next line copy (R183) -/
  copyDelay : Nat
  /-- idle line since the last character of the reply (R2) -/
  gap : Nat
  /-- the line-quiet timer's count (R22) -/
  quiet : Nat
  /-- idle line since the line last returned to 1 (R22) -/
  idle : Nat
  deriving DecidableEq, Repr

/-- The whole machine. -/
structure State where
  port : Port
  link : Link
  sched : Sched
  nodes : NodeTable
  image : Image
  cmd : CmdEngine
  result : ResultUnit
  run : RunControl
  fault : FaultUnit
  timers : Timers
  /-- the reset pin is asserted (R180) -/
  inReset : Bool
  /-- events the part has handed from block to block, or timers that have expired, and not yet taken -/
  due : List Instr
  /-- commands waiting, first in, first out -/
  pending : List Instr
  deriving DecidableEq, Repr

/-- A byte of image memory after a hardware reset: 00h with correct parity (R70). -/
def emptyByte : ImageByte := 0x100#9

/-- A slot record after a hardware reset (R24). -/
def SlotRecord.reset : SlotRecord := { rule := 0, nodeA := 0, nodeB := 0, length := 0 }

/-- A node entry after a hardware reset (R49). -/
def NodeEntry.reset : NodeEntry :=
  { state := .disabled, credit := 1, missLimit := 3, outOff := 0, outLen := 0, inOff := 0, inLen := 0,
    missCount := 0, badCount := 0, lateCount := 0, ident := none, serial := 0 }

/-- The port after a hardware reset (R171). -/
def Port.reset : Port :=
  { state := .idle, first := none, firstReleased := false, second := none, secondReleased := false, nullHeld := false,
    dataOut := none }

/-- The link engine after a hardware reset (R1, R13). -/
def Link.reset : Link :=
  { state := .linkOff, rate := 0, window := 24, exchange := .silent, frame := [], frameRate := 0, slices := [], second := false,
    lastDecided := none, lateGiven := false, received := [], badFound := none, quietAfterMark := false,
    quietRunning := false, burstSeen := false, rxd := true }

/-- The schedule unit after a hardware reset (R24, R25, R33, R39, R44, R48). -/
def Sched.reset : Sched :=
  { tableA := Vector.replicate 16 SlotRecord.reset, tableB := Vector.replicate 16 SlotRecord.reset, active := .a,
    pendingSwitch := none, validation := .unset, pacing := 0, pacingSetting := 1, cycleNumber := 0, state := .idle,
    selTable := .a, selSlot := 0 }

/-- The node table after a hardware reset (R49, R50). -/
def NodeTable.reset : NodeTable :=
  { entries := Vector.replicate 31 NodeEntry.reset, nsel := 1, changeSet := 0 }

/-- The image unit after a hardware reset (R89). -/
def Image.reset : Image :=
  { out0 := [], out1 := [], in0 := [], in1 := [], outHost := false, inHost := false, publishPending := false,
    outCopy := none, inCopy := none, outCopyBad := false, inCopyBad := false, outMap := 0, inMap := 0, hold := false,
    ptest := false, linkFresh := 0, hostFresh := 0, snapCycle := 0, slices := [], lineInProgress := none,
    copyTurn := .output }

/-- The staging record after a hardware reset (R90). -/
def Staging.reset : Staging :=
  { tag := 0, node := 0, op := 0, barrier := false, param := 0, len := 0, data := Vector.replicate 16 0 }

/-- The command engine after a hardware reset (R118). -/
def CmdEngine.reset : CmdEngine :=
  { staging := Staging.reset, putStatus := .noneYet, queue := [], outstanding := [], nextPush := 0,
    inFlightMark := none, endedMarks := [], barrierSent := none, retryLimit := 2, resultTimeout := 16 }

/-- The result unit after either reset (R137). -/
def ResultUnit.reset : ResultUnit := { responses := [], nextOrder := 0 }

/-- The run controller after either reset (R138). -/
def RunControl.reset : RunControl := { state := .stopped, restarts := 0 }

/-- The fault and interrupt unit after either reset (R170). -/
def FaultUnit.reset : FaultUnit := { fflag0 := 0, fflag1 := 0, capture := none, latches := 0, enables := 0 }

/-- The timers after a hardware reset: none runs (R13, R44, R89). -/
def Timers.reset : Timers :=
  { segment := none, frame := none, cut := none, mark := none, window := none, window2 := none, character := none,
    lineCopy := none, copyDelay := 0, gap := 0, quiet := 0, idle := 0 }

/-- The machine after a hardware reset, with the reset pin released and no command waiting. -/
def State.reset : State :=
  { port := Port.reset, link := Link.reset, sched := Sched.reset, nodes := NodeTable.reset, image := Image.reset,
    cmd := CmdEngine.reset, result := ResultUnit.reset, run := RunControl.reset, fault := FaultUnit.reset,
    timers := Timers.reset, inReset := false, due := [], pending := [] }

end Sys2Proof.Machine
end

