-- ==== Sys2Proof/Machine/Ops.lean ====
section
/-! DEFINITION. The named operations that the blocks share: handing an event on, reaching a node entry or a slot
record, sets of node addresses, and the bytes of image memory. -/

namespace Sys2Proof

/-! ### Sets of node addresses -/

/-- The set holding one address. -/
def NodeSet.single (n : NodeAddr) : NodeSet := (1 : BitVec 32) <<< n.toNat

/-- A set with one more member. -/
def NodeSet.insert (set : NodeSet) (n : NodeAddr) : NodeSet := set ||| NodeSet.single n

/-- Membership. -/
def NodeSet.has (set : NodeSet) (n : NodeAddr) : Bool := set.getLsbD n.toNat

/-- The half of a set that CHG0 or FRESH0, or CHG1 or FRESH1, shows (section 10.4). -/
def NodeSet.half (set : NodeSet) : Half → Word
  | .reg0 => set.setWidth 16
  | .reg1 => (set >>> 16).setWidth 16

/-- A register word at the places of its half in the set. -/
def Half.spread (h : Half) (v : Word) : NodeSet :=
  match h with
  | .reg0 => v.setWidth 32
  | .reg1 => (v.setWidth 32) <<< 16

/-! ### Tables -/

/-- The table that is not this one. -/
def TableId.other : TableId → TableId
  | .a => .b
  | .b => .a

/-- A table's number in registers and frames: A 0, B 1. -/
def TableId.isB : TableId → Bool
  | .a => false
  | .b => true

/-- The table a register bit names. -/
def TableId.ofBit (b : Bool) : TableId := if b then .b else .a

end Sys2Proof

namespace Sys2Proof.Machine

open Sys2Proof

/-! ### Handing events on -/

/-- A block hands an event to another block, which takes it as its own event later (General Information, "Events"). -/
def State.hand (s : State) (c : Instr) : State := { s with due := s.due ++ [c] }

/-- The event is taken: it is no longer among those handed and not taken. -/
def State.takeDue (s : State) (c : Instr) : State := { s with due := s.due.erase c }

/-- A block raises a fault: it hands the report to the fault and interrupt unit (R157). -/
def State.raise (s : State) (code : FaultCode) (node : NodeAddr) (detail : Word) : State :=
  s.hand (.faultReport { code := code, node := node, detail := detail })

/-- While the reset pin is asserted every block is held in reset and takes no event (R180). -/
def unlessReset (f : State → State) (s : State) : State := if s.inReset then s else f s

/-- The expiries of the cycle's and the link engine's timers, which do not outlive the work they time. -/
def isLineTimer : Instr → Bool
  | .frameEnd | .windowClose | .window2Open | .characterGap | .headSegmentEnd | .slotEnd | .lineQuiet => true
  | _ => false

/-- Reports of the link engine to the run controller. -/
def isRunReport : Instr → Bool
  | .linkFault _ | .activityReport => true
  | _ => false

/-- What a controller reset leaves to be taken: the image unit's and the port's own events (R89, R180), and the end of
the abort mark (R4). -/
def outlivesCreset : Instr → Bool
  | .lineCopy | .waitingAccessTaken | .replyStorage _ _ | .markEnd => true
  | _ => false

/-- The expiries that belong to the window or the reception in progress, which the opening of window 2 ends. -/
def isWindowTimer : Instr → Bool
  | .windowClose | .characterGap => true
  | _ => false

/-- Expiries of timers that stop are not taken. -/
def State.dropLineTimers (s : State) : State := { s with due := s.due.filter fun c => !isLineTimer c }

/-- Expiries of a window that ends are not taken (R14). -/
def State.dropWindowTimers (s : State) : State := { s with due := s.due.filter fun c => !isWindowTimer c }

/-- Reports that a stopped wait or an ended run leaves behind are not taken (R155, R156). -/
def State.dropRunReports (s : State) : State := { s with due := s.due.filter fun c => !isRunReport c }

/-! ### Node entries -/

/-- Node addresses 1 to 31 in order. -/
def nodeAddresses : List NodeAddr := (List.range 31).map fun k => BitVec.ofNat 5 (k + 1)

/-- The position of node n's entry. -/
def nodeIndex (n : NodeAddr) : Fin 31 := ⟨n.toNat - 1, by have := n.isLt; omega⟩

/-- Node n's entry; address 0 has none (R49). -/
def State.node? (s : State) (n : NodeAddr) : Option NodeEntry :=
  if n = 0 then none else some (s.nodes.entries.get (nodeIndex n))

/-- The state with another entry for node n. -/
def State.setNode (s : State) (n : NodeAddr) (e : NodeEntry) : State :=
  if n = 0 then s
  else { s with nodes := { s.nodes with entries := s.nodes.entries.set (nodeIndex n) e (nodeIndex n).isLt } }

/-- Node n joins the change set (R68). -/
def State.joinChangeSet (s : State) (n : NodeAddr) : State :=
  { s with nodes := { s.nodes with changeSet := NodeSet.insert s.nodes.changeSet n } }

/-- A node is live in ONLINE and LAGGING (R49). -/
def NodeState.isLive : NodeState → Bool
  | .online | .lagging => true
  | .disabled | .offline | .mismatch => false

/-- A node is enabled in every state but DISABLED (R49). -/
def NodeState.isEnabled : NodeState → Bool
  | .disabled => false
  | .offline | .online | .lagging | .mismatch => true

/-- Node n's state; an address without an entry is not used. -/
def State.nodeState (s : State) (n : NodeAddr) : NodeState :=
  match s.node? n with
  | none => .disabled
  | some e => e.state

/-- Node n is live. -/
def State.isLive (s : State) (n : NodeAddr) : Bool := (s.nodeState n).isLive

/-- A node's configured slice lengths, 0 for an address without an entry. -/
def State.outLen (s : State) (n : NodeAddr) : Nat :=
  match s.node? n with
  | none => 0
  | some e => e.outLen.toNat

/-- See `State.outLen`. -/
def State.inLen (s : State) (n : NodeAddr) : Nat :=
  match s.node? n with
  | none => 0
  | some e => e.inLen.toNat

/-- The slice fields of a node as handed at a slot start (R56). -/
def NodeEntry.sliceCopy (e : NodeEntry) (n : NodeAddr) : SliceCopy :=
  { node := n, outOff := e.outOff, outLen := e.outLen, inOff := e.inOff, inLen := e.inLen }

/-! ### Slot records -/

/-- One of the two tables. -/
def Sched.table (u : Sched) : TableId → Vector SlotRecord 16
  | .a => u.tableA
  | .b => u.tableB

/-- A slot record. -/
def Sched.record (u : Sched) (t : TableId) (k : SlotIndex) : SlotRecord := (u.table t).get k.toFin

/-- The unit with another slot record. -/
def Sched.setRecord (u : Sched) (t : TableId) (k : SlotIndex) (r : SlotRecord) : Sched :=
  match t with
  | .a => { u with tableA := u.tableA.set k.toFin r k.toFin.isLt }
  | .b => { u with tableB := u.tableB.set k.toFin r k.toFin.isLt }

/-- Slot indices 0 to 15 in order. -/
def slotIndices : List SlotIndex := (List.range 16).map (BitVec.ofNat 4)

/-- The non-zero slots of the active table, in index order (R31). -/
def Sched.nonZeroSlots (u : Sched) : List SlotIndex := slotIndices.filter fun k => (u.record u.active k).length != 0

/-! ### Image memory -/

/-- The stored byte at an offset; an offset that is not listed holds the byte of a hardware reset (R70). -/
def Memory.read (m : Memory) (a : Nat) : ImageByte :=
  match m with
  | [] => emptyByte
  | (b, v) :: rest => if a = b then v else Memory.read rest a

/-- The memory with one byte stored, in its canonical form. -/
def Memory.write (m : Memory) (a : Nat) (v : ImageByte) : Memory :=
  match m with
  | [] => if v = emptyByte then [] else [(a, v)]
  | (b, w) :: rest =>
    if a < b then (if v = emptyByte then (b, w) :: rest else (a, v) :: (b, w) :: rest)
    else if a = b then (if v = emptyByte then rest else (a, v) :: rest)
    else (b, w) :: Memory.write rest a v

/-- The canonical form: offsets inside the bank and strictly rising, and no entry equal to what an unlisted offset
reads as. -/
abbrev Memory.Canonical (m : Memory) : Prop :=
  m.Pairwise (fun x y => x.1 < y.1) ∧ ∀ c ∈ m, c.1 < Config.bankSize ∧ c.2 ≠ emptyByte

/-- The number of ones among the bits of a stored byte is odd. -/
def oddOnes (v : ImageByte) : Bool := (List.range 9).foldl (fun acc i => acc ^^ v.getLsbD i) false

/-- A stored byte has correct parity when its nine bits hold an odd number of ones (R70). -/
def ImageByte.parityGood (v : ImageByte) : Bool := oddOnes v

/-- The data bits of a stored byte. -/
def ImageByte.data (v : ImageByte) : Byte := v.setWidth 8

/-- A byte with its parity bit: the correct one, or with `inverted` the other (R85). -/
def ImageByte.of (b : Byte) (inverted : Bool) : ImageByte :=
  let plain : ImageByte := b.setWidth 9
  if oddOnes plain ^^ inverted then plain else plain ||| 0x100#9

/-! ### Numbers in order -/

/-- The element of a list with the lowest number, the first of them where several share it. -/
def lowestBy {α : Type} (f : α → Nat) : List α → Option α
  | [] => none
  | x :: rest =>
    match lowestBy f rest with
    | none => some x
    | some y => if f y < f x then some y else some x

/-- Numbers in rising order. -/
def sorted (l : List Nat) : List Nat := l.insertionSort (· ≤ ·)

/-! ### Time -/

/-- Clock ticks of a number of bit times at the selected rate (R1). -/
def State.bitTimes (s : State) (n : Nat) : Nat := n * Config.ticksPerBit s.link.rate

/-- Clock ticks of a number of bit times of the frame in transmission, and of the abort mark that cuts it: an LSET write that
finds them on the line takes effect from the next RUN onward (R1, R4). -/
def State.frameTimes (s : State) (n : Nat) : Nat := n * Config.ticksPerBit s.link.frameRate

end Sys2Proof.Machine
end

