-- ==== Sys2Proof/Machine/Flags.lean ====
section
/-! DEFINITION. The fault and interrupt unit (chapter 8): fault classes, sticky flags, the capture record, interrupt
causes and the interrupt request line. -/

namespace Sys2Proof

/-- The class number of a code, its severity (section 8.1). -/
def FaultCode.classNumber : FaultCode → Nat
  | .hAccess | .hLocked | .hPush | .hPop | .hSched | .hBudget | .hImage => 1
  | .nLost | .nMismatch | .nBad | .nLate | .nStray => 2
  | .mHostrd | .mLinkrd | .mCopy => 3
  | .lForeign | .lReadback => 4
  | .xRecovery | .xResume => 5

/-- The code number within its class (section 8.1). -/
def FaultCode.number : FaultCode → Nat
  | .hAccess | .nLost | .mHostrd | .lForeign | .xRecovery => 1
  | .hLocked | .nMismatch | .mLinkrd | .lReadback | .xResume => 2
  | .hPush | .nBad | .mCopy => 3
  | .hPop | .nLate => 4
  | .hSched | .nStray => 5
  | .hBudget => 6
  | .hImage => 7

/-- Where the sticky flag of a code lies (section 10.7). -/
def FaultCode.flagPlace (c : FaultCode) : Half × Nat :=
  match c.classNumber with
  | 1 => (.reg0, c.number - 1)
  | 2 => (.reg0, c.number + 7)
  | 3 => (.reg1, c.number - 1)
  | 4 => (.reg1, c.number + 3)
  | _ => (.reg1, c.number + 7)

end Sys2Proof

namespace Sys2Proof.Machine

open Sys2Proof

/-- The sticky flag of a code is set (R161). -/
def FaultUnit.setFlag (u : FaultUnit) (c : FaultCode) : FaultUnit :=
  match c.flagPlace with
  | (.reg0, k) => { u with fflag0 := u.fflag0 ||| ((1 : Word) <<< k) }
  | (.reg1, k) => { u with fflag1 := u.fflag1 ||| ((1 : Word) <<< k) }

/-- A report is offered to the capture record: taken when the record is empty or holds a lower class, stamped with the
cycle number (R162). -/
def FaultUnit.offer (u : FaultUnit) (r : FaultReport) (cycle : Word) : FaultUnit :=
  let taken : Capture := { code := r.code, node := r.node, detail := r.detail, cycle := cycle }
  match u.capture with
  | none => { u with capture := some taken }
  | some c => if c.code.classNumber < r.code.classNumber then { u with capture := some taken } else u

/-- The fault unit takes a report (R157). -/
def State.takeReport (s : State) (r : FaultReport) : State :=
  { s with fault := (s.fault.setFlag r.code).offer r s.sched.cycleNumber }

/-- Flags at positions written 1 are cleared (R161). -/
def State.clearFlags (s : State) (h : Half) (v : Word) : State :=
  match h with
  | .reg0 => { s with fault := { s.fault with fflag0 := s.fault.fflag0 &&& ~~~v } }
  | .reg1 => { s with fault := { s.fault with fflag1 := s.fault.fflag1 &&& ~~~v } }

/-- The capture record is emptied (R163). -/
def State.emptyCapture (s : State) : State := { s with fault := { s.fault with capture := none } }

/-! ### Interrupt causes -/

/-- The event causes, which the unit latches (section 8.5). -/
inductive EventCause where
  | cyc
  | switch
  | publ
  | snap
  | runchg
  deriving DecidableEq, Repr

/-- The bit of an event cause in IPEND and IEN (section 10.7). -/
def EventCause.mask : EventCause → Word
  | .cyc => 0x0001#16
  | .switch => 0x0002#16
  | .publ => 0x0004#16
  | .snap => 0x0008#16
  | .runchg => 0x0010#16

/-- The positions of the nine causes (section 10.7). -/
def causeMask : Word := 0x0F1F#16

/-- An event cause is latched (R166). -/
def State.latch (s : State) (c : EventCause) : State :=
  { s with fault := { s.fault with latches := s.fault.latches ||| c.mask } }

/-- The level conditions as their owners hold them (R167): RESP, CQLOW, NCHG and FAULT. -/
def State.levels (s : State) : Word :=
  placeBit (!s.result.responses.isEmpty) 8 ||| placeBit (decide (s.cmd.queue.length ≤ 4)) 9
    ||| placeBit (s.nodes.changeSet != 0) 10 ||| placeBit s.fault.capture.isSome 11

/-- The pending set as IPEND reads it (R168). -/
def State.pendingSet (s : State) : Word := s.fault.latches ||| s.levels

/-- Event latches at positions written 1 are cleared (R166). -/
def State.clearLatches (s : State) (v : Word) : State :=
  { s with fault := { s.fault with latches := s.fault.latches &&& ~~~v } }

/-- The enable set is stored (R168); unassigned positions store nothing (R181). -/
def State.storeEnables (s : State) (v : Word) : State :=
  { s with fault := { s.fault with enables := v &&& causeMask } }

/-- The interrupt request line is asserted, /INT driven low, while a cause is both pending and enabled, and released
during a hardware reset (R169). -/
def State.interruptAsserted (s : State) : Bool := !s.inReset && (s.pendingSet &&& s.fault.enables) != 0

end Sys2Proof.Machine
end

