-- ==== Sys2Proof/Machine/Frames.lean ====
section
/-! DEFINITION. What stands on the line: the CRC (R6), the bytes of the downstream frames (R5 to R10, R182), and the
line signals and output pins as functions of the state (R1, R3, R4, R171). -/

namespace Sys2Proof.Machine

open Sys2Proof

/-! ### CRC -/

/-- One bit through the CRC register, generator 1021h (R6). -/
def crcBit (reg : Word) (b : Bool) : Word :=
  let shifted := reg <<< 1
  if b ^^ reg.msb then shifted ^^^ 0x1021#16 else shifted

/-- One byte through the CRC register, most significant bit first (R6). -/
def crcByte (reg : Word) (b : Byte) : Word := (List.range 8).foldl (fun r i => crcBit r (b.getMsbD i)) reg

/-- The CRC register after the bytes, from FFFFh (R6). -/
def crc16 (bytes : List Byte) : Word := bytes.foldl crcByte 0xFFFF#16

/-- The high and the low byte of a 16-bit field, most significant byte first (R182). -/
def highFirst (w : Word) : List Byte := [(w >>> 8).setWidth 8, w.setWidth 8]

/-- Header and payload with their CRC (R5, R6). -/
def withCrc (bytes : List Byte) : List Byte := bytes ++ highFirst (crc16 bytes)

/-! ### Downstream frames -/

/-- A length as a byte of the header. -/
def byteOf (n : Nat) : Byte := BitVec.ofNat 8 n

/-- A node address as a byte of the header. -/
def addressByte (n : NodeAddr) : Byte := n.setWidth 8

/-- The HEAD frame (R7). -/
def headFrame (cycle : Word) (slots : Nat) (table : TableId) : List Byte :=
  withCrc ([0x10#8, 0, 4, 0] ++ highFirst cycle ++ [byteOf slots, byteOf (bit table.isB)])

/-- A DATA frame (R8); bit 0 of its control byte is the trailer-permitted flag (R182). -/
def dataFrame (n : NodeAddr) (slice : List Byte) (trailer : Bool) : List Byte :=
  withCrc ([0x11#8, addressByte n, byteOf slice.length, byteOf (bit trailer)] ++ slice)

/-- A PAIR frame (R9). -/
def pairFrame (a b : NodeAddr) (sliceA sliceB : List Byte) : List Byte :=
  withCrc ([0x12#8, addressByte a, byteOf (2 + sliceA.length + sliceB.length), 0, addressByte b, byteOf sliceA.length]
    ++ sliceA ++ sliceB)

/-- A PROBE frame (R10). -/
def probeFrame (n : NodeAddr) : List Byte := withCrc [0x13#8, addressByte n, 0, 0]

/-- The number of an op (R10). -/
def Op.number : Op → Nat
  | .read => 1
  | .write => 2
  | .invoke => 3
  | .reset => 4

/-- The bytes of a data record in order: byte 2k is the low half of word k (R90, section 10.6). -/
def bytesOfWords (ws : List Word) : List Byte :=
  match ws with
  | [] => []
  | w :: rest => w.setWidth 8 :: (w >>> 8).setWidth 8 :: bytesOfWords rest

/-- The data bytes an ORDER carries: none for READ (R10, R100). -/
def OutEntry.orderData (e : OutEntry) : List Byte :=
  match e.op with
  | .read => []
  | .write | .invoke | .reset => (bytesOfWords e.data.toList).take e.len.toNat

/-- An ORDER frame (R10, R100). -/
def orderFrame (e : OutEntry) : List Byte :=
  withCrc ([0x14#8, addressByte e.node, byteOf (5 + e.orderData.length), 0, e.tag,
      byteOf (e.op.number * 16 + e.serial.toNat)] ++ highFirst e.param ++ [e.len.setWidth 8] ++ e.orderData)

/-- The line time of a frame, in bt: ten for each byte (R1). -/
def lineTime (frame : List Byte) : Nat := 10 * frame.length

/-! ### Pins -/

/-- The bit of a frame at a bit time from its start: start bit 0, eight data bits least significant first, stop
bit 1 (R1). Past its end the line is idle. -/
def frameBit (frame : List Byte) (k : Nat) : Bool :=
  match frame[k / 10]? with
  | none => true
  | some b => if k % 10 = 0 then false else if k % 10 = 9 then true else b.getLsbD (k % 10 - 1)

/-- DE: driver enable is asserted while a frame or the abort mark is on the line (R3, R4). -/
def State.driverEnable (s : State) : Bool :=
  match s.link.state with
  | .send | .mark => true
  | .linkOff | .quietWait | .window | .receive | .lateWatch | .guarding => false

/-- TXD: the bit of the frame in transmission, 0 in the abort mark, and 1 otherwise (R1, R3, R4). -/
def State.transmitData (s : State) : Bool :=
  match s.link.state with
  | .send =>
    let total := s.frameTimes (lineTime s.link.frame)
    frameBit s.link.frame ((total - s.timers.frame.getD 0) / Config.ticksPerBit s.link.frameRate)
  | .mark => false
  | .linkOff | .quietWait | .window | .receive | .lateWatch | .guarding => true

/-- READY is held low in WAITING, but not for a null access, which waits for nothing (R171, R172, R177, R178). -/
def State.readyLow (s : State) : Bool :=
  match s.port.state with
  | .waiting => !s.port.nullHeld
  | .idle | .taken => false

end Sys2Proof.Machine
end

