-- ==== Sys2Proof/Machine/Schedule.lean ====
section
/-! DEFINITION. Slot budgets (R35), validation (R38, R39), the budget check (R40), the table switch (R41 to R43) and
the locks on slot records (R26). -/

namespace Sys2Proof.Machine

open Sys2Proof

/-! ### Budgets -/

/-- The exchange of a DATA frame and its reply, with W and E (R35). -/
def dataMinimum (w o i : Nat) : Nat := 10 * (6 + o) + w + 10 * (5 + i) + Config.endGuard

/-- The PROBE exchange (R35). -/
def probeMinimum (w : Nat) : Nat := 60 + w + 100 + Config.endGuard

/-- The PAIR exchange (R35). -/
def pairMinimum (w oa ob ia ib : Nat) : Nat :=
  10 * (8 + oa + ob) + w + 10 * (5 + ia) + Config.pairGap + w + 10 * (5 + ib) + Config.endGuard

/-- The ORDER exchange, always for the longest ORDER (R35). -/
def orderMinimum (w : Nat) : Nat := Config.longestOrder + w + 80 + Config.endGuard

/-- The minimum of a slot record for a reply window and slice lengths (R35). A rule code that is no rule has none. -/
def slotMinimum (w : Nat) (outLen inLen : NodeAddr → Nat) (r : SlotRecord) : Nat :=
  let cyc := max (dataMinimum w (outLen r.nodeA) (inLen r.nodeA)) (probeMinimum w)
  match r.rule.toNat with
  | 0 => Config.shortestSlot
  | 1 => cyc
  | 2 => pairMinimum w (outLen r.nodeA) (outLen r.nodeB) (inLen r.nodeA) (inLen r.nodeB)
  | 3 => max (orderMinimum w) cyc
  | 4 => orderMinimum w
  | _ => 0

/-- W in force, in bt. -/
def State.windowLength (s : State) : Nat := s.link.window.toNat

/-- The minimum of a slot record with the current W and slice lengths (R35). -/
def State.slotMinimum (s : State) (r : SlotRecord) : Nat :=
  Machine.slotMinimum s.windowLength s.outLen s.inLen r

/-! ### Validation -/

/-- The nodes a slot record names, by the fields its rule uses (R24). -/
def SlotRecord.namedNodes (r : SlotRecord) : List NodeAddr :=
  match r.rule.toNat with
  | 1 | 3 => [r.nodeA]
  | 2 => [r.nodeA, r.nodeB]
  | _ => []

/-- The node check of validation (R38, order 3). -/
def SlotRecord.nodesValid (r : SlotRecord) : Bool :=
  match r.rule.toNat with
  | 1 | 3 => r.nodeA != 0
  | 2 => r.nodeA != 0 && r.nodeB != 0 && r.nodeA != r.nodeB
  | _ => true

/-- The first check a non-zero slot fails (R38). -/
def State.checkSlot (s : State) (r : SlotRecord) : Option FailReason :=
  if 4 < r.rule.toNat then some .rule
  else if r.length.toNat < Config.shortestSlot then some .length
  else if !r.nodesValid then some .node
  else if r.length.toNat < s.slotMinimum r then some .budget
  else none

/-- The first failing slot of a table, in index order, and its reason (R38). -/
def State.firstFailure (s : State) (t : TableId) : List SlotIndex → Option (SlotIndex × FailReason)
  | [] => none
  | k :: rest =>
    let r := s.sched.record t k
    if r.length = 0 then s.firstFailure t rest
    else
      match s.checkSlot r with
      | some reason => some (k, reason)
      | none => s.firstFailure t rest

/-- Validation of a table (R38). -/
def State.validate (s : State) (t : TableId) : Validation :=
  match s.firstFailure t slotIndices with
  | some (k, reason) => .fail t k reason
  | none => if slotIndices.all fun k => (s.sched.record t k).length = 0 then .fail t 0 .empty else .pass

/-- The number of a fail reason in SSTAT and H_SCHED (section 10.3). -/
def FailReason.number : FailReason → Nat
  | .rule => 1
  | .length => 2
  | .node => 3
  | .budget => 4
  | .empty => 5

/-- The validation result is recorded and a FAIL raises H_SCHED (R39, R158). -/
def State.recordValidation (s : State) (v : Validation) : State :=
  let s := { s with sched := { s.sched with validation := v } }
  match v with
  | .unset | .pass => s
  | .fail t k reason =>
    s.raise .hSched 0 (place k 0 ||| placeBit t.isB 4 ||| BitVec.ofNat 16 reason.number <<< 8)

/-! ### Budget check -/

/-- The tables a budget check looks at: the active one, and the pending one if a switch is pending (R40). -/
def Sched.budgetTables (u : Sched) : List TableId :=
  match u.pendingSwitch with
  | none => [u.active]
  | some t => [u.active, t]

/-- The budget check for proposed lengths of node n: every non-zero slot naming n keeps its minimum (R40). -/
def State.budgetPasses (s : State) (n : NodeAddr) (o i : Nat) : Bool :=
  let outLen := fun m => if m = n then o else s.outLen m
  let inLen := fun m => if m = n then i else s.inLen m
  s.sched.budgetTables.all fun t => slotIndices.all fun k =>
    let r := s.sched.record t k
    r.length = 0 || !r.namedNodes.contains n
      || decide (Machine.slotMinimum s.windowLength outLen inLen r ≤ r.length.toNat)

/-! ### Table switch and locks -/

/-- Taking a switch (R42). -/
def State.takeSwitch (s : State) (t : TableId) : State :=
  { s with sched := { s.sched with active := t, pendingSwitch := none } }.latch .switch

/-- A pending switch is taken, if there is one (R42, R44). -/
def State.takePendingSwitch (s : State) : State :=
  match s.sched.pendingSwitch with
  | none => s
  | some t => s.takeSwitch t

/-- SWITCH written to SCTL (R41). -/
def State.requestSwitch (s : State) (t : TableId) : State :=
  if t = s.sched.active ∨ s.sched.pendingSwitch.isSome then s.raise .hLocked 0 0x0C
  else
    let v := s.validate t
    let s := s.recordValidation v
    match v with
    | .pass =>
      if s.run.state = .stopped then s.takeSwitch t
      else { s with sched := { s.sched with pendingSwitch := some t } }
    | .unset | .fail .. => s

/-- CANCEL written to SCTL (R43). -/
def State.cancelSwitch (s : State) : State := { s with sched := { s.sched with pendingSwitch := none } }

/-- A table whose slot records are locked against writes (R26). -/
def State.tableLocked (s : State) (t : TableId) : Bool :=
  (t == s.sched.active && s.run.state != .stopped) || s.sched.pendingSwitch == some t

/-- A write to a field of the addressed slot record (R25, R26), with the register's offset. -/
def State.writeSlotRecord (s : State) (offset : Word) (f : SlotRecord → SlotRecord) : State :=
  let t := s.sched.selTable
  let k := s.sched.selSlot
  if s.tableLocked t then s.raise .hLocked 0 offset
  else { s with sched := s.sched.setRecord t k (f (s.sched.record t k)) }

end Sys2Proof.Machine
end

