-- ==== Sys2Proof/Machine/Settle.lean ====
section
/-! DEFINITION. Settlement, posting and the response queue (R110, R120, R129 to R136). -/

namespace Sys2Proof.Machine

open Sys2Proof

/-- An outstanding entry is unsettled in AWAIT_ACK, RETRY and ACCEPTED (section 5.1). -/
def OutEntry.unsettled (e : OutEntry) : Bool :=
  match e.state with
  | .awaitAck | .retry | .accepted => true
  | .held _ => false

/-- The settled part of a HELD entry. -/
def OutEntry.settlement? (e : OutEntry) : Option Settlement :=
  match e.state with
  | .held st => some st
  | .awaitAck | .retry | .accepted => none

/-- A queue entry is WAITING until it is DOOMED (R92, R93). -/
def QueueEntry.waiting (q : QueueEntry) : Bool := q.doomed.isNone

/-- The response record of an outstanding entry (R133). -/
def Response.ofOut (e : OutEntry) (st : Settlement) : Response :=
  { tag := e.tag, node := e.node, op := e.op, status := st.status, code := st.code, cycle := st.cycle, data := st.data }

/-- The response record of a queue entry (R133). -/
def Response.ofQueue (q : QueueEntry) (st : Settlement) : Response :=
  { tag := q.tag, node := q.node, op := q.op, status := st.status, code := st.code, cycle := st.cycle, data := st.data }

/-- The settle-order numbers of the items that wait to be posted: HELD entries and DOOMED queue entries (R130). -/
def State.waitingOrders (s : State) : List Nat :=
  s.cmd.queue.filterMap (fun q => q.doomed.map (·.order))
    ++ s.cmd.outstanding.filterMap (fun e => e.settlement?.map (·.order))

/-- An item settling now is posted at once (R130). -/
def State.canPost (s : State) : Bool :=
  decide (s.result.responses.length < Config.responseCapacity) && s.waitingOrders.isEmpty

/-- A record joins the tail of the response queue (R131). -/
def State.appendResponse (s : State) (r : Response) : State :=
  { s with result := { s.result with responses := s.result.responses ++ [r] } }

/-- The place of an outstanding entry is freed (R131). -/
def State.freeOut (s : State) (push : Nat) : State :=
  { s with cmd := { s.cmd with outstanding := s.cmd.outstanding.filter fun e => e.push != push } }

/-- A queue entry leaves, and those behind it close up (R131). -/
def State.freeQueue (s : State) (push : Nat) : State :=
  { s with cmd := { s.cmd with queue := s.cmd.queue.filter fun q => q.push != push } }

/-- An outstanding entry is changed in its place. -/
def State.updateOut (s : State) (push : Nat) (f : OutEntry → OutEntry) : State :=
  { s with cmd := { s.cmd with outstanding := s.cmd.outstanding.map fun e => if e.push = push then f e else e } }

/-- A queue entry is changed in its place. -/
def State.updateQueue (s : State) (push : Nat) (f : QueueEntry → QueueEntry) : State :=
  { s with cmd := { s.cmd with queue := s.cmd.queue.map fun q => if q.push = push then f q else q } }

/-- The outstanding entry with a push-order number. -/
def State.out? (s : State) (push : Nat) : Option OutEntry := s.cmd.outstanding.find? fun e => e.push == push

/-- The queue entry with a push-order number. -/
def State.queued? (s : State) (push : Nat) : Option QueueEntry := s.cmd.queue.find? fun q => q.push == push

/-- What a settlement made now holds (R129). -/
def State.settlementNow (s : State) (status : Status) (code : Byte) (data : List Byte) : Settlement :=
  { order := s.result.nextOrder, cycle := s.sched.cycleNumber, status := status, code := code, data := data }

/-- The settle-order counter advances (R129). -/
def State.advanceOrder (s : State) : State :=
  { s with result := { s.result with nextOrder := s.result.nextOrder + 1 } }

/-- An outstanding entry settles: numbered, and posted at once or HELD (R110, R129, R130). An entry that is not there
or is settled already is left alone (R110). -/
def State.settleOut (s : State) (push : Nat) (status : Status) (code : Byte) (data : List Byte) : State :=
  match s.out? push with
  | none => s
  | some e =>
    if !e.unsettled then s
    else
      let st := s.settlementNow status code data
      if s.canPost then (s.advanceOrder.appendResponse (Response.ofOut e st)).freeOut push
      else s.advanceOrder.updateOut push fun e => { e with state := .held st }

/-- A WAITING queue entry settles NODE_DOWN: numbered, and posted at once or DOOMED in its place (R92, R111, R130). -/
def State.settleQueue (s : State) (push : Nat) : State :=
  match s.queued? push with
  | none => s
  | some q =>
    if !q.waiting then s
    else
      let st := s.settlementNow .nodeDown 0 []
      if s.canPost then (s.advanceOrder.appendResponse (Response.ofQueue q st)).freeQueue push
      else s.advanceOrder.updateQueue push fun q => { q with doomed := some st }

/-- The waiting item with a settle-order number is posted (R131). -/
def State.postWaiting (s : State) (order : Nat) : State :=
  match s.cmd.outstanding.find? fun e => e.settlement?.map (·.order) == some order with
  | some e =>
    match e.settlement? with
    | some st => (s.appendResponse (Response.ofOut e st)).freeOut e.push
    | none => s
  | none =>
    match s.cmd.queue.find? fun q => q.doomed.map (·.order) == some order with
    | some q =>
      match q.doomed with
      | some st => (s.appendResponse (Response.ofQueue q st)).freeQueue q.push
      | none => s
    | none => s

/-- RQTAKE (R132): the head record is removed, and the waiting item with the lowest settle-order number is posted. -/
def State.takeResponse (s : State) : State :=
  match s.result.responses with
  | [] => s.raise .hPop 0 0
  | _ :: rest =>
    let s := { s with result := { s.result with responses := rest } }
    match lowestBy id s.waitingOrders with
    | none => s
    | some order => s.postWaiting order

/-- The push-order numbers of unsettled outstanding entries that meet a condition, in push order. -/
def State.unsettledPushes (s : State) (p : OutEntry → Bool) : List Nat :=
  sorted ((s.cmd.outstanding.filter fun e => e.unsettled && p e).map (·.push))

/-- The push-order numbers of a node's WAITING queue entries, in push order. -/
def State.waitingPushes (s : State) (n : NodeAddr) : List Nat :=
  sorted ((s.cmd.queue.filter fun q => q.waiting && q.node == n).map (·.push))

/-- Several outstanding entries settle one after another with one status (R110). -/
def State.settleAll (s : State) (pushes : List Nat) (status : Status) : State :=
  match pushes with
  | [] => s
  | p :: rest => (s.settleOut p status 0 []).settleAll rest status

/-- Several queue entries settle one after another (R111). -/
def State.settleAllQueued (s : State) (pushes : List Nat) : State :=
  match pushes with
  | [] => s
  | p :: rest => (s.settleQueue p).settleAllQueued rest

/-- The in-flight mark is cleared (R104). -/
def State.clearMark (s : State) : State := { s with cmd := { s.cmd with inFlightMark := none } }

/-- The command engine aborts its transactions (R114). -/
def State.abortTransactions (s : State) : State :=
  (s.settleAll (s.unsettledPushes fun _ => true) .aborted).clearMark

/-- The in-flight mark names an unsettled entry of a node. -/
def State.markNames (s : State) (n : NodeAddr) : Bool :=
  match s.cmd.inFlightMark with
  | none => false
  | some p => s.cmd.outstanding.any fun e => e.push == p && e.unsettled && e.node == n

/-- The command engine takes a node-down notice (R111). -/
def State.takeNodeDown (s : State) (n : NodeAddr) : State :=
  let marked := s.markNames n
  let s := s.settleAll (s.unsettledPushes fun e => e.node == n) .nodeDown
  let s := if marked then s.clearMark else s
  s.settleAllQueued (s.waitingPushes n)

end Sys2Proof.Machine
end

