-- ==== Sys2Proof/Machine/Commands.lean ====
section
/-! DEFINITION. The command engine: CQPUT (R91, R92), selection (R96 to R98), transmission (R100, R101),
acknowledgements (R104 to R109), and the result unit's matching and timeouts (R121 to R128). -/

namespace Sys2Proof.Machine

open Sys2Proof

/-! ### CQPUT -/

/-- The op a code names (R90). -/
def Op.ofCode (c : BitVec 3) : Option Op :=
  match c.toNat with
  | 1 => some .read
  | 2 => some .write
  | 3 => some .invoke
  | 4 => some .reset
  | _ => none

/-- The number of a put status (R91). -/
def PutStatus.number : PutStatus → Nat
  | .noneYet => 0
  | .putOk => 1
  | .full => 2
  | .tagBusy => 3
  | .badPut => 4

/-- A tag is held by an entry of the queue or of the outstanding table (R91). -/
def State.tagHeld (s : State) (tag : Byte) : Bool :=
  s.cmd.queue.any (fun q => q.tag == tag) || s.cmd.outstanding.any (fun e => e.tag == tag)

/-- Step 1 of the put check (R91): a valid op, a data length 0 to 32, and for READ a length of 1 or more and a node
that is not 0. -/
def Staging.fieldsValid (r : Staging) : Bool :=
  match Op.ofCode r.op with
  | none => false
  | some .read => decide (1 ≤ r.len.toNat) && decide (r.len.toNat ≤ 32) && r.node != 0
  | some .write | some .invoke | some .reset => decide (r.len.toNat ≤ 32)

/-- The three-step check of a put (R91). -/
def State.checkPut (s : State) : PutStatus :=
  if !s.cmd.staging.fieldsValid then .badPut
  else if s.tagHeld s.cmd.staging.tag then .tagBusy
  else if Config.queueCapacity ≤ s.cmd.queue.length then .full
  else .putOk

/-- The entry an accepted put makes, WAITING (R92). -/
def Staging.entry (r : Staging) (op : Op) (push : Nat) : QueueEntry :=
  { tag := r.tag, node := r.node, op := op, barrier := r.barrier, param := r.param, len := r.len, data := r.data,
    push := push, doomed := none }

/-- An accepted command joins the tail of the queue, and settles NODE_DOWN at once for a node that is not live
(R92). -/
def State.acceptPut (s : State) (op : Op) : State :=
  let p := s.cmd.nextPush
  let n := s.cmd.staging.node
  let s := { s with cmd := { s.cmd with nextPush := p + 1, queue := s.cmd.queue ++ [s.cmd.staging.entry op p] } }
  if n = 0 ∨ s.isLive n then s else s.settleQueue p

/-- A put request (R91). -/
def State.put (s : State) : State :=
  let status := s.checkPut
  let s := { s with cmd := { s.cmd with putStatus := status } }
  match status, Op.ofCode s.cmd.staging.op with
  | .putOk, some op => s.acceptPut op
  | _, _ => s.raise .hPush s.cmd.staging.node (BitVec.ofNat 16 status.number)

/-! ### Selection -/

/-- The in-flight count of a node (R96). -/
def State.inFlight (s : State) (n : NodeAddr) : Nat :=
  (s.cmd.outstanding.filter fun e => e.unsettled && e.node == n).length

/-- A node's credit. -/
def State.credit (s : State) (n : NodeAddr) : Nat :=
  match s.node? n with
  | none => 0
  | some e => e.credit.toNat

/-- A barrier entry: its barrier flag is set, or it is a broadcast (R98). -/
def QueueEntry.isBarrier (q : QueueEntry) : Bool := q.barrier || q.node == 0

/-- Some transaction with a lower push order is unsettled (R98). -/
def State.unsettledBelow (s : State) (push : Nat) : Bool :=
  s.cmd.queue.any (fun q => q.waiting && decide (q.push < push))
    || s.cmd.outstanding.any (fun e => e.unsettled && decide (e.push < push))

/-- An unsettled barrier transaction with a lower push order, waiting or in flight, holds this one back (R98). -/
def State.barrierBelow (s : State) (push : Nat) : Bool :=
  s.cmd.queue.any (fun q => q.waiting && q.isBarrier && decide (q.push < push))
    || s.cmd.outstanding.any
      (fun e => e.unsettled && s.cmd.barrierSent == some e.push && decide (e.push < push))

/-- A WAITING entry is eligible for its first transmission (R97). -/
def State.eligible (s : State) (q : QueueEntry) : Bool :=
  q.waiting
    && (q.node == 0 || s.isLive q.node)
    && (q.node == 0 || decide (s.inFlight q.node < s.credit q.node))
    && decide (s.cmd.outstanding.length < Config.outstandingCapacity)
    && !s.cmd.queue.any (fun r => r.waiting && r.node == q.node && decide (r.push < q.push))
    && !(q.isBarrier && s.unsettledBelow q.push)
    && !s.barrierBelow q.push

/-- The retry an opportunity chooses: the RETRY entry with the lowest push order whose node is live or 0 (R97). -/
def State.chooseRetry (s : State) : Option OutEntry :=
  lowestBy (·.push) (s.cmd.outstanding.filter fun e => decide (e.state = .retry) && (e.node == 0 || s.isLive e.node))

/-- The first transmission an opportunity chooses: the eligible entry with the lowest push order (R97). -/
def State.chooseFirst (s : State) : Option QueueEntry := lowestBy (·.push) (s.cmd.queue.filter s.eligible)

/-! ### Transmission -/

/-- The serial of a first transmission: the node's serial counter, or 0 for a broadcast (R100). -/
def State.serialFor (s : State) (n : NodeAddr) : BitVec 4 :=
  match s.node? n with
  | none => 0
  | some e => e.serial

/-- The serial counter of the node advances by one, modulo 16 (R100, R102). -/
def State.advanceSerial (s : State) (n : NodeAddr) : State :=
  match s.node? n with
  | none => s
  | some e => s.setNode n { e with serial := e.serial + 1 }

/-- The outstanding entry a first transmission makes (R100). Its cycles left mean nothing before its ACCEPT (R105); the model
holds 0 there (DESIGN CHOICE, log entry 31). -/
def State.firstEntry (s : State) (q : QueueEntry) : OutEntry :=
  { tag := q.tag, node := q.node, op := q.op, param := q.param, len := q.len, data := q.data,
    serial := s.serialFor q.node, push := q.push, state := .awaitAck, retries := s.cmd.retryLimit, busy := 0,
    cyclesLeft := 0 }

/-- The command is an ACK outcome (R104). -/
def isAckOutcome : Instr → Bool
  | .ackOutcome _ => true
  | _ => false

/-- The marks whose ACK outcomes are still to be taken once a slot start sets the in-flight mark anew: the mark of the slot
that ends here joins them where its outcome is handed and not yet taken (DEDUCED, log entry 32). -/
def State.marksLeft (s : State) : List (Option Nat) :=
  if s.cmd.endedMarks.length < s.due.countP isAckOutcome then s.cmd.endedMarks ++ [s.cmd.inFlightMark]
  else s.cmd.endedMarks

/-- A first transmission: the entry moves from the queue to the outstanding table (R100). -/
def State.sendFirst (s : State) (q : QueueEntry) : State :=
  let e := s.firstEntry q
  let s := (s.freeQueue q.push).advanceSerial q.node
  { s with cmd := { s.cmd with
      outstanding := s.cmd.outstanding ++ [e]
      inFlightMark := some q.push
      endedMarks := s.marksLeft
      barrierSent := if q.isBarrier then some q.push else s.cmd.barrierSent } }

/-- A retry: the entry enters AWAIT_ACK again, unchanged otherwise (R101). -/
def State.sendRetry (s : State) (e : OutEntry) : State :=
  let s := s.updateOut e.push fun e => { e with state := .awaitAck }
  { s with cmd := { s.cmd with inFlightMark := some e.push, endedMarks := s.marksLeft } }

/-- The command an opportunity sends, with the state after it: a retry first, then a first transmission (R97). -/
def State.selectCommand (s : State) : Option (OutEntry × State) :=
  match s.chooseRetry with
  | some e => some (e, s.sendRetry e)
  | none =>
    match s.chooseFirst with
    | some q => some (s.firstEntry q, s.sendFirst q)
    | none => none

/-! ### Acknowledgements -/

/-- The entry a mark names, if it is in AWAIT_ACK (R104). -/
def State.awaiting (s : State) (mark : Option Nat) : Option OutEntry :=
  match mark with
  | none => none
  | some p =>
    match s.out? p with
    | none => none
    | some e => if e.state = .awaitAck then some e else none

/-- The entry the in-flight mark names, if it is in AWAIT_ACK (R104). -/
def State.markedAwaiting (s : State) : Option OutEntry := s.awaiting s.cmd.inFlightMark

/-- ACCEPT (R105). -/
def State.ackAccept (s : State) (e : OutEntry) : State :=
  match e.op with
  | .reset => s.settleOut e.push .done 0 []
  | .read | .write | .invoke =>
    s.updateOut e.push fun e => { e with state := .accepted, cyclesLeft := s.cmd.resultTimeout }

/-- BUSY (R106). -/
def State.ackBusy (s : State) (e : OutEntry) : State :=
  let s := s.updateOut e.push fun e => { e with busy := e.busy + 1 }
  if e.busy.toNat + 1 = Config.busyLimit then s.settleOut e.push .nodeBusy 0 []
  else s.updateOut e.push fun e => { e with state := .retry }

/-- A missed acknowledgement (R108). -/
def State.ackMissed (s : State) (e : OutEntry) : State :=
  if e.retries = 0 then s.settleOut e.push .noAck 0 []
  else s.updateOut e.push fun e => { e with retries := e.retries - 1, state := .retry }

/-- An ACK outcome is applied to an entry in AWAIT_ACK (R105 to R108). -/
def State.applyAck (s : State) (e : OutEntry) (v : AckVerdict) : State :=
  match v with
  | .accept => s.ackAccept e
  | .busy => s.ackBusy e
  | .reject reason => s.settleOut e.push .rejected reason []
  | .silent | .bad => s.ackMissed e

/-- The oldest mark of an ended slot goes: the ACK outcome of that slot has been taken (R104). -/
def State.dropEndedMark (s : State) : State :=
  { s with cmd := { s.cmd with endedMarks := s.cmd.endedMarks.tail } }

/-- The command engine takes an ACK outcome (R104 to R108): that of the oldest ended slot whose outcome is still to be taken,
by the mark of that slot, and otherwise that of the slot whose mark stands, which it clears. -/
def State.takeAck (s : State) (v : AckVerdict) : State :=
  match s.cmd.endedMarks with
  | [] =>
    match s.markedAwaiting with
    | none => s
    | some e => s.clearMark.applyAck e v
  | m :: _ =>
    match s.awaiting m with
    | none => s.dropEndedMark
    | some e => s.dropEndedMark.applyAck e v

/-- The command engine takes an abandon notice (R113). -/
def State.takeAbandon (s : State) : State :=
  match s.markedAwaiting with
  | none => s
  | some e => (s.updateOut e.push fun e => { e with state := .retry }).clearMark

/-- A broadcast's frame end settles its entry SENT (R103). -/
def State.broadcastSent (s : State) : State :=
  match s.markedAwaiting with
  | none => s
  | some e => (s.settleOut e.push .sent 0 []).clearMark

/-! ### Results -/

/-- The entry a trailer matches (R121). -/
def State.matchTrailer (s : State) (n : NodeAddr) (tag : Byte) (serial : BitVec 4) : Option OutEntry :=
  s.cmd.outstanding.find? fun e => e.node == n && e.tag == tag && e.serial == serial && e.unsettled

/-- The result data a settled entry keeps (R122). -/
def OutEntry.keptData (e : OutEntry) (data : List Byte) : List Byte :=
  match e.op with
  | .read | .invoke => data
  | .write | .reset => []

/-- The result unit takes a trailer (R121, R122, R124). -/
def State.takeTrailer (s : State) (n : NodeAddr) (tag : Byte) (serial outcome : BitVec 4) (data : List Byte) : State :=
  match s.matchTrailer n tag serial with
  | none => s.raise .nStray n (place tag 0 ||| place serial 8)
  | some e =>
    if outcome = 0 then s.settleOut e.push .done 0 (e.keptData data)
    else s.settleOut e.push .nodeError (outcome.setWidth 8) []

/-- An ACCEPTED entry with its cycles left decreased by one (R126). -/
def OutEntry.countDown (e : OutEntry) : OutEntry :=
  if e.state = .accepted then { e with cyclesLeft := e.cyclesLeft - 1 } else e

/-- An ACCEPTED entry whose cycles left reach 0 at the next count (R126). -/
def OutEntry.expiring (e : OutEntry) : Bool := decide (e.state = .accepted) && decide (e.cyclesLeft.toNat ≤ 1)

/-- The result unit takes the result timeouts of a cycle start (R126). -/
def State.takeTimeouts (s : State) : State :=
  let expired := s.unsettledPushes OutEntry.expiring
  let s := { s with cmd := { s.cmd with outstanding := s.cmd.outstanding.map OutEntry.countDown } }
  s.settleAll expired .resultTimeout

end Sys2Proof.Machine
end

