-- ==== Sys2Proof/Machine/ImageUnit.lean ====
section
/-! DEFINITION. The image unit (chapter 4): banks and roles, host accesses, publishing and the output swap, reply
storage and the input swap, catch-up copies, frame building and parity. -/

namespace Sys2Proof.Machine

open Sys2Proof

/-! ### Banks by role -/

/-- The output host bank (R70). -/
def Image.outHostBank (u : Image) : Memory := if u.outHost then u.out1 else u.out0

/-- The output link bank (R70). -/
def Image.outLinkBank (u : Image) : Memory := if u.outHost then u.out0 else u.out1

/-- The input host bank (R70). -/
def Image.inHostBank (u : Image) : Memory := if u.inHost then u.in1 else u.in0

/-- The input link bank (R70). -/
def Image.inLinkBank (u : Image) : Memory := if u.inHost then u.in0 else u.in1

/-- The unit with another output host bank. -/
def Image.setOutHostBank (u : Image) (m : Memory) : Image := if u.outHost then { u with out1 := m } else { u with out0 := m }

/-- The unit with another input link bank. -/
def Image.setInLinkBank (u : Image) (m : Memory) : Image := if u.inHost then { u with in0 := m } else { u with in1 := m }

/-- The state with another image unit. -/
def State.setImage (s : State) (u : Image) : State := { s with image := u }

/-- An offset joins a written-byte map (R76, R79). -/
def mapInsert (map : BitVec 1024) (a : Nat) : BitVec 1024 := map ||| ((1 : BitVec 1024) <<< a)

/-! ### The image window -/

/-- The window offsets an access reaches, with the byte of the data lines each carries (R172). -/
def laneBytes (lanes : Lanes) (addr : BitVec 11) (data : Word) : List (Nat × Byte) :=
  let even := 2 * addr.toNat
  let low : Byte := data.setWidth 8
  let high : Byte := (data >>> 8).setWidth 8
  match lanes with
  | .word => [(even, low), (even + 1, high)]
  | .low => [(even, low)]
  | .high => [(even + 1, high)]
  | .null => []

/-- The stored byte a window offset reaches, by its view (R71). -/
def Image.windowByte (u : Image) (o : Nat) : ImageByte :=
  match o / 1024 with
  | 0 => u.outHostBank.read (o % 1024)
  | 1 => u.inHostBank.read (o % 1024)
  | 2 => u.outLinkBank.read (o % 1024)
  | _ => u.inLinkBank.read (o % 1024)

/-- A byte written by the host through the output host view (R76, R85). -/
def Image.hostStore (u : Image) (o : Nat) (b : Byte) : Image :=
  let u1 := u.setOutHostBank (u.outHostBank.write o (ImageByte.of b u.ptest))
  if u.outCopy.isSome then { u1 with outMap := mapInsert u1.outMap o } else u1

/-- Several bytes written by the host in one event. -/
def Image.hostStoreAll (u : Image) : List (Nat × Byte) → Image
  | [] => u
  | (o, b) :: rest => (u.hostStore o b).hostStoreAll rest

/-- Each host image access taken while a catch-up copy runs puts the next line copy back by 0.1 µs (R183). -/
def State.delayCopies (s : State) : State :=
  if s.image.outCopy.isSome || s.image.inCopy.isSome then
    { s with timers := { s.timers with copyDelay := s.timers.copyDelay + Config.accessTicks } }
  else s

/-- The image unit takes a host write (R71, R76, R176). -/
def State.imageWrite (s : State) (lanes : Lanes) (addr : BitVec 11) (data : Word) : State :=
  let s := s.delayCopies
  match laneBytes lanes addr data with
  | [] => s
  | (o, b) :: rest =>
    if o < 1024 then s.setImage (s.image.hostStoreAll ((o, b) :: rest))
    else s.raise .hImage 0 (BitVec.ofNat 16 o)

/-- The value a read drives: each byte on its lane, 0 on the other (R172, R176). -/
def Image.readValue (u : Image) (lanes : Lanes) (addr : BitVec 11) : Word :=
  let even := 2 * addr.toNat
  let low : Word := (u.windowByte even).data.setWidth 16
  let high : Word := (u.windowByte (even + 1)).data.setWidth 16 <<< 8
  match lanes with
  | .word => low ||| high
  | .low => low
  | .high => high
  | .null => 0

/-- The lowest window offset with bad parity that an access reads (R86). -/
def Image.badRead (u : Image) (lanes : Lanes) (addr : BitVec 11) : Option Nat :=
  ((laneBytes lanes addr 0).map (·.1)).find? fun o => !(u.windowByte o).parityGood

/-- The image unit takes a host read (R71, R86, R176): the value, and the state after it. -/
def State.imageRead (s : State) (lanes : Lanes) (addr : BitVec 11) : State × Word :=
  let v := s.image.readValue lanes addr
  let s := s.delayCopies
  match s.image.badRead lanes addr with
  | none => (s, v)
  | some o => (s.raise .mHostrd 0 (BitVec.ofNat 16 o), v)

/-! ### Publishing -/

/-- The output swap (R74). -/
def State.outputSwap (s : State) : State :=
  { s with image := { s.image with
      outHost := !s.image.outHost
      publishPending := false
      outMap := 0
      outCopy := some 0
      outCopyBad := false
      copyTurn := .output } }.latch .publ

/-- A pending publish is taken when no output catch-up copy is active (R75). -/
def State.takePendingPublish (s : State) : State :=
  if s.image.publishPending && s.image.outCopy.isNone then s.outputSwap else s

/-- A publish request (R73). -/
def State.requestPublish (s : State) : State :=
  if s.image.publishPending then s
  else
    let s := s.setImage { s.image with publishPending := true }
    if s.run.state = .stopped then s.takePendingPublish else s

/-- A write to ICTL (R72): PTEST is stored, HOLD set or cleared, and a publish requested. -/
def State.writeIctl (s : State) (v : Word) : State :=
  let hold := if v.getLsbD 1 && !v.getLsbD 2 then true else if v.getLsbD 2 && !v.getLsbD 1 then false else s.image.hold
  let s := s.setImage { s.image with ptest := v.getLsbD 6, hold := hold }
  if v.getLsbD 0 then s.requestPublish else s

/-! ### Inputs -/

/-- Bytes of a stored reply, from an offset onward (R79). -/
def Image.linkStore (u : Image) (o : Nat) : List Byte → Image
  | [] => u
  | b :: rest =>
    let u1 := u.setInLinkBank (u.inLinkBank.write o (ImageByte.of b false))
    let u2 := if u.inCopy.isSome then { u1 with inMap := mapInsert u1.inMap o } else u1
    u2.linkStore (o + 1) rest

/-- The image unit's slice copy of a node (R56). -/
def Image.sliceOf (u : Image) (n : NodeAddr) : Option SliceCopy := u.slices.find? fun c => c.node == n

/-- Reply storage (R79): a node whose slice copy has been dropped is not stored. -/
def State.storeReply (s : State) (n : NodeAddr) (bytes : List Byte) : State :=
  match s.image.sliceOf n with
  | none => s
  | some c =>
    let u := s.image.linkStore c.inOff.toNat bytes
    s.setImage { u with linkFresh := NodeSet.insert u.linkFresh n }

/-- A reply storage would run past the end of the bank. -/
def State.storageBeyondBank (s : State) (n : NodeAddr) (bytes : List Byte) : Bool :=
  match s.image.sliceOf n with
  | none => false
  | some c => decide (Config.bankSize < c.inOff.toNat + bytes.length)

/-- The image unit drops its slice copy of a node that is disabled (R79). -/
def State.dropSlice (s : State) (n : NodeAddr) : State :=
  s.setImage { s.image with slices := s.image.slices.filter fun c => c.node != n }

/-- The input swap (R82). -/
def State.inputSwap (s : State) : State :=
  { s with image := { s.image with
      inHost := !s.image.inHost
      hostFresh := s.image.linkFresh
      linkFresh := 0
      snapCycle := s.sched.cycleNumber
      inMap := 0
      inCopy := some 0
      inCopyBad := false
      copyTurn := .input } }.latch .snap

/-- The image unit's part of a cycle end (R82). -/
def State.cycleEndSwap (s : State) : State := if !s.image.hold && s.image.inCopy.isNone then s.inputSwap else s

/-! ### Catch-up copies -/

/-- The offsets of a line that a copy moves: those not in the written-byte map (R77, R84). -/
def copiedOffsets (map : BitVec 1024) (line : BitVec 6) : List Nat :=
  ((List.range 16).map fun i => 16 * line.toNat + i).filter fun a => !map.getLsbD a

/-- Bytes copied with their parity bits from one bank to another (R77, R85). -/
def copyBytes (src dst : Memory) : List Nat → Memory
  | [] => dst
  | a :: rest => copyBytes src (dst.write a (src.read a)) rest

/-- The first byte with bad parity among those a line copy moves (R88). -/
def firstBadCopied (src : Memory) (offsets : List Nat) : Option Nat := offsets.find? fun a => !(src.read a).parityGood

/-- M_COPY for the first bad byte of one catch-up copy (R88). -/
def State.raiseCopyFault (s : State) (seen : Bool) (bad : Option Nat) : State :=
  match seen, bad with
  | false, some a => s.raise .mCopy 0 (BitVec.ofNat 16 a)
  | _, _ => s

/-- In STOPPED a pending publish is taken when line 63 of the output catch-up copy is done (R75). -/
def State.publishAfterLine (s : State) (k : BitVec 6) : State :=
  if k = 63 ∧ s.run.state = .stopped then s.takePendingPublish else s

/-- One line copy of the output catch-up copy (R77). -/
def State.outputLine (s : State) (k : BitVec 6) : State :=
  let u := s.image
  let offsets := copiedOffsets u.outMap k
  let bad := firstBadCopied u.outLinkBank offsets
  let u1 := u.setOutHostBank (copyBytes u.outLinkBank u.outHostBank offsets)
  let u2 := { u1 with
    outCopyBad := u.outCopyBad || bad.isSome
    outCopy := if k = 63 then none else some (k + 1)
    copyTurn := if u.inCopy.isSome then .input else .output }
  ((s.setImage u2).raiseCopyFault u.outCopyBad bad).publishAfterLine k

/-- One line copy of the input catch-up copy (R84). -/
def State.inputLine (s : State) (k : BitVec 6) : State :=
  let u := s.image
  let offsets := copiedOffsets u.inMap k
  let bad := firstBadCopied u.inHostBank offsets
  let u1 := u.setInLinkBank (copyBytes u.inHostBank u.inLinkBank offsets)
  let u2 := { u1 with
    inCopyBad := u.inCopyBad || bad.isSome
    inCopy := if k = 63 then none else some (k + 1)
    copyTurn := if u.outCopy.isSome then .output else .input }
  (s.setImage u2).raiseCopyFault u.inCopyBad bad

/-- The next line copy by direction: the one in progress, else the one whose turn it is, else the one that runs
(R177, R183). -/
def Image.nextLine (u : Image) : Option (Direction × BitVec 6) :=
  match u.outCopy, u.inCopy with
  | none, none => none
  | some k, none => some (.output, k)
  | none, some k => some (.input, k)
  | some k, some l =>
    match u.lineInProgress.getD u.copyTurn with
    | .output => some (.output, k)
    | .input => some (.input, l)

/-- A waiting access is to be taken before any other line copy begins (R177). -/
def State.accessFirst (s : State) : Bool := s.port.state == .waiting && s.image.lineInProgress.isNone

/-- The line copy in progress, or the next one, with its effect (R77, R84). -/
def State.copyLine (s : State) : State :=
  let next := s.image.nextLine
  let s := { s with image := { s.image with lineInProgress := none }, timers := { s.timers with lineCopy := none } }
  match next with
  | none => s
  | some (.output, k) => s.outputLine k
  | some (.input, k) => s.inputLine k

/-- A line copy ends with its effect (R77, R84); a waiting host access is then due, and while it is no other line is copied
(R177). -/
def State.lineCopy (s : State) : State :=
  if s.accessFirst then s
  else
    let s := s.copyLine
    match s.port.state with
    | .waiting => s.hand .waitingAccessTaken
    | .idle | .taken => s

/-! ### Frame building -/

/-- The stored bytes of an output slice, from the output link bank in offset order (R78). -/
def Image.outSlice (u : Image) (c : SliceCopy) : List ImageByte :=
  (List.range c.outLen.toNat).map fun i => u.outLinkBank.read (c.outOff.toNat + i)

/-- The bank offset of the first bad byte of an output slice (R87). -/
def Image.badOffset (u : Image) (c : SliceCopy) : Option Nat :=
  ((List.range c.outLen.toNat).map fun i => c.outOff.toNat + i).find? fun a => !(u.outLinkBank.read a).parityGood

/-- The first bad byte of the slices a frame carries, in payload order: its node and bank offset (R87). -/
def Image.firstBadSlice (u : Image) : List SliceCopy → Option (NodeAddr × Nat)
  | [] => none
  | c :: rest =>
    match u.badOffset c with
    | some a => some (c.node, a)
    | none => u.firstBadSlice rest

/-- The data bytes of a slice for the payload (R78). -/
def Image.sliceData (u : Image) (c : SliceCopy) : List Byte := (u.outSlice c).map ImageByte.data

end Sys2Proof.Machine
end

