-- ==== Sys2Proof/Machine/Nodes.lean ====
section
/-! DEFINITION. The node table (chapter 3): configuring nodes, the node state machine, counters, the IDENT record, the
change set, and what HALTED and a controller reset do to the entries. -/

namespace Sys2Proof.Machine

open Sys2Proof

/-- The node NSEL selects. -/
def State.selected (s : State) : NodeAddr := s.nodes.nsel

/-! ### Configuration -/

/-- A slice runs past the end of its bank (R52, check 1). -/
def sliceBeyond (off : BitVec 10) (len : BitVec 7) : Bool := decide (Config.bankSize < off.toNat + len.toNat)

/-- Two slices share a byte offset; a slice of length 0 overlaps nothing (R52, check 2). -/
def slicesOverlap (off1 : BitVec 10) (len1 : BitVec 7) (off2 : BitVec 10) (len2 : BitVec 7) : Bool :=
  decide (0 < len1.toNat) && decide (0 < len2.toNat)
    && decide (off1.toNat < off2.toNat + len2.toNat) && decide (off2.toNat < off1.toNat + len1.toNat)

/-- The lowest-numbered enabled node whose slice a condition finds overlapping (R52, R158). -/
def State.overlapping (s : State) (n : NodeAddr) (clash : NodeEntry → Bool) : Option NodeAddr :=
  nodeAddresses.find? fun m =>
    m != n && (match s.node? m with
      | none => false
      | some e => e.state.isEnabled && clash e)

/-- The detail of H_BUDGET (R158, section 10.7). -/
def budgetDetail (kind : Nat) (input : Bool) (conflict : NodeAddr) : Word :=
  place conflict 0 ||| placeBit input 7 ||| BitVec.ofNat 16 kind <<< 8

/-- The first check of an enable request that fails, as the detail of H_BUDGET (R52). -/
def State.enableFault (s : State) (n : NodeAddr) (e : NodeEntry) : Option Word :=
  if sliceBeyond e.outOff e.outLen then some (budgetDetail 1 false 0)
  else
    match s.overlapping n fun m => slicesOverlap e.outOff e.outLen m.outOff m.outLen with
    | some m => some (budgetDetail 2 false m)
    | none =>
      if sliceBeyond e.inOff e.inLen then some (budgetDetail 1 true 0)
      else
        match s.overlapping n fun m => slicesOverlap e.inOff e.inLen m.inOff m.inLen with
        | some m => some (budgetDetail 2 true m)
        | none => none

/-- An enable request on a DISABLED node (R52). -/
def State.enableNode (s : State) (n : NodeAddr) (e : NodeEntry) : State :=
  match s.enableFault n e with
  | some detail => s.raise .hBudget n detail
  | none => (s.setNode n { e with state := .offline, missCount := 0 }).joinChangeSet n

/-- A disable of an enabled node (R53, R62, R79). -/
def State.disableNode (s : State) (n : NodeAddr) (e : NodeEntry) : State :=
  (((s.setNode n { e with state := .disabled, missCount := 0 }).joinChangeSet n).dropSlice n).hand (.nodeDownNotice n)

/-- A written credit as it is taken: 0 as 1, and 5 to 7 as 4 (R51). -/
def takenCredit (c : BitVec 3) : BitVec 3 := if c = 0 then 1 else if 4 < c.toNat then 4 else c

/-- A written miss limit as it is stored: 0 as 1 (R51). -/
def takenMissLimit (m : BitVec 4) : BitVec 4 := if m = 0 then 1 else m

/-- The enable part of an NCFG write (R51, part 3). -/
def State.takeEnable (s : State) (n : NodeAddr) (enable : Bool) : State :=
  match s.node? n with
  | none => s
  | some e =>
    match enable, e.state.isEnabled with
    | true, false => s.enableNode n e
    | false, true => s.disableNode n e
    | true, true | false, false => s

/-- The miss limit and credit parts of an NCFG write (R51, parts 1 and 2). -/
def State.takeLimits (s : State) (n : NodeAddr) (e : NodeEntry) (v : Word) : State :=
  let credit := takenCredit (v.extractLsb' 4 3)
  let e := { e with missLimit := takenMissLimit (v.extractLsb' 8 4) }
  if credit = e.credit then s.setNode n e
  else if e.state.isEnabled then (s.setNode n e).raise .hLocked n 0x18
  else s.setNode n { e with credit := credit }

/-- A write to NCFG of the selected node (R51). -/
def State.writeNcfg (s : State) (v : Word) : State :=
  let n := s.selected
  match s.node? n with
  | none => s
  | some e => (s.takeLimits n e v).takeEnable n (v.getLsbD 0)

/-- A write to NOUTOFF or NINOFF of the selected node (R54), with the register's offset. -/
def State.writeSliceOffset (s : State) (offset : Word) (f : NodeEntry → NodeEntry) : State :=
  let n := s.selected
  match s.node? n with
  | none => s
  | some e => if e.state.isEnabled then s.raise .hLocked n offset else s.setNode n (f e)

/-- A write to NLEN of the selected node (R54, R55). -/
def State.writeNlen (s : State) (v : Word) : State :=
  let n := s.selected
  let o : BitVec 7 := v.extractLsb' 0 7
  let i : BitVec 7 := v.extractLsb' 8 7
  match s.node? n with
  | none => s
  | some e =>
    if e.state.isEnabled then s.raise .hLocked n 0x1E
    else if 64 < o.toNat ∨ 64 < i.toNat then s.raise .hBudget n (budgetDetail 3 (decide (o.toNat ≤ 64)) 0)
    else if s.run.state ≠ .stopped ∧ s.budgetPasses n o.toNat i.toNat = false then
      s.raise .hBudget n (budgetDetail 4 false 0)
    else s.setNode n { e with outLen := o, inLen := i }

/-- A write to NCNT of the selected node (R66). -/
def State.writeNcnt (s : State) : State :=
  let n := s.selected
  match s.node? n with
  | none => s
  | some e => s.setNode n { e with badCount := 0, lateCount := 0 }

/-- A write to CHG0 or CHG1 removes the marked addresses (R68). -/
def State.removeChanged (s : State) (h : Half) (v : Word) : State :=
  { s with nodes := { s.nodes with changeSet := s.nodes.changeSet &&& ~~~(h.spread v) } }

/-! ### Outcomes -/

/-- A count advanced by one, saturating at 255 (R64, R65). -/
def saturate (c : Byte) : Byte := if c = 0xFF#8 then c else c + 1

/-- A good reply (R60): for a live node only (R63). -/
def State.goodReply (s : State) (n : NodeAddr) (e : NodeEntry) : State :=
  match e.state with
  | .online => s.setNode n { e with missCount := 0 }
  | .lagging => (s.setNode n { e with state := .online, missCount := 0 }).joinChangeSet n
  | .disabled | .offline | .mismatch => s

/-- A miss (R61, R62): for a live node only (R63). -/
def State.miss (s : State) (n : NodeAddr) (e : NodeEntry) (slot : SlotIndex) : State :=
  if !e.state.isLive then s
  else if e.missLimit.toNat ≤ e.missCount.toNat + 1 then
    (((s.setNode n { e with state := .offline, missCount := 0 }).raise .nLost n
      (place slot 0 ||| place e.missLimit 8)).joinChangeSet n).hand (.nodeDownNotice n)
  else
    let t := s.setNode n { e with state := .lagging, missCount := e.missCount + 1 }
    if e.state = .online then t.joinChangeSet n else t

/-- The number of a BAD cause (R159). -/
def badNumber : BadCause → Nat
  | .field => 1
  | .framing => 2
  | .gap => 3
  | .crc => 4
  | .cutByWindow2 => 5
  | .cutBySlotEnd => 6

/-- BAD counted (R64). -/
def State.countBad (s : State) (n : NodeAddr) (slot : SlotIndex) (c : BadCause) : State :=
  match s.node? n with
  | none => s
  | some e =>
    (s.setNode n { e with badCount := saturate e.badCount }).raise .nBad n
      (place slot 0 ||| BitVec.ofNat 16 (badNumber c) <<< 8)

/-- The reported sizes of an IDENT equal the configured slice lengths (R59). -/
def NodeEntry.identMatches (e : NodeEntry) (r : IdentRecord) : Bool :=
  r.outSize.toNat == e.outLen.toNat && r.inSize.toNat == e.inLen.toNat

/-- A GOOD IDENT (R59): for an OFFLINE node only (R63). -/
def State.identReceived (s : State) (n : NodeAddr) (e : NodeEntry) (r : IdentRecord) : State :=
  if e.state ≠ .offline then s
  else if e.identMatches r then (s.setNode n { e with state := .online, missCount := 0, ident := some r }).joinChangeSet n
  else
    ((s.setNode n { e with state := .mismatch, missCount := 0, ident := some r }).joinChangeSet n).raise .nMismatch n
      (place r.outSize 0 ||| place r.inSize 8)

/-- The node table takes a window outcome (R57 to R64). -/
def State.takeOutcome (s : State) (n : NodeAddr) (kind : WindowKind) (slot : SlotIndex) (v : Verdict) : State :=
  match s.node? n with
  | none => s
  | some e =>
    if e.state = .disabled then s
    else
      match kind, v with
      | _, .ident r => s.identReceived n e r
      | .probe, .bad c => s.countBad n slot c
      | .probe, _ => s
      | _, .good => s.goodReply n e
      | _, .silent => s.miss n e slot
      | _, .bad c => (s.miss n e slot).countBad n slot c

/-- The node table takes a LATE notice (R63, R65). -/
def State.takeLate (s : State) (n : NodeAddr) (slot : SlotIndex) : State :=
  match s.node? n with
  | none => s
  | some e =>
    if e.state = .disabled then s
    else (s.setNode n { e with lateCount := saturate e.lateCount }).raise .nLate n (place slot 0)

/-! ### Whole-table changes -/

/-- A live node goes to OFFLINE at the entry into HALTED (R68). -/
def State.haltNode (s : State) (n : NodeAddr) : State :=
  match s.node? n with
  | none => s
  | some e =>
    if e.state.isLive then
      ((s.setNode n { e with state := .offline, missCount := 0 }).joinChangeSet n).hand (.nodeDownNotice n)
    else s

/-- Every live node goes to OFFLINE (R68), in the order of the list. The rules name no order among the nodes; the model goes
by rising node address (DESIGN CHOICE, log entry 30). -/
def State.haltNodes (s : State) : List NodeAddr → State
  | [] => s
  | n :: rest => (s.haltNode n).haltNodes rest

/-- A node entry after a controller reset (R69), its serial counter with it (R102). -/
def NodeEntry.controllerReset (e : NodeEntry) : NodeEntry :=
  { e with
    state := if e.state.isEnabled then .offline else .disabled
    missCount := 0
    badCount := 0
    lateCount := 0
    ident := none
    serial := 0 }

/-- The node table after a controller reset (R69). -/
def NodeTable.controllerReset (t : NodeTable) : NodeTable :=
  { t with entries := t.entries.map NodeEntry.controllerReset, changeSet := 0 }

end Sys2Proof.Machine
end

