-- ==== Sys2Proof/Machine/Cycle.lean ====
section
/-! DEFINITION. The link engine's directions (R4, R13, R22), slot start and the resolution of rules (R27 to R36, R56),
cycle start and cycle end (R44 to R48), entry into STOPPED and HALTED (R141, R150) and link faults (R21). -/

namespace Sys2Proof.Machine

open Sys2Proof

/-! ### Directions to the link engine -/

/-- The link engine in a state with no frame, no window, no reception and no quiet wait. -/
def State.linkClear (s : State) (st : LinkState) : State :=
  { s with
    link := { s.link with
      state := st
      exchange := .silent
      frame := []
      second := false
      lateGiven := false
      received := []
      badFound := none
      quietAfterMark := false
      quietRunning := false
      burstSeen := false }
    timers := { s.timers with
      frame := none
      cut := none
      mark := none
      window := none
      window2 := none
      character := none
      gap := 0
      quiet := 0 } }

/-- The link engine enters LINK_OFF (R13). -/
def State.linkOff (s : State) : State := s.linkClear .linkOff

/-- The link engine enters QUIET_WAIT and the line-quiet timer starts with its count at 0 (R22). -/
def State.startQuiet (s : State) : State :=
  let s := s.linkClear .quietWait
  { s with link := { s.link with quietRunning := true } }

/-- The part of the current bit of a frame that is still to come, in ticks (R4). -/
def State.restOfBit (s : State) : Nat := (s.timers.frame.getD 0) % Config.ticksPerBit s.link.frameRate

/-- The abort mark begins: the line is driven to 0 for 20 bt of the frame it cuts, and the direction that takes effect at its
end is known (R1, R4). -/
def State.enterMark (s : State) (quiet : Bool) : State :=
  let t := s.linkClear .mark
  { t with
    link := { t.link with rxd := false, quietAfterMark := quiet }
    timers := { t.timers with mark := some (s.frameTimes Config.abortMark) } }

/-- The frame in transmission is to be cut: the bit in progress goes on to its boundary (R4). -/
def State.beginCut (s : State) : State :=
  let t := s.linkClear .send
  { t with
    link := { t.link with frame := s.link.frame }
    timers := { t.timers with frame := s.timers.frame, cut := some s.restOfBit } }

/-- The frame in transmission is cut by the abort mark, which begins at the end of the bit in progress, and at once where
the cut falls on a bit boundary (R4). -/
def State.startMark (s : State) : State := if s.restOfBit = 0 then s.enterMark false else s.beginCut

/-- A frame is being cut, or the abort mark is being driven (R4). -/
def State.marking (s : State) : Bool :=
  match s.link.state with
  | .mark => true
  | .send => s.timers.cut.isSome
  | .linkOff | .quietWait | .window | .receive | .lateWatch | .guarding => false

/-- The direction that takes effect at the end of the abort mark (R4). -/
def State.directAfterMark (s : State) (quiet : Bool) : State := { s with link := { s.link with quietAfterMark := quiet } }

/-- The run controller directs the link engine into LINK_OFF, after the abort mark if one is begun (R4, R141). -/
def State.directOff (s : State) : State := if s.marking then s.directAfterMark false else s.linkOff

/-- The run controller directs the link engine into QUIET_WAIT, at the end of the abort mark if one is begun (R4,
R142). -/
def State.directQuiet (s : State) : State := if s.marking then s.directAfterMark true else s.startQuiet

/-- The line work in progress is ended at once: a frame in transmission is cut by the abort mark, and one that is being
cut already gets no second mark (R4). -/
def State.cutLine (s : State) : State := if s.link.state = .send ∧ s.marking = false then s.startMark else s.directOff

/-- The schedule unit enters IDLE (R44, R47). -/
def State.schedIdle (s : State) : State :=
  { s with sched := { s.sched with state := .idle }, timers := { s.timers with segment := none } }

/-! ### Run state -/

/-- The run state changes and RUNCHG is latched (R154). -/
def State.changeRun (s : State) (r : RunState) : State :=
  { s with run := { s.run with state := r } }.latch .runchg

/-- What every entry into STOPPED but that of a controller reset shares: the schedule unit is IDLE, expiries and
reports of the ended run are not taken, a pending switch and a pending publish are taken, and RUNCHG is latched
(R141). -/
def State.enterStopped (s : State) : State :=
  ((s.schedIdle.dropLineTimers.dropRunReports.changeRun .stopped).takePendingSwitch).takePendingPublish

/-- The part of the entry into HALTED that ends the run: the line and the schedule unit are not used, and expiries and
reports of the ended run are not taken (R150). -/
def State.haltRun (s : State) : State :=
  let s := s.directOff.schedIdle.dropLineTimers.dropRunReports
  { s with run := { s.run with state := .halted } }

/-- The entry into HALTED (R115, R150). The live nodes are taken in rising order of address, an order that no rule names
(DESIGN CHOICE, log entry 30). -/
def State.enterHalted (s : State) (code : FaultCode) (detail : Word) : State :=
  ((s.haltRun.abortTransactions.haltNodes nodeAddresses).raise code 0 detail).latch .runchg

/-! ### Slot start -/

/-- A new part of the cycle begins on the line: the link engine's record of the slot is fresh, and it is in the state
given with the frame given (R13). -/
def State.beginLine (s : State) (st : LinkState) (ex : Exchange) (frame : List Byte) : State :=
  let s := s.linkClear st
  { s with link := { s.link with exchange := ex, frame := frame, lastDecided := none } }

/-- The link engine sends a frame from this instant, at the selected rate (R1, R13, R27). -/
def State.startFrame (s : State) (ex : Exchange) (frame : List Byte) : State :=
  let s := s.beginLine .send ex frame
  { s with
    link := { s.link with frameRate := s.link.rate }
    timers := { s.timers with frame := some (s.bitTimes (lineTime frame)) } }

/-- A silent slot: GUARD from its slot start (R13, R27). -/
def State.startSilent (s : State) : State := s.beginLine .guarding .silent []

/-- A frame built from output slices, or silence and M_LINKRD if one holds a byte with bad parity (R32, R87). -/
def State.startBuilt (s : State) (copies : List SliceCopy) (ex : Exchange) (frame : List Byte) : State :=
  match s.image.firstBadSlice copies with
  | some (n, a) => s.startSilent.raise .mLinkrd n (BitVec.ofNat 16 a)
  | none => s.startFrame ex frame

/-- The slice copies of nodes at this instant (R56). -/
def State.copiesOf (s : State) (ns : List NodeAddr) : List SliceCopy :=
  ns.filterMap fun n => (s.node? n).map fun e => e.sliceCopy n

/-- The output data of a node for a frame (R78). -/
def State.outputOf (s : State) (n : NodeAddr) : List Byte := (s.copiesOf [n]).flatMap s.image.sliceData

/-- A DATA frame to node n (R8, R32). -/
def State.sendData (s : State) (n : NodeAddr) (trailer : Bool) : State :=
  s.startBuilt (s.copiesOf [n]) (.data n trailer) (dataFrame n (s.outputOf n) trailer)

/-- A PAIR frame to nodes a and b (R9, R32). -/
def State.sendPair (s : State) (a b : NodeAddr) : State :=
  s.startBuilt (s.copiesOf [a, b]) (.pair a b) (pairFrame a b (s.outputOf a) (s.outputOf b))

/-- The slot is long enough for the largest trailer (R36). -/
def State.trailerPermitted (s : State) (r : SlotRecord) : Bool :=
  decide (dataMinimum s.windowLength (s.outLen r.nodeA) (s.inLen r.nodeA) + Config.largestTrailer ≤ r.length.toNat)

/-- A CYC resolution (R28). -/
def State.resolveCyc (s : State) (r : SlotRecord) : State :=
  match s.nodeState r.nodeA with
  | .online | .lagging => s.sendData r.nodeA (s.trailerPermitted r)
  | .offline => s.startFrame (.probe r.nodeA) (probeFrame r.nodeA)
  | .disabled | .mismatch => s.startSilent

/-- A PAIR resolution (R29). -/
def State.resolvePair (s : State) (r : SlotRecord) : State :=
  match s.isLive r.nodeA, s.isLive r.nodeB with
  | true, true => s.sendPair r.nodeA r.nodeB
  | true, false => s.sendData r.nodeA false
  | false, true => s.sendData r.nodeB false
  | false, false => s.startSilent

/-- A resolution that carries no ORDER (R28 to R31). A rule code that is no rule never passes validation; here it
resolves to silence. -/
def State.resolveCyclic (s : State) (r : SlotRecord) : State :=
  match r.rule.toNat with
  | 1 | 3 => s.resolveCyc r
  | 2 => s.resolvePair r
  | _ => s.startSilent

/-- A command slot (R30). -/
def SlotRecord.isCommandSlot (r : SlotRecord) : Bool := r.rule == 3 || r.rule == 4

/-- A command opportunity exists at the slot start (R34). -/
def State.opportunity (s : State) (r : SlotRecord) : Bool :=
  r.isCommandSlot && s.sched.pacing == 0 && (s.run.state == .running || s.run.state == .resuming)

/-- What an ORDER slot carries: a broadcast, or an ORDER to one node (R10). -/
def OutEntry.exchange (e : OutEntry) : Exchange := if e.node = 0 then .broadcast else .order e.node e.tag

/-- The pacing counter takes a value (R33). -/
def State.setPacing (s : State) (v : BitVec 2) : State := { s with sched := { s.sched with pacing := v } }

/-- The pacing counter decreased by one, unless it is 0 (R33). -/
def State.decreasePacing (s : State) : State :=
  if s.sched.pacing = 0 then s else s.setPacing (s.sched.pacing - 1)

/-- The slot becomes the one in progress, its timer starts, and the slice copies of the nodes it names are handed on
(R37, R45, R56). -/
def State.enterSlot (s : State) (k : SlotIndex) (r : SlotRecord) : State :=
  let copies := s.copiesOf r.namedNodes
  { s with
    sched := { s.sched with state := .slot k }
    link := { s.link with slices := copies }
    image := { s.image with slices := copies }
    timers := { s.timers with segment := some (s.bitTimes r.length.toNat) } }

/-- A slot start (R27, R30, R33). -/
def State.slotStart (s : State) (k : SlotIndex) : State :=
  let r := s.sched.record s.sched.active k
  let s := s.enterSlot k r
  match (if s.opportunity r then s.selectCommand else none) with
  | some (e, t) => (t.setPacing t.sched.pacingSetting).startFrame e.exchange (orderFrame e)
  | none => (s.resolveCyclic r).decreasePacing

/-- A slot start whose frame could read beyond a bank: a live node the slot names has a slice that runs past the end of
its bank. R52 enables no such node. -/
def State.slotBeyondBank (s : State) (k : SlotIndex) : Bool :=
  (s.sched.record s.sched.active k).namedNodes.any fun n =>
    match s.node? n with
    | none => false
    | some e => e.state.isLive && sliceBeyond e.outOff e.outLen

/-! ### Cycle start and cycle end -/

/-- A cycle start (R44, R75, R126): the head segment begins, and the result timeouts are handed to the result unit. -/
def State.cycleStart (s : State) : State :=
  let s := s.takePendingSwitch
  let s := { s with sched := { s.sched with cycleNumber := s.sched.cycleNumber + 1, state := .head } }
  let s := s.takePendingPublish
  let s := (s.startFrame .head
    (headFrame s.sched.cycleNumber s.sched.nonZeroSlots.length s.sched.active)).latch .cyc
  { s with timers := { s.timers with segment := some (s.bitTimes Config.headSegment) } }.hand .resultTimeout

/-- A cycle end (R46, R82, R144). -/
def State.cycleEnd (s : State) : State :=
  let s := s.schedIdle.cycleEndSwap
  match s.run.state with
  | .running => s.cycleStart
  | .resuming => (s.changeRun .running).cycleStart
  | .draining => s.directOff.enterStopped
  | .stopped | .settling | .recovery | .halted => s.directOff

/-- The next non-zero slot after an index (R45). -/
def Sched.nextSlot (u : Sched) (k : SlotIndex) : Option SlotIndex := u.nonZeroSlots.find? fun j => decide (k.toNat < j.toNat)

/-- What follows a slot end: the next slot start, or the cycle end (R37, R45, R46). -/
def State.afterSlot (s : State) (k : SlotIndex) : State :=
  match s.sched.nextSlot k with
  | some j => s.slotStart j
  | none => s.cycleEnd

/-! ### Link faults -/

/-- The slot index of a fault detail: 16 in the head segment (R160). -/
def State.faultSlot (s : State) : Word :=
  match s.sched.state with
  | .slot k => place k 0
  | .idle | .head => 16

/-- The frame in progress carries an ORDER (R113). -/
def Exchange.isOrder : Exchange → Bool
  | .order _ _ | .broadcast => true
  | .silent | .head | .data _ _ | .pair _ _ | .probe _ => false

/-- The address of the frame being sent (R160). -/
def Exchange.address : Exchange → NodeAddr
  | .data n _ | .probe n | .order n _ => n
  | .pair a _ => a
  | .silent | .head | .broadcast => 0

/-- The fault code of a link fault. -/
def linkFaultCode : LinkFaultKind → FaultCode
  | .foreign => .lForeign
  | .readback => .lReadback

/-- The number of a link fault's code (section 8.1). -/
def linkFaultNumber : LinkFaultKind → Word
  | .foreign => 1
  | .readback => 2

/-- An ORDER caught in the abandoned slot: the abandon notice (R113). -/
def State.handAbandon (s : State) : State :=
  if s.link.exchange.isOrder && s.cmd.inFlightMark.isSome then s.hand .abandonNotice else s

/-- The link engine raises a link fault (R21, R47, R113). -/
def State.linkFault (s : State) (kind : LinkFaultKind) (node : NodeAddr) : State :=
  let detail := s.faultSlot
  (((s.dropLineTimers.handAbandon.linkOff).schedIdle).hand (.linkFault kind)).raise (linkFaultCode kind) node detail

end Sys2Proof.Machine
end

