-- ==== Sys2Proof/Machine/Windows.lean ====
section
/-! DEFINITION. Reply windows and the judgement of replies (R14 to R19), and what the link engine does at each event
of the line and of its timers (R2, R3, R4, R20, R22). -/

namespace Sys2Proof.Machine

open Sys2Proof

/-! ### The window in progress -/

/-- The node of the window in progress (R57). -/
def Link.windowNode (l : Link) : NodeAddr :=
  match l.exchange with
  | .data n _ | .probe n | .order n _ => n
  | .pair a b => if l.second then b else a
  | .silent | .head | .broadcast => 0

/-- The kind of the window in progress (R57). -/
def Link.windowKind (l : Link) : WindowKind :=
  match l.exchange with
  | .data _ _ | .silent | .head | .broadcast => .data
  | .pair _ _ => .pair
  | .probe _ => .probe
  | .order _ _ => .order

/-- The index of the slot in progress. -/
def State.slotIndex (s : State) : SlotIndex :=
  match s.sched.state with
  | .slot k => k
  | .idle | .head => 0

/-- A node's input slice length as the link engine holds it for the slot (R56). -/
def Link.inLen (l : Link) (n : NodeAddr) : Nat :=
  match l.slices.find? fun c => c.node == n with
  | none => 0
  | some c => c.inLen.toNat

/-! ### Judging a reply -/

/-- Kind codes of the replies (R182). -/
def kindInput : Byte := 0x20#8
/-- See `kindInput`. -/
def kindInputT : Byte := 0x21#8
/-- See `kindInput`. -/
def kindAck : Byte := 0x22#8
/-- See `kindInput`. -/
def kindIdent : Byte := 0x23#8

/-- The byte at a position of the reply, 0 where none has come. -/
def byteAt (bytes : List Byte) (i : Nat) : Byte := bytes.getD i 0

/-- The reply's kind byte passes for the window (R15, R182). -/
def Link.kindPasses (l : Link) (k : Byte) : Bool :=
  match l.exchange with
  | .data _ trailer => k == kindInput || (trailer && k == kindInputT)
  | .pair _ _ => k == kindInput
  | .probe _ => k == kindIdent
  | .order _ _ => k == kindAck
  | .silent | .head | .broadcast => false

/-- The payload length byte passes for the window; that of an INPUT+T is checked later (R15). -/
def Link.lengthPasses (l : Link) (kind len : Byte) : Bool :=
  match l.exchange with
  | .data n _ => kind == kindInputT || len.toNat == l.inLen n
  | .pair _ _ => len.toNat == l.inLen l.windowNode
  | .probe _ => len.toNat == 5
  | .order _ _ => len.toNat == 3
  | .silent | .head | .broadcast => false

/-- The further check that falls on the byte at position i (R15). -/
def Link.furtherPasses (l : Link) (bytes : List Byte) (i : Nat) : Bool :=
  let b := byteAt bytes i
  match l.exchange with
  | .data n _ =>
    if byteAt bytes 0 == kindInputT && i == l.inLen n + 5 then
      decide (b.toNat ≤ 32) && (byteAt bytes 2).toNat == l.inLen n + 3 + b.toNat
    else true
  | .order _ tag =>
    if i = 3 then b == tag else if i = 4 then b == 1 || b == 2 || b == 3 else true
  | .pair _ _ | .probe _ | .silent | .head | .broadcast => true

/-- The header field or further check that falls on the last byte received holds (R15, R16). -/
def Link.fieldsPass (l : Link) (bytes : List Byte) : Bool :=
  let i := bytes.length - 1
  let b := byteAt bytes i
  if i = 0 then l.kindPasses b
  else if i = 1 then b == addressByte l.windowNode
  else if i = 2 then l.lengthPasses (byteAt bytes 0) b
  else l.furtherPasses bytes i

/-- The whole length of the reply, as soon as it is known (R11, R12). -/
def Link.replyLength (l : Link) (bytes : List Byte) : Option Nat :=
  match l.exchange with
  | .data n _ =>
    if byteAt bytes 0 == kindInputT then
      if l.inLen n + 5 < bytes.length then some (5 + l.inLen n + 3 + (byteAt bytes (l.inLen n + 5)).toNat) else none
    else some (5 + l.inLen n)
  | .pair _ _ => some (5 + l.inLen l.windowNode)
  | .probe _ => some 10
  | .order _ _ => some 8
  | .silent | .head | .broadcast => none

/-- The ACK code of a GOOD ACK (R12). -/
def ackOf (code reason : Byte) : AckVerdict := if code = 1 then .accept else if code = 2 then .busy else .reject reason

/-- The IDENT record of a GOOD IDENT, its type code most significant byte first (R182). -/
def identOf (bytes : List Byte) : IdentRecord :=
  { typeCode := (byteAt bytes 3).setWidth 16 <<< 8 ||| (byteAt bytes 4).setWidth 16
    revision := byteAt bytes 5
    outSize := byteAt bytes 6
    inSize := byteAt bytes 7 }

/-- Bytes of a reply from a position on. -/
def bytesFrom (bytes : List Byte) (i n : Nat) : List Byte := (bytes.drop i).take n

/-! ### Handing a decided window on -/

/-- A window is decided: the reception ends, and until the slot end or window 2 the link engine is in the given
state (R13, R14). -/
def State.windowDone (s : State) (st : LinkState) : State :=
  { s with
    link := { s.link with
      state := st
      lastDecided := some s.link.windowNode
      lateGiven := false
      received := []
      badFound := none }
    timers := { s.timers with window := none, character := none, gap := 0 } }

/-- NONE or BAD, to the node table and for an ORDER to the command engine too (R18). -/
def State.handMissed (s : State) (v : Verdict) (ack : AckVerdict) : State :=
  let t := match s.link.exchange with
    | .order _ _ => s.hand (.ackOutcome ack)
    | .silent | .head | .data _ _ | .pair _ _ | .probe _ | .broadcast => s
  t.hand (.nodeOutcome s.link.windowNode s.link.windowKind s.slotIndex v)

/-- A window decided BAD (R16, R18). A fault found earlier in the reception is the cause. -/
def State.decideBad (s : State) (c : BadCause) : State :=
  (s.handMissed (.bad (s.link.badFound.getD c)) .bad).windowDone .guarding

/-- A window that closes with no onset: NONE (R14, R18). -/
def State.decideNone (s : State) : State := (s.handMissed .silent .silent).windowDone .lateWatch

/-- A window decided GOOD, from the bytes of its reply (R15, R18). -/
def State.decideGood (s : State) (bytes : List Byte) : State :=
  let l := s.link
  let k := s.slotIndex
  let t := match l.exchange with
    | .data n _ =>
      let i := l.inLen n
      let t := (s.hand (.replyStorage n (bytesFrom bytes 3 i))).hand (.nodeOutcome n .data k .good)
      if byteAt bytes 0 == kindInputT then
        let mixed := byteAt bytes (i + 4)
        t.hand (.resultTrailer n (byteAt bytes (i + 3)) (mixed.extractLsb' 0 4) (mixed.extractLsb' 4 4)
          (bytesFrom bytes (i + 6) (byteAt bytes (i + 5)).toNat))
      else t
    | .pair _ _ =>
      (s.hand (.replyStorage l.windowNode (bytesFrom bytes 3 (l.inLen l.windowNode)))).hand
        (.nodeOutcome l.windowNode .pair k .good)
    | .probe n => s.hand (.nodeOutcome n .probe k (.ident (identOf bytes)))
    | .order n _ =>
      (s.hand (.ackOutcome (ackOf (byteAt bytes 4) (byteAt bytes 5)))).hand (.nodeOutcome n .order k .good)
    | .silent | .head | .broadcast => s
  t.windowDone .guarding

/-- A byte of the reply has come with a good stop bit: it is judged, and may complete the reply (R15, R16). -/
def State.judgeByte (s : State) (b : Byte) : State :=
  let bytes := s.link.received ++ [b]
  let s := { s with link := { s.link with received := bytes } }
  if !s.link.fieldsPass bytes then { s with link := { s.link with badFound := some .field } }
  else if s.link.replyLength bytes = some bytes.length then
    if crc16 bytes = 0 then s.decideGood bytes else s.decideBad .crc
  else s

/-! ### Events of the line -/

/-- Receive data at a level (R2, R22). -/
def State.setRxd (s : State) (level : Bool) : State :=
  { s with link := { s.link with rxd := level }, timers := { s.timers with idle := 0, gap := 0 } }

/-- At least 10 bt of idle line came before an onset that takes effect now, half a bit time after its change from 1 to 0
(R2, R22, log entry 8). -/
def State.newBurst (s : State) : Bool :=
  !s.link.burstSeen || decide (21 * Config.ticksPerBit s.link.rate ≤ 2 * s.timers.idle)

/-- An onset in QUIET_WAIT: the count restarts, and a new burst is reported (R22). -/
def State.quietOnset (s : State) : State :=
  let fresh := s.newBurst
  let s := { s with
    link := { s.link with burstSeen := true }
    timers := { s.timers with quiet := 0 }
    due := s.due.filter fun c => c != .lineQuiet }
  if fresh then s.hand .activityReport else s

/-- An onset in an open window: reception of the reply begins (R14). Its first character began half a bit time earlier, at
the change from 1 to 0 (R2). -/
def State.windowOnset (s : State) : State :=
  { s with
    link := { s.link with state := .receive, received := [], badFound := none }
    timers := { s.timers with
      window := none
      character := some (s.bitTimes 10 - Config.ticksPerBit s.link.rate / 2) }
    due := s.due.filter fun c => c != .windowClose }

/-- An onset while a reply is received: its next character begins, unless one is in progress (R2). The onset is given at
its change from 1 to 0, since R2 places an onset by its effect only in a window, in LATE_WATCH, in GUARD and in a quiet wait
(DEDUCED, log entry 8). -/
def State.receiveOnset (s : State) : State :=
  if s.timers.character.isSome then s
  else { s with
    timers := { s.timers with character := some (s.bitTimes 10) }
    due := s.due.filter fun c => c != .characterGap }

/-- An onset in LATE_WATCH: the LATE notice, once for the window (R17, R18). -/
def State.lateOnset (s : State) : State :=
  if s.link.lateGiven then s
  else { s with link := { s.link with lateGiven := true } }.hand (.lateNotice s.link.windowNode s.slotIndex)

/-- An activity onset (R2, R13). One given while receive data is held at 0 is taken as an onset all the same: the return to 1
before it is implied (DESIGN CHOICE, log entry 3). -/
def State.onset (s : State) : State :=
  (match s.link.state with
    | .linkOff | .send | .mark => s
    | .quietWait => s.quietOnset
    | .window => s.windowOnset
    | .receive => s.receiveOnset
    | .lateWatch => s.lateOnset
    | .guarding => s.linkFault .foreign (s.link.lastDecided.getD 0)).setRxd false

/-- The end of a received character: its stop bit is checked, then the reply so far (R2, R15, R16). One given in RECEIVE with
no character begun is judged as a byte of the reply all the same: its onset is implied (DESIGN CHOICE, log entry 3). -/
def State.characterEnd (s : State) (b : Byte) (stopBit : Bool) : State :=
  match s.link.state with
  | .receive =>
    let s := { s with timers := { s.timers with character := none } }.setRxd stopBit
    if s.link.badFound.isSome then s
    else if !stopBit then { s with link := { s.link with badFound := some .framing } }
    else s.judgeByte b
  | .linkOff | .quietWait | .send | .mark | .window | .lateWatch | .guarding => s

/-- More than 10 bt of idle line after a character: the reception ends BAD (R2, R16). -/
def State.characterGap (s : State) : State :=
  match s.link.state with
  | .receive => s.decideBad .gap
  | .linkOff | .quietWait | .send | .mark | .window | .lateWatch | .guarding => s

/-- A reply window closes with no onset in it (R14). -/
def State.windowClose (s : State) : State :=
  match s.link.state with
  | .window => s.decideNone
  | .linkOff | .quietWait | .send | .mark | .receive | .lateWatch | .guarding => s

/-- What window 1 leaves undecided is decided when window 2 opens (R14, R16). -/
def State.closeFirst (s : State) : State :=
  match s.link.state with
  | .window => s.decideNone
  | .receive => s.decideBad .cutByWindow2
  | .linkOff | .quietWait | .send | .mark | .lateWatch | .guarding => s

/-- A window opens for W bt (R14). -/
def State.openWindow (s : State) (second : Bool) : State :=
  { s with
    link := { s.link with
      state := .window, second := second, lateGiven := false, received := [], badFound := none }
    timers := { s.timers with window := some (s.bitTimes s.windowLength), character := none, gap := 0 } }

/-- Window 2 of a PAIR slot opens (R14). -/
def State.window2Open (s : State) : State :=
  match s.link.exchange, s.link.second, s.link.state with
  | .pair _ _, false, .window | .pair _ _, false, .receive | .pair _ _, false, .lateWatch
  | .pair _ _, false, .guarding =>
    let s := s.dropWindowTimers.closeFirst.openWindow true
    { s with timers := { s.timers with window2 := none } }
  | _, _, _ => s

/-- The offset of window 2 from the frame end, in bt (R14). -/
def State.window2Offset (s : State) (a : NodeAddr) : Nat :=
  s.windowLength + 10 * (5 + s.link.inLen a) + Config.pairGap

/-- What follows the frame: its window, or GUARD (R13, R14, R103). -/
def State.afterFrame (s : State) : State :=
  match s.link.exchange with
  | .data _ _ | .probe _ | .order _ _ => s.openWindow false
  | .pair a _ =>
    let t := s.openWindow false
    { t with timers := { t.timers with window2 := some (s.bitTimes (s.window2Offset a)) } }
  | .broadcast => { s.broadcastSent with link := { s.link with state := .guarding } }
  | .silent | .head => { s with link := { s.link with state := .guarding } }

/-- A frame end (R3). A frame that is being cut has none (R4). -/
def State.frameEnd (s : State) : State :=
  match s.link.state with
  | .send =>
    if s.timers.cut.isSome then s
    else
      let s := s.setRxd true
      { s with link := { s.link with frame := [] }, timers := { s.timers with frame := none } }.afterFrame
  | .linkOff | .quietWait | .mark | .window | .receive | .lateWatch | .guarding => s

/-- The readback checker at the level receive data shows: a level that differs from transmit data is a mismatch (R3, R20,
R21). Once the run has been ended at once no link fault is raised, so none is in the rest of a bit that is being cut
(R156). -/
def State.readback (s : State) (received : Bool) : State :=
  match s.link.state with
  | .send =>
    if s.timers.cut.isSome || received == s.transmitData then s
    else (s.linkFault .readback s.link.exchange.address).setRxd received
  | .linkOff | .quietWait | .mark | .window | .receive | .lateWatch | .guarding => s

/-- The end of the abort mark: the line is released, and a direction given during the mark takes effect (R4). -/
def State.markEnd (s : State) : State :=
  match s.link.state with
  | .mark =>
    let quiet := s.link.quietAfterMark
    let s := s.setRxd true
    if quiet then s.startQuiet else s.linkOff
  | .linkOff | .quietWait | .send | .window | .receive | .lateWatch | .guarding => s

/-- The line returns to 1: the count of idle line begins again (R22). Where receive data was not taken to 0, the line returns
from a pulse too short to be an onset, which is ignored (R2). -/
def State.lineReturns (s : State) : State :=
  if s.link.rxd then s
  else
    let s := s.setRxd true
    match s.link.state with
    | .quietWait => { s with timers := { s.timers with quiet := 0 } }
    | .linkOff | .send | .mark | .window | .receive | .lateWatch | .guarding => s

/-! ### Slot end -/

/-- What the slot end decides (R16, R37). -/
def State.cutSlot (s : State) : State :=
  match s.link.state with
  | .window => s.decideNone
  | .receive => s.decideBad .cutBySlotEnd
  | .linkOff | .quietWait | .send | .mark | .lateWatch | .guarding => s

/-- The slot end (R37, R45, R46). -/
def State.slotEnd (s : State) : State :=
  match s.sched.state with
  | .slot k => s.cutSlot.dropLineTimers.afterSlot k
  | .idle | .head => s

/-- The end of the head segment: the first non-zero slot starts (R45). -/
def State.headEnd (s : State) : State :=
  match s.sched.state, s.sched.nonZeroSlots.head? with
  | .head, some k => s.dropLineTimers.slotStart k
  | _, _ => s

/-- The slot that a head segment end or slot end starts. -/
def State.slotToStart (s : State) : Option SlotIndex :=
  match s.sched.state with
  | .head => s.sched.nonZeroSlots.head?
  | .slot k => s.sched.nextSlot k
  | .idle => none

end Sys2Proof.Machine
end

