-- ==== Sys2Proof/Machine/RunControl.lean ====
section
/-! DEFINITION. The run controller (chapter 7): the run commands, controller reset, and what it does at the events of
the line. -/

namespace Sys2Proof.Machine

open Sys2Proof

/-! ### Run commands -/

/-- RUN or RESTART in a state in which it does not act (R140): refused, with the offset of RCMD as detail (R158). -/
def State.refuseRun (s : State) : State := s.raise .hLocked 0 0x02

/-- RUN taken after a PASS (R33, R142). -/
def State.startRun (s : State) : State := ((s.setPacing 0).changeRun .settling).directQuiet

/-- RUN (R142). -/
def State.cmdRun (s : State) : State :=
  match s.run.state with
  | .stopped =>
    let v := s.validate s.sched.active
    match v with
    | .pass => (s.recordValidation v).startRun
    | .unset | .fail .. => s.recordValidation v
  | .settling | .running | .draining | .recovery | .resuming | .halted => s.refuseRun

/-- STOP (R145). -/
def State.cmdStop (s : State) : State :=
  match s.run.state with
  | .settling | .recovery => s.directOff.enterStopped
  | .running | .resuming => s.changeRun .draining
  | .stopped | .draining | .halted => s

/-- ABORT (R146). -/
def State.cmdAbort (s : State) : State :=
  match s.run.state with
  | .settling | .running | .draining | .recovery | .resuming => (s.cutLine.abortTransactions).enterStopped
  | .stopped | .halted => s

/-- RESTART (R151). -/
def State.cmdRestart (s : State) : State :=
  match s.run.state with
  | .halted => s.directOff.enterStopped
  | .stopped | .settling | .running | .draining | .recovery | .resuming => s.refuseRun

/-! ### Controller reset -/

/-- The schedule unit after a controller reset (R33, R39, R42, R47). -/
def Sched.controllerReset (u : Sched) : Sched :=
  { u with pendingSwitch := none, validation := .unset, pacing := 0, state := .idle }

/-- The command engine after a controller reset (R119). -/
def CmdEngine.controllerReset (u : CmdEngine) : CmdEngine :=
  { u with queue := [], outstanding := [], nextPush := 0, inFlightMark := none, endedMarks := [], barrierSent := none }

/-- CRESET (R152): every block takes its controller-reset values, a pending publish is taken at the entry into STOPPED
(R75), and the fault and interrupt unit's values are the last effect (R170). -/
def State.cmdCreset (s : State) : State :=
  let s := s.cutLine
  let s := { s with
    sched := s.sched.controllerReset
    timers := { s.timers with segment := none }
    nodes := s.nodes.controllerReset
    cmd := s.cmd.controllerReset
    result := ResultUnit.reset
    run := RunControl.reset
    due := s.due.filter outlivesCreset }
  { s.takePendingPublish with fault := FaultUnit.reset }

/-- A write to RCMD (R140): the whole word is the command (R181). -/
def State.writeRcmd (s : State) (v : Word) : State :=
  match v.toNat with
  | 1 => s.cmdRun
  | 2 => s.cmdStop
  | 3 => s.cmdAbort
  | 4 => s.cmdRestart
  | 5 => s.cmdCreset
  | _ => s.raise .hAccess 0 v

/-! ### Events of the line -/

/-- "Line quiet" (R143, R149): a cycle starts at the same instant. -/
def State.takeLineQuiet (s : State) : State :=
  if s.link.state = .quietWait ∧ s.link.quietRunning = true then
    match s.run.state with
    | .settling => (s.changeRun .running).cycleStart
    | .recovery => (s.changeRun .resuming).cycleStart
    | .stopped | .running | .draining | .resuming | .halted => s
  else s

/-- The restart counter takes a value (R138). -/
def State.setRestarts (s : State) (n : BitVec 4) : State := { s with run := { s.run with restarts := n } }

/-- An activity report (R143, R148). -/
def State.takeActivityReport (s : State) : State :=
  match s.run.state with
  | .recovery =>
    let s := s.setRestarts (s.run.restarts + 1)
    if Config.restartLimit ≤ s.run.restarts.toNat then s.enterHalted .xRecovery 9 else s
  | .stopped | .settling | .running | .draining | .resuming | .halted => s

/-- A link fault report (R147). -/
def State.takeLinkFault (s : State) (kind : LinkFaultKind) : State :=
  match s.run.state with
  | .running => ((s.schedIdle.dropLineTimers.changeRun .recovery).setRestarts 0).directQuiet
  | .draining => s.directOff.enterStopped
  | .resuming => s.enterHalted .xResume (linkFaultNumber kind)
  | .stopped | .settling | .recovery | .halted => s

end Sys2Proof.Machine
end

