-- ==== Sys2Proof/Machine/Operands.lean ====
section
/-! DEFINITION. The register window (chapter 10): the register at each offset, what each register reads and what a write
to it does. -/

namespace Sys2Proof.Machine

open Sys2Proof

/-! ### The register map (section 10.1) -/

/-- The node registers, which act on the entry NSEL selects (R50). -/
inductive NodeReg where
  | ncfg | noutoff | ninoff | nlen | nstate | ncnt | nidtype | nidrev | nidsize
  deriving DecidableEq, Repr

/-- The node registers that can be written. -/
inductive NodeWriteReg where
  | ncfg | noutoff | ninoff | nlen | ncnt
  deriving DecidableEq, Repr

/-- The read registers. -/
inductive ReadReg where
  | ident | rstate | lset | cset | tset | cycnum | sstat | ssel | srule | snodeb | slen | nsel
  | node (r : NodeReg)
  | chg (h : Half)
  | fresh (h : Half)
  | istat | snapcyc | ctag | cop | cparam
  | cdata (k : BitVec 4)
  | cputst | cqlevel | rtag | rstat | rcode | rcyc
  | rdata (k : BitVec 4)
  | rqlevel | ipend | ien
  | fflag (h : Half)
  | fccode | fcnode | fcdetail | fccyc
  deriving DecidableEq, Repr

/-- The write registers. -/
inductive WriteReg where
  | rcmd | lset | cset | tset | sctl | ssel | srule | snodeb | slen | nsel
  | node (r : NodeWriteReg)
  | chg (h : Half)
  | ictl | ctag | cop | cparam
  | cdata (k : BitVec 4)
  | cqput | rqtake | ipend | ien
  | fflag (h : Half)
  | fccode
  deriving DecidableEq, Repr

/-- Words 0 to 15 of a 32-byte data record. -/
def dataWords : List (BitVec 4) := (List.range 16).map (BitVec.ofNat 4)

/-- Read registers of the run controller, the settings and the schedule unit (section 10.1). -/
def readMapRun : List (Nat × ReadReg) :=
  [(0x00, .ident), (0x02, .rstate), (0x04, .lset), (0x06, .cset), (0x08, .tset), (0x0A, .cycnum), (0x0C, .sstat),
    (0x0E, .ssel), (0x10, .srule), (0x12, .snodeb), (0x14, .slen), (0x16, .nsel)]

/-- Read registers of the node table (section 10.1). -/
def readMapNode : List (Nat × ReadReg) :=
  [(0x18, .node .ncfg), (0x1A, .node .noutoff), (0x1C, .node .ninoff), (0x1E, .node .nlen), (0x20, .node .nstate),
    (0x22, .node .ncnt), (0x24, .node .nidtype), (0x26, .node .nidrev), (0x28, .node .nidsize), (0x2A, .chg .reg0),
    (0x2C, .chg .reg1)]

/-- Read registers of the image unit and of the command engine (section 10.1). -/
def readMapImage : List (Nat × ReadReg) :=
  [(0x2E, .fresh .reg0), (0x30, .fresh .reg1), (0x32, .istat), (0x34, .snapcyc), (0x36, .ctag), (0x38, .cop),
    (0x3A, .cparam), (0x5C, .cputst), (0x5E, .cqlevel)]

/-- Read registers of the result unit and of the fault and interrupt unit (section 10.1). -/
def readMapResult : List (Nat × ReadReg) :=
  [(0x60, .rtag), (0x62, .rstat), (0x64, .rcode), (0x66, .rcyc), (0x88, .rqlevel), (0x8A, .ipend), (0x8C, .ien),
    (0x8E, .fflag .reg0), (0x90, .fflag .reg1), (0x92, .fccode), (0x94, .fcnode), (0x96, .fcdetail), (0x98, .fccyc)]

/-- CDATAk at 3Ch + 2k and RDATAk at 68h + 2k (section 10.1). -/
def readMapData : List (Nat × ReadReg) :=
  (dataWords.map fun k => (0x3C + 2 * k.toNat, ReadReg.cdata k)).append
    (dataWords.map fun k => (0x68 + 2 * k.toNat, ReadReg.rdata k))

/-- The read register at each offset that has one (section 10.1, R165). -/
def readMap : List (Nat × ReadReg) :=
  readMapRun.append (readMapNode.append (readMapImage.append (readMapResult.append readMapData)))

/-- The offset of each write register (section 10.1). -/
def WriteReg.offset : WriteReg → Nat
  | .rcmd => 0x02
  | .lset => 0x04
  | .cset => 0x06
  | .tset => 0x08
  | .sctl => 0x0C
  | .ssel => 0x0E
  | .srule => 0x10
  | .snodeb => 0x12
  | .slen => 0x14
  | .nsel => 0x16
  | .node .ncfg => 0x18
  | .node .noutoff => 0x1A
  | .node .ninoff => 0x1C
  | .node .nlen => 0x1E
  | .node .ncnt => 0x22
  | .chg .reg0 => 0x2A
  | .chg .reg1 => 0x2C
  | .ictl => 0x32
  | .ctag => 0x36
  | .cop => 0x38
  | .cparam => 0x3A
  | .cdata k => 0x3C + 2 * k.toNat
  | .cqput => 0x5C
  | .rqtake => 0x88
  | .ipend => 0x8A
  | .ien => 0x8C
  | .fflag .reg0 => 0x8E
  | .fflag .reg1 => 0x90
  | .fccode => 0x92

/-- The write registers that stand alone. -/
def singleWriteRegisters : List WriteReg :=
  [.rcmd, .lset, .cset, .tset, .sctl, .ssel, .srule, .snodeb, .slen, .nsel, .node .ncfg, .node .noutoff, .node .ninoff,
    .node .nlen, .node .ncnt, .chg .reg0, .chg .reg1, .ictl, .ctag, .cop, .cparam, .cqput, .rqtake, .ipend, .ien,
    .fflag .reg0, .fflag .reg1, .fccode]

/-- Every write register. -/
def writeRegisters : List WriteReg := singleWriteRegisters.append (dataWords.map WriteReg.cdata)

/-- The read register at an even offset. -/
def readRegAt (o : Nat) : Option ReadReg := readMap.lookup o

/-- The write register at an even offset (R165). -/
def writeRegAt (o : Nat) : Option WriteReg := writeRegisters.find? fun r => r.offset == o

/-! ### Reading -/

/-- The number of a run state (R138). -/
def RunState.number : RunState → Nat
  | .stopped => 0
  | .settling => 1
  | .running => 2
  | .draining => 3
  | .recovery => 4
  | .resuming => 5
  | .halted => 6

/-- The number of a node state (section 10.4). -/
def NodeState.number : NodeState → Nat
  | .disabled => 0
  | .offline => 1
  | .online => 2
  | .lagging => 3
  | .mismatch => 4

/-- The number of a response status (R133). -/
def Status.number : Status → Nat
  | .done => 1
  | .nodeError => 2
  | .rejected => 3
  | .noAck => 4
  | .nodeBusy => 5
  | .resultTimeout => 6
  | .nodeDown => 7
  | .aborted => 8
  | .sent => 9

/-- A number in a field with its lowest bit at `pos`. -/
def number (n pos : Nat) : Word := BitVec.ofNat 16 n <<< pos

/-- SSTAT (R39, section 10.3). -/
def Sched.sstat (u : Sched) : Word :=
  placeBit u.active.isB 0 ||| placeBit u.pendingSwitch.isSome 1
    ||| match u.validation with
      | .unset => 0
      | .pass => number 1 2
      | .fail t k reason => number 2 2 ||| placeBit t.isB 4 ||| place k 8 ||| number reason.number 12

/-- The slot record SSEL addresses (R25). -/
def Sched.addressed (u : Sched) : SlotRecord := u.record u.selTable u.selSlot

/-- A node register of an entry (R50, R67, section 10.4). -/
def NodeEntry.read (e : NodeEntry) : NodeReg → Word
  | .ncfg => placeBit e.state.isEnabled 0 ||| place e.credit 4 ||| place e.missLimit 8
  | .noutoff => place e.outOff 0
  | .ninoff => place e.inOff 0
  | .nlen => place e.outLen 0 ||| place e.inLen 8
  | .nstate => number e.state.number 0 ||| place e.missCount 8
  | .ncnt => place e.badCount 0 ||| place e.lateCount 8
  | .nidtype => match e.ident with
    | none => 0
    | some r => r.typeCode
  | .nidrev => match e.ident with
    | none => 0
    | some r => place r.revision 0 ||| placeBit true 15
  | .nidsize => match e.ident with
    | none => 0
    | some r => place r.outSize 0 ||| place r.inSize 8

/-- ISTAT (R72, section 10.5). -/
def Image.istat (u : Image) : Word :=
  placeBit u.outHost 0 ||| placeBit u.inHost 1 ||| placeBit u.publishPending 2 ||| placeBit u.outCopy.isSome 3
    ||| placeBit u.inCopy.isSome 4 ||| placeBit u.hold 5 ||| placeBit u.ptest 6

/-- COP (R90, section 10.6). -/
def Staging.cop (r : Staging) : Word :=
  place r.len 0 ||| placeBit r.barrier 7 ||| place r.node 8 ||| place r.op 13

/-- CQLEVEL (R94, section 10.6). -/
def CmdEngine.cqlevel (u : CmdEngine) : Word :=
  number u.queue.length 0 ||| number u.outstanding.length 8
    ||| number (u.outstanding.filter fun e => !e.unsettled).length 12

/-- RQLEVEL (R136, section 10.6). -/
def State.rqlevel (s : State) : Word := number s.result.responses.length 0 ||| number s.waitingOrders.length 8

/-- A field of the response head; 0 while the response queue is empty (R135). -/
def State.headField (s : State) (f : Response → Word) : Word :=
  match s.result.responses with
  | [] => 0
  | r :: _ => f r

/-- RSTAT of a record (R135, section 10.6). -/
def Response.rstat (r : Response) : Word := number r.status.number 0 ||| number r.op.number 4 ||| number r.data.length 8

/-- RDATAk of a record; positions beyond the data read 0 (R135, section 10.6). -/
def Response.rdata (r : Response) (k : BitVec 4) : Word :=
  place (r.data.getD (2 * k.toNat) 0) 0 ||| place (r.data.getD (2 * k.toNat + 1) 0) 8

/-- A field of the capture record; 0 while it is empty (R164). -/
def State.captureField (s : State) (f : Capture → Word) : Word :=
  match s.fault.capture with
  | none => 0
  | some c => f c

/-- The value of a read register (R174, sections 10.2 to 10.7). A node register reads 0 while NSEL holds 0 (R50). -/
def State.readRegister (s : State) : ReadReg → Word
  | .ident => Config.identity
  | .rstate => number s.run.state.number 0 ||| place s.run.restarts 8
  | .lset => place s.link.rate 0 ||| place s.link.window 8
  | .cset => place s.sched.pacingSetting 0 ||| place s.cmd.retryLimit 8
  | .tset => place s.cmd.resultTimeout 0
  | .cycnum => s.sched.cycleNumber
  | .sstat => s.sched.sstat
  | .ssel => place s.sched.selSlot 0 ||| placeBit s.sched.selTable.isB 8
  | .srule => place s.sched.addressed.rule 0 ||| place s.sched.addressed.nodeA 8
  | .snodeb => place s.sched.addressed.nodeB 0
  | .slen => s.sched.addressed.length
  | .nsel => place s.nodes.nsel 0
  | .node r => match s.node? s.nodes.nsel with
    | none => 0
    | some e => e.read r
  | .chg h => NodeSet.half s.nodes.changeSet h
  | .fresh h => NodeSet.half s.image.hostFresh h
  | .istat => s.image.istat
  | .snapcyc => s.image.snapCycle
  | .ctag => place s.cmd.staging.tag 0
  | .cop => s.cmd.staging.cop
  | .cparam => s.cmd.staging.param
  | .cdata k => s.cmd.staging.data.get k.toFin
  | .cputst => number s.cmd.putStatus.number 0
  | .cqlevel => s.cmd.cqlevel
  | .rtag => s.headField fun r => place r.tag 0 ||| place r.node 8
  | .rstat => s.headField Response.rstat
  | .rcode => s.headField fun r => place r.code 0
  | .rcyc => s.headField fun r => r.cycle
  | .rdata k => s.headField fun r => r.rdata k
  | .rqlevel => s.rqlevel
  | .ipend => s.pendingSet
  | .ien => s.fault.enables
  | .fflag .reg0 => s.fault.fflag0
  | .fflag .reg1 => s.fault.fflag1
  | .fccode => s.captureField fun c => number c.code.number 0 ||| number c.code.classNumber 8
  | .fcnode => s.captureField fun c => place c.node 0
  | .fcdetail => s.captureField fun c => c.detail
  | .fccyc => s.captureField fun c => c.cycle

/-- An access fault at an even offset (R158, R165). -/
def State.refuseAccess (s : State) (o : Nat) : State := s.raise .hAccess 0 (BitVec.ofNat 16 o)

/-- A read of an even offset: the value, and the state after it (R50, R165, R174). -/
def State.readOffset (s : State) (o : Nat) : State × Word :=
  match readRegAt o with
  | none => (s.refuseAccess o, 0)
  | some (.node r) => if s.selected = 0 then (s.refuseAccess o, 0) else (s, s.readRegister (.node r))
  | some r => (s, s.readRegister r)

/-! ### Writing -/

/-- A write to a settings register, which acts only in STOPPED (R153). -/
def State.writeSetting (s : State) (offset : Word) (f : State → State) : State :=
  if s.run.state = .stopped then f s else s.raise .hLocked 0 offset

/-- W as it is stored: below 8 as 8 (R1). -/
def takenWindow (w : Byte) : Byte := if w.toNat < 8 then 8 else w

/-- A write to LSET (R1, R153). -/
def State.writeLset (s : State) (v : Word) : State :=
  s.writeSetting 0x04 fun s =>
    { s with link := { s.link with rate := v.extractLsb' 0 2, window := takenWindow (v.extractLsb' 8 8) } }

/-- A write to CSET (R33, R117, R153). -/
def State.writeCset (s : State) (v : Word) : State :=
  s.writeSetting 0x06 fun s =>
    { s with
      sched := { s.sched with pacingSetting := v.extractLsb' 0 2 }
      cmd := { s.cmd with retryLimit := v.extractLsb' 8 3 } }

/-- The result timeout as it is stored: 0 as 1 (R117). -/
def takenTimeout (t : Byte) : Byte := if t = 0 then 1 else t

/-- A write to TSET (R117, R153). -/
def State.writeTset (s : State) (v : Word) : State :=
  s.writeSetting 0x08 fun s => { s with cmd := { s.cmd with resultTimeout := takenTimeout (v.extractLsb' 0 8) } }

/-- A write to SCTL (R41, R43, section 10.3). -/
def State.writeSctl (s : State) (v : Word) : State :=
  match (v.extractLsb' 0 2).toNat with
  | 1 => s.requestSwitch (TableId.ofBit (v.getLsbD 8))
  | 2 => s.cancelSwitch
  | _ => s

/-- A write to SSEL (R25). -/
def State.writeSsel (s : State) (v : Word) : State :=
  { s with sched := { s.sched with selTable := TableId.ofBit (v.getLsbD 8), selSlot := v.extractLsb' 0 4 } }

/-- A write to SRULE (R25, R26). -/
def State.writeSrule (s : State) (v : Word) : State :=
  s.writeSlotRecord 0x10 fun r => { r with rule := v.extractLsb' 0 3, nodeA := v.extractLsb' 8 5 }

/-- A write to SNODEB (R25, R26). -/
def State.writeSnodeb (s : State) (v : Word) : State :=
  s.writeSlotRecord 0x12 fun r => { r with nodeB := v.extractLsb' 0 5 }

/-- A write to SLEN (R25, R26). -/
def State.writeSlen (s : State) (v : Word) : State := s.writeSlotRecord 0x14 fun r => { r with length := v }

/-- A write to NSEL (R50). -/
def State.writeNsel (s : State) (v : Word) : State := { s with nodes := { s.nodes with nsel := v.extractLsb' 0 5 } }

/-- A write to a node register: H_ACCESS while NSEL holds 0 (R50). -/
def State.writeNode (s : State) (r : NodeWriteReg) (v : Word) : State :=
  if s.selected = 0 then s.refuseAccess (WriteReg.node r).offset
  else
    match r with
    | .ncfg => s.writeNcfg v
    | .noutoff => s.writeSliceOffset 0x1A fun e => { e with outOff := v.extractLsb' 0 10 }
    | .ninoff => s.writeSliceOffset 0x1C fun e => { e with inOff := v.extractLsb' 0 10 }
    | .nlen => s.writeNlen v
    | .ncnt => s.writeNcnt

/-- The state with another staging record (R90). -/
def State.setStaging (s : State) (r : Staging) : State := { s with cmd := { s.cmd with staging := r } }

/-- A write to COP (R90, section 10.6). -/
def Staging.writeCop (r : Staging) (v : Word) : Staging :=
  { r with len := v.extractLsb' 0 6, barrier := v.getLsbD 7, node := v.extractLsb' 8 5, op := v.extractLsb' 13 3 }

/-- A word written to a write register is taken by the block that owns it (R174). -/
def State.writeRegister (s : State) (r : WriteReg) (v : Word) : State :=
  match r with
  | .rcmd => s.writeRcmd v
  | .lset => s.writeLset v
  | .cset => s.writeCset v
  | .tset => s.writeTset v
  | .sctl => s.writeSctl v
  | .ssel => s.writeSsel v
  | .srule => s.writeSrule v
  | .snodeb => s.writeSnodeb v
  | .slen => s.writeSlen v
  | .nsel => s.writeNsel v
  | .node r => s.writeNode r v
  | .chg h => s.removeChanged h v
  | .ictl => s.writeIctl v
  | .ctag => s.setStaging { s.cmd.staging with tag := v.extractLsb' 0 8 }
  | .cop => s.setStaging (s.cmd.staging.writeCop v)
  | .cparam => s.setStaging { s.cmd.staging with param := v }
  | .cdata k => s.setStaging { s.cmd.staging with data := s.cmd.staging.data.set k.toFin v k.toFin.isLt }
  | .cqput => s.put
  | .rqtake => s.takeResponse
  | .ipend => s.clearLatches v
  | .ien => s.storeEnables v
  | .fflag h => s.clearFlags h v
  | .fccode => s.emptyCapture

/-- A word write to an even offset (R165, R174). -/
def State.writeOffset (s : State) (o : Nat) (v : Word) : State :=
  match writeRegAt o with
  | none => s.refuseAccess o
  | some r => s.writeRegister r v

end Sys2Proof.Machine
end

