-- ==== Sys2Proof/Machine/BusPort.lean ====
section
/-! DEFINITION. The host bus port (chapter 9): latching an access, window and lane decoding, WAITING and TAKEN, and the
reset pin. -/

namespace Sys2Proof.Machine

open Sys2Proof

/-- The even register offset an address reaches: A1 to A7, with A8 to A11 ignored (R173). -/
def registerOffset (addr : BitVec 11) : Nat := 2 * (addr.toNat % 128)

/-- The word address of a register offset, with A0 taken as 0 (R172). -/
def registerAddress (offset : BitVec 8) : BitVec 11 := (offset >>> 1).setWidth 11

/-- What the port latches at the presentation of a bus cycle, if it presents an access (R171, R173). -/
def latchCycle (c : BusCycle) : Option Access :=
  if (c.rs || c.is) && (c.rd || c.wr) then
    some { window := if c.rs then .registers else .image, write := c.wr, lanes := c.lanes, addr := c.addr, data := c.data }
  else none

/-- A word write to the register window. -/
def Access.writeAt (offset : BitVec 8) (v : Word) : Access :=
  { window := .registers, write := true, lanes := .word, addr := registerAddress offset, data := v }

/-- A word write to a write register. -/
def Access.writeTo (r : WriteReg) (v : Word) : Access := .writeAt (BitVec.ofNat 8 r.offset) v

/-- The part of a register value that a read drives by its lanes (R172, R175). -/
def laneValue (lanes : Lanes) (v : Word) : Word :=
  match lanes with
  | .word => v
  | .low => v &&& 0x00FF#16
  | .high => v &&& 0xFF00#16
  | .null => 0

/-- A register access is handed to its block (R174, R175). -/
def State.registerAccess (s : State) (a : Access) : State × Option Word :=
  let o := registerOffset a.addr
  if a.write then
    match a.lanes with
    | .word => (s.writeOffset o a.data, none)
    | .low | .high => (s.refuseAccess o, none)
    | .null => (s, none)
  else
    let (t, v) := s.readOffset o
    (t, some (laneValue a.lanes v))

/-- An image access is handed to the image unit (R176). -/
def State.imageAccess (s : State) (a : Access) : State × Option Word :=
  if a.write then (s.imageWrite a.lanes a.addr a.data, none)
  else
    let (t, v) := s.imageRead a.lanes a.addr
    (t, some v)

/-- What a read of no byte drives: 0; a write drives nothing (R172, R180). -/
def Access.nothing (a : Access) : Option Word := if a.write then none else some 0

/-- An access is taken: the state after it, and the value a read drives (R172 to R176). A null access is handed to no
block. -/
def State.carryOut (s : State) (a : Access) : State × Option Word :=
  match a.lanes, a.window with
  | .null, _ => (s, a.nothing)
  | _, .registers => s.registerAccess a
  | _, .image => s.imageAccess a

/-- The port in TAKEN, driving what a read returned (R171). -/
def Port.taken (d : Option Word) : Port := { Port.reset with state := .taken, dataOut := d }

/-- The state with the port in another condition. -/
def State.setPort (s : State) (p : Port) : State := { s with port := p }

/-- An access is taken at its presentation (R174, R177). -/
def State.takeAccess (s : State) (a : Access) : State :=
  let (t, d) := s.carryOut a
  t.setPort (Port.taken d)

/-- An image access presented during a line copy waits (R177). A null access waits for nothing (R172). -/
def State.mustWait (s : State) (a : Access) : Bool :=
  a.window == .image && a.lanes != .null && s.image.lineInProgress.isSome

/-- An access presented in WAITING (R178): one is latched behind a released access, whose strobe the presentation implies
released. A null access completes at once and drives 0 until its own strobe is released (R172). Behind a second latched
access a further strobe presents nothing, released (R178) or held (DESIGN CHOICE, log entry 4). -/
def State.presentBehind (s : State) (a : Access) : State :=
  if s.port.second.isSome then s
  else if a.lanes = .null then s.setPort { s.port with firstReleased := true, nullHeld := true, dataOut := a.nothing }
  else s.setPort { s.port with
    firstReleased := true, second := some a, secondReleased := false, nullHeld := false, dataOut := none }

/-- The presentation of an access (R171, R177, R178, R180). While the reset pin is asserted a read drives 0 and a write
is dropped. -/
def State.present (s : State) (a : Access) : State :=
  if s.inReset then s.setPort { s.port with dataOut := a.nothing }
  else
    match s.port.state with
    | .idle | .taken =>
      if s.mustWait a then s.setPort { Port.reset with state := .waiting, first := some a } else s.takeAccess a
    | .waiting => s.presentBehind a

/-- A latched access is taken, if there is one. -/
def State.takeLatched (s : State) (a : Option Access) : State :=
  match a with
  | none => s
  | some a => s.takeAccess a

/-- The port once its waiting accesses are taken: IDLE if the last strobe has been released, and as the access leaves it
otherwise (R177, R178). -/
def portAfter (released : Bool) (p : Port) : Port := if released then Port.reset else p

/-- The waiting accesses are taken at the end of the line copy, the earlier first, each as if it were presented then (R177,
R178). A null access whose strobe is held then is the one the port has taken (R171, R172). -/
def State.takeWaiting (s : State) : State :=
  match s.port.state, s.image.lineInProgress with
  | .waiting, none =>
    let p := s.port
    let t := (s.setPort Port.reset).takeLatched p.first
    match p.second with
    | none => t.setPort (if p.nullHeld then Port.taken p.dataOut else portAfter p.firstReleased t.port)
    | some a =>
      let u := t.takeAccess a
      u.setPort (portAfter p.secondReleased u.port)
  | .waiting, some _ | .idle, _ | .taken, _ => s

/-- The release of the strobe (R171, R178). -/
def State.releaseStrobe (s : State) : State :=
  match s.port.state with
  | .taken => s.setPort Port.reset
  | .idle => s.setPort { s.port with dataOut := none }
  | .waiting =>
    if s.port.second.isSome then s.setPort { s.port with secondReleased := true, dataOut := none }
    else s.setPort { s.port with firstReleased := true, nullHeld := false, dataOut := none }

/-- What the data lines carry after the reset pin is asserted: 0 if a read whose strobe is held was waiting (R180). R180 does
not say what they carry where the port has completed the read already and its strobe is held, as a null read behind a waiting
access or a read in TAKEN: the model stops driving (DESIGN CHOICE, log entry 33). -/
def Port.resetData (p : Port) : Option Word :=
  let held (a : Option Access) (released : Bool) : Option Word :=
    match a, released with
    | some a, false => a.nothing
    | _, _ => none
  match p.state, p.second with
  | .waiting, some a => held (some a) p.secondReleased
  | .waiting, none => held p.first p.firstReleased
  | .idle, _ | .taken, _ => none

/-- The reset pin is asserted (R180): every block takes its hardware-reset values and is held there. The level of the
line and the commands that wait outside are not the part's. -/
def State.assertReset (s : State) : State :=
  { State.reset with
    inReset := true
    pending := s.pending
    link := { Link.reset with rxd := s.link.rxd }
    port := { Port.reset with dataOut := s.port.resetData } }

/-- The reset pin is released: the port is IDLE (R180). -/
def State.releaseReset (s : State) : State := if s.inReset then { s with inReset := false, port := Port.reset } else s

end Sys2Proof.Machine
end

