-- ==== Sys2Proof/Machine/HostCommands.lean ====
section
/-! DEFINITION. The commands the host gives through the bus, and the reset pin. Each command is a bus access that the
port presents (R171); the block that owns the register or view takes it. -/

namespace Sys2Proof.Machine

open Sys2Proof

/-- The host presents a word write to a write register (R171, R174). -/
def State.hostWrite (s : State) (r : WriteReg) (v : Word) : Host.Outcome State Fault Refusal :=
  .next (s.present (Access.writeTo r v))

/-- RUN, written to RCMD (R140, R142). -/
def execRun (s : State) : Host.Outcome State Fault Refusal := s.hostWrite .rcmd 1

/-- STOP, written to RCMD (R140, R145). -/
def execStop (s : State) : Host.Outcome State Fault Refusal := s.hostWrite .rcmd 2

/-- ABORT, written to RCMD (R140, R146). -/
def execAbort (s : State) : Host.Outcome State Fault Refusal := s.hostWrite .rcmd 3

/-- RESTART, written to RCMD (R140, R151). -/
def execRestart (s : State) : Host.Outcome State Fault Refusal := s.hostWrite .rcmd 4

/-- CRESET, written to RCMD (R140, R152). -/
def execCreset (s : State) : Host.Outcome State Fault Refusal := s.hostWrite .rcmd 5

/-- The write register of a settings register. -/
def settingReg : SettingReg → WriteReg
  | .lset => .lset
  | .cset => .cset
  | .tset => .tset

/-- A write to LSET, CSET or TSET (R153). -/
def execSettingsWrite (reg : SettingReg) (v : Word) (s : State) : Host.Outcome State Fault Refusal :=
  s.hostWrite (settingReg reg) v

/-- The write register of a slot record field. -/
def slotReg : SlotReg → WriteReg
  | .srule => .srule
  | .snodeb => .snodeb
  | .slen => .slen

/-- A write to SRULE, SNODEB or SLEN (R25, R26). -/
def execSlotRecordWrite (reg : SlotReg) (v : Word) (s : State) : Host.Outcome State Fault Refusal :=
  s.hostWrite (slotReg reg) v

/-- An SCTL word with a table command and a table (section 10.3). -/
def sctlWord (command : Word) (t : TableId) : Word := command ||| placeBit t.isB 8

/-- SWITCH, written to SCTL (R41). -/
def execSwitch (t : TableId) (s : State) : Host.Outcome State Fault Refusal := s.hostWrite .sctl (sctlWord 1 t)

/-- CANCEL, written to SCTL (R43). -/
def execCancel (t : TableId) (s : State) : Host.Outcome State Fault Refusal := s.hostWrite .sctl (sctlWord 2 t)

/-- A write to NCFG (R51). -/
def execNodeConfigWrite (v : Word) (s : State) : Host.Outcome State Fault Refusal := s.hostWrite (.node .ncfg) v

/-- A write to NCFG with enable 1 (R51, R52). -/
def execEnableRequest (v : Word) (s : State) : Host.Outcome State Fault Refusal :=
  s.hostWrite (.node .ncfg) (v ||| 0x0001#16)

/-- A write to NCFG with enable 0 (R51, R53). -/
def execDisable (v : Word) (s : State) : Host.Outcome State Fault Refusal :=
  s.hostWrite (.node .ncfg) (v &&& 0xFFFE#16)

/-- The write register of a slice offset. -/
def offsetReg : OffsetReg → NodeWriteReg
  | .noutoff => .noutoff
  | .ninoff => .ninoff

/-- A write to NOUTOFF or NINOFF (R54). -/
def execSliceOffsetWrite (reg : OffsetReg) (v : Word) (s : State) : Host.Outcome State Fault Refusal :=
  s.hostWrite (.node (offsetReg reg)) v

/-- A write to NLEN (R54, R55). -/
def execNlenWrite (v : Word) (s : State) : Host.Outcome State Fault Refusal := s.hostWrite (.node .nlen) v

/-- A write to NCNT (R66). -/
def execNcntWrite (v : Word) (s : State) : Host.Outcome State Fault Refusal := s.hostWrite (.node .ncnt) v

/-- A write to CHG0 or CHG1 (R68). -/
def execChangeSetRemove (half : Half) (v : Word) (s : State) : Host.Outcome State Fault Refusal :=
  s.hostWrite (.chg half) v

/-- A write to ICTL with PUBLISH 1 (R72, R73). -/
def execPublish (v : Word) (s : State) : Host.Outcome State Fault Refusal := s.hostWrite .ictl (v ||| 0x0001#16)

/-- A write to ICTL with HOLD set 1 and HOLD clear 0 (R72, R81). -/
def execHoldSet (v : Word) (s : State) : Host.Outcome State Fault Refusal :=
  s.hostWrite .ictl ((v ||| 0x0002#16) &&& 0xFFFB#16)

/-- A write to ICTL with HOLD clear 1 and HOLD set 0 (R72, R81). -/
def execHoldClear (v : Word) (s : State) : Host.Outcome State Fault Refusal :=
  s.hostWrite .ictl ((v ||| 0x0004#16) &&& 0xFFFD#16)

/-- Any write to ICTL, which stores PTEST (R72, R85). -/
def execPtestWrite (v : Word) (s : State) : Host.Outcome State Fault Refusal := s.hostWrite .ictl v

/-- An access to the image window. -/
def Access.toImage (write : Bool) (lanes : Lanes) (addr : BitVec 11) (data : Word) : Access :=
  { window := .image, write := write, lanes := lanes, addr := addr, data := data }

/-- A host image write (R71, R76, R176, R177). -/
def execImageWrite (lanes : Lanes) (addr : BitVec 11) (data : Word) (s : State) : Host.Outcome State Fault Refusal :=
  .next (s.present (Access.toImage true lanes addr data))

/-- A host image read (R71, R86, R176, R177). -/
def execImageRead (lanes : Lanes) (addr : BitVec 11) (s : State) : Host.Outcome State Fault Refusal :=
  .next (s.present (Access.toImage false lanes addr 0))

/-- A put request (R91, R92). -/
def execCqput (v : Word) (s : State) : Host.Outcome State Fault Refusal := s.hostWrite .cqput v

/-- RQTAKE (R132). -/
def execRqtake (v : Word) (s : State) : Host.Outcome State Fault Refusal := s.hostWrite .rqtake v

/-- A write to IPEND (R166). -/
def execIpendClear (v : Word) (s : State) : Host.Outcome State Fault Refusal := s.hostWrite .ipend v

/-- A write to IEN (R168). -/
def execIenWrite (v : Word) (s : State) : Host.Outcome State Fault Refusal := s.hostWrite .ien v

/-- A write to FFLAG0 or FFLAG1 (R161). -/
def execFlagClear (half : Half) (v : Word) (s : State) : Host.Outcome State Fault Refusal := s.hostWrite (.fflag half) v

/-- A write to FCCODE (R163). -/
def execFccodeWrite (v : Word) (s : State) : Host.Outcome State Fault Refusal := s.hostWrite .fccode v

/-- A word write to any offset of the register window (R140, R165, R174, R181). -/
def execRegisterWrite (offset : BitVec 8) (v : Word) (s : State) : Host.Outcome State Fault Refusal :=
  .next (s.present (Access.writeAt offset v))

/-- A bus cycle of any kind (R50, R165, R171 to R175); a cycle that presents no access changes nothing (R173). -/
def execAccessFault (cycle : BusCycle) (s : State) : Host.Outcome State Fault Refusal :=
  match latchCycle cycle with
  | none => .next s
  | some a => .next (s.present a)

/-- A byte write to the register window (R175). -/
def execByteWrite (offset : BitVec 8) (high : Bool) (data : Word) (s : State) : Host.Outcome State Fault Refusal :=
  .next (s.present { Access.writeAt offset data with lanes := if high then .high else .low })

/-- The strobe is released (R171, R178). -/
def execStrobeRelease (s : State) : Host.Outcome State Fault Refusal := .next s.releaseStrobe

/-- The reset pin is asserted (R180). -/
def execHardwareReset (s : State) : Host.Outcome State Fault Refusal := .next s.assertReset

/-- The reset pin is released (R180). -/
def execResetPinRelease (s : State) : Host.Outcome State Fault Refusal := .next s.releaseReset

end Sys2Proof.Machine
end

