-- ==== Sys2Proof/Machine/LineEvents.lean ====
section
/-! DEFINITION. The events of the line and of the part's own timers (chapters 1, 2, 4 and 7). An event that does not fit
the state it meets changes nothing. -/

namespace Sys2Proof.Machine

open Sys2Proof

/-- An event of the part is taken: it is no longer due, and has its effect. While the reset pin is asserted it has none
(R180). -/
def State.event (s : State) (c : Instr) (effect : State → State) : State := unlessReset (fun s => effect (s.takeDue c)) s

/-- The waiting access, or both latched accesses, are taken at the end of the line copy (R177, R178). -/
def execWaitingAccessTaken (s : State) : Host.Outcome State Fault Refusal :=
  .next (s.event .waitingAccessTaken State.takeWaiting)

/-- An activity onset (R2, R13). The level of the line is the line's own and is followed in reset too. -/
def execActivityOnset (s : State) : Host.Outcome State Fault Refusal :=
  .next (if s.inReset then s.setRxd false else (s.takeDue .activityOnset).onset)

/-- The end of a received character (R2, R15, R16). -/
def execCharacterEnd (byte : Byte) (stopBit : Bool) (s : State) : Host.Outcome State Fault Refusal :=
  .next (s.event (.characterEnd byte stopBit) fun s => s.characterEnd byte stopBit)

/-- More than 10 bt of idle line after a character (R2, R16). -/
def execCharacterGap (s : State) : Host.Outcome State Fault Refusal := .next (s.event .characterGap State.characterGap)

/-- A reply window closes (R14). -/
def execWindowClose (s : State) : Host.Outcome State Fault Refusal := .next (s.event .windowClose State.windowClose)

/-- Window 2 of a PAIR slot opens (R14). -/
def execWindow2Open (s : State) : Host.Outcome State Fault Refusal := .next (s.event .window2Open State.window2Open)

/-- The slot that would start now reads beyond a bank. -/
def State.startBeyondBank (s : State) : Bool :=
  match s.slotToStart with
  | none => false
  | some k => s.slotBeyondBank k

/-- A slot end (R37, R45, R46). -/
def execSlotEnd (s : State) : Host.Outcome State Fault Refusal :=
  if !s.inReset && s.sched.state != .head && s.startBeyondBank then .fault .sliceBeyondBank
  else .next (s.event .slotEnd State.slotEnd)

/-- The end of the head segment (R45). -/
def execHeadSegmentEnd (s : State) : Host.Outcome State Fault Refusal :=
  if !s.inReset && s.sched.state == .head && s.startBeyondBank then .fault .sliceBeyondBank
  else .next (s.event .headSegmentEnd State.headEnd)

/-- A frame end (R3). -/
def execFrameEnd (s : State) : Host.Outcome State Fault Refusal := .next (s.event .frameEnd State.frameEnd)

/-- A readback mismatch, with the level that receive data shows (R20, R21). -/
def execLReadback (received : Bool) (s : State) : Host.Outcome State Fault Refusal :=
  .next (s.event (.lReadback received) fun s => s.readback received)

/-- The end of the abort mark (R4). -/
def execMarkEnd (s : State) : Host.Outcome State Fault Refusal := .next (s.event .markEnd State.markEnd)

/-- The line-quiet timer reaches Q (R22, R143, R149). -/
def execLineQuiet (s : State) : Host.Outcome State Fault Refusal := .next (s.event .lineQuiet State.takeLineQuiet)

/-- The line returns from 0 to 1 (R22). The level of the line is followed in reset too. -/
def execLineReturnsTo1 (s : State) : Host.Outcome State Fault Refusal :=
  .next (if s.inReset then s.setRxd true else (s.takeDue .lineReturnsTo1).lineReturns)

/-- One line copy of a catch-up copy (R77, R84, R183). -/
def execLineCopy (s : State) : Host.Outcome State Fault Refusal := .next (s.event .lineCopy State.lineCopy)

end Sys2Proof.Machine
end

