-- ==== Sys2Proof/Machine/BlockEvents.lean ====
section
/-! DEFINITION. What one block of the part takes from another (General Information, "How the blocks work together"): each
is an event of the block that takes it. -/

namespace Sys2Proof.Machine

open Sys2Proof

/-- The run controller takes an activity report (R143, R148). -/
def execActivityReport (s : State) : Host.Outcome State Fault Refusal :=
  .next (s.event .activityReport State.takeActivityReport)

/-- The run controller takes a link fault report (R147). -/
def execLinkFault (kind : LinkFaultKind) (s : State) : Host.Outcome State Fault Refusal :=
  .next (s.event (.linkFault kind) fun s => s.takeLinkFault kind)

/-- The node table takes a window outcome (R57). -/
def execNodeOutcome (node : NodeAddr) (kind : WindowKind) (slot : SlotIndex) (verdict : Verdict) (s : State) :
    Host.Outcome State Fault Refusal :=
  let c := Instr.nodeOutcome node kind slot verdict
  if c.wellFormed then .next (s.event c fun s => s.takeOutcome node kind slot verdict) else .refused .illFormed

/-- The node table takes a LATE notice (R65). -/
def execLateNotice (node : NodeAddr) (slot : SlotIndex) (s : State) : Host.Outcome State Fault Refusal :=
  let c := Instr.lateNotice node slot
  if c.wellFormed then .next (s.event c fun s => s.takeLate node slot) else .refused .illFormed

/-- The command engine takes an ACK outcome (R104). -/
def execAckOutcome (verdict : AckVerdict) (s : State) : Host.Outcome State Fault Refusal :=
  .next (s.event (.ackOutcome verdict) fun s => s.takeAck verdict)

/-- The image unit stores the input slice of a GOOD reply (R79). -/
def execReplyStorage (node : NodeAddr) (bytes : List Byte) (s : State) : Host.Outcome State Fault Refusal :=
  let c := Instr.replyStorage node bytes
  if !c.wellFormed then .refused .illFormed
  else if !s.inReset && s.storageBeyondBank node bytes then .fault .sliceBeyondBank
  else .next (s.event c fun s => s.storeReply node bytes)

/-- The result unit takes a result trailer (R121). -/
def execResultTrailer (node : NodeAddr) (tag : Byte) (serial outcome : BitVec 4) (data : List Byte) (s : State) :
    Host.Outcome State Fault Refusal :=
  let c := Instr.resultTrailer node tag serial outcome data
  if c.wellFormed then .next (s.event c fun s => s.takeTrailer node tag serial outcome data) else .refused .illFormed

/-- The command engine takes a node-down notice (R111). -/
def execNodeDownNotice (node : NodeAddr) (s : State) : Host.Outcome State Fault Refusal :=
  let c := Instr.nodeDownNotice node
  if c.wellFormed then .next (s.event c fun s => s.takeNodeDown node) else .refused .illFormed

/-- The command engine takes an abandon notice (R113). -/
def execAbandonNotice (s : State) : Host.Outcome State Fault Refusal :=
  .next (s.event .abandonNotice State.takeAbandon)

/-- The result unit takes the result timeouts of a cycle start (R126). One that the sender gives without a cycle start counts
all the same (DESIGN CHOICE, log entry 3). -/
def execResultTimeout (s : State) : Host.Outcome State Fault Refusal :=
  .next (s.event .resultTimeout State.takeTimeouts)

/-- The fault and interrupt unit takes a report (R157). -/
def execFaultReport (report : FaultReport) (s : State) : Host.Outcome State Fault Refusal :=
  let c := Instr.faultReport report
  if c.wellFormed then .next (s.event c fun s => s.takeReport report) else .refused .illFormed

end Sys2Proof.Machine
end

