-- ==== Sys2Proof/Machine/Clock.lean ====
section
/-! DEFINITION. The part's clock: what one tick of 0.05 µs with no command waiting and no event due brings. The part's own
timers expire here, and an expiry is an event that becomes due (R2, R3, R4, R14, R22, R37, R45, R183). -/

namespace Sys2Proof.Machine

open Sys2Proof

/-- A timer one tick later, and whether it expires at that tick. -/
def countDown : Option Nat → Option Nat × Bool
  | none => (none, false)
  | some n => if n ≤ 1 then (none, true) else (some (n - 1), false)

/-- An expiry makes its event due. -/
def State.expire (s : State) (expired : Bool) (c : Instr) : State := if expired then s.hand c else s

/-- The frame timer (R3) and the abort mark timer (R4). In a frame that is being cut the abort mark begins at the bit
boundary (R4). -/
def State.tickFrame (s : State) : State :=
  let (frame, frameDone) := countDown s.timers.frame
  let (mark, markDone) := countDown s.timers.mark
  match s.timers.cut with
  | some n =>
    if n ≤ 1 then s.enterMark s.link.quietAfterMark
    else { s with timers := { s.timers with frame := frame, cut := some (n - 1) } }
  | none =>
    let s := { s with timers := { s.timers with frame := frame, mark := mark } }
    (s.expire frameDone .frameEnd).expire markDone .markEnd

/-- The window timers (R14). -/
def State.tickWindows (s : State) : State :=
  let (window, closed) := countDown s.timers.window
  let (window2, opened) := countDown s.timers.window2
  let s := { s with timers := { s.timers with window := window, window2 := window2 } }
  (s.expire closed .windowClose).expire opened .window2Open

/-- The idle line after a character of the reply passes 10 bt at this tick (R2, R16). -/
def State.gapEnds (s : State) : Bool :=
  decide (s.link.state = .receive) && s.link.rxd && s.timers.character.isNone
    && decide (s.timers.gap = s.bitTimes Config.characterGap + 1)

/-- The line-quiet count reaches Q at this tick (R22). -/
def State.quietEnds (s : State) : Bool :=
  s.link.quietRunning && s.link.rxd && decide (s.timers.quiet = s.bitTimes Config.quietInterval)

/-- One more tick of idle line, while receive data is 1; the gap counts between characters only (R2, R22). -/
def State.countIdle (s : State) : State :=
  if s.link.rxd then
    { s with timers := { s.timers with
        idle := s.timers.idle + 1
        gap := if s.timers.character.isSome then 0 else s.timers.gap + 1
        quiet := if s.link.quietRunning then s.timers.quiet + 1 else s.timers.quiet } }
  else s

/-- The character being received, which ends 10 bt after its onset (R2). -/
def State.tickCharacter (s : State) : State :=
  { s with timers := { s.timers with character := (countDown s.timers.character).1 } }

/-- The receiver's and the line-quiet timer's view of the line (R2, R16, R22). -/
def State.tickLine (s : State) : State :=
  let s := s.countIdle
  ((s.expire s.gapEnds .characterGap).expire s.quietEnds .lineQuiet).tickCharacter

/-- The event at which the head segment or the slot in progress ends (R37, R45). -/
def State.segmentEvent (s : State) : Instr :=
  match s.sched.state with
  | .head => .headSegmentEnd
  | .slot _ | .idle => .slotEnd

/-- The schedule unit's timer (R37, R45). -/
def State.tickSegment (s : State) : State :=
  let (segment, ended) := countDown s.timers.segment
  { s with timers := { s.timers with segment := segment } }.expire ended s.segmentEvent

/-- A line copy begins, and counts this tick (R77, R84, R183). -/
def State.beginLineCopy (s : State) (d : Direction) : State :=
  { s with
    image := { s.image with lineInProgress := some d }
    timers := { s.timers with lineCopy := some (Config.lineCopyTicks - 1) } }

/-- The image unit's line copies: the one in progress runs on; with none in progress the next begins, once host accesses
taken between them have had their time (R77, R177, R183). -/
def State.tickCopies (s : State) : State :=
  match s.image.lineInProgress, s.image.nextLine, s.timers.copyDelay with
  | some _, _, _ =>
    let (left, ended) := countDown s.timers.lineCopy
    { s with timers := { s.timers with lineCopy := left } }.expire ended .lineCopy
  | none, none, _ => s
  | none, some (d, _), 0 => s.beginLineCopy d
  | none, some _, n + 1 => { s with timers := { s.timers with copyDelay := n } }

/-- One tick of the clock. -/
def State.tick (s : State) : State := unlessReset (fun s => s.tickFrame.tickWindows.tickLine.tickSegment.tickCopies) s

end Sys2Proof.Machine
end

