-- ==== Sys2Proof/Machine/Dispatch.lean ====
section
/-! DEFINITION. The meaning of every command: one arm for each constructor. -/

namespace Sys2Proof.Machine

open Sys2Proof

/-- What a command does to everything but the queue of waiting commands. -/
def exec (i : Instr) (s : State) : Host.Outcome State Fault Refusal :=
  match i with
  | .run => Sys2Proof.Machine.execRun s
  | .stop => Sys2Proof.Machine.execStop s
  | .abort => Sys2Proof.Machine.execAbort s
  | .restart => Sys2Proof.Machine.execRestart s
  | .creset => Sys2Proof.Machine.execCreset s
  | .settingsWrite reg value => Sys2Proof.Machine.execSettingsWrite reg value s
  | .slotRecordWrite reg value => Sys2Proof.Machine.execSlotRecordWrite reg value s
  | .switch table => Sys2Proof.Machine.execSwitch table s
  | .cancel table => Sys2Proof.Machine.execCancel table s
  | .nodeConfigWrite value => Sys2Proof.Machine.execNodeConfigWrite value s
  | .enableRequest value => Sys2Proof.Machine.execEnableRequest value s
  | .disable value => Sys2Proof.Machine.execDisable value s
  | .sliceOffsetWrite reg value => Sys2Proof.Machine.execSliceOffsetWrite reg value s
  | .nlenWrite value => Sys2Proof.Machine.execNlenWrite value s
  | .ncntWrite value => Sys2Proof.Machine.execNcntWrite value s
  | .changeSetRemove half value => Sys2Proof.Machine.execChangeSetRemove half value s
  | .publish value => Sys2Proof.Machine.execPublish value s
  | .holdSet value => Sys2Proof.Machine.execHoldSet value s
  | .holdClear value => Sys2Proof.Machine.execHoldClear value s
  | .ptestWrite value => Sys2Proof.Machine.execPtestWrite value s
  | .imageWrite lanes addr data => Sys2Proof.Machine.execImageWrite lanes addr data s
  | .imageRead lanes addr => Sys2Proof.Machine.execImageRead lanes addr s
  | .cqput value => Sys2Proof.Machine.execCqput value s
  | .rqtake value => Sys2Proof.Machine.execRqtake value s
  | .ipendClear value => Sys2Proof.Machine.execIpendClear value s
  | .ienWrite value => Sys2Proof.Machine.execIenWrite value s
  | .flagClear half value => Sys2Proof.Machine.execFlagClear half value s
  | .fccodeWrite value => Sys2Proof.Machine.execFccodeWrite value s
  | .registerWrite offset value => Sys2Proof.Machine.execRegisterWrite offset value s
  | .accessFault cycle => Sys2Proof.Machine.execAccessFault cycle s
  | .byteWrite offset high data => Sys2Proof.Machine.execByteWrite offset high data s
  | .waitingAccessTaken => Sys2Proof.Machine.execWaitingAccessTaken s
  | .strobeRelease => Sys2Proof.Machine.execStrobeRelease s
  | .hardwareReset => Sys2Proof.Machine.execHardwareReset s
  | .activityOnset => Sys2Proof.Machine.execActivityOnset s
  | .characterEnd byte stopBit => Sys2Proof.Machine.execCharacterEnd byte stopBit s
  | .characterGap => Sys2Proof.Machine.execCharacterGap s
  | .windowClose => Sys2Proof.Machine.execWindowClose s
  | .window2Open => Sys2Proof.Machine.execWindow2Open s
  | .slotEnd => Sys2Proof.Machine.execSlotEnd s
  | .headSegmentEnd => Sys2Proof.Machine.execHeadSegmentEnd s
  | .frameEnd => Sys2Proof.Machine.execFrameEnd s
  | .lReadback received => Sys2Proof.Machine.execLReadback received s
  | .markEnd => Sys2Proof.Machine.execMarkEnd s
  | .lineQuiet => Sys2Proof.Machine.execLineQuiet s
  | .activityReport => Sys2Proof.Machine.execActivityReport s
  | .linkFault kind => Sys2Proof.Machine.execLinkFault kind s
  | .nodeOutcome node kind slot verdict => Sys2Proof.Machine.execNodeOutcome node kind slot verdict s
  | .lateNotice node slot => Sys2Proof.Machine.execLateNotice node slot s
  | .ackOutcome verdict => Sys2Proof.Machine.execAckOutcome verdict s
  | .replyStorage node bytes => Sys2Proof.Machine.execReplyStorage node bytes s
  | .resultTrailer node tag serial outcome data => Sys2Proof.Machine.execResultTrailer node tag serial outcome data s
  | .nodeDownNotice node => Sys2Proof.Machine.execNodeDownNotice node s
  | .abandonNotice => Sys2Proof.Machine.execAbandonNotice s
  | .resultTimeout => Sys2Proof.Machine.execResultTimeout s
  | .lineCopy => Sys2Proof.Machine.execLineCopy s
  | .faultReport report => Sys2Proof.Machine.execFaultReport report s
  | .lineReturnsTo1 => Sys2Proof.Machine.execLineReturnsTo1 s
  | .resetPinRelease => Sys2Proof.Machine.execResetPinRelease s

end Sys2Proof.Machine
end

