-- ==== Sys2Proof/Machine/Step.lean ====
section
/-! DEFINITION. One step of the block: the first waiting command, or else the first event that is due, or else a tick of
the clock. -/

namespace Sys2Proof.Machine

open Sys2Proof

/-- The front command of the queue is taken, with the rest of the queue left in the state. With no command waiting, the
part takes the first event that its own blocks and timers have made due, and with none due its clock ticks (DESIGN
CHOICE, log entries 1 and 2). -/
def step (s : State) : Host.Outcome State Fault Refusal :=
  match s.pending, s.due with
  | c :: rest, _ => exec c { s with pending := rest }
  | [], c :: _ => exec c s
  | [], [] => .next s.tick

/-- The state with the command that a table word spells at the front of its queue; unchanged where it spells none. -/
def State.withFetchWord (s : State) (nbits w : Nat) : State :=
  match decodeTableWord nbits w with
  | none => s
  | some c => { s with pending := c :: s.pending }

end Sys2Proof.Machine
end

