-- ==== Sys2Proof/Safety.lean ====
section
/-! DEFINITION. What statements about the machine are said with: when the port takes an access at once, timers one tick
later, entries settled one after another, what an entry into STOPPED or HALTED, a cycle start and a slot start leave, the
bytes of an output slice, what a slot end decides, what a window expects and which byte differs from it or completes a reply,
which entry an ACK outcome reaches, the table of the fault codes, what every register reads, and the laws that every state of
a run keeps. -/

namespace Sys2Proof.Machine

open Sys2Proof

/-! ### Accesses -/

/-- The port takes a register access at its presentation (R174): the part is not in reset and no access waits. -/
def State.Ready (s : State) : Prop := s.inReset = false ∧ s.port.state ≠ .waiting

/-- The port takes an image access at its presentation (R177): no line copy is in progress either. -/
def State.ImageReady (s : State) : Prop := s.Ready ∧ s.image.lineInProgress = none

/-- A write has been taken: the port is in TAKEN and drives nothing (R171). -/
def State.written (s : State) : State := s.setPort (Port.taken none)

/-- A read has been taken: the port is in TAKEN and drives a value (R171). -/
def State.driving (s : State) (v : Word) : State := s.setPort (Port.taken (some v))

/-- Reports handed to the fault and interrupt unit, behind what is due already (R157). -/
def State.reported (s : State) (code : FaultCode) (node : NodeAddr) (detail : Word) : State :=
  { s with due := s.due ++ [.faultReport { code := code, node := node, detail := detail }] }

/-- The bus cycle that presents an access (R171, R173). -/
def Access.cycle (a : Access) : BusCycle :=
  { rs := a.window == .registers, is := a.window == .image, rd := !a.write, wr := a.write, lanes := a.lanes,
    addr := a.addr, data := a.data }

/-- The state in which a waiting access is taken (R177): it is no longer due, and the port is free for it. -/
def State.atAccess (s : State) : State :=
  { s with port := Port.reset, due := s.due.erase .waitingAccessTaken }

/-- The state once a host image access has had its time: while a catch-up copy runs it puts the next line copy back by
0.1 µs, two ticks (R183). -/
def State.copyDelayed (s : State) : Timers :=
  { s.timers with
    copyDelay := s.timers.copyDelay + if s.image.outCopy.isSome = true ∨ s.image.inCopy.isSome = true then 2 else 0 }

/-! ### Timers -/

/-- A timer one tick later: off once it has run out. -/
def tickedTimer (o : Option Nat) : Option Nat := o.bind fun n => if n ≤ 1 then none else some (n - 1)

/-- The event of a timer that runs out at this tick. -/
def ranOut (o : Option Nat) (c : Instr) : List Instr := if o.any (fun n => decide (n ≤ 1)) then [c] else []

/-! ### Events -/

/-- The events of the line, of the part's timers and of its blocks, but for the two that carry the level of the line. -/
def isEvent : Instr → Bool
  | .waitingAccessTaken | .characterEnd .. | .characterGap | .windowClose | .window2Open | .slotEnd | .headSegmentEnd
  | .frameEnd | .lReadback .. | .markEnd | .lineQuiet | .activityReport | .linkFault .. | .nodeOutcome .. | .lateNotice ..
  | .ackOutcome .. | .replyStorage .. | .resultTrailer .. | .nodeDownNotice .. | .abandonNotice | .resultTimeout
  | .lineCopy | .faultReport .. => true
  | _ => false

/-! ### Settlement -/

/-- An outstanding entry in another condition. -/
def State.withEntry (s : State) (e : OutEntry) : State :=
  { s with cmd := { s.cmd with outstanding := s.cmd.outstanding.map fun x => if x.push = e.push then e else x } }

/-- An outstanding entry settled now (R110, R129 to R131, R133): it takes the next settle-order number and the cycle number;
with room in the response queue and no item waiting its response joins the tail and its place is freed, and otherwise it is
HELD in its place. -/
def State.settledAs (s : State) (e : OutEntry) (status : Status) (code : Byte) (data : List Byte) : State :=
  if s.result.responses.length < 16 ∧ s.waitingOrders = [] then
    { s with
      cmd := { s.cmd with outstanding := s.cmd.outstanding.filter fun x => x.push != e.push }
      result := { responses := s.result.responses ++
                    [{ tag := e.tag, node := e.node, op := e.op, status := status, code := code,
                       cycle := s.sched.cycleNumber, data := data }]
                  nextOrder := s.result.nextOrder + 1 } }
  else
    { s.withEntry { e with state := .held {
        order := s.result.nextOrder, cycle := s.sched.cycleNumber, status := status, code := code, data := data } } with
      result := { s.result with nextOrder := s.result.nextOrder + 1 } }

/-- A WAITING queue entry settled NODE_DOWN now (R92, R111, R129 to R131): posted as an outstanding entry is, or DOOMED in
its place. -/
def State.settledQueueAs (s : State) (q : QueueEntry) : State :=
  if s.result.responses.length < 16 ∧ s.waitingOrders = [] then
    { s with
      cmd := { s.cmd with queue := s.cmd.queue.filter fun x => x.push != q.push }
      result := { responses := s.result.responses ++
                    [{ tag := q.tag, node := q.node, op := q.op, status := .nodeDown, code := 0,
                       cycle := s.sched.cycleNumber, data := [] }]
                  nextOrder := s.result.nextOrder + 1 } }
  else
    { s with
      cmd := { s.cmd with queue := s.cmd.queue.map fun x => if x.push = q.push then { q with doomed := some {
        order := s.result.nextOrder, cycle := s.sched.cycleNumber, status := .nodeDown, code := 0, data := [] } } else x }
      result := { s.result with nextOrder := s.result.nextOrder + 1 } }

/-- Outstanding entries settled one after another with one status (R110). -/
def State.settledEach (s : State) (es : List OutEntry) (status : Status) : State :=
  es.foldl (fun u e => u.settledAs e status 0 []) s

/-- WAITING queue entries settled NODE_DOWN one after another (R111). -/
def State.settledEachQueued (s : State) (qs : List QueueEntry) : State := qs.foldl State.settledQueueAs s

/-- The list holds the outstanding entries that meet a condition, in push order (R110). -/
def State.OutInOrder (s : State) (es : List OutEntry) (p : OutEntry → Prop) : Prop :=
  es.Pairwise (fun a b => a.push < b.push) ∧ ∀ e, e ∈ es ↔ e ∈ s.cmd.outstanding ∧ p e

/-- The list holds the queue entries that meet a condition, in push order (R111). -/
def State.QueueInOrder (s : State) (qs : List QueueEntry) (p : QueueEntry → Prop) : Prop :=
  qs.Pairwise (fun a b => a.push < b.push) ∧ ∀ q, q ∈ qs ↔ q ∈ s.cmd.queue ∧ p q

/-! ### Acknowledgements -/

/-- The next ACK outcome is that of an entry's slot (R104), and the command engine has the mark of that slot cleared: the
in-flight mark, or the mark of an ended slot that is still to be taken (log entry 32). -/
def State.AckReaches (s : State) (e : OutEntry) (cleared : CmdEngine) : Prop :=
  (s.cmd.endedMarks = [] ∧ s.cmd.inFlightMark = some e.push ∧ cleared = { s.cmd with inFlightMark := none })
  ∨ ∃ rest, s.cmd.endedMarks = some e.push :: rest ∧ cleared = { s.cmd with endedMarks := rest }

/-! ### Run state -/

/-- The line is not used, or will not be once the abort mark has ended the frame that was cut (R4, R139). -/
abbrev State.LineUnused (s : State) : Prop :=
  s.link.state = .linkOff ∧ s.timers.cut = none ∨ s.marking = true ∧ s.link.quietAfterMark = false

/-- A pending publish that can be taken: no output catch-up copy is active (R75). -/
def State.publishTakable (s : State) : Bool := s.image.publishPending && s.image.outCopy.isNone

/-- What an entry into STOPPED leaves at every path but the controller reset (R42, R74, R75, R141, R154): a pending switch
taken, a pending publish taken when no output catch-up copy runs, and RUNCHG latched, with SWITCH and PUBL for what is
taken. -/
structure State.EntersStopped (s t : State) : Prop where
  run : t.run = { s.run with state := .stopped }
  line : t.LineUnused
  sched : t.sched = { s.sched with
    state := .idle, active := s.sched.pendingSwitch.getD s.sched.active, pendingSwitch := none }
  publishTaken : s.image.publishPending = true → s.image.outCopy = none →
    t.image.outHost = (!s.image.outHost) ∧ t.image.publishPending = false ∧ t.image.outCopy = some 0 ∧ t.image.outMap = 0
  publishKept : s.image.publishPending = false ∨ s.image.outCopy.isSome = true → t.image = s.image
  banks : t.image.out0 = s.image.out0 ∧ t.image.out1 = s.image.out1 ∧ t.image.in0 = s.image.in0 ∧ t.image.in1 = s.image.in1
  fault : t.fault = { s.fault with latches := t.fault.latches }
  latched : ∀ k, t.fault.latches.getLsbD k = (s.fault.latches.getLsbD k || k == 4
    || k == 1 && s.sched.pendingSwitch.isSome || k == 2 && s.publishTakable)

/-- The run states in which a run is in progress (R154). -/
def RunState.inRun : RunState → Bool
  | .settling | .running | .draining | .recovery | .resuming => true
  | .stopped | .halted => false

/-- The changes of the run state that latch RUNCHG (R154). -/
def RunState.changesTo : RunState → RunState → Bool
  | .stopped, r => r == .settling
  | .settling, r => r == .running || r == .stopped
  | .running, r => r == .draining || r == .stopped || r == .recovery
  | .draining, r => r == .stopped
  | .recovery, r => r == .stopped || r == .resuming || r == .halted
  | .resuming, r => r == .draining || r == .stopped || r == .running || r == .halted
  | .halted, r => r == .stopped

/-- The number of slots of the active table whose length is not 0 (R7). -/
def Sched.slotCount (u : Sched) : Nat :=
  ((List.range 16).filter fun k => (u.record u.active (BitVec.ofNat 4 k)).length != 0).length

/-- What a cycle start leaves (R7, R42, R44, R74, R75): the pending switch taken, the next cycle number, the HEAD frame begun
with that number, the count of the active table's non-zero slots and the table, the head segment timed, a pending publish
taken when no output catch-up copy runs, the result timeouts handed on, and CYC latched, with SWITCH and PUBL for what is
taken. -/
structure State.StartsCycle (s t : State) : Prop where
  number : t.sched.cycleNumber = s.sched.cycleNumber + 1
  head : t.sched.state = .head
  table : t.sched.active = s.sched.pendingSwitch.getD s.sched.active ∧ t.sched.pendingSwitch = none
    ∧ t.sched.tableA = s.sched.tableA ∧ t.sched.tableB = s.sched.tableB ∧ t.sched.pacing = s.sched.pacing
  line : t.link.state = .send ∧ t.link.exchange = .head
    ∧ t.link.frame = headFrame t.sched.cycleNumber t.sched.slotCount t.sched.active
    ∧ t.link.frameRate = s.link.rate
  timed : t.timers.frame = some (100 * Config.ticksPerBit s.link.rate)
    ∧ t.timers.segment = some (128 * Config.ticksPerBit s.link.rate)
  latched : ∀ k, k < 3 → t.fault.latches.getLsbD k = (s.fault.latches.getLsbD k || k == 0
    || k == 1 && s.sched.pendingSwitch.isSome || k == 2 && s.publishTakable)
  publishTaken : s.image.publishPending = true → s.image.outCopy = none →
    t.image.outHost = (!s.image.outHost) ∧ t.image.publishPending = false ∧ t.image.outCopy = some 0 ∧ t.image.outMap = 0
  publishKept : s.image.publishPending = false ∨ s.image.outCopy.isSome = true →
    t.image.outHost = s.image.outHost ∧ t.image.publishPending = s.image.publishPending
      ∧ t.image.outCopy = s.image.outCopy ∧ t.image.outMap = s.image.outMap
  timeouts : Instr.resultTimeout ∈ t.due
  others : t.nodes = s.nodes ∧ t.cmd = s.cmd ∧ t.result = s.result

/-- What an entry into HALTED leaves (R68, R115, R150): the line unused, every unsettled outstanding entry settled ABORTED in
push order, each live node OFFLINE with miss count 0, a member of the change set and with its node-down notice handed, the
other nodes as they were, the halt fault handed with its detail and no other, N_LOST among them, and RUNCHG latched; a
pending switch and a pending publish wait. -/
structure State.EntersHalted (s t : State) (code : FaultCode) (detail : Word) : Prop where
  halted : t.run.state = .halted
  idle : t.sched = { s.sched with state := .idle }
  line : t.LineUnused
  settled : (∀ e ∈ t.cmd.outstanding, e.unsettled = false) ∧ t.cmd.inFlightMark = none ∧ t.cmd.queue = s.cmd.queue
  aborted : ∀ es, s.OutInOrder es (fun e => e.unsettled = true) →
    t.cmd.outstanding = (s.settledEach es .aborted).cmd.outstanding ∧ t.result = (s.settledEach es .aborted).result
  nodes : ∀ n e, s.node? n = some e → t.node? n = some
    (if e.state = .online ∨ e.state = .lagging then { e with state := .offline, missCount := 0 } else e)
  changed : t.nodes.nsel = s.nodes.nsel ∧ ∀ n, NodeSet.has t.nodes.changeSet n = true ↔
    NodeSet.has s.nodes.changeSet n = true ∨ s.isLive n = true
  noneLive : ∀ n, t.isLive n = false
  reported : ∀ r, Instr.faultReport r ∈ t.due ↔
    Instr.faultReport r ∈ s.due ∨ r = { code := code, node := 0, detail := detail }
  noticed : ∀ n, Instr.nodeDownNotice n ∈ t.due ↔ Instr.nodeDownNotice n ∈ s.due ∨ s.isLive n = true
  fault : t.fault = { s.fault with latches := s.fault.latches ||| 0x0010#16 }
  image : t.image = s.image

/-- What a slot start leaves: the slot in progress and timed (R37), the slice fields of the nodes it names handed to the
link engine and the image unit (R56), and a frame begun on the line, or silence (R27). -/
structure State.StartsSlot (s t : State) (k : SlotIndex) (ex : Exchange) (frame : List Byte) : Prop where
  slot : t.sched.state = .slot k
  timed : t.timers.segment = some ((s.sched.record s.sched.active k).length.toNat * Config.ticksPerBit s.link.rate)
  handed : ∀ n, (n ∈ (s.sched.record s.sched.active k).namedNodes → ∀ e, s.node? n = some e →
      t.image.sliceOf n = some { node := n, outOff := e.outOff, outLen := e.outLen, inOff := e.inOff, inLen := e.inLen }
        ∧ t.link.inLen n = e.inLen.toNat)
    ∧ (n ∉ (s.sched.record s.sched.active k).namedNodes → t.image.sliceOf n = none ∧ t.link.inLen n = 0)
  carried : t.link.exchange = ex ∧ t.link.frame = frame
  line : if frame = [] then t.link.state = .guarding ∧ t.timers.frame = none
    else t.link.state = .send ∧ t.timers.frame = some (10 * frame.length * Config.ticksPerBit s.link.rate)
      ∧ t.link.frameRate = s.link.rate
  number : t.sched.cycleNumber = s.sched.cycleNumber

/-- The bytes are the data bytes of a node's output slice in the output link bank, in offset order (R78). -/
def State.SliceBytes (s : State) (e : NodeEntry) (bytes : List Byte) : Prop :=
  bytes.length = e.outLen.toNat
    ∧ ∀ i, i < e.outLen.toNat → bytes.getD i 0 = (s.image.outLinkBank.read (e.outOff.toNat + i)).setWidth 8

/-- No byte of node n's output slice has bad parity in the output link bank (R87). -/
def State.SliceGood (s : State) (n : NodeAddr) : Prop :=
  ∀ e a, s.node? n = some e → e.outOff.toNat ≤ a → a < e.outOff.toNat + e.outLen.toNat →
    (s.image.outLinkBank.read a).parityGood = true

/-- The first byte of node n's output slice with bad parity in the output link bank (R87). -/
def State.SliceBad (s : State) (n : NodeAddr) (a : Nat) : Prop :=
  ∃ e, s.node? n = some e ∧ (e.outOff.toNat ≤ a ∧ a < e.outOff.toNat + e.outLen.toNat)
    ∧ (s.image.outLinkBank.read a).parityGood = false
    ∧ ∀ b, e.outOff.toNat ≤ b → b < a → (s.image.outLinkBank.read b).parityGood = true

/-! ### Replies -/

/-- What a slot end decides of a window that is open, NONE, or of a reply in reception, BAD, and hands on: of an ORDER slot
the ACK outcome too (R16, R18, R37). -/
def State.decidedAtSlotEnd (s : State) (k : SlotIndex) : List Instr :=
  let acks (v : AckVerdict) : List Instr := match s.link.exchange with
    | .order _ _ => [.ackOutcome v]
    | .silent | .head | .data _ _ | .pair _ _ | .probe _ | .broadcast => []
  match s.link.state with
  | .receive =>
    acks .bad ++ [.nodeOutcome s.link.windowNode s.link.windowKind k (.bad (s.link.badFound.getD .cutBySlotEnd))]
  | .window => acks .silent ++ [.nodeOutcome s.link.windowNode s.link.windowKind k .silent]
  | .linkOff | .quietWait | .send | .mark | .lateWatch | .guarding => []

/-- A reply that the window in progress expects (R11, R12, R15, R182), as its bytes before the CRC, with what its GOOD
outcome hands on (R18). -/
def Link.Expects (l : Link) (k : SlotIndex) (body : List Byte) (handed : List Instr) : Prop :=
  let n := l.windowNode
  let header (kind : Byte) (len : Nat) : List Byte := [kind, n.setWidth 8, BitVec.ofNat 8 len]
  (∃ tag code reason : Byte, l.exchange = .order n tag ∧ (code = 1 ∨ code = 2 ∨ code = 3)
      ∧ body = header 0x22 3 ++ [tag, code, reason]
      ∧ handed = [.ackOutcome (if code = 1 then .accept else if code = 2 then .busy else .reject reason),
          .nodeOutcome n .order k .good])
  ∨ (∃ tr, ∃ slice : List Byte, l.exchange = .data n tr ∧ slice.length = l.inLen n ∧ body = header 0x20 slice.length ++ slice
      ∧ handed = [.replyStorage n slice, .nodeOutcome n .data k .good])
  ∨ (∃ (slice : List Byte) (tag mixed : Byte) (data : List Byte), l.exchange = .data n true
      ∧ slice.length = l.inLen n ∧ data.length ≤ 32
      ∧ body = header 0x21 (slice.length + 3 + data.length) ++ slice ++ [tag, mixed, BitVec.ofNat 8 data.length] ++ data
      ∧ handed = [.replyStorage n slice, .nodeOutcome n .data k .good,
          .resultTrailer n tag (mixed.extractLsb' 0 4) (mixed.extractLsb' 4 4) data])
  ∨ (∃ a b, ∃ slice : List Byte, l.exchange = .pair a b ∧ slice.length = l.inLen n ∧ body = header 0x20 slice.length ++ slice
      ∧ handed = [.replyStorage n slice, .nodeOutcome n .pair k .good])
  ∨ ∃ hi lo rev o i : Byte, l.exchange = .probe n ∧ body = header 0x23 5 ++ [hi, lo, rev, o, i]
      ∧ handed = [.nodeOutcome n .probe k (.ident ⟨hi.setWidth 16 <<< 8 ||| lo.setWidth 16, rev, o, i⟩)]

/-- The byte that follows those received differs from what the window expects there: the kind, the address, the payload
length, the trailer's result length, the tag or the code (R15, R16, R182). -/
def Link.Differs (l : Link) (b : Byte) : Prop :=
  let n := l.windowNode
  let got := l.received
  (got = [] ∧ match l.exchange with
    | .data _ tr => b ≠ 0x20 ∧ ¬ (tr = true ∧ b = 0x21)
    | .pair _ _ => b ≠ 0x20
    | .probe _ => b ≠ 0x23
    | .order _ _ => b ≠ 0x22
    | .silent | .head | .broadcast => False)
  ∨ (got.length = 1 ∧ b ≠ n.setWidth 8)
  ∨ (∃ kind addr, got = [kind, addr] ∧ match l.exchange with
      | .data n _ => kind ≠ 0x21 ∧ b.toNat ≠ l.inLen n
      | .pair _ _ => b.toNat ≠ l.inLen n
      | .probe _ => b ≠ 5
      | .order _ _ => b ≠ 3
      | .silent | .head | .broadcast => False)
  ∨ (∃ tr, l.exchange = .data n tr ∧ got.length = l.inLen n + 5 ∧ got.head? = some 0x21
      ∧ (32 < b.toNat ∨ (got.getD 2 0).toNat ≠ l.inLen n + 3 + b.toNat))
  ∨ ∃ tag, l.exchange = .order n tag ∧ (got.length = 3 ∧ b ≠ tag ∨ got.length = 4 ∧ b ≠ 1 ∧ b ≠ 2 ∧ b ≠ 3)

/-- The exchange of the slot has a reply window (R14). -/
def Link.Receives (l : Link) : Prop := match l.exchange with
  | .data _ _ | .pair _ _ | .probe _ | .order _ _ => True
  | .silent | .head | .broadcast => False

/-- The bytes are as many as the reply that the window expects: 5 and the payload, which for an INPUT+T reply is the slice and
the trailer, known from the result length on (R11, R12). -/
def Link.Completes (l : Link) (bytes : List Byte) : Prop := match l.exchange with
  | .data n _ =>
    if bytes.head? = some 0x21 then
      l.inLen n + 5 < bytes.length ∧ bytes.length = 5 + l.inLen n + 3 + (bytes.getD (l.inLen n + 5) 0).toNat
    else bytes.length = 5 + l.inLen n
  | .pair _ _ => bytes.length = 5 + l.inLen l.windowNode
  | .probe _ => bytes.length = 10
  | .order _ _ => bytes.length = 8
  | .silent | .head | .broadcast => False

/-! ### Selection -/

/-- What R97 and R98 ask of a first transmission: the entry is WAITING, its node is 0, or live with credit to spare, the
outstanding table has a free place, no older WAITING entry names the node, a barrier entry has nothing older unsettled, and
no older barrier is unsettled, waiting or sent. -/
structure State.MayStart (s : State) (q : QueueEntry) : Prop where
  queued : q ∈ s.cmd.queue ∧ q.waiting = true
  node : q.node = 0 ∨ s.isLive q.node = true ∧ s.inFlight q.node < s.credit q.node
  place : s.cmd.outstanding.length < 8
  oldest : ∀ r ∈ s.cmd.queue, r.waiting = true → r.node = q.node → q.push ≤ r.push
  barrier : q.barrier = true ∨ q.node = 0 →
    (∀ r ∈ s.cmd.queue, r.waiting = true → q.push ≤ r.push) ∧ ∀ e ∈ s.cmd.outstanding, e.unsettled = true → q.push ≤ e.push
  held : (∀ r ∈ s.cmd.queue, r.waiting = true → (r.barrier = true ∨ r.node = 0) → q.push ≤ r.push)
    ∧ ∀ e ∈ s.cmd.outstanding, e.unsettled = true → s.cmd.barrierSent = some e.push → q.push ≤ e.push

/-! ### Fault codes -/

/-- The nineteen fault codes: class, number within the class (section 8.1), and the register and bit of the sticky flag
(section 10.7). -/
def faultCodes : List (FaultCode × Nat × Nat × Half × Nat) :=
  [(.hAccess, 1, 1, .reg0, 0), (.hLocked, 1, 2, .reg0, 1), (.hPush, 1, 3, .reg0, 2), (.hPop, 1, 4, .reg0, 3),
    (.hSched, 1, 5, .reg0, 4), (.hBudget, 1, 6, .reg0, 5), (.hImage, 1, 7, .reg0, 6), (.nLost, 2, 1, .reg0, 8),
    (.nMismatch, 2, 2, .reg0, 9), (.nBad, 2, 3, .reg0, 10), (.nLate, 2, 4, .reg0, 11), (.nStray, 2, 5, .reg0, 12),
    (.mHostrd, 3, 1, .reg1, 0), (.mLinkrd, 3, 2, .reg1, 1), (.mCopy, 3, 3, .reg1, 2), (.lForeign, 4, 1, .reg1, 4),
    (.lReadback, 4, 2, .reg1, 5), (.xRecovery, 5, 1, .reg1, 8), (.xResume, 5, 2, .reg1, 9)]

/-! ### What the registers read (chapter 10) -/

/-- The registers of the part, the run controller, the settings and the schedule unit (R1, R25, R33, R39, R48, R117,
R138). -/
structure State.ReadsRun (s : State) : Prop where
  ident : s.readRegister .ident = 0x2141
  rstate : (s.readRegister .rstate).toNat = (match s.run.state with
    | .stopped => 0 | .settling => 1 | .running => 2 | .draining => 3 | .recovery => 4 | .resuming => 5 | .halted => 6)
    + 256 * s.run.restarts.toNat
  lset : (s.readRegister .lset).toNat = s.link.rate.toNat + 256 * s.link.window.toNat
  cset : (s.readRegister .cset).toNat = s.sched.pacingSetting.toNat + 256 * s.cmd.retryLimit.toNat
  tset : (s.readRegister .tset).toNat = s.cmd.resultTimeout.toNat
  cycnum : s.readRegister .cycnum = s.sched.cycleNumber
  sstat : (s.readRegister .sstat).toNat = (if s.sched.active = .b then 1 else 0)
    + (if s.sched.pendingSwitch.isSome then 2 else 0) + (match s.sched.validation with
      | .unset => 0
      | .pass => 4
      | .fail t k reason => 8 + (if t = .b then 16 else 0) + 256 * k.toNat + 4096 * (match reason with
        | .rule => 1 | .length => 2 | .node => 3 | .budget => 4 | .empty => 5))
  ssel : (s.readRegister .ssel).toNat = s.sched.selSlot.toNat + if s.sched.selTable = .b then 256 else 0
  srule : (s.readRegister .srule).toNat = s.sched.addressed.rule.toNat + 256 * s.sched.addressed.nodeA.toNat
  snodeb : (s.readRegister .snodeb).toNat = s.sched.addressed.nodeB.toNat
  slen : s.readRegister .slen = s.sched.addressed.length

/-- The registers of the node table (R50, R67, R68). -/
structure State.ReadsNodes (s : State) : Prop where
  nsel : (s.readRegister .nsel).toNat = s.nodes.nsel.toNat
  none : s.nodes.nsel = 0 → ∀ r, s.readRegister (.node r) = 0
  ncfg : ∀ e, s.node? s.nodes.nsel = some e → (s.readRegister (.node .ncfg)).toNat
    = (if e.state = .disabled then 0 else 1) + 16 * e.credit.toNat + 256 * e.missLimit.toNat
  noutoff : ∀ e, s.node? s.nodes.nsel = some e → (s.readRegister (.node .noutoff)).toNat = e.outOff.toNat
  ninoff : ∀ e, s.node? s.nodes.nsel = some e → (s.readRegister (.node .ninoff)).toNat = e.inOff.toNat
  nlen : ∀ e, s.node? s.nodes.nsel = some e →
    (s.readRegister (.node .nlen)).toNat = e.outLen.toNat + 256 * e.inLen.toNat
  nstate : ∀ e, s.node? s.nodes.nsel = some e → (s.readRegister (.node .nstate)).toNat = (match e.state with
    | .disabled => 0 | .offline => 1 | .online => 2 | .lagging => 3 | .mismatch => 4) + 256 * e.missCount.toNat
  ncnt : ∀ e, s.node? s.nodes.nsel = some e →
    (s.readRegister (.node .ncnt)).toNat = e.badCount.toNat + 256 * e.lateCount.toNat
  identEmpty : ∀ e, s.node? s.nodes.nsel = some e → e.ident = .none →
    s.readRegister (.node .nidtype) = 0 ∧ s.readRegister (.node .nidrev) = 0 ∧ s.readRegister (.node .nidsize) = 0
  ident : ∀ e r, s.node? s.nodes.nsel = some e → e.ident = some r → s.readRegister (.node .nidtype) = r.typeCode
    ∧ (s.readRegister (.node .nidrev)).toNat = r.revision.toNat + 32768
    ∧ (s.readRegister (.node .nidsize)).toNat = r.outSize.toNat + 256 * r.inSize.toNat
  changed : ∀ k, k < 16 → (s.readRegister (.chg .reg0)).getLsbD k = s.nodes.changeSet.getLsbD k
    ∧ (s.readRegister (.chg .reg1)).getLsbD k = s.nodes.changeSet.getLsbD (16 + k)

/-- The registers of the image unit and of the command engine (R72, R80, R83, R90, R91, R94). -/
structure State.ReadsImage (s : State) : Prop where
  fresh : ∀ k, k < 16 → (s.readRegister (.fresh .reg0)).getLsbD k = s.image.hostFresh.getLsbD k
    ∧ (s.readRegister (.fresh .reg1)).getLsbD k = s.image.hostFresh.getLsbD (16 + k)
  istat : (s.readRegister .istat).toNat = (if s.image.outHost then 1 else 0) + (if s.image.inHost then 2 else 0)
    + (if s.image.publishPending then 4 else 0) + (if s.image.outCopy.isSome then 8 else 0)
    + (if s.image.inCopy.isSome then 16 else 0) + (if s.image.hold then 32 else 0) + if s.image.ptest then 64 else 0
  snapcyc : s.readRegister .snapcyc = s.image.snapCycle
  ctag : (s.readRegister .ctag).toNat = s.cmd.staging.tag.toNat
  cop : (s.readRegister .cop).toNat = s.cmd.staging.len.toNat + (if s.cmd.staging.barrier then 128 else 0)
    + 256 * s.cmd.staging.node.toNat + 8192 * s.cmd.staging.op.toNat
  cparam : s.readRegister .cparam = s.cmd.staging.param
  cdata : ∀ k : BitVec 4, s.readRegister (.cdata k) = s.cmd.staging.data[k.toNat]'k.isLt
  cputst : (s.readRegister .cputst).toNat = match s.cmd.putStatus with
    | .noneYet => 0 | .putOk => 1 | .full => 2 | .tagBusy => 3 | .badPut => 4
  cqlevel : s.cmd.queue.length ≤ 16 → s.cmd.outstanding.length ≤ 8 → (s.readRegister .cqlevel).toNat
    = s.cmd.queue.length + 256 * s.cmd.outstanding.length
      + 4096 * (s.cmd.outstanding.filter fun e => e.unsettled = false).length

/-- The registers of the result unit and of the fault and interrupt unit (R133, R135, R136, R164, R168). -/
structure State.ReadsResults (s : State) : Prop where
  empty : s.result.responses = [] → s.readRegister .rtag = 0 ∧ s.readRegister .rstat = 0 ∧ s.readRegister .rcode = 0
    ∧ s.readRegister .rcyc = 0 ∧ ∀ k, s.readRegister (.rdata k) = 0
  head : ∀ r rest, s.result.responses = r :: rest →
    (s.readRegister .rtag).toNat = r.tag.toNat + 256 * r.node.toNat
    ∧ (r.data.length ≤ 32 → (s.readRegister .rstat).toNat = (match r.status with
        | .done => 1 | .nodeError => 2 | .rejected => 3 | .noAck => 4 | .nodeBusy => 5 | .resultTimeout => 6
        | .nodeDown => 7 | .aborted => 8 | .sent => 9)
      + 16 * (match r.op with | .read => 1 | .write => 2 | .invoke => 3 | .reset => 4) + 256 * r.data.length)
    ∧ (s.readRegister .rcode).toNat = r.code.toNat ∧ s.readRegister .rcyc = r.cycle
    ∧ ∀ k : BitVec 4, (s.readRegister (.rdata k)).toNat
        = (r.data.getD (2 * k.toNat) 0).toNat + 256 * (r.data.getD (2 * k.toNat + 1) 0).toNat
  rqlevel : s.result.responses.length ≤ 16 → s.waitingOrders.length ≤ 24 →
    (s.readRegister .rqlevel).toNat = s.result.responses.length + 256 * s.waitingOrders.length
  ien : s.readRegister .ien = s.fault.enables
  flags : s.readRegister (.fflag .reg0) = s.fault.fflag0 ∧ s.readRegister (.fflag .reg1) = s.fault.fflag1
  noCapture : s.fault.capture = none → s.readRegister .fccode = 0 ∧ s.readRegister .fcnode = 0
    ∧ s.readRegister .fcdetail = 0 ∧ s.readRegister .fccyc = 0
  capture : ∀ c, s.fault.capture = some c →
    (s.readRegister .fccode).toNat = c.code.number + 256 * c.code.classNumber
    ∧ (s.readRegister .fcnode).toNat = c.node.toNat ∧ s.readRegister .fcdetail = c.detail
    ∧ s.readRegister .fccyc = c.cycle

/-- The read register of each even offset below 3Ch and from 5Ch to 98h outside RDATA (section 10.1). -/
def readOffsets : List (Nat × ReadReg) :=
  [(0x00, .ident), (0x02, .rstate), (0x04, .lset), (0x06, .cset), (0x08, .tset), (0x0A, .cycnum), (0x0C, .sstat),
    (0x0E, .ssel), (0x10, .srule), (0x12, .snodeb), (0x14, .slen), (0x16, .nsel), (0x18, .node .ncfg),
    (0x1A, .node .noutoff), (0x1C, .node .ninoff), (0x1E, .node .nlen), (0x20, .node .nstate), (0x22, .node .ncnt),
    (0x24, .node .nidtype), (0x26, .node .nidrev), (0x28, .node .nidsize), (0x2A, .chg .reg0), (0x2C, .chg .reg1),
    (0x2E, .fresh .reg0), (0x30, .fresh .reg1), (0x32, .istat), (0x34, .snapcyc), (0x36, .ctag), (0x38, .cop),
    (0x3A, .cparam), (0x5C, .cputst), (0x5E, .cqlevel), (0x60, .rtag), (0x62, .rstat), (0x64, .rcode), (0x66, .rcyc),
    (0x88, .rqlevel), (0x8A, .ipend), (0x8C, .ien), (0x8E, .fflag .reg0), (0x90, .fflag .reg1), (0x92, .fccode),
    (0x94, .fcnode), (0x96, .fcdetail), (0x98, .fccyc)]

/-! ### Laws of memory and of the tables -/

/-- The four banks of image memory keep their canonical form. -/
def State.MemoryLaw (s : State) : Prop :=
  Memory.Canonical s.image.out0 ∧ Memory.Canonical s.image.out1 ∧ Memory.Canonical s.image.in0
    ∧ Memory.Canonical s.image.in1

/-- The capacities of the command queue, the outstanding table and the response queue (R93, R95, R134). -/
def State.CapacityLaw (s : State) : Prop :=
  s.cmd.queue.length ≤ 16 ∧ s.cmd.outstanding.length ≤ 8 ∧ s.result.responses.length ≤ 16

/-- The tag law: no tag is held by two entries across the command queue and the outstanding table (R91). -/
def State.TagLaw (s : State) : Prop := (s.cmd.queue.map (·.tag) ++ s.cmd.outstanding.map (·.tag)).Nodup

/-- Push-order numbers tell any two transactions apart, and the next number is above them all (R92). -/
def State.PushLaw (s : State) : Prop :=
  (s.cmd.queue.map (·.push) ++ s.cmd.outstanding.map (·.push)).Nodup
    ∧ ∀ p ∈ s.cmd.queue.map (·.push) ++ s.cmd.outstanding.map (·.push), p < s.cmd.nextPush

/-- Settle-order numbers tell any two waiting items apart, and the next number is above them all (R120, R129). -/
def State.SettleOrderLaw (s : State) : Prop := s.waitingOrders.Nodup ∧ ∀ o ∈ s.waitingOrders, o < s.result.nextOrder

/-- Whenever an item waits to be posted, the response queue holds 16 records (R130). -/
def State.ResponseLaw (s : State) : Prop :=
  s.result.responses.length ≤ 16 ∧ (s.waitingOrders ≠ [] → s.result.responses.length = 16)

/-- The credit law: the unsettled outstanding entries of a node never exceed its credit, once every node-down notice
handed for it has been taken (R96, R97). -/
def State.CreditLaw (s : State) : Prop :=
  ∀ n : NodeAddr, n ≠ 0 → Instr.nodeDownNotice n ∉ s.due → s.inFlight n ≤ s.credit n

/-- The third part of the miss law: an unsettled outstanding entry, or a WAITING one, of a node that is not live meets a
node-down notice still to be taken (R61, R111). -/
def State.NodeDownLaw (s : State) : Prop :=
  (∀ e ∈ s.cmd.outstanding, e.unsettled = true → e.node ≠ 0 →
    s.isLive e.node = true ∨ Instr.nodeDownNotice e.node ∈ s.due)
  ∧ ∀ q ∈ s.cmd.queue, q.waiting = true → q.node ≠ 0 → s.isLive q.node = true ∨ Instr.nodeDownNotice q.node ∈ s.due

/-! ### Laws of the nodes -/

/-- An offset lies in a slice. -/
def inSlice (off : BitVec 10) (len : BitVec 7) (a : Nat) : Prop := off.toNat ≤ a ∧ a < off.toNat + len.toNat

/-- The slice law: the slices of enabled nodes lie in their bank, and no two in one direction share a byte (R52). -/
def State.SliceLaw (s : State) : Prop :=
  (∀ n e, s.node? n = some e → e.state.isEnabled = true →
    e.outOff.toNat + e.outLen.toNat ≤ 1024 ∧ e.inOff.toNat + e.inLen.toNat ≤ 1024)
  ∧ ∀ n m e f, n ≠ m → s.node? n = some e → s.node? m = some f → e.state.isEnabled = true → f.state.isEnabled = true →
    ∀ a, ¬ (inSlice e.outOff e.outLen a ∧ inSlice f.outOff f.outLen a)
      ∧ ¬ (inSlice e.inOff e.inLen a ∧ inSlice f.inOff f.inLen a)

/-- The ranges of a node entry (R49), and the first two parts of the miss law (R61) but for the upper bound of a LAGGING
node's miss count, one less than its miss limit: a limit that is lowered below the count breaks it until the next miss. -/
def NodeEntry.Legal (e : NodeEntry) : Prop :=
  (1 ≤ e.credit.toNat ∧ e.credit.toNat ≤ 4) ∧ 1 ≤ e.missLimit.toNat ∧ e.outLen.toNat ≤ 64 ∧ e.inLen.toNat ≤ 64
    ∧ (e.state = .lagging → 1 ≤ e.missCount.toNat) ∧ (e.state ≠ .lagging → e.missCount = 0)

/-- Every node entry is in its ranges. -/
def State.NodeLaw (s : State) : Prop := ∀ n e, s.node? n = some e → e.Legal

/-! ### Laws of the run -/

/-- W and the result timeout keep to their ranges (R1, R117). -/
def State.SettingsLaw (s : State) : Prop := 8 ≤ s.link.window.toNat ∧ 1 ≤ s.cmd.resultTimeout.toNat

/-- In STOPPED the schedule unit is IDLE and the line is not used (R139), no switch is pending (R26, R42), and no publish
is pending while no output catch-up copy runs (R75). -/
def State.StoppedLaw (s : State) : Prop :=
  s.run.state = .stopped →
    s.sched.state = .idle ∧ s.LineUnused
      ∧ s.sched.pendingSwitch = none ∧ (s.image.publishPending = true → s.image.outCopy.isSome = true)

/-- Every non-zero slot of a table meets its minimum for the current W and slice lengths (R35). -/
def State.TableFits (s : State) (t : TableId) : Prop :=
  ∀ k, (s.sched.record t k).length ≠ 0 → s.slotMinimum (s.sched.record t k) ≤ (s.sched.record t k).length.toNat

/-- The budget law (R40), with what keeps a pending table valid until it is taken (R41). -/
def State.BudgetLaw (s : State) : Prop :=
  (s.run.state.inRun = true → s.TableFits s.sched.active) ∧ ∀ t, s.sched.pendingSwitch = some t → s.TableFits t

/-- Only the five event causes are latched (R166, R168). -/
def State.LatchLaw (s : State) : Prop := s.fault.latches &&& 0xFFE0#16 = 0

/-- Only an image access starts a wait (R171, R177). -/
def State.PortLaw (s : State) : Prop := ∀ a, s.port.first = some a → a.window = .image

/-- While the reset pin is asserted every block holds its hardware-reset values, no timer runs, and the part carries out
nothing (R180).
The level of the line is the line's own. -/
def State.ResetLaw (s : State) : Prop :=
  s.inReset = true →
    s.link = { Link.reset with rxd := s.link.rxd } ∧ s.sched = Sched.reset ∧ s.nodes = NodeTable.reset
      ∧ s.image = Image.reset ∧ s.cmd = CmdEngine.reset ∧ s.result = ResultUnit.reset ∧ s.run = RunControl.reset
      ∧ s.fault = FaultUnit.reset ∧ s.timers = Timers.reset ∧ s.due = []

end Sys2Proof.Machine
end

