-- ==== Sys2Proof/Certificates/Slice0/Obligations.lean ====
section
/-! DEFINITION. The statements for the provers. -/

open Sys2Proof Sys2Proof.Machine

/-! ### The step, and what stands on the line -/

/-- Step takes the command at the front of the queue and answers what exec answers on it with the queue's rest. With no
command waiting it takes the first event that is due, and with none due the clock ticks, 0.05 µs each: the model's choice,
log entries 1 and 2. At a tick each timer that runs comes down by one, and one that runs out makes its event due (R3, R4,
R14, R37, R45); idle line counts, a gap of more than 10 bt ends a reception (R2) and 256 bt of idle line end a quiet wait
(R22); a frame that is being cut enters the abort mark, 20 bt of that frame, at the bit boundary (R1, R4); a line copy takes
eight ticks and the next begins when none is in progress, later by what host accesses have put it back (R177, R183). -/
def Obligations.StepTakesFrontCommand : Prop :=
  (∀ (c : Instr) (rest : List Instr) (s : State),
    step { s with pending := c :: rest } = exec c { s with pending := rest })
  ∧ (∀ s : State, s.pending = [] →
    (∀ c rest, s.due = c :: rest → step s = exec c s) ∧ (s.due = [] → step s = .next s.tick))
  ∧ (Config.ticksPerBit 0 = 16 ∧ Config.ticksPerBit 1 = 8 ∧ Config.ticksPerBit 2 = 4 ∧ Config.ticksPerBit 3 = 2)
  ∧ ∀ s : State, let t := s.tick
    let bt := Config.ticksPerBit s.link.rate
    (s.inReset = true → t = s)
    ∧ (∀ n, s.inReset = false → s.timers.cut = some n →
      (1 < n → t.link = s.link ∧ t.timers.cut = some (n - 1) ∧ t.timers.frame = tickedTimer s.timers.frame)
      ∧ (n ≤ 1 → t.link.state = .mark ∧ t.link.quietAfterMark = s.link.quietAfterMark
        ∧ t.timers.mark = some (20 * Config.ticksPerBit s.link.frameRate)
        ∧ t.timers.cut = none ∧ t.timers.frame = none ∧ t.driverEnable = true ∧ t.transmitData = false))
    ∧ (s.inReset = false → s.timers.cut = none →
      t = { s with
          image := { s.image with lineInProgress := t.image.lineInProgress }
          timers := t.timers
          due := s.due ++ ranOut s.timers.frame .frameEnd ++ ranOut s.timers.mark .markEnd
            ++ ranOut s.timers.window .windowClose ++ ranOut s.timers.window2 .window2Open
            ++ (if s.link.state = .receive ∧ s.link.rxd = true ∧ s.timers.character = none ∧ s.timers.gap = 10 * bt then
                [.characterGap] else [])
            ++ (if s.link.quietRunning = true ∧ s.link.rxd = true ∧ s.timers.quiet + 1 = 256 * bt then [.lineQuiet] else [])
            ++ ranOut s.timers.segment (if s.sched.state = .head then .headSegmentEnd else .slotEnd)
            ++ (if s.image.lineInProgress.isSome = true then ranOut s.timers.lineCopy .lineCopy else []) }
      ∧ t.timers = { t.timers with
          segment := tickedTimer s.timers.segment
          frame := tickedTimer s.timers.frame
          cut := none
          mark := tickedTimer s.timers.mark
          window := tickedTimer s.timers.window
          window2 := tickedTimer s.timers.window2
          character := tickedTimer s.timers.character }
      ∧ (s.link.rxd = false → t.timers.idle = s.timers.idle ∧ t.timers.gap = s.timers.gap ∧ t.timers.quiet = s.timers.quiet)
      ∧ (s.link.rxd = true → t.timers.idle = s.timers.idle + 1
        ∧ t.timers.gap = (if s.timers.character = none then s.timers.gap + 1 else 0)
        ∧ t.timers.quiet = s.timers.quiet + if s.link.quietRunning = true then 1 else 0)
      ∧ (∀ d, s.image.lineInProgress = some d → t.image.lineInProgress = some d
        ∧ t.timers.lineCopy = tickedTimer s.timers.lineCopy ∧ t.timers.copyDelay = s.timers.copyDelay)
      ∧ (s.image.lineInProgress = none → s.image.nextLine = none → t.image.lineInProgress = none
        ∧ t.timers.lineCopy = s.timers.lineCopy ∧ t.timers.copyDelay = s.timers.copyDelay)
      ∧ ∀ d k, s.image.lineInProgress = none → s.image.nextLine = some (d, k) →
        (∀ n, s.timers.copyDelay = n + 1 → t.image.lineInProgress = none ∧ t.timers.lineCopy = s.timers.lineCopy
          ∧ t.timers.copyDelay = n)
        ∧ (s.timers.copyDelay = 0 → t.image.lineInProgress = some d ∧ t.timers.lineCopy = some 7
          ∧ t.timers.copyDelay = 0))

/-- A reply's CRC is right exactly when the CRC computed over the bytes before it is the two bytes received, most
significant first, and the computation over all bytes then leaves 0; over the nine ASCII digits it is 29B1h (R6). The
downstream frames byte by byte, each with its CRC behind it, most significant byte first (R7 to R10, R182), and their sizes
(R5). -/
def Obligations.FrameSizesAndCrc : Prop :=
  (∀ (bytes : List Byte) (hi lo : Byte), crc16 (bytes ++ [hi, lo]) = 0 ↔ [hi, lo] = highFirst (crc16 bytes))
  ∧ crc16 [0x31, 0x32, 0x33, 0x34, 0x35, 0x36, 0x37, 0x38, 0x39] = 0x29B1#16
  ∧ (let sealed (body : List Byte) : List Byte := body ++ [(crc16 body >>> 8).setWidth 8, (crc16 body).setWidth 8]
    (∀ c n t, headFrame c n t = sealed [0x10, 0, 4, 0, (c >>> 8).setWidth 8, c.setWidth 8, BitVec.ofNat 8 n,
      if t = .b then 1 else 0])
    ∧ (∀ (n : NodeAddr) slice tr,
      dataFrame n slice tr = sealed ([0x11, n.setWidth 8, BitVec.ofNat 8 slice.length, if tr then 1 else 0] ++ slice))
    ∧ (∀ (a b : NodeAddr) sa sb, pairFrame a b sa sb = sealed ([0x12, a.setWidth 8,
      BitVec.ofNat 8 (2 + sa.length + sb.length), 0, b.setWidth 8, BitVec.ofNat 8 sa.length] ++ sa ++ sb))
    ∧ (∀ n : NodeAddr, probeFrame n = sealed [0x13, n.setWidth 8, 0, 0])
    ∧ ∀ e : OutEntry,
      let opCode : Nat := match e.op with | .read => 1 | .write => 2 | .invoke => 3 | .reset => 4
      let header (d : Nat) : List Byte := [0x14, e.node.setWidth 8, BitVec.ofNat 8 (5 + d), 0, e.tag,
        BitVec.ofNat 8 (e.serial.toNat + 16 * opCode), (e.param >>> 8).setWidth 8, e.param.setWidth 8, e.len.setWidth 8]
      (e.op = .read → orderFrame e = sealed (header 0))
      ∧ (e.op ≠ .read → e.len.toNat ≤ 32 → ∃ data : List Byte, data.length = e.len.toNat
        ∧ (∀ k, k < e.len.toNat → data.getD k 0 = (e.data.toList.getD (k / 2) 0 >>> (8 * (k % 2))).setWidth 8)
        ∧ orderFrame e = sealed (header e.len.toNat ++ data)))
  ∧ (∀ c n t, (headFrame c n t).length = 10)
  ∧ (∀ n slice tr, (dataFrame n slice tr).length = 6 + slice.length)
  ∧ (∀ a b sa sb, (pairFrame a b sa sb).length = 8 + sa.length + sb.length)
  ∧ (∀ n, (probeFrame n).length = 6)
  ∧ (∀ e : OutEntry, e.op = .read → (orderFrame e).length = 11)
  ∧ (∀ e : OutEntry, e.op ≠ .read → e.len.toNat ≤ 32 → (orderFrame e).length = 11 + e.len.toNat)

/-! ### Schedule -/

/-- The minimum of each rule and frame (R35), in the form the rule collects, and that a slot is judged with the current W
and the current slice lengths. -/
def Obligations.SlotMinimums : Prop :=
  ∀ (w : Nat) (o i : NodeAddr → Nat) (r : SlotRecord),
    let a := r.nodeA
    let b := r.nodeB
    let cyc := max (10 * (o a + i a) + w + 122) (w + 172)
    dataMinimum w (o a) (i a) = 10 * (o a + i a) + w + 122 ∧ probeMinimum w = w + 172 ∧ orderMinimum w = w + 522
    ∧ (r.rule = 0 → slotMinimum w o i r = 64)
    ∧ (r.rule = 1 → slotMinimum w o i r = cyc)
    ∧ (r.rule = 2 → slotMinimum w o i r = 10 * (o a + o b + i a + i b) + 2 * w + 200)
    ∧ (r.rule = 3 → slotMinimum w o i r = max (w + 522) cyc)
    ∧ (r.rule = 4 → slotMinimum w o i r = w + 522)
    ∧ ∀ s : State, s.slotMinimum r = slotMinimum s.link.window.toNat s.outLen s.inLen r

/-- Validation of a table (R38): each non-zero slot is checked for its rule, its length, its nodes and its budget in this
order; PASS where there is a non-zero slot and every one passes, EMPTY with slot 0 where there is none, and otherwise FAIL
with the lowest slot that fails and the first check it fails. RUN in STOPPED validates the active table, and a SWITCH that
is not refused by R41's first two conditions the table it names; SSTAT then holds the verdict and no table is changed. -/
def Obligations.ValidationVerdict : Prop :=
  ∀ (s : State) (t : TableId),
    let ruleOk (r : SlotRecord) : Prop := r.rule.toNat ≤ 4
    let lengthOk (r : SlotRecord) : Prop := 64 ≤ r.length.toNat
    let nodesOk (r : SlotRecord) : Prop :=
      (r.rule = 1 ∨ r.rule = 3 → r.nodeA ≠ 0) ∧ (r.rule = 2 → r.nodeA ≠ 0 ∧ r.nodeB ≠ 0 ∧ r.nodeA ≠ r.nodeB)
    let budgetOk (r : SlotRecord) : Prop := s.slotMinimum r ≤ r.length.toNat
    let passes (r : SlotRecord) : Prop := ruleOk r ∧ lengthOk r ∧ nodesOk r ∧ budgetOk r
    let fails (r : SlotRecord) (reason : FailReason) : Prop := match reason with
      | .rule => ¬ ruleOk r
      | .length => ruleOk r ∧ ¬ lengthOk r
      | .node => ruleOk r ∧ lengthOk r ∧ ¬ nodesOk r
      | .budget => ruleOk r ∧ lengthOk r ∧ nodesOk r ∧ ¬ budgetOk r
      | .empty => False
    (s.validate t = .pass ↔
      (∃ k, (s.sched.record t k).length ≠ 0) ∧ ∀ k, (s.sched.record t k).length ≠ 0 → passes (s.sched.record t k))
    ∧ (s.validate t = .fail t 0 .empty ↔ ∀ k, (s.sched.record t k).length = 0)
    ∧ (∀ k reason, reason ≠ .empty →
        (s.validate t = .fail t k reason ↔
          (s.sched.record t k).length ≠ 0 ∧ fails (s.sched.record t k) reason
          ∧ ∀ j : SlotIndex, j.toNat < k.toNat → (s.sched.record t j).length = 0 ∨ passes (s.sched.record t j)))
    ∧ (s.Ready → s.run.state = .stopped → ∃ u, exec .run s = .next u ∧ u.sched.validation = s.validate s.sched.active
        ∧ u.sched.tableA = s.sched.tableA ∧ u.sched.tableB = s.sched.tableB)
    ∧ (s.Ready → t ≠ s.sched.active → s.sched.pendingSwitch = none → ∃ u, exec (.switch t) s = .next u
        ∧ u.sched.validation = s.validate t ∧ u.sched.tableA = s.sched.tableA ∧ u.sched.tableB = s.sched.tableB)

/-! ### Run commands -/

/-- RUN in STOPPED with a table that passes (R142): SETTLING, the pacing counter 0, the line-quiet timer started with its
count at 0, or at the end of the abort mark if one is begun (R4); nodes, transactions and images are not changed. That a
direction given within the bit that is being cut, before the mark, waits for the end of the mark too is the model's choice,
log entry 6. -/
def Obligations.RunStartsSettling : Prop :=
  ∀ s : State, s.Ready → s.run.state = .stopped → s.validate s.sched.active = .pass →
    ∃ t, exec .run s = .next t
      ∧ t = { s with
          sched := { s.sched with validation := .pass, pacing := 0 }
          run := { s.run with state := .settling }
          fault := { s.fault with latches := s.fault.latches ||| 0x0010#16 }
          port := Port.taken none
          link := t.link
          timers := t.timers }
      ∧ (s.marking = false → t.link.state = .quietWait ∧ t.link.quietRunning = true ∧ t.link.burstSeen = false
          ∧ t.timers.quiet = 0)
      ∧ (s.marking = true → t.link = { s.link with quietAfterMark := true } ∧ t.timers = s.timers)

/-- RUN refused: with a table that fails, SSTAT shows the failure and H_SCHED is raised with its parts as detail; outside
STOPPED, H_LOCKED is raised and nothing else changes (R39, R142). -/
def Obligations.RunRefused : Prop :=
  ∀ s : State, s.Ready →
    (∀ t k reason, s.run.state = .stopped → s.validate s.sched.active = .fail t k reason →
      exec .run s = .next
        ({ s with sched := { s.sched with validation := .fail t k reason } }.reported .hSched 0
          (place k 0 ||| placeBit t.isB 4 ||| BitVec.ofNat 16 reason.number <<< 8)).written)
    ∧ (s.run.state ≠ .stopped → exec .run s = .next (s.reported .hLocked 0 0x0002#16).written)

/-- STOP by the run state at the write (R145): from SETTLING and RECOVERY it enters STOPPED, where a pending switch is taken
(R42), and a pending publish when no output catch-up copy runs (R75), with their causes latched (R74, R141). -/
def Obligations.StopByRunState : Prop :=
  ∀ s : State, s.Ready →
    (s.run.state = .stopped ∨ s.run.state = .draining ∨ s.run.state = .halted → exec .stop s = .next s.written)
    ∧ (s.run.state = .running ∨ s.run.state = .resuming →
        exec .stop s = .next { s with
          run := { s.run with state := .draining }
          fault := { s.fault with latches := s.fault.latches ||| 0x0010#16 }
          port := Port.taken none })
    ∧ (s.run.state = .settling ∨ s.run.state = .recovery →
        ∃ t, exec .stop s = .next t ∧ s.EntersStopped t ∧ t.port = Port.taken none ∧ t.nodes = s.nodes ∧ t.cmd = s.cmd
          ∧ t.result = s.result ∧ t.sched.cycleNumber = s.sched.cycleNumber ∧ t.sched.tableA = s.sched.tableA
          ∧ t.sched.tableB = s.sched.tableB)

/-- ABORT by the run state at the write (R4, R114, R146): in a run it enters STOPPED, and cuts a frame in transmission,
whose bit in progress goes on to its boundary, from where the abort mark is driven for 20 bt; a frame that is being cut gets
no second mark. That an ABORT exactly on a bit boundary begins the mark in the event itself, and that one within the bit
that is being cut gets no second mark, is the model's choice, log entry 6. Every unsettled outstanding entry settles ABORTED
in push order: it takes the next settle-order number and is posted, or HELD in its place. A pending switch and a pending
publish are taken with their causes latched (R42, R74, R75). In STOPPED and HALTED it has no effect. -/
def Obligations.AbortByRunState : Prop :=
  ∀ s : State, s.Ready →
    let left := s.timers.frame.getD 0 % Config.ticksPerBit s.link.frameRate
    (s.run.state.inRun = false → exec .abort s = .next s.written)
    ∧ (s.run.state.inRun = true → s.PushLaw →
        ∃ t, exec .abort s = .next t ∧ s.EntersStopped t ∧ t.port = Port.taken none ∧ t.nodes = s.nodes
          ∧ (s.link.state = .send → s.timers.cut = none → left ≠ 0 →
              t.link.state = .send ∧ t.timers.cut = some left ∧ t.timers.frame = s.timers.frame
                ∧ t.link.frame = s.link.frame ∧ t.transmitData = s.transmitData ∧ t.driverEnable = true)
          ∧ (s.link.state = .send → s.timers.cut = none → left = 0 →
              t.link.state = .mark ∧ t.timers.mark = some (20 * Config.ticksPerBit s.link.frameRate))
          ∧ (s.marking = true → t.link = { s.link with quietAfterMark := false } ∧ t.timers.cut = s.timers.cut
              ∧ t.timers.mark = s.timers.mark)
          ∧ (s.link.state ≠ .send → s.link.state ≠ .mark → t.link.state = .linkOff)
          ∧ t.cmd.queue = s.cmd.queue ∧ t.cmd.inFlightMark = none ∧ (∀ e ∈ t.cmd.outstanding, e.unsettled = false)
          ∧ (∀ es, s.OutInOrder es (fun e => e.unsettled = true) →
              t.cmd.outstanding = (s.settledEach es .aborted).cmd.outstanding
                ∧ t.result = (s.settledEach es .aborted).result)
          ∧ ∃ l, t.result.responses = s.result.responses ++ l
              ∧ ∀ r ∈ l, r.status = .aborted ∧ r.code = 0 ∧ r.data = [] ∧ r.cycle = s.sched.cycleNumber)

/-- RESTART in HALTED enters STOPPED, where a pending switch and a pending publish are taken with their causes latched (R42,
R74, R75, R141), and changes no node and no transaction; in any other run state it is refused with H_LOCKED (R151). -/
def Obligations.RestartByRunState : Prop :=
  ∀ s : State, s.Ready →
    (s.run.state = .halted →
      ∃ t, exec .restart s = .next t ∧ s.EntersStopped t ∧ t.port = Port.taken none ∧ t.nodes = s.nodes ∧ t.cmd = s.cmd
        ∧ t.result = s.result ∧ t.sched.cycleNumber = s.sched.cycleNumber)
    ∧ (s.run.state ≠ .halted → exec .restart s = .next (s.reported .hLocked 0 0x0002#16).written)

/-- CRESET in every run state (R69, R119, R137, R152, R170): each block's controller-reset values, with the configuration
kept; a frame in transmission is cut at the bit boundary by the abort mark, and a cut or mark that has begun goes on (R4); a
pending publish is taken when no output catch-up copy runs (R75), and no cause stays latched; no response is posted, no node-down
notice is handed and no fault is raised. That what other blocks have handed and is not yet taken is discarded, fault reports
and node-down notices among it, and that MARK_END stays due, is the model's choice, log entry 13; so is, log entry 6, that a
CRESET exactly on a bit boundary begins the mark in the event itself, and that one within the bit that is being cut gets no
second mark. -/
def Obligations.ControllerReset : Prop :=
  ∀ s : State, s.Ready →
    ∃ t, exec .creset s = .next t ∧ t.port = Port.taken none ∧ t.run = { state := .stopped, restarts := 0 }
      ∧ t.sched = { s.sched with pendingSwitch := none, validation := .unset, pacing := 0, state := .idle }
      ∧ t.cmd = { s.cmd with
          queue := [], outstanding := [], nextPush := 0, inFlightMark := none, endedMarks := [], barrierSent := none }
      ∧ t.result = { responses := [], nextOrder := 0 }
      ∧ t.fault = { fflag0 := 0, fflag1 := 0, capture := none, latches := 0, enables := 0 }
      ∧ t.nodes.changeSet = 0 ∧ t.nodes.nsel = s.nodes.nsel
      ∧ (∀ n e, s.node? n = some e → t.node? n = some { e with
          state := if e.state = .disabled then .disabled else .offline
          missCount := 0
          badCount := 0
          lateCount := 0
          ident := none
          serial := 0 })
      ∧ t.link.rate = s.link.rate ∧ t.link.window = s.link.window
      ∧ (s.link.state = .send → s.timers.cut = none →
          let left := s.timers.frame.getD 0 % Config.ticksPerBit s.link.frameRate
          (left ≠ 0 → t.link.state = .send ∧ t.timers.cut = some left ∧ t.transmitData = s.transmitData)
          ∧ (left = 0 → t.link.state = .mark ∧ t.timers.mark = some (20 * Config.ticksPerBit s.link.frameRate)))
      ∧ (s.marking = true → t.link = { s.link with quietAfterMark := false }
          ∧ t.timers = { s.timers with segment := none })
      ∧ (s.link.state ≠ .send → s.link.state ≠ .mark → t.link.state = .linkOff) ∧ t.LineUnused
      ∧ (s.marking = false → t.link.quietRunning = false ∧ t.link.received = [] ∧ t.timers.window = none
          ∧ t.timers.window2 = none)
      ∧ t.timers.segment = none ∧ t.pendingSet = 0x0200#16
      ∧ (∀ n, Instr.nodeDownNotice n ∉ t.due) ∧ (∀ r, Instr.faultReport r ∉ t.due)
      ∧ (Instr.markEnd ∈ s.due → Instr.markEnd ∈ t.due)
      ∧ (s.image.publishPending = false ∨ s.image.outCopy.isSome = true → t.image = s.image)
      ∧ (s.image.publishPending = true → s.image.outCopy = none → t.image.outHost = (!s.image.outHost)
          ∧ t.image.publishPending = false ∧ t.image.outCopy = some 0 ∧ t.image.outMap = 0 ∧ t.image.out0 = s.image.out0
          ∧ t.image.out1 = s.image.out1 ∧ t.image.in0 = s.image.in0 ∧ t.image.in1 = s.image.in1)

/-! ### Settings and schedule registers -/

/-- Writes to LSET, CSET and TSET are stored in STOPPED, with W below 8 stored as 8 and a timeout of 0 as 1, and refused
with H_LOCKED otherwise (R1, R117, R153). A frame that is being cut, and the mark that cuts it, keep their own rate: a new
one takes effect from the next RUN onward (R1, R4). -/
def Obligations.SettingsWrites : Prop :=
  ∀ (s : State) (v : Word), s.Ready →
    (s.run.state = .stopped →
      (∃ t, exec (.settingsWrite .lset v) s = .next t
        ∧ t = { s with
          link := { s.link with
            rate := v.extractLsb' 0 2, window := if (v.extractLsb' 8 8).toNat < 8 then 8 else v.extractLsb' 8 8 }
          port := Port.taken none }
        ∧ t.transmitData = s.transmitData ∧ t.link.frameRate = s.link.frameRate)
      ∧ exec (.settingsWrite .cset v) s = .next { s with
          sched := { s.sched with pacingSetting := v.extractLsb' 0 2 }
          cmd := { s.cmd with retryLimit := v.extractLsb' 8 3 }
          port := Port.taken none }
      ∧ exec (.settingsWrite .tset v) s = .next { s with
          cmd := { s.cmd with resultTimeout := if v.extractLsb' 0 8 = 0 then 1 else v.extractLsb' 0 8 }
          port := Port.taken none })
    ∧ (s.run.state ≠ .stopped →
      exec (.settingsWrite .lset v) s = .next (s.reported .hLocked 0 0x0004#16).written
      ∧ exec (.settingsWrite .cset v) s = .next (s.reported .hLocked 0 0x0006#16).written
      ∧ exec (.settingsWrite .tset v) s = .next (s.reported .hLocked 0 0x0008#16).written)

/-- A write to SRULE, SNODEB or SLEN stores its field of the addressed slot record, unless the record is locked: then the
record is unchanged and H_LOCKED is raised (R25, R26). A read of one of them is never refused. -/
def Obligations.SlotRecordWrites : Prop :=
  ∀ (s : State) (v : Word), s.Ready →
    let t := s.sched.selTable
    let k := s.sched.selSlot
    let r := s.sched.record t k
    let locked := (t = s.sched.active ∧ s.run.state ≠ .stopped) ∨ s.sched.pendingSwitch = some t
    (¬ locked →
      exec (.slotRecordWrite .srule v) s = .next
        { s with sched := s.sched.setRecord t k { r with rule := v.extractLsb' 0 3, nodeA := v.extractLsb' 8 5 } }.written
      ∧ exec (.slotRecordWrite .snodeb v) s = .next
          { s with sched := s.sched.setRecord t k { r with nodeB := v.extractLsb' 0 5 } }.written
      ∧ exec (.slotRecordWrite .slen v) s = .next
          { s with sched := s.sched.setRecord t k { r with length := v } }.written)
    ∧ (locked →
      exec (.slotRecordWrite .srule v) s = .next (s.reported .hLocked 0 0x0010#16).written
      ∧ exec (.slotRecordWrite .snodeb v) s = .next (s.reported .hLocked 0 0x0012#16).written
      ∧ exec (.slotRecordWrite .slen v) s = .next (s.reported .hLocked 0 0x0014#16).written)
    ∧ ∀ x ∈ [(0x08, ReadReg.srule), (0x09, ReadReg.snodeb), (0x0A, ReadReg.slen)],
        exec (.accessFault { rs := true, is := false, rd := true, wr := false, lanes := .word, addr := x.1, data := 0 }) s
          = .next (s.driving (s.readRegister x.2))

/-- SWITCH (R41, R42): refused with H_LOCKED for the active table or while a switch is pending; refused with H_SCHED for a
table that fails; taken at once in STOPPED; pending in any other run state, as SSTAT then shows, with the table locked.
CANCEL clears a pending switch, whatever table it names, and changes nothing else (R43). A write to SCTL with neither takes
no table command. -/
def Obligations.SwitchAndCancel : Prop :=
  ∀ (s : State) (t : TableId), s.Ready →
    (t = s.sched.active ∨ s.sched.pendingSwitch.isSome = true →
      exec (.switch t) s = .next (s.reported .hLocked 0 0x000C#16).written)
    ∧ (t ≠ s.sched.active → s.sched.pendingSwitch = none →
      (∀ u k reason, s.validate t = .fail u k reason →
        exec (.switch t) s = .next
          ({ s with sched := { s.sched with validation := .fail u k reason } }.reported .hSched 0
            (place k 0 ||| placeBit u.isB 4 ||| BitVec.ofNat 16 reason.number <<< 8)).written)
      ∧ (s.validate t = .pass → s.run.state = .stopped →
        exec (.switch t) s = .next { s with
          sched := { s.sched with validation := .pass, active := t, pendingSwitch := none }
          fault := { s.fault with latches := s.fault.latches ||| 0x0002#16 }
          port := Port.taken none })
      ∧ (s.validate t = .pass → s.run.state ≠ .stopped → ∃ u, exec (.switch t) s = .next u
        ∧ u = { s with sched := { s.sched with validation := .pass, pendingSwitch := some t }, port := Port.taken none }
        ∧ u.sched.sstat.getLsbD 1 = true ∧ u.tableLocked t = true))
    ∧ exec (.cancel t) s = .next { s with sched := { s.sched with pendingSwitch := none }, port := Port.taken none }
    ∧ ∀ v : Word, v.getLsbD 0 = v.getLsbD 1 → exec (.registerWrite 0x0C v) s = .next s.written

/-! ### Node registers -/

/-- An NCFG write that changes neither the enable nor, while the node is enabled, the credit (R51): the miss limit is stored
in every state, the credit while the node is DISABLED; another credit for an enabled node is refused with H_LOCKED. A
disable of an enabled node (R53, R62, R79): DISABLED at the write, its miss count 0 and its other counts and IDENT record
kept; it joins the change set, the image unit drops its slice copy, and a node-down notice is handed; with another credit in
the same write H_LOCKED is raised before it, and the disable is taken all the same. -/
def Obligations.NodeConfigWrites : Prop :=
  ∀ (s : State) (v : Word) (e : NodeEntry), s.Ready → s.node? s.nodes.nsel = some e →
    let limit : BitVec 4 := if v.extractLsb' 8 4 = 0 then 1 else v.extractLsb' 8 4
    let c : BitVec 3 := v.extractLsb' 4 3
    let credit : BitVec 3 := if c = 0 then 1 else if 4 < c.toNat then 4 else c
    (e.state = .disabled → v.getLsbD 0 = false →
      exec (.nodeConfigWrite v) s = .next (s.setNode s.nodes.nsel { e with missLimit := limit, credit := credit }).written)
    ∧ (e.state ≠ .disabled → v.getLsbD 0 = true → credit = e.credit →
      exec (.nodeConfigWrite v) s = .next (s.setNode s.nodes.nsel { e with missLimit := limit }).written)
    ∧ (e.state ≠ .disabled → v.getLsbD 0 = true → credit ≠ e.credit →
      exec (.nodeConfigWrite v) s = .next
        ((s.setNode s.nodes.nsel { e with missLimit := limit }).reported .hLocked s.nodes.nsel 0x0018#16).written)
    ∧ (e.state ≠ .disabled →
      exec (.disable v) s = .next
        { ((s.setNode s.nodes.nsel { e with missLimit := limit, state := .disabled, missCount := 0 }).joinChangeSet
            s.nodes.nsel) with
          image := { s.image with slices := s.image.slices.filter fun x => x.node != s.nodes.nsel }
          due := s.due ++ (if credit = e.credit then [] else [.faultReport ⟨.hLocked, s.nodes.nsel, 0x0018⟩])
            ++ [.nodeDownNotice s.nodes.nsel]
          port := Port.taken none })

/-- An enable request on a DISABLED node (R51, R52): the node enters OFFLINE with the limit and credit of the same write
and joins the change set when its slices lie in the bank and share no byte with an enabled node's. Otherwise it stays
DISABLED, with the limit and credit stored, and H_BUDGET reports the first check that fails: the output slice past the bank
(kind 1), the output slice overlapping (kind 2, with the lowest node it overlaps), and then the same for the input
direction. -/
def Obligations.EnableRequests : Prop :=
  ∀ (s : State) (v : Word) (e : NodeEntry), s.Ready → s.node? s.nodes.nsel = some e → e.state = .disabled →
    let n := s.nodes.nsel
    let limit : BitVec 4 := if v.extractLsb' 8 4 = 0 then 1 else v.extractLsb' 8 4
    let c : BitVec 3 := v.extractLsb' 4 3
    let credit : BitVec 3 := if c = 0 then 1 else if 4 < c.toNat then 4 else c
    let e' := { e with missLimit := limit, credit := credit }
    let outFits := e.outOff.toNat + e.outLen.toNat ≤ 1024
    let inFits := e.inOff.toNat + e.inLen.toNat ≤ 1024
    let outClash (m : NodeAddr) : Prop := m ≠ n ∧ ∃ f, s.node? m = some f ∧ f.state ≠ .disabled ∧ ∃ a,
      inSlice e.outOff e.outLen a ∧ inSlice f.outOff f.outLen a
    let inClash (m : NodeAddr) : Prop := m ≠ n ∧ ∃ f, s.node? m = some f ∧ f.state ≠ .disabled ∧ ∃ a,
      inSlice e.inOff e.inLen a ∧ inSlice f.inOff f.inLen a
    let refused (detail : Word) : Prop :=
      exec (.enableRequest v) s = .next ((s.setNode n e').reported .hBudget n detail).written
    (outFits → inFits → (∀ m, ¬ outClash m ∧ ¬ inClash m) →
      exec (.enableRequest v) s = .next ((s.setNode n { e' with state := .offline, missCount := 0 }).joinChangeSet n).written)
    ∧ (¬ outFits → refused 0x0100#16)
    ∧ (∀ m, outFits → outClash m → (∀ j, j.toNat < m.toNat → ¬ outClash j) → refused (0x0200#16 ||| m.setWidth 16))
    ∧ (outFits → (∀ m, ¬ outClash m) → ¬ inFits → refused 0x0180#16)
    ∧ (∀ m, outFits → (∀ j, ¬ outClash j) → inFits → inClash m → (∀ j, j.toNat < m.toNat → ¬ inClash j) →
      refused (0x0280#16 ||| m.setWidth 16))

/-- Writes to the slice fields (R54, R55): refused with H_LOCKED unless the node is DISABLED; an NLEN write is refused with
H_BUDGET for a length above 64 (kind 3, with the direction) or, outside STOPPED, when the budget check fails (kind 4);
otherwise it stores both lengths. -/
def Obligations.SliceFieldWrites : Prop :=
  ∀ (s : State) (v : Word) (e : NodeEntry), s.Ready → s.node? s.nodes.nsel = some e →
    let n := s.nodes.nsel
    let o : BitVec 7 := v.extractLsb' 0 7
    let i : BitVec 7 := v.extractLsb' 8 7
    (e.state ≠ .disabled →
      exec (.sliceOffsetWrite .noutoff v) s = .next (s.reported .hLocked n 0x001A#16).written
      ∧ exec (.sliceOffsetWrite .ninoff v) s = .next (s.reported .hLocked n 0x001C#16).written
      ∧ exec (.nlenWrite v) s = .next (s.reported .hLocked n 0x001E#16).written)
    ∧ (e.state = .disabled →
      exec (.sliceOffsetWrite .noutoff v) s = .next (s.setNode n { e with outOff := v.extractLsb' 0 10 }).written
      ∧ exec (.sliceOffsetWrite .ninoff v) s = .next (s.setNode n { e with inOff := v.extractLsb' 0 10 }).written
      ∧ (64 < o.toNat → exec (.nlenWrite v) s = .next (s.reported .hBudget n 0x0300#16).written)
      ∧ (o.toNat ≤ 64 → 64 < i.toNat → exec (.nlenWrite v) s = .next (s.reported .hBudget n 0x0380#16).written)
      ∧ (o.toNat ≤ 64 → i.toNat ≤ 64 → s.run.state ≠ .stopped → s.budgetPasses n o.toNat i.toNat = false →
          exec (.nlenWrite v) s = .next (s.reported .hBudget n 0x0400#16).written)
      ∧ (o.toNat ≤ 64 → i.toNat ≤ 64 → s.run.state = .stopped ∨ s.budgetPasses n o.toNat i.toNat = true →
          exec (.nlenWrite v) s = .next (s.setNode n { e with outLen := o, inLen := i }).written))

/-- The budget check passes exactly when every non-zero slot of the active table, and of the pending one if a switch is
pending, whose rule names the node keeps its minimum with the proposed lengths (R40). -/
def Obligations.BudgetCheckLooksAtNamedSlots : Prop :=
  ∀ (s : State) (n : NodeAddr) (o i : Nat),
    s.budgetPasses n o i = true ↔
      ∀ t, t = s.sched.active ∨ s.sched.pendingSwitch = some t → ∀ k,
        (s.sched.record t k).length ≠ 0 → n ∈ (s.sched.record t k).namedNodes →
          slotMinimum s.windowLength (fun m => if m = n then o else s.outLen m) (fun m => if m = n then i else s.inLen m)
            (s.sched.record t k) ≤ (s.sched.record t k).length.toNat

/-- A write of any value to NCNT sets the selected node's bad-reply count and late count to 0, and nothing else (R66); a
write to CHG0 or CHG1 removes the addresses marked 1 from the change set, and nothing else (R68). -/
def Obligations.CountsAndChangeSetCleared : Prop :=
  ∀ (s : State) (v : Word), s.Ready →
    (∀ e, s.node? s.nodes.nsel = some e →
      exec (.ncntWrite v) s = .next (s.setNode s.nodes.nsel { e with badCount := 0, lateCount := 0 }).written)
    ∧ ∀ h, ∃ t, exec (.changeSetRemove h v) s = .next t
        ∧ t = { s with nodes := { s.nodes with changeSet := t.nodes.changeSet }, port := Port.taken none }
        ∧ ∀ k, k < 32 → (t.nodes.changeSet.getLsbD k ↔ s.nodes.changeSet.getLsbD k = true ∧
            ¬ (match h with
              | .reg0 => k < 16 ∧ v.getLsbD k = true
              | .reg1 => 16 ≤ k ∧ v.getLsbD (k - 16) = true))

/-! ### The process image -/

/-- ICTL writes that request no publish (R72, R81, R85): PTEST takes the value written; HOLD becomes 1 or 0 by the set and
clear fields when exactly one of them is 1; nothing else changes. -/
def Obligations.IctlControls : Prop :=
  ∀ (s : State) (v : Word), s.Ready → v.getLsbD 0 = false →
    exec (.holdSet v) s = .next
      { s with image := { s.image with hold := true, ptest := v.getLsbD 6 }, port := Port.taken none }
    ∧ exec (.holdClear v) s = .next
      { s with image := { s.image with hold := false, ptest := v.getLsbD 6 }, port := Port.taken none }
    ∧ exec (.ptestWrite v) s = .next
      { s with
        image := { s.image with
          ptest := v.getLsbD 6
          hold := if v.getLsbD 1 = v.getLsbD 2 then s.image.hold else v.getLsbD 1 }
        port := Port.taken none }

/-- A publish request (R73, R74): in STOPPED with no output catch-up copy the output banks exchange roles at once, PUBL is
latched and the catch-up copy starts with its map empty; otherwise publish pending is set; a request while one is pending
changes nothing but the controls of the same write: PTEST, and HOLD where exactly one of HOLD set and HOLD clear is 1 (R72),
stored in each of the three cases. A write with HOLD set or HOLD clear that also has PUBLISH 1 is the same write. -/
def Obligations.PublishRequests : Prop :=
  ∀ (s : State) (v : Word), s.Ready →
    let hold := if v.getLsbD 1 = v.getLsbD 2 then s.image.hold else v.getLsbD 1
    (s.image.publishPending = true →
      exec (.publish v) s = .next
        { s with image := { s.image with ptest := v.getLsbD 6, hold := hold }, port := Port.taken none })
    ∧ (s.image.publishPending = false → s.run.state ≠ .stopped ∨ s.image.outCopy.isSome = true →
      exec (.publish v) s = .next { s with
        image := { s.image with ptest := v.getLsbD 6, hold := hold, publishPending := true }
        port := Port.taken none })
    ∧ (v.getLsbD 0 = true → exec (.holdSet v) s = exec (.publish ((v ||| 0x0002#16) &&& 0xFFFB#16)) s
      ∧ exec (.holdClear v) s = exec (.publish ((v ||| 0x0004#16) &&& 0xFFFD#16)) s
      ∧ exec (.ptestWrite v) s = exec (.publish v) s)
    ∧ (s.image.publishPending = false → s.run.state = .stopped → s.image.outCopy = none →
      exec (.publish v) s = .next { s with
        image := { s.image with
          ptest := v.getLsbD 6
          hold := hold
          outHost := !s.image.outHost
          publishPending := false
          outMap := 0
          outCopy := some 0
          outCopyBad := false
          copyTurn := .output }
        fault := { s.fault with latches := s.fault.latches ||| 0x0004#16 }
        port := Port.taken none })

/-- A host image write (R71, R76, R85, R176). Through the output host view each byte reached is stored with parity by
PTEST, and joins the map while the output catch-up copy is active; every other byte of every bank reads as before. A write
to a read-only view changes no byte and raises H_IMAGE with the lowest window offset reached. A null write reaches none.
While a catch-up copy runs, any other puts the next line copy back by 0.1 µs, two ticks of the clock (R183). -/
def Obligations.ImageWrites : Prop :=
  ∀ (s : State) (lanes : Lanes) (addr : BitVec 11) (data : Word), s.ImageReady → s.MemoryLaw →
    ∃ t, exec (.imageWrite lanes addr data) s = .next t
      ∧ t = { s with
          image := { s.image with out0 := t.image.out0, out1 := t.image.out1, outMap := t.image.outMap }
          timers := if lanes = .null then s.timers else s.copyDelayed
          due := t.due
          port := Port.taken none }
      ∧ (if s.image.outHost then t.image.out0 = s.image.out0 else t.image.out1 = s.image.out1)
      ∧ (lanes = .null → t.image = s.image ∧ t.due = s.due)
      ∧ (lanes ≠ .null → 512 ≤ addr.toNat → t.image = s.image ∧
          t.due = s.due ++ [.faultReport
            ⟨.hImage, 0, BitVec.ofNat 16 (2 * addr.toNat + if lanes = .high then 1 else 0)⟩])
      ∧ (lanes ≠ .null → addr.toNat < 512 → t.due = s.due ∧ ∀ a,
          t.image.outHostBank.read a =
            (if a = 2 * addr.toNat ∧ lanes ≠ .high then ImageByte.of (data.setWidth 8) s.image.ptest
            else if a = 2 * addr.toNat + 1 ∧ lanes ≠ .low then ImageByte.of ((data >>> 8).setWidth 8) s.image.ptest
            else s.image.outHostBank.read a)
          ∧ (a < 1024 → (t.image.outMap.getLsbD a ↔ s.image.outMap.getLsbD a = true ∨
              s.image.outCopy.isSome = true ∧
                (a = 2 * addr.toNat ∧ lanes ≠ .high ∨ a = 2 * addr.toNat + 1 ∧ lanes ≠ .low))))

/-- A host image read (R71, R86, R176): the data bits as stored are driven, each on its lane; the lowest window offset with
bad parity, if there is one, is raised as M_HOSTRD; no byte and no register changes, and while a catch-up copy runs the next
line copy is put back by 0.1 µs (R183). The four views of the window: the output and the input host bank, then the output and
the input link bank. A null access of either window is taken at once, also during a line copy: a read drives 0, and no block
is reached, nothing is raised and nothing else changes (R172). -/
def Obligations.ImageReads : Prop :=
  (∀ u : Image, u.outHostBank = (if u.outHost = true then u.out1 else u.out0)
    ∧ u.outLinkBank = (if u.outHost = true then u.out0 else u.out1)
    ∧ u.inHostBank = (if u.inHost = true then u.in1 else u.in0)
    ∧ u.inLinkBank = if u.inHost = true then u.in0 else u.in1)
  ∧ (∀ (u : Image) (a : Nat), a < 1024 →
    u.windowByte a = u.outHostBank.read a ∧ u.windowByte (1024 + a) = u.inHostBank.read a
      ∧ u.windowByte (2048 + a) = u.outLinkBank.read a ∧ u.windowByte (3072 + a) = u.inLinkBank.read a)
  ∧ (∀ s : State, s.Ready →
    (∀ addr, exec (.imageRead .null addr) s = .next (s.driving 0))
    ∧ (∀ addr data, exec (.imageWrite .null addr data) s = .next s.written)
    ∧ ∀ c : BusCycle, c.rs = true ∨ c.is = true → c.lanes = .null →
      (c.rd = true → c.wr = false → exec (.accessFault c) s = .next (s.driving 0))
      ∧ (c.wr = true → exec (.accessFault c) s = .next s.written))
  ∧ ∀ (s : State) (lanes : Lanes) (addr : BitVec 11), s.ImageReady → lanes ≠ .null →
    let o := 2 * addr.toNat
    let low := s.image.windowByte o
    let high := s.image.windowByte (o + 1)
    ∃ t, exec (.imageRead lanes addr) s = .next t
      ∧ t = { s with timers := s.copyDelayed, due := t.due, port := t.port }
      ∧ t.port = Port.taken (some (match lanes with
          | .word => low.data.setWidth 16 ||| high.data.setWidth 16 <<< 8
          | .low => low.data.setWidth 16
          | .high => high.data.setWidth 16 <<< 8
          | .null => 0))
      ∧ (lanes ≠ .high → low.parityGood = false →
          t.due = s.due ++ [.faultReport { code := .mHostrd, node := 0, detail := BitVec.ofNat 16 o }])
      ∧ (lanes ≠ .low → high.parityGood = false → lanes = .high ∨ low.parityGood = true →
          t.due = s.due ++ [.faultReport { code := .mHostrd, node := 0, detail := BitVec.ofNat 16 (o + 1) }])
      ∧ ((lanes = .high ∨ low.parityGood = true) → (lanes = .low ∨ high.parityGood = true) → t.due = s.due)

/-- One line copy (R77, R84, R85): each byte of the line whose offset is not in the map of the direction is copied with its
parity bit, from the output link bank to the output host bank or from the input host bank to the input link bank; every
other byte reads as before; after line 63 the copy is no longer active. The first byte moved with bad parity in a copy, the
lowest of the line, raises M_COPY (R88). While both copies run, the line in progress is the one copied, and the directions
take turns (R183). A publish that is pending is taken when line 63 of the output copy is done in STOPPED (R75). Where an
access waits, the end of the line copy makes WAITING_ACCESS_TAKEN due, and before it is taken no other line is copied
(R177). -/
def Obligations.LineCopied : Prop :=
  (∀ (u : Image) (k : BitVec 6),
    (u.nextLine = some (.output, k) ↔ u.outCopy = some k ∧ (u.inCopy = none ∨ u.lineInProgress.getD u.copyTurn = .output))
    ∧ (u.nextLine = some (.input, k) ↔ u.inCopy = some k ∧ (u.outCopy = none ∨ u.lineInProgress.getD u.copyTurn = .input)))
  ∧ (∀ s : State, s.inReset = false → s.port.state = .waiting →
    (s.image.lineInProgress = none → exec .lineCopy s = .next { s with due := s.due.erase .lineCopy })
    ∧ (s.image.lineInProgress.isSome = true → ∃ u, exec .lineCopy { s with port := Port.reset } = .next u
      ∧ exec .lineCopy s = .next { u with port := s.port, due := u.due ++ [.waitingAccessTaken] }))
  ∧ (∀ s : State, s.inReset = false → s.port.state ≠ .waiting → s.image.publishPending = true →
    ∃ u, exec .lineCopy { s with image := { s.image with publishPending := false } } = .next u
      ∧ (s.image.nextLine ≠ some (.output, 63) ∨ s.run.state ≠ .stopped →
        exec .lineCopy s = .next { u with image := { u.image with publishPending := true } })
      ∧ (s.image.nextLine = some (.output, 63) → s.run.state = .stopped → exec .lineCopy s = .next { u with
          image := { u.image with
            outHost := !u.image.outHost
            publishPending := false
            outMap := 0
            outCopy := some 0
            outCopyBad := false
            copyTurn := .output }
          fault := { u.fault with latches := u.fault.latches ||| 0x0004#16 } }))
  ∧ ∀ (s : State) (k : BitVec 6), s.inReset = false → s.MemoryLaw → s.port.state ≠ .waiting →
    s.image.publishPending = false →
    (s.image.nextLine = some (.output, k) →
      ∃ t, exec .lineCopy s = .next t
        ∧ t = { s with
            image := { s.image with
              out0 := t.image.out0
              out1 := t.image.out1
              outCopy := if k = 63 then none else some (k + 1)
              outCopyBad := t.image.outCopyBad
              copyTurn := if s.image.inCopy.isSome = true then .input else .output
              lineInProgress := none }
            timers := { s.timers with lineCopy := none }
            due := t.due }
        ∧ t.image.outLinkBank = s.image.outLinkBank
        ∧ (∀ a, t.image.outHostBank.read a =
            if a / 16 = k.toNat ∧ s.image.outMap.getLsbD a = false then s.image.outLinkBank.read a
            else s.image.outHostBank.read a)
        ∧ (s.image.outCopyBad = true ∨ (∀ a, a / 16 = k.toNat → s.image.outMap.getLsbD a = false →
              (s.image.outLinkBank.read a).parityGood = true) → t.due = s.due.erase .lineCopy)
        ∧ ∀ a, s.image.outCopyBad = false → a / 16 = k.toNat → s.image.outMap.getLsbD a = false →
            (s.image.outLinkBank.read a).parityGood = false →
            (∀ b, b < a → b / 16 = k.toNat → s.image.outMap.getLsbD b = false →
              (s.image.outLinkBank.read b).parityGood = true) →
            t.image.outCopyBad = true
              ∧ t.due = s.due.erase .lineCopy ++ [.faultReport ⟨.mCopy, 0, BitVec.ofNat 16 a⟩])
    ∧ (s.image.nextLine = some (.input, k) →
      ∃ t, exec .lineCopy s = .next t
        ∧ t = { s with
            image := { s.image with
              in0 := t.image.in0
              in1 := t.image.in1
              inCopy := if k = 63 then none else some (k + 1)
              inCopyBad := t.image.inCopyBad
              copyTurn := if s.image.outCopy.isSome = true then .output else .input
              lineInProgress := none }
            timers := { s.timers with lineCopy := none }
            due := t.due }
        ∧ t.image.inHostBank = s.image.inHostBank
        ∧ (∀ a, t.image.inLinkBank.read a =
            if a / 16 = k.toNat ∧ s.image.inMap.getLsbD a = false then s.image.inHostBank.read a
            else s.image.inLinkBank.read a)
        ∧ (s.image.inCopyBad = true ∨ (∀ a, a / 16 = k.toNat → s.image.inMap.getLsbD a = false →
              (s.image.inHostBank.read a).parityGood = true) → t.due = s.due.erase .lineCopy)
        ∧ ∀ a, s.image.inCopyBad = false → a / 16 = k.toNat → s.image.inMap.getLsbD a = false →
            (s.image.inHostBank.read a).parityGood = false →
            (∀ b, b < a → b / 16 = k.toNat → s.image.inMap.getLsbD b = false →
              (s.image.inHostBank.read b).parityGood = true) →
            t.image.inCopyBad = true
              ∧ t.due = s.due.erase .lineCopy ++ [.faultReport ⟨.mCopy, 0, BitVec.ofNat 16 a⟩])

/-- Reply storage (R79, R80): the bytes of a GOOD input slice are stored with correct parity from the slice copy's offset
onward in the input link bank, and join the input map while the input catch-up copy is active; the node joins the
link-side fresh set; every other byte reads as before. Without a slice copy of the node nothing is stored. -/
def Obligations.ReplyStored : Prop :=
  ∀ (s : State) (n : NodeAddr) (bytes : List Byte), s.inReset = false → s.MemoryLaw → n ≠ 0 → bytes.length ≤ 64 →
    (s.image.sliceOf n = none →
      exec (.replyStorage n bytes) s = .next { s with due := s.due.erase (.replyStorage n bytes) })
    ∧ ∀ c, s.image.sliceOf n = some c → c.inOff.toNat + bytes.length ≤ 1024 →
      ∃ t, exec (.replyStorage n bytes) s = .next t
        ∧ t = { s with
            image := { s.image with
              in0 := t.image.in0
              in1 := t.image.in1
              inMap := t.image.inMap
              linkFresh := NodeSet.insert s.image.linkFresh n }
            due := s.due.erase (.replyStorage n bytes) }
        ∧ t.image.inHostBank = s.image.inHostBank
        ∧ (∀ a, t.image.inLinkBank.read a =
            if c.inOff.toNat ≤ a ∧ a < c.inOff.toNat + bytes.length then
              ImageByte.of (bytes.getD (a - c.inOff.toNat) 0) false
            else s.image.inLinkBank.read a)
        ∧ ∀ a, a < 1024 → (t.image.inMap.getLsbD a ↔ s.image.inMap.getLsbD a = true ∨
            s.image.inCopy.isSome = true ∧ c.inOff.toNat ≤ a ∧ a < c.inOff.toNat + bytes.length)

/-! ### Commands and responses -/

/-- The check of a put (R91): BAD, then TAG_BUSY, then FULL, by the first check that fails; CPUTST takes the status, H_PUSH
is raised with it, and nothing else changes; a put that passes is accepted with PUT_OK and no fault. CPUTST reads 0 after a
hardware reset and is kept by a controller reset. -/
def Obligations.PutChecked : Prop :=
  ∀ (s : State) (v : Word), s.Ready →
    let r := s.cmd.staging
    let bad := ¬ ((1 ≤ r.op.toNat ∧ r.op.toNat ≤ 4) ∧ r.len.toNat ≤ 32 ∧ (r.op = 1 → 1 ≤ r.len.toNat ∧ r.node ≠ 0))
    let busy := (∃ q ∈ s.cmd.queue, q.tag = r.tag) ∨ ∃ e ∈ s.cmd.outstanding, e.tag = r.tag
    (bad → exec (.cqput v) s = .next
      ({ s with cmd := { s.cmd with putStatus := .badPut } }.reported .hPush r.node 4).written)
    ∧ (¬ bad → busy → exec (.cqput v) s = .next
      ({ s with cmd := { s.cmd with putStatus := .tagBusy } }.reported .hPush r.node 3).written)
    ∧ (¬ bad → ¬ busy → 16 ≤ s.cmd.queue.length → exec (.cqput v) s = .next
      ({ s with cmd := { s.cmd with putStatus := .full } }.reported .hPush r.node 2).written)
    ∧ (¬ bad → ¬ busy → s.cmd.queue.length < 16 → ∃ t, exec (.cqput v) s = .next t ∧ t.cmd.putStatus = .putOk
        ∧ t.cmd.nextPush = s.cmd.nextPush + 1 ∧ t.due = s.due)
    ∧ State.reset.readRegister .cputst = 0
    ∧ ∃ t, exec .creset s = .next t ∧ t.cmd.putStatus = s.cmd.putStatus

/-- A put accepted (R91, R92): the command joins the tail of the queue with the next push-order number, WAITING for node 0
or a live node; for any other node it settles NODE_DOWN in the same event, posted at once when the response queue has room
and nothing waits, and DOOMED in the queue otherwise. The push-order counter is 0 after either reset. -/
def Obligations.PutAccepted : Prop :=
  State.reset.cmd.nextPush = 0
  ∧ (∀ s : State, s.Ready → ∃ t, exec .creset s = .next t ∧ t.cmd.nextPush = 0)
  ∧ ∀ (s : State) (v : Word) (op : Op), s.Ready → s.PushLaw →
    let r := s.cmd.staging
    let q : QueueEntry := {
      tag := r.tag, node := r.node, op := op, barrier := r.barrier, param := r.param, len := r.len, data := r.data,
      push := s.cmd.nextPush, doomed := none }
    Op.ofCode r.op = some op → r.len.toNat ≤ 32 → (op = .read → 1 ≤ r.len.toNat ∧ r.node ≠ 0) →
    (∀ q ∈ s.cmd.queue, q.tag ≠ r.tag) → (∀ e ∈ s.cmd.outstanding, e.tag ≠ r.tag) → s.cmd.queue.length < 16 →
      (r.node = 0 ∨ s.isLive r.node = true →
        exec (.cqput v) s = .next { s with
          cmd := { s.cmd with putStatus := .putOk, nextPush := s.cmd.nextPush + 1, queue := s.cmd.queue ++ [q] }
          port := Port.taken none })
      ∧ (r.node ≠ 0 → s.isLive r.node = false → s.result.responses.length < 16 → s.waitingOrders = [] →
        exec (.cqput v) s = .next { s with
          cmd := { s.cmd with putStatus := .putOk, nextPush := s.cmd.nextPush + 1 }
          result := { responses := s.result.responses ++
                        [{ tag := r.tag, node := r.node, op := op, status := .nodeDown, code := 0,
                           cycle := s.sched.cycleNumber, data := [] }]
                      nextOrder := s.result.nextOrder + 1 }
          port := Port.taken none })
      ∧ (r.node ≠ 0 → s.isLive r.node = false → 16 ≤ s.result.responses.length ∨ s.waitingOrders ≠ [] →
        exec (.cqput v) s = .next { s with
          cmd := { s.cmd with
            putStatus := .putOk
            nextPush := s.cmd.nextPush + 1
            queue := s.cmd.queue ++ [{ q with doomed := some {
              order := s.result.nextOrder, cycle := s.sched.cycleNumber, status := .nodeDown, code := 0, data := [] } }] }
          result := { s.result with nextOrder := s.result.nextOrder + 1 }
          port := Port.taken none })

/-- RQTAKE (R132): on an empty response queue nothing changes and H_POP is raised; otherwise the head record is removed,
and if any item waits the one with the lowest settle-order number is posted to the tail. -/
def Obligations.ResponseTaken : Prop :=
  ∀ (s : State) (v : Word), s.Ready →
    (s.result.responses = [] → exec (.rqtake v) s = .next (s.reported .hPop 0 0).written)
    ∧ (∀ r rest, s.result.responses = r :: rest → s.waitingOrders = [] →
      exec (.rqtake v) s = .next { s with result := { s.result with responses := rest }, port := Port.taken none })
    ∧ (∀ r rest e st, s.result.responses = r :: rest → e ∈ s.cmd.outstanding → e.state = .held st →
      s.waitingOrders.Nodup → (∀ o ∈ s.waitingOrders, st.order ≤ o) →
      exec (.rqtake v) s = .next { s with
        result := { s.result with responses := rest ++ [{
          tag := e.tag, node := e.node, op := e.op, status := st.status, code := st.code, cycle := st.cycle
          data := st.data }] }
        cmd := { s.cmd with outstanding := s.cmd.outstanding.filter fun x => x.push != e.push }
        port := Port.taken none })
    ∧ (∀ r rest q st, s.result.responses = r :: rest → q ∈ s.cmd.queue → q.doomed = some st →
      s.waitingOrders.Nodup → (∀ o ∈ s.waitingOrders, st.order ≤ o) →
      exec (.rqtake v) s = .next { s with
        result := { s.result with responses := rest ++ [{
          tag := q.tag, node := q.node, op := q.op, status := st.status, code := st.code, cycle := st.cycle
          data := st.data }] }
        cmd := { s.cmd with queue := s.cmd.queue.filter fun x => x.push != q.push }
        port := Port.taken none })

/-- A GOOD ACK with ACCEPT or BUSY for the entry in AWAIT_ACK that the in-flight mark names (R105, R106): ACCEPT takes it to
ACCEPTED with its cycles left set to the result timeout, and settles a RESET DONE; BUSY counts and takes it to RETRY, and
the fifteenth settles it NODE_BUSY. The mark of that slot is cleared. Where the next slot start has set the mark anew before
the outcome is taken, the outcome still reaches the entry of its own slot and the later mark stands: the model's choice, log
entry 32. -/
def Obligations.AcceptAndBusyTaken : Prop :=
  ∀ (s : State) (e : OutEntry) (cleared : CmdEngine), s.inReset = false → s.PushLaw → e ∈ s.cmd.outstanding →
    e.state = .awaitAck → s.AckReaches e cleared →
    let taken (v : AckVerdict) : State := { s with cmd := cleared, due := s.due.erase (.ackOutcome v) }
    (e.op ≠ .reset → exec (.ackOutcome .accept) s =
      .next ((taken .accept).withEntry { e with state := .accepted, cyclesLeft := s.cmd.resultTimeout }))
    ∧ (e.op = .reset → exec (.ackOutcome .accept) s = .next ((taken .accept).settledAs e .done 0 []))
    ∧ (e.busy.toNat < 14 → exec (.ackOutcome .busy) s =
        .next ((taken .busy).withEntry { e with busy := e.busy + 1, state := .retry }))
    ∧ (e.busy = 14 → exec (.ackOutcome .busy) s = .next ((taken .busy).settledAs { e with busy := 15 } .nodeBusy 0 []))

/-- REJECT, and an ACK window that ends NONE or BAD, for the entry in AWAIT_ACK that the in-flight mark names (R107, R108):
REJECT settles it REJECTED with the reason as code; a miss takes one of its retries and takes it to RETRY, and with none
left settles it NO_ACK. The mark of that slot is cleared. An outcome that is taken after the next slot start reaches its own
slot's entry, the model's choice, log entry 32. -/
def Obligations.RejectAndMissTaken : Prop :=
  ∀ (s : State) (e : OutEntry) (cleared : CmdEngine), s.inReset = false → s.PushLaw → e ∈ s.cmd.outstanding →
    e.state = .awaitAck → s.AckReaches e cleared →
    let taken (v : AckVerdict) : State := { s with cmd := cleared, due := s.due.erase (.ackOutcome v) }
    (∀ reason, exec (.ackOutcome (.reject reason)) s = .next ((taken (.reject reason)).settledAs e .rejected reason []))
    ∧ ∀ v, v = .silent ∨ v = .bad →
      (e.retries = 0 → exec (.ackOutcome v) s = .next ((taken v).settledAs e .noAck 0 []))
      ∧ (e.retries ≠ 0 → exec (.ackOutcome v) s =
          .next ((taken v).withEntry { e with retries := e.retries - 1, state := .retry }))

/-- An ACK outcome or an abandon notice that finds the in-flight mark clear, or the entry it names no longer in AWAIT_ACK,
changes nothing (R104, R113); one of an ended slot goes by the mark of that slot, and that mark is done with (log entry 32);
an abandon notice that finds it in AWAIT_ACK takes it to RETRY with serial, retries left and busy count unchanged, and
clears the mark. -/
def Obligations.AbandonedOrderRetries : Prop :=
  ∀ (s : State), s.inReset = false →
    ((s.cmd.inFlightMark = none ∨ ∃ p, s.cmd.inFlightMark = some p ∧
        ∀ e ∈ s.cmd.outstanding, e.push = p → e.state ≠ .awaitAck) →
      (s.cmd.endedMarks = [] → ∀ v, exec (.ackOutcome v) s = .next { s with due := s.due.erase (.ackOutcome v) })
      ∧ exec .abandonNotice s = .next { s with due := s.due.erase .abandonNotice })
    ∧ (∀ m rest, s.cmd.endedMarks = m :: rest →
      (∀ p, m = some p → ∀ e ∈ s.cmd.outstanding, e.push = p → e.state ≠ .awaitAck) →
      ∀ v, exec (.ackOutcome v) s = .next { s with
        cmd := { s.cmd with endedMarks := rest }, due := s.due.erase (.ackOutcome v) })
    ∧ ∀ e ∈ s.cmd.outstanding, s.PushLaw → e.state = .awaitAck → s.cmd.inFlightMark = some e.push →
      exec .abandonNotice s = .next { s with
        cmd := { s.cmd with
          outstanding := s.cmd.outstanding.map fun x => if x.push = e.push then { e with state := .retry } else x
          inFlightMark := none }
        due := s.due.erase .abandonNotice }

/-- A result trailer (R121, R122, R124): one that matches an unsettled outstanding entry by node, tag and serial settles it
DONE with the data of a READ or INVOKE, or NODE_ERROR with the outcome as code; one that matches none settles nothing,
changes no entry and raises N_STRAY with the tag and serial. -/
def Obligations.TrailerSettlesOrIsStray : Prop :=
  ∀ (s : State) (n : NodeAddr) (tag : Byte) (serial outcome : BitVec 4) (data : List Byte),
    s.inReset = false → n ≠ 0 → data.length ≤ 32 →
    let c := Instr.resultTrailer n tag serial outcome data
    ((∀ e ∈ s.cmd.outstanding, e.node = n → e.tag = tag → e.serial = serial → e.unsettled = false) →
      exec c s = .next ({ s with due := s.due.erase c }.reported .nStray n (place tag 0 ||| place serial 8)))
    ∧ ∀ e : OutEntry, e ∈ s.cmd.outstanding → s.PushLaw → s.TagLaw → e.node = n → e.tag = tag → e.serial = serial →
      e.unsettled = true →
      exec c s = .next ({ s with due := s.due.erase c }.settledAs e
        (if outcome = 0 then .done else .nodeError) (outcome.setWidth 8)
        (if outcome = 0 ∧ (e.op = Op.read ∨ e.op = Op.invoke) then data else []))

/-- A node-down notice settles NODE_DOWN every unsettled outstanding entry of its node and then every WAITING queue entry of
it (R111), each group in push order: each takes the next settle-order number and is posted, or HELD or DOOMED in its place
(R110, R129, R130). It clears the in-flight mark if it named one of them, posts only NODE_DOWN records of that node, and
leaves every other node's entries as they were. -/
def Obligations.NodeDownSettlesItsNode : Prop :=
  ∀ (s : State) (n : NodeAddr), s.inReset = false → n ≠ 0 → s.PushLaw →
    ∃ t, exec (.nodeDownNotice n) s = .next t
      ∧ t = { s with
          cmd := { s.cmd with queue := t.cmd.queue, outstanding := t.cmd.outstanding, inFlightMark := t.cmd.inFlightMark }
          result := t.result
          due := s.due.erase (.nodeDownNotice n) }
      ∧ (∀ e ∈ t.cmd.outstanding, e.node = n → e.unsettled = false)
      ∧ (∀ q ∈ t.cmd.queue, q.node = n → q.waiting = false)
      ∧ t.cmd.outstanding.filter (fun e => e.node != n) = s.cmd.outstanding.filter (fun e => e.node != n)
      ∧ t.cmd.queue.filter (fun q => q.node != n) = s.cmd.queue.filter (fun q => q.node != n)
      ∧ (∀ p, s.cmd.inFlightMark = some p → (∃ e ∈ s.cmd.outstanding, e.push = p ∧ e.node = n ∧ e.unsettled = true) →
          t.cmd.inFlightMark = none)
      ∧ (∀ es qs, s.OutInOrder es (fun e => e.unsettled = true ∧ e.node = n) →
          s.QueueInOrder qs (fun q => q.waiting = true ∧ q.node = n) →
          let u := (s.settledEach es .nodeDown).settledEachQueued qs
          t.cmd.outstanding = u.cmd.outstanding ∧ t.cmd.queue = u.cmd.queue ∧ t.result = u.result)
      ∧ ∃ l, t.result.responses = s.result.responses ++ l
          ∧ ∀ r ∈ l, r.node = n ∧ r.status = .nodeDown ∧ r.code = 0 ∧ r.data = []

/-- The result timeouts of a cycle start (R126): every ACCEPTED entry's cycles left goes down by one, the others' stays, and
the entries that reach 0 settle RESULT_TIMEOUT in push order. Stated where none reaches 0, for a lone entry that does, and
for any number of them. -/
def Obligations.ResultTimeoutsTaken : Prop :=
  ∀ s : State, s.inReset = false →
    ((∀ e ∈ s.cmd.outstanding, e.state = .accepted → 2 ≤ e.cyclesLeft.toNat) →
      exec .resultTimeout s = .next { s with
        cmd := { s.cmd with outstanding := s.cmd.outstanding.map fun e =>
          if e.state = .accepted then { e with cyclesLeft := e.cyclesLeft - 1 } else e }
        due := s.due.erase .resultTimeout })
    ∧ (∀ e, s.cmd.outstanding = [e] → e.state = .accepted → e.cyclesLeft = 1 →
      exec .resultTimeout s = .next ({ s with due := s.due.erase .resultTimeout }.settledAs
        { e with cyclesLeft := 0 } .resultTimeout 0 []))
    ∧ (s.PushLaw → (∀ e ∈ s.cmd.outstanding, e.state = .accepted → 1 ≤ e.cyclesLeft.toNat) →
      let counted : State := { s with
        cmd := { s.cmd with outstanding := s.cmd.outstanding.map fun e =>
          if e.state = .accepted then { e with cyclesLeft := e.cyclesLeft - 1 } else e }
        due := s.due.erase .resultTimeout }
      ∀ es, counted.OutInOrder es (fun e => e.state = .accepted ∧ e.cyclesLeft = 0) →
        exec .resultTimeout s = .next (counted.settledEach es .resultTimeout))

/-- What a command opportunity sends (R97, R98, R100 to R102). A retry is chosen when an entry is in RETRY with its node live
or 0, and is the one with the lowest push order; it enters AWAIT_ACK with everything else as it was. Only without one is a
first transmission chosen, whenever a queue entry may start, and is the one with the lowest push order: it moves to the
outstanding table with the serial of its node's serial counter, which advances by one modulo 16, or serial 0 for a broadcast,
with retries left from the retry limit and busy count 0, in AWAIT_ACK. The in-flight mark names the entry sent. That cycles
left stand at 0 until the ACCEPT, that the mark of the last barrier sent is kept by its push order, and that the mark of an
ended slot is kept while its ACK outcome is still to be taken, are the model's choices, log entries 31, 10 and 32. -/
def Obligations.SelectionKeepsItsConditions : Prop :=
  ∀ s : State,
    let mayRetry (e : OutEntry) : Prop :=
      e ∈ s.cmd.outstanding ∧ e.state = .retry ∧ (e.node = 0 ∨ s.isLive e.node = true)
    let marks : List (Option Nat) := if s.cmd.endedMarks.length < s.due.countP isAckOutcome then
      s.cmd.endedMarks ++ [s.cmd.inFlightMark] else s.cmd.endedMarks
    (∀ e, s.chooseRetry = some e → mayRetry e ∧ ∀ f, mayRetry f → e.push ≤ f.push)
    ∧ (s.chooseRetry = none → ∀ e, ¬ mayRetry e)
    ∧ (∀ q, s.chooseFirst = some q → s.MayStart q ∧ ∀ r, s.MayStart r → q.push ≤ r.push)
    ∧ (s.chooseFirst = none → ∀ q, ¬ s.MayStart q)
    ∧ (s.chooseRetry = none → s.chooseFirst = none → s.selectCommand = none)
    ∧ (∀ e, s.chooseRetry = some e → s.selectCommand = some (e, { s with
        cmd := { s.cmd with
          outstanding := s.cmd.outstanding.map fun x => if x.push = e.push then { x with state := .awaitAck } else x
          inFlightMark := some e.push
          endedMarks := marks } }))
    ∧ ∀ q, s.chooseRetry = none → s.chooseFirst = some q →
      let sent (serial : BitVec 4) : OutEntry := {
        tag := q.tag, node := q.node, op := q.op, param := q.param, len := q.len, data := q.data, serial := serial
        push := q.push, state := .awaitAck, retries := s.cmd.retryLimit, busy := 0, cyclesLeft := 0 }
      let moved (e : OutEntry) : CmdEngine := { s.cmd with
        queue := s.cmd.queue.filter fun x => x.push != q.push
        outstanding := s.cmd.outstanding ++ [e]
        inFlightMark := some q.push
        endedMarks := marks
        barrierSent := if q.barrier = true ∨ q.node = 0 then some q.push else s.cmd.barrierSent }
      (q.node = 0 → s.selectCommand = some (sent 0, { s with cmd := moved (sent 0) }))
      ∧ ∀ n, s.node? q.node = some n → s.selectCommand = some (sent n.serial,
          { s.setNode q.node { n with serial := n.serial + 1 } with cmd := moved (sent n.serial) })

/-! ### Faults, interrupts and plain registers -/

/-- The pending set and the enable set (R163, R166 to R169, R181): IPEND reads the five event latches and the four level
conditions, IEN the enables; a write to IPEND clears the latches marked 1 and nothing else, a write to IEN stores the
enables and nothing else, and a write of any value to FCCODE empties the capture record, at which FAULT ceases; the
interrupt request line is asserted exactly while a cause is both pending and enabled. -/
def Obligations.InterruptSets : Prop :=
  ∀ (s : State) (v : Word), s.Ready → s.fault.latches &&& 0xFFE0#16 = 0 →
    (∀ k, k < 16 → (s.readRegister .ipend).getLsbD k =
      if k < 5 then s.fault.latches.getLsbD k
      else if k = 8 then !s.result.responses.isEmpty
      else if k = 9 then decide (s.cmd.queue.length ≤ 4)
      else if k = 10 then decide (s.nodes.changeSet ≠ 0)
      else if k = 11 then s.fault.capture.isSome
      else false)
    ∧ s.readRegister .ien = s.fault.enables
    ∧ (s.interruptAsserted = true ↔ s.readRegister .ipend &&& s.readRegister .ien ≠ 0)
    ∧ exec (.ipendClear v) s = .next
      { s with fault := { s.fault with latches := s.fault.latches &&& ~~~v }, port := Port.taken none }
    ∧ exec (.ienWrite v) s = .next
      { s with fault := { s.fault with enables := v &&& 0x0F1F#16 }, port := Port.taken none }
    ∧ ∃ t, exec (.fccodeWrite v) s = .next t
      ∧ t = { s with fault := { s.fault with capture := none }, port := Port.taken none }
      ∧ (t.readRegister .ipend).getLsbD 11 = false

/-- The sticky flags and the capture record (R157, R161, R162): the nineteen codes with their class, their number in it and
the place of their flag (sections 8.1 and 10.7). A report sets the flag of its code and no other; the capture
record takes it, stamped with the cycle number, when it is empty or holds a lower class, and otherwise stays. A write to
FFLAG0 or FFLAG1, which read them, clears the flags marked 1 and nothing else, and emptying the capture record changes no
flag. -/
def Obligations.FlagsAndCaptureRecord : Prop :=
  (∀ c : FaultCode, (c, c.classNumber, c.number, c.flagPlace) ∈ faultCodes)
  ∧ (∀ (s : State) (r : FaultReport), s.inReset = false → (r.code.isNodeClass = true → r.node ≠ 0) →
    ∃ t, exec (.faultReport r) s = .next t
      ∧ t = { s with
          fault := { s.fault with fflag0 := t.fault.fflag0, fflag1 := t.fault.fflag1, capture := t.fault.capture }
          due := s.due.erase (.faultReport r) }
      ∧ (match r.code.flagPlace with
          | (.reg0, k) => t.fault.fflag1 = s.fault.fflag1 ∧ t.fault.fflag0.getLsbD k = true
              ∧ ∀ j, j ≠ k → t.fault.fflag0.getLsbD j = s.fault.fflag0.getLsbD j
          | (.reg1, k) => t.fault.fflag0 = s.fault.fflag0 ∧ t.fault.fflag1.getLsbD k = true
              ∧ ∀ j, j ≠ k → t.fault.fflag1.getLsbD j = s.fault.fflag1.getLsbD j)
      ∧ (s.fault.capture = none → t.fault.capture =
          some { code := r.code, node := r.node, detail := r.detail, cycle := s.sched.cycleNumber })
      ∧ ∀ c, s.fault.capture = some c → t.fault.capture =
          if c.code.classNumber < r.code.classNumber then
            some { code := r.code, node := r.node, detail := r.detail, cycle := s.sched.cycleNumber }
          else some c)
  ∧ ∀ (s : State) (v : Word), s.Ready →
    exec (.flagClear .reg0 v) s = .next
      { s with fault := { s.fault with fflag0 := s.fault.fflag0 &&& ~~~v }, port := Port.taken none }
    ∧ exec (.flagClear .reg1 v) s = .next
      { s with fault := { s.fault with fflag1 := s.fault.fflag1 &&& ~~~v }, port := Port.taken none }
    ∧ exec (.fccodeWrite v) s = .next { s with fault := { s.fault with capture := none }, port := Port.taken none }
    ∧ s.readRegister (.fflag .reg0) = s.fault.fflag0 ∧ s.readRegister (.fflag .reg1) = s.fault.fflag1

/-- Word writes to the registers without behaviour of their own store their fields and nothing else (R25, R50, R90, R174,
R181), and a word write to any other register is the command of that register, in every state (R174, section 10.1). -/
def Obligations.PlainRegisterWrites : Prop :=
  (∀ (s : State) (v : Word),
    let is (offset : BitVec 8) (w : Word) (c : Instr) : Prop := exec (.registerWrite offset w) s = exec c s
    is 0x02 1 .run ∧ is 0x02 2 .stop ∧ is 0x02 3 .abort ∧ is 0x02 4 .restart ∧ is 0x02 5 .creset
    ∧ is 0x04 v (.settingsWrite .lset v) ∧ is 0x06 v (.settingsWrite .cset v) ∧ is 0x08 v (.settingsWrite .tset v)
    ∧ is 0x0C 0x0001 (.switch .a) ∧ is 0x0C 0x0101 (.switch .b) ∧ is 0x0C 0x0002 (.cancel .a) ∧ is 0x0C 0x0102 (.cancel .b)
    ∧ is 0x10 v (.slotRecordWrite .srule v) ∧ is 0x12 v (.slotRecordWrite .snodeb v) ∧ is 0x14 v (.slotRecordWrite .slen v)
    ∧ is 0x18 v (.nodeConfigWrite v) ∧ is 0x18 (v ||| 1) (.enableRequest v) ∧ is 0x18 (v &&& 0xFFFE) (.disable v)
    ∧ is 0x1A v (.sliceOffsetWrite .noutoff v) ∧ is 0x1C v (.sliceOffsetWrite .ninoff v) ∧ is 0x1E v (.nlenWrite v)
    ∧ is 0x22 v (.ncntWrite v) ∧ is 0x2A v (.changeSetRemove .reg0 v) ∧ is 0x2C v (.changeSetRemove .reg1 v)
    ∧ is 0x32 (v ||| 1) (.publish v) ∧ is 0x32 v (.ptestWrite v) ∧ is 0x5C v (.cqput v) ∧ is 0x88 v (.rqtake v)
    ∧ is 0x8A v (.ipendClear v) ∧ is 0x8C v (.ienWrite v) ∧ is 0x8E v (.flagClear .reg0 v) ∧ is 0x90 v (.flagClear .reg1 v)
    ∧ is 0x92 v (.fccodeWrite v))
  ∧ ∀ (s : State) (v : Word), s.Ready →
    exec (.registerWrite 0x0E v) s = .next { s with
      sched := { s.sched with selSlot := v.extractLsb' 0 4, selTable := if v.getLsbD 8 then .b else .a }
      port := Port.taken none }
    ∧ exec (.registerWrite 0x16 v) s = .next
      { s with nodes := { s.nodes with nsel := v.extractLsb' 0 5 }, port := Port.taken none }
    ∧ exec (.registerWrite 0x36 v) s = .next
      { s with cmd := { s.cmd with staging := { s.cmd.staging with tag := v.extractLsb' 0 8 } }, port := Port.taken none }
    ∧ exec (.registerWrite 0x38 v) s = .next { s with
      cmd := { s.cmd with staging := { s.cmd.staging with
        len := v.extractLsb' 0 6, barrier := v.getLsbD 7, node := v.extractLsb' 8 5, op := v.extractLsb' 13 3 } }
      port := Port.taken none }
    ∧ exec (.registerWrite 0x3A v) s = .next
      { s with cmd := { s.cmd with staging := { s.cmd.staging with param := v } }, port := Port.taken none }
    ∧ ∀ k : BitVec 4, exec (.registerWrite (0x3C + 2 * k.setWidth 8) v) s = .next
      { s with
        cmd := { s.cmd with staging := { s.cmd.staging with
          data := s.cmd.staging.data.set k.toNat v k.isLt } }
        port := Port.taken none }

/-- Writes that reach no register, and run commands that are none (R50, R140, R165, R175): a word write to any read-only or
unassigned even offset, a write to a node register while NSEL holds 0, and every byte write are dropped with H_ACCESS and the
even offset; an RCMD value other than 1 to 5 with H_ACCESS and the value. -/
def Obligations.WritesThatReachNothing : Prop :=
  ∀ (s : State) (v : Word), s.Ready →
    (∀ o : BitVec 8, o.getLsbD 0 = false →
      ¬ (0x02 ≤ o.toNat ∧ o.toNat ≤ 0x08 ∨ 0x0C ≤ o.toNat ∧ o.toNat ≤ 0x1E ∨ o = 0x22 ∨ o = 0x2A ∨ o = 0x2C ∨ o = 0x32
        ∨ 0x36 ≤ o.toNat ∧ o.toNat ≤ 0x5C ∨ 0x88 ≤ o.toNat ∧ o.toNat ≤ 0x92) →
      exec (.registerWrite o v) s = .next (s.reported .hAccess 0 (o.setWidth 16)).written)
    ∧ (s.nodes.nsel = 0 → ∀ o ∈ [0x18, 0x1A, 0x1C, 0x1E, 0x20, 0x22, 0x24, 0x26, 0x28],
      exec (.registerWrite o v) s = .next (s.reported .hAccess 0 (o.setWidth 16)).written)
    ∧ (∀ (o : BitVec 8) (high : Bool), o.getLsbD 0 = false →
      exec (.byteWrite o high v) s = .next (s.reported .hAccess 0 (o.setWidth 16)).written)
    ∧ (v = 0 ∨ 5 < v.toNat → exec (.registerWrite 0x02 v) s = .next (s.reported .hAccess 0 v).written)

/-- Reads of the register window (R50, R165, R172, R174, R175): a read of an offset with a read register drives the
register's value, the selected byte on its lane, and changes nothing; a read of an offset without one, or of a node
register while NSEL holds 0, drives 0 and raises H_ACCESS. The register at each even offset, with CDATAk at 3Ch + 2k and
RDATAk at 68h + 2k, and what each register reads, field by field (sections 10.1 to 10.7). -/
def Obligations.RegisterReads : Prop :=
  ((∀ x ∈ readOffsets, readRegAt x.1 = some x.2)
    ∧ (∀ k : BitVec 4, readRegAt (0x3C + 2 * k.toNat) = some (.cdata k) ∧ readRegAt (0x68 + 2 * k.toNat) = some (.rdata k))
    ∧ ∀ o r, readRegAt o = some r → (o, r) ∈ readOffsets
        ∨ ∃ k : BitVec 4, (o, r) = (0x3C + 2 * k.toNat, .cdata k) ∨ (o, r) = (0x68 + 2 * k.toNat, .rdata k))
  ∧ (∀ s : State, s.ReadsRun ∧ s.ReadsNodes ∧ s.ReadsImage ∧ s.ReadsResults)
  ∧ ∀ (s : State) (c : BusCycle), s.Ready → c.rs = true → c.rd = true → c.wr = false → c.lanes ≠ .null →
    let o := 2 * (c.addr.toNat % 128)
    let drive (v : Word) : Word := match c.lanes with
      | .word => v
      | .low => v &&& 0x00FF#16
      | .high => v &&& 0xFF00#16
      | .null => 0
    (∀ r, readRegAt o = some r → (∀ x, r = .node x → s.nodes.nsel ≠ 0) →
      exec (.accessFault c) s = .next (s.driving (drive (s.readRegister r))))
    ∧ (∀ x, readRegAt o = some (.node x) → s.nodes.nsel = 0 →
      exec (.accessFault c) s = .next ((s.reported .hAccess 0 (BitVec.ofNat 16 o)).driving 0))
    ∧ (0x9A ≤ o → exec (.accessFault c) s = .next ((s.reported .hAccess 0 (BitVec.ofNat 16 o)).driving 0))

/-! ### The bus port and the reset pin -/

/-- An image access presented during a line copy waits with READY low and has no effect yet; at the end of the line copy it
is taken as if it were presented then, with its read driven if the strobe is held, and READY is released (R177, R178). An
access of either window presented behind it is latched with READY low, and taken after it in the same event; a further
strobe then presents nothing. A null access presented behind it completes at once, with READY released, and drives 0 until
its own strobe is released (R172). The release of the strobe: TAKEN returns to IDLE with nothing driven; in WAITING the
accesses stay latched with the strobe marked released (R171, R178). That a presentation implies the release of the strobe
before it is the model's choice, log entry 4, and so is the further strobe where the second is still held; that a null access
in WAITING is not latched, has READY released for it and leaves the port TAKEN where its strobe is still held is the model's
choice, log entry 5, and so is READY low after the release in WAITING, log entry 28. -/
def Obligations.WaitingAccessAndStrobe : Prop :=
  ∀ s : State, s.inReset = false →
    (∀ lanes addr data d, s.port.state ≠ .waiting → lanes ≠ .null → s.image.lineInProgress = some d →
      (∃ t, exec (.imageWrite lanes addr data) s = .next t ∧ t.readyLow = true ∧ t = { s with port := { Port.reset with
        state := .waiting
        first := some { window := .image, write := true, lanes := lanes, addr := addr, data := data } } })
      ∧ ∃ t, exec (.imageRead lanes addr) s = .next t ∧ t.readyLow = true ∧ t = { s with port := { Port.reset with
          state := .waiting
          first := some { window := .image, write := false, lanes := lanes, addr := addr, data := 0 } } })
    ∧ (∀ lanes addr, s.port.state = .waiting → s.image.lineInProgress = none → s.port.second = none →
      s.port.nullHeld = false →
      s.port.first = some { window := .image, write := false, lanes := lanes, addr := addr, data := 0 } → lanes ≠ .null →
      ∃ t, exec .waitingAccessTaken s = .next t ∧ t.readyLow = false
        ∧ (s.port.firstReleased = true → t.port = Port.reset)
        ∧ (s.port.firstReleased = false → t.port = Port.taken (some (s.image.readValue lanes addr)))
        ∧ t.image = s.image ∧ t.sched = s.sched ∧ t.nodes = s.nodes ∧ t.cmd = s.cmd ∧ t.result = s.result ∧ t.run = s.run
        ∧ t.fault = s.fault ∧ t.link = s.link)
    ∧ (∀ a, s.port.state = .waiting → s.image.lineInProgress = none → s.port.first = some a →
      (s.port.second = none → ∃ u, exec (.accessFault a.cycle) s.atAccess = .next u
        ∧ exec .waitingAccessTaken s = .next { u with
            port := (if s.port.nullHeld = true then Port.taken s.port.dataOut
              else if s.port.firstReleased = true then Port.reset else u.port) })
      ∧ ∀ b, s.port.second = some b → ∃ u v, exec (.accessFault a.cycle) s.atAccess = .next u
        ∧ exec (.accessFault b.cycle) u = .next v
        ∧ exec .waitingAccessTaken s = .next { v with port := if s.port.secondReleased = true then Port.reset else v.port })
    ∧ (∀ c a, latchCycle c = some a → s.port.state = .waiting →
      (s.port.second.isSome = true → exec (.accessFault c) s = .next s)
      ∧ (s.port.second = none → a.lanes ≠ .null → ∃ t, exec (.accessFault c) s = .next t ∧ t.readyLow = true
        ∧ t = { s with port := { s.port with
            firstReleased := true, second := some a, secondReleased := false, nullHeld := false, dataOut := none } })
      ∧ (s.port.second = none → a.lanes = .null → ∃ t, exec (.accessFault c) s = .next t ∧ t.readyLow = false
        ∧ t = { s with port := { s.port with
            firstReleased := true, nullHeld := true, dataOut := if c.wr = true then none else some 0 } }))
    ∧ (∀ c : BusCycle,
      let o := BitVec.ofNat 8 (2 * (c.addr.toNat % 128))
      (c.rs = false → c.is = true → c.wr = true → exec (.accessFault c) s = exec (.imageWrite c.lanes c.addr c.data) s)
      ∧ (c.rs = false → c.is = true → c.rd = true → c.wr = false → c.data = 0 ∨ s.ImageReady →
        exec (.accessFault c) s = exec (.imageRead c.lanes c.addr) s)
      ∧ (c.rs = true → c.wr = true → c.addr.toNat < 128 ∨ s.port.state ≠ .waiting →
        (c.lanes = .word → exec (.accessFault c) s = exec (.registerWrite o c.data) s)
        ∧ (c.lanes = .low → exec (.accessFault c) s = exec (.byteWrite o false c.data) s)
        ∧ (c.lanes = .high → exec (.accessFault c) s = exec (.byteWrite o true c.data) s)))
    ∧ (s.port.state = .taken → exec .strobeRelease s = .next { s with port := Port.reset })
    ∧ (s.port.state = .waiting → s.port.second = none → ∃ t, exec .strobeRelease s = .next t ∧ t.readyLow = true
      ∧ t = { s with port := { s.port with firstReleased := true, nullHeld := false, dataOut := none } })
    ∧ (s.port.state = .waiting → s.port.second.isSome = true →
      exec .strobeRelease s = .next { s with port := { s.port with secondReleased := true, dataOut := none } })

/-- The reset pin (R180): its assertion puts every block into its hardware-reset state, every timer stopped and cleared,
with a waiting access completed at once and a waiting read driving 0; while it is asserted a write is dropped, a read drives
0 and neither raises a fault, and no event of the line, of a timer or of a block has an effect, but for the level of the
line, which is the line's own; its release leaves the port IDLE and changes nothing else, and where it is not asserted
changes nothing. That the commands waiting outside the part stay, and the release of a pin that is not asserted, are the
model's choice, log entry 25. -/
def Obligations.ResetPin : Prop :=
  (∀ s : State, ∃ t, exec .hardwareReset s = .next t ∧ t.inReset = true ∧ t.ResetLaw ∧ t.port.state = .idle
      ∧ t.readyLow = false ∧ t.pending = s.pending
      ∧ t.timers = { segment := none, frame := none, cut := none, mark := none, window := none, window2 := none
                     character := none, lineCopy := none, copyDelay := 0, gap := 0, quiet := 0, idle := 0 }
      ∧ ∀ a, s.port.state = .waiting → s.port.second = none → s.port.first = some a → s.port.firstReleased = false →
          t.port.dataOut = if a.write then none else some 0)
  ∧ (∀ s : State, s.inReset = false → exec .resetPinRelease s = .next s)
  ∧ ∀ s : State, s.inReset = true →
      exec .resetPinRelease s = .next { s with inReset := false, port := Port.reset }
      ∧ (∀ c a, latchCycle c = some a → exec (.accessFault c) s = .next
          { s with port := { s.port with dataOut := if c.wr then none else some 0 } })
      ∧ (∀ lanes addr data, exec (.imageWrite lanes addr data) s = .next { s with port := { s.port with dataOut := none } })
      ∧ (∀ lanes addr, exec (.imageRead lanes addr) s = .next { s with port := { s.port with dataOut := some 0 } })
      ∧ exec .run s = .next { s with port := { s.port with dataOut := none } }
      ∧ (∀ c, isEvent c = true → c.wellFormed = true → exec c s = .next s)
      ∧ exec .activityOnset s = .next { s with
          link := { s.link with rxd := false }, timers := { s.timers with idle := 0, gap := 0 } }
      ∧ exec .lineReturnsTo1 s = .next { s with
          link := { s.link with rxd := true }, timers := { s.timers with idle := 0, gap := 0 } }

/-! ### The line -/

/-- An activity onset by the state of the link engine (R2, R13, R14, R17, R19, R21, R22), and the line's return to 1
(R22), which ends no idle line where receive data was not at 0 (R2). In RECEIVE an onset begins a character of 10 bt, unless
one is in progress. That an onset is given at its effect, so that 10.5 bt of idle line before it make a new burst and the
first character has 9.5 bt to go, that in RECEIVE it is given at its change, and that it takes a window close, a character
gap or a line quiet off the events that are due, is the model's choice, log entry 8. -/
def Obligations.OnsetByLinkState : Prop :=
  ∀ s : State, s.inReset = false →
    let due := s.due.erase .activityOnset
    let timers := { s.timers with idle := 0, gap := 0 }
    (s.link.state = .linkOff ∨ s.link.state = .send ∨ s.link.state = .mark →
      exec .activityOnset s = .next { s with link := { s.link with rxd := false }, timers := timers, due := due })
    ∧ (s.link.state = .window → exec .activityOnset s = .next { s with
        link := { s.link with state := .receive, received := [], badFound := none, rxd := false }
        timers := { timers with
          window := none
          character := some (10 * Config.ticksPerBit s.link.rate - Config.ticksPerBit s.link.rate / 2) }
        due := due.filter fun c => c != .windowClose })
    ∧ (s.link.state = .receive → s.timers.character = none → exec .activityOnset s = .next { s with
        link := { s.link with rxd := false }
        timers := { timers with character := some (10 * Config.ticksPerBit s.link.rate) }
        due := due.filter fun c => c != .characterGap })
    ∧ (s.link.state = .receive → s.timers.character.isSome = true →
      exec .activityOnset s = .next { s with link := { s.link with rxd := false }, timers := timers, due := due })
    ∧ (s.link.state = .lateWatch → s.link.lateGiven = false → exec .activityOnset s = .next { s with
        link := { s.link with lateGiven := true, rxd := false }
        timers := timers
        due := due ++ [.lateNotice s.link.windowNode s.slotIndex] })
    ∧ (s.link.state = .lateWatch → s.link.lateGiven = true →
      exec .activityOnset s = .next { s with link := { s.link with rxd := false }, timers := timers, due := due })
    ∧ (s.link.state = .quietWait → exec .activityOnset s = .next { s with
        link := { s.link with burstSeen := true, rxd := false }
        timers := { timers with quiet := 0 }
        due := (due.filter fun c => c != .lineQuiet) ++
          if s.link.burstSeen = false ∨ 21 * Config.ticksPerBit s.link.rate ≤ 2 * s.timers.idle then [.activityReport]
          else [] })
    ∧ (s.link.state = .guarding → ∃ t, exec .activityOnset s = .next t
        ∧ t = { s with
            link := t.link
            timers := t.timers
            sched := { s.sched with state := .idle }
            due := (due.filter fun c => !isLineTimer c)
              ++ (if s.link.exchange.isOrder = true ∧ s.cmd.inFlightMark.isSome = true then [.abandonNotice] else [])
              ++ [.linkFault .foreign, .faultReport ⟨.lForeign, s.link.lastDecided.getD 0, s.faultSlot⟩] }
        ∧ t.link.state = .linkOff ∧ t.timers.segment = none ∧ t.timers.window = none ∧ t.timers.window2 = none)
    ∧ (s.link.rxd = true → exec .lineReturnsTo1 s = .next { s with due := s.due.erase .lineReturnsTo1 })
    ∧ (s.link.rxd = false → exec .lineReturnsTo1 s = .next { s with
        link := { s.link with rxd := true }
        timers := { s.timers with idle := 0, gap := 0, quiet := if s.link.state = .quietWait then 0 else s.timers.quiet }
        due := s.due.erase .lineReturnsTo1 })

/-- Replies judged at the end of a character (R2, R15, R16, R18): a bad stop bit, and a header field or further check that
differs, make the reply BAD and its reception goes on; a reply whose bytes are those its window expects, with the right CRC,
is GOOD and handed on at its last byte; with a wrong CRC it is BAD at that byte; a byte that neither differs nor completes
the reply is taken and the reception goes on. Outside RECEIVE a character end has no effect. That a framing error is found
before a wrong field of the same character, and that a character end that does not fit has no effect, is the model's choice,
log entries 9 and 3. -/
def Obligations.RepliesJudged : Prop :=
  ∀ (s : State) (b : Byte) (stop : Bool), s.inReset = false →
    let due (x : Bool) := s.due.erase (.characterEnd b x)
    let bytes := s.link.received ++ [b]
    let k := s.slotIndex
    let n := s.link.windowNode
    let timers := { s.timers with character := none, idle := 0, gap := 0 }
    let acks : List Instr := match s.link.exchange with
      | .order _ _ => [.ackOutcome .bad]
      | .silent | .head | .data _ _ | .pair _ _ | .probe _ | .broadcast => []
    (s.link.state ≠ .receive → exec (.characterEnd b stop) s = .next { s with due := due stop })
    ∧ (s.link.state = .receive → s.link.badFound.isSome = true → exec (.characterEnd b stop) s = .next { s with
        link := { s.link with rxd := stop }, timers := timers, due := due stop })
    ∧ (s.link.state = .receive → s.link.badFound = none →
      (exec (.characterEnd b false) s = .next { s with
        link := { s.link with badFound := some .framing, rxd := false }, timers := timers, due := due false })
      ∧ (s.link.Differs b → exec (.characterEnd b true) s = .next { s with
          link := { s.link with badFound := some .field, received := bytes, rxd := true }
          timers := timers
          due := due true })
      ∧ (s.link.Receives → ¬ s.link.Differs b → ¬ s.link.Completes bytes → exec (.characterEnd b true) s = .next { s with
          link := { s.link with received := bytes, rxd := true }
          timers := timers
          due := due true })
      ∧ (∀ body handed, s.link.Expects k body handed → bytes = withCrc body →
          ∃ t, exec (.characterEnd b true) s = .next t
            ∧ t = { s with link := t.link, timers := t.timers, due := due true ++ handed }
            ∧ t.link.state = .guarding ∧ t.link.lastDecided = some n ∧ t.link.exchange = s.link.exchange)
      ∧ ∀ body handed hi lo, s.link.Expects k body handed → bytes = body ++ [hi, lo] → [hi, lo] ≠ highFirst (crc16 body) →
          ∃ t, exec (.characterEnd b true) s = .next t
            ∧ t = { s with
                link := t.link
                timers := t.timers
                due := due true ++ acks ++ [.nodeOutcome n s.link.windowKind k (.bad .crc)] }
            ∧ t.link.state = .guarding ∧ t.link.lastDecided = some n)

/-- How windows end without a complete reply (R14, R16, R18): more than 10 bt of idle line decides BAD, a close with no
onset decides NONE and enters LATE_WATCH, and window 2 of a PAIR slot opens at its point whatever happened in window 1,
deciding what window 1 left undecided. That the opening of window 2 takes a close or a gap of window 1 off the events that
are due is the model's choice, log entry 8. -/
def Obligations.WindowsEnd : Prop :=
  (∀ s : State,
    (∀ k, s.sched.state = .slot k → s.slotIndex = k)
    ∧ (∀ n tr, s.link.exchange = .data n tr → s.link.windowNode = n ∧ s.link.windowKind = .data)
    ∧ (∀ n, s.link.exchange = .probe n → s.link.windowNode = n ∧ s.link.windowKind = .probe)
    ∧ (∀ n tag, s.link.exchange = .order n tag → s.link.windowNode = n ∧ s.link.windowKind = .order)
    ∧ ∀ a b, s.link.exchange = .pair a b →
      s.link.windowNode = (if s.link.second = true then b else a) ∧ s.link.windowKind = .pair)
  ∧ ∀ s : State, s.inReset = false →
    let n := s.link.windowNode
    let kind := s.link.windowKind
    let acks (v : AckVerdict) : List Instr := match s.link.exchange with
      | .order _ _ => [.ackOutcome v]
      | _ => []
    (s.link.state = .receive → ∃ t, exec .characterGap s = .next t
      ∧ t = { s with
          link := t.link
          timers := t.timers
          due := s.due.erase .characterGap ++ acks .bad
            ++ [.nodeOutcome n kind s.slotIndex (.bad (s.link.badFound.getD .gap))] }
      ∧ t.link.state = .guarding ∧ t.link.lastDecided = some n)
    ∧ (s.link.state = .window → ∃ t, exec .windowClose s = .next t
      ∧ t = { s with
          link := t.link
          timers := t.timers
          due := s.due.erase .windowClose ++ acks .silent ++ [.nodeOutcome n kind s.slotIndex .silent] }
      ∧ t.link.state = .lateWatch ∧ t.link.lateGiven = false)
    ∧ ∀ a b, s.link.exchange = .pair a b → s.link.second = false →
      (s.link.state = .window ∨ s.link.state = .receive ∨ s.link.state = .lateWatch ∨ s.link.state = .guarding) →
      ∃ t, exec .window2Open s = .next t
        ∧ t = { s with
            link := t.link
            timers := t.timers
            due := ((s.due.erase .window2Open).filter fun c => !isWindowTimer c) ++
              (if s.link.state = .window then [.nodeOutcome a .pair s.slotIndex .silent]
              else if s.link.state = .receive then
                [.nodeOutcome a .pair s.slotIndex (.bad (s.link.badFound.getD .cutByWindow2))]
              else []) }
        ∧ t.link.state = .window ∧ t.link.second = true ∧ t.link.windowNode = b ∧ t.timers.window2 = none
        ∧ t.timers.window = some (s.link.window.toNat * Config.ticksPerBit s.link.rate)

/-- What stands on the line: of a frame in transmission, each byte's start bit 0, its eight data bits, lowest first, and its
stop bit 1, bit by bit at the frame's rate (R1, R3), 0 in the abort mark (R4), and 1 otherwise. The node and the slot that a
link fault reports, by the frame and the part of the cycle (R160). The end of a frame opens its window, or begins GUARD (R3,
R13, R14). The readback checker finds no difference where receive data is transmit data, and nothing happens; a difference
cuts the frame (R3, R20, R21). A frame that is being cut has no frame end, and after the run's end no link fault is raised in
it (R4, R156). The end of the abort mark releases the line, and a direction given before it takes effect (R4). -/
def Obligations.FrameAndMarkEnds : Prop :=
  (∀ s : State,
    (∀ i b left j r, s.link.state = .send → s.link.frame[i]? = some b → s.timers.frame = some left →
      let bit := Config.ticksPerBit s.link.frameRate
      j < 10 → r < bit → 10 * s.link.frame.length * bit - left = (10 * i + j) * bit + r →
      s.transmitData = if j = 0 then false else if j = 9 then true else b.getLsbD (j - 1))
    ∧ (s.link.state = .mark → s.transmitData = false)
    ∧ (s.link.state ≠ .send → s.link.state ≠ .mark → s.transmitData = true)
    ∧ s.link.exchange.address = (match s.link.exchange with
        | .data n _ => n
        | .probe n => n
        | .order n _ => n
        | .pair a _ => a
        | .head => 0
        | .broadcast => 0
        | .silent => 0)
    ∧ (∀ k, s.sched.state = .slot k → s.faultSlot = BitVec.ofNat 16 k.toNat)
    ∧ (s.sched.state = .head → s.faultSlot = 16))
  ∧ ∀ s : State, s.inReset = false →
    let bt := Config.ticksPerBit s.link.rate
    (s.link.state = .send → s.timers.cut = none → s.link.exchange ≠ .broadcast →
      ∃ t, exec .frameEnd s = .next t
        ∧ t = { s with link := t.link, timers := t.timers, due := s.due.erase .frameEnd }
        ∧ t.driverEnable = false ∧ t.link.exchange = s.link.exchange
        ∧ ((∃ n tr, s.link.exchange = .data n tr) ∨ (∃ n, s.link.exchange = .probe n)
            ∨ (∃ n tag, s.link.exchange = .order n tag) →
          t.link.state = .window ∧ t.timers.window = some (s.link.window.toNat * bt))
        ∧ (∀ a b, s.link.exchange = .pair a b → t.link.state = .window
          ∧ t.timers.window = some (s.link.window.toNat * bt)
          ∧ t.timers.window2 = some ((s.link.window.toNat + 10 * (5 + s.link.inLen a) + 8) * bt))
        ∧ (s.link.exchange = .head ∨ s.link.exchange = .silent → t.link.state = .guarding))
    ∧ (∀ e, s.link.state = .send → s.timers.cut = none → s.link.exchange = .broadcast → s.PushLaw → e ∈ s.cmd.outstanding →
      e.state = .awaitAck → s.cmd.inFlightMark = some e.push →
      ∃ t, exec .frameEnd s = .next t
        ∧ t = { ({ s with cmd := { s.cmd with inFlightMark := none }, due := s.due.erase .frameEnd }.settledAs
            e .sent 0 []) with link := t.link, timers := t.timers }
        ∧ t.link.state = .guarding)
    ∧ (s.link.state = .send → s.timers.cut.isSome = true → exec .frameEnd s = .next { s with due := s.due.erase .frameEnd }
      ∧ ∀ level, exec (.lReadback level) s = .next { s with due := s.due.erase (.lReadback level) })
    ∧ (s.link.state = .send →
      exec (.lReadback s.transmitData) s = .next { s with due := s.due.erase (.lReadback s.transmitData) })
    ∧ (∀ level, s.link.state = .send → s.timers.cut = none → level ≠ s.transmitData →
      ∃ t, exec (.lReadback level) s = .next t
        ∧ t = { s with
            link := t.link
            timers := t.timers
            sched := { s.sched with state := .idle }
            due := ((s.due.erase (.lReadback level)).filter fun c => !isLineTimer c)
              ++ (if s.link.exchange.isOrder = true ∧ s.cmd.inFlightMark.isSome = true then [.abandonNotice] else [])
              ++ [.linkFault .readback, .faultReport ⟨.lReadback, s.link.exchange.address, s.faultSlot⟩] }
        ∧ t.link.state = .linkOff ∧ t.driverEnable = false ∧ t.timers.frame = none ∧ t.timers.segment = none)
    ∧ (s.link.state = .mark → ∃ t, exec .markEnd s = .next t
        ∧ t = { s with link := t.link, timers := t.timers, due := s.due.erase .markEnd }
        ∧ t.driverEnable = false
        ∧ (s.link.quietAfterMark = false → t.link.state = .linkOff)
        ∧ (s.link.quietAfterMark = true → t.link.state = .quietWait ∧ t.link.quietRunning = true
            ∧ t.timers.quiet = 0))

/-! ### The cycle -/

/-- What a slot start resolves to (R27 to R36): SIL and a command slot without a command and without a node to serve are
silent; a CYC rule, and the fallback of CMD/CYC, sends DATA to a live node with the trailer permission of the slot's length,
PROBE to an OFFLINE node, and nothing to a DISABLED or MISMATCH node; a PAIR rule serves the live ones of its nodes; a
command slot with an opportunity carries the command chosen. The pacing counter is set to G by an ORDER, and goes down by
one, not below 0, otherwise. The output data of a node in a DATA or PAIR frame are the data bytes of its output slice in the
output link bank, in offset order (R78). A byte with bad parity in an output slice of the frame silences the slot and raises
M_LINKRD with the first such byte in payload order (R87). The slice fields of the nodes the slot names are handed to the
link engine and the image unit (R56). -/
def Obligations.SlotResolution : Prop :=
  ∀ (s : State) (k : SlotIndex),
    let r := s.sched.record s.sched.active k
    let t := s.slotStart k
    let order := if s.opportunity r = true then s.selectCommand else none
    let permitted := decide
      (10 * (6 + s.outLen r.nodeA) + s.link.window.toNat + 10 * (5 + s.inLen r.nodeA) + 12 + 350 ≤ r.length.toNat)
    let good (ns : List NodeAddr) := s.image.firstBadSlice (s.copiesOf ns) = none
    (∀ n e, s.node? n = some e → s.SliceBytes e (s.outputOf n))
    ∧ (∀ n, n ≠ 0 → (good [n] ↔ s.SliceGood n)
        ∧ ∀ m a, s.image.firstBadSlice (s.copiesOf [n]) = some (m, a) ↔ m = n ∧ s.SliceBad n a)
    ∧ (∀ x y, x ≠ 0 → y ≠ 0 → (good [x, y] ↔ s.SliceGood x ∧ s.SliceGood y)
        ∧ ∀ m a, s.image.firstBadSlice (s.copiesOf [x, y]) = some (m, a) ↔
          m = x ∧ s.SliceBad x a ∨ s.SliceGood x ∧ m = y ∧ s.SliceBad y a)
    ∧ (s.opportunity r = true ↔ (r.rule = 3 ∨ r.rule = 4) ∧ s.sched.pacing = 0
        ∧ (s.run.state = .running ∨ s.run.state = .resuming))
    ∧ (∀ e u, order = some (e, u) →
        s.StartsSlot t k (if e.node = 0 then .broadcast else .order e.node e.tag) (orderFrame e)
          ∧ t.sched.pacing = s.sched.pacingSetting ∧ t.cmd = u.cmd ∧ t.nodes = u.nodes)
    ∧ (order = none →
      t.sched.pacing = (if s.sched.pacing = 0 then 0 else s.sched.pacing - 1) ∧ t.nodes = s.nodes ∧ t.cmd = s.cmd
      ∧ t.result = s.result
      ∧ (r.rule = 0 ∨ r.rule = 4 → s.StartsSlot t k .silent [] ∧ t.due = s.due)
      ∧ (r.rule = 1 ∨ r.rule = 3 → r.nodeA ≠ 0 →
        (s.isLive r.nodeA = true → good [r.nodeA] →
          s.StartsSlot t k (.data r.nodeA permitted) (dataFrame r.nodeA (s.outputOf r.nodeA) permitted) ∧ t.due = s.due)
        ∧ (s.nodeState r.nodeA = .offline → s.StartsSlot t k (.probe r.nodeA) (probeFrame r.nodeA) ∧ t.due = s.due)
        ∧ (s.nodeState r.nodeA = .disabled ∨ s.nodeState r.nodeA = .mismatch →
            s.StartsSlot t k .silent [] ∧ t.due = s.due)
        ∧ (∀ n a, s.isLive r.nodeA = true → s.image.firstBadSlice (s.copiesOf [r.nodeA]) = some (n, a) →
            s.StartsSlot t k .silent [] ∧ t.due = s.due ++ [.faultReport ⟨.mLinkrd, n, BitVec.ofNat 16 a⟩]))
      ∧ (r.rule = 2 →
        (s.isLive r.nodeA = true → s.isLive r.nodeB = true → good [r.nodeA, r.nodeB] →
          s.StartsSlot t k (.pair r.nodeA r.nodeB)
            (pairFrame r.nodeA r.nodeB (s.outputOf r.nodeA) (s.outputOf r.nodeB)) ∧ t.due = s.due)
        ∧ (∀ n a, s.isLive r.nodeA = true → s.isLive r.nodeB = true →
            s.image.firstBadSlice (s.copiesOf [r.nodeA, r.nodeB]) = some (n, a) →
            s.StartsSlot t k .silent [] ∧ t.due = s.due ++ [.faultReport ⟨.mLinkrd, n, BitVec.ofNat 16 a⟩])
        ∧ (∀ x y n a, [x, y] = [r.nodeA, r.nodeB] ∨ [x, y] = [r.nodeB, r.nodeA] → s.isLive x = true → s.isLive y = false →
            s.image.firstBadSlice (s.copiesOf [x]) = some (n, a) →
            s.StartsSlot t k .silent [] ∧ t.due = s.due ++ [.faultReport ⟨.mLinkrd, n, BitVec.ofNat 16 a⟩])
        ∧ (s.isLive r.nodeA = true → s.isLive r.nodeB = false → good [r.nodeA] →
          s.StartsSlot t k (.data r.nodeA false) (dataFrame r.nodeA (s.outputOf r.nodeA) false) ∧ t.due = s.due)
        ∧ (s.isLive r.nodeA = false → s.isLive r.nodeB = true → good [r.nodeB] →
          s.StartsSlot t k (.data r.nodeB false) (dataFrame r.nodeB (s.outputOf r.nodeB) false) ∧ t.due = s.due)
        ∧ (s.isLive r.nodeA = false → s.isLive r.nodeB = false → s.StartsSlot t k .silent [] ∧ t.due = s.due)))

/-- Where the head segment and each slot lead (R37, R45, R46, R82, R144): the head segment to the lowest slot of the active
table whose length is not 0, a slot end to the next higher one, and the last slot end to the cycle end, with the input swap
when HOLD is 0 and no input catch-up copy runs and none of its changes otherwise, and then a cycle start or, in DRAINING,
STOPPED, where a pending switch and a pending publish are taken (R42, R75). Every slot end decides the window that is open
NONE and the reply in reception BAD, and hands that on, of an ORDER slot the ACK outcome too (R16, R18, R37). -/
def Obligations.SlotEndsLeadOn : Prop :=
  (∀ (u : Sched) (j k : SlotIndex), u.nextSlot j = some k ↔
    j.toNat < k.toNat ∧ (u.record u.active k).length ≠ 0
      ∧ ∀ i : SlotIndex, j.toNat < i.toNat → i.toNat < k.toNat → (u.record u.active i).length = 0)
  ∧ ∀ s : State, s.inReset = false →
    let length (k : SlotIndex) := (s.sched.record s.sched.active k).length
    let rest (j : SlotIndex) : List Instr :=
      (s.due.erase .slotEnd ++ s.decidedAtSlotEnd j).filter fun c => !isLineTimer c
    let swapped : State := if s.image.hold = false ∧ s.image.inCopy = none then { s with
        image := { s.image with
          inHost := !s.image.inHost
          hostFresh := s.image.linkFresh
          linkFresh := 0
          snapCycle := s.sched.cycleNumber
          inMap := 0
          inCopy := some 0
          inCopyBad := false
          copyTurn := .input }
        fault := { s.fault with latches := s.fault.latches ||| 0x0008#16 } } else s
    (∀ k, s.sched.state = .head → length k ≠ 0 → (∀ i : SlotIndex, i.toNat < k.toNat → length i = 0) →
      s.slotBeyondBank k = false →
      exec .headSegmentEnd s = .next ((s.takeDue .headSegmentEnd).dropLineTimers.slotStart k))
    ∧ (∀ j k, s.sched.state = .slot j → s.sched.nextSlot j = some k → s.slotBeyondBank k = false →
      let cut := (s.takeDue .slotEnd).cutSlot.dropLineTimers
      exec .slotEnd s = .next (cut.slotStart k)
      ∧ cut = { s with link := cut.link, timers := cut.timers, due := rest j }
      ∧ cut.link.rate = s.link.rate ∧ cut.link.window = s.link.window)
    ∧ ∀ j, s.sched.state = .slot j → s.sched.nextSlot j = none →
      ∃ t, exec .slotEnd s = .next t
        ∧ (s.run.state = .running → s.StartsCycle t ∧ t.run = s.run ∧ t.due = rest j ++ [.resultTimeout])
        ∧ (s.run.state = .resuming → s.StartsCycle t ∧ t.run = { s.run with state := .running }
            ∧ t.fault.latches &&& 0x0010#16 = 0x0010#16 ∧ t.due = rest j ++ [.resultTimeout])
        ∧ (s.run.state = .draining → swapped.EntersStopped t ∧ t.sched.cycleNumber = s.sched.cycleNumber
            ∧ t.cmd = s.cmd ∧ t.nodes = s.nodes ∧ t.result = s.result
            ∧ t.due = (rest j).filter fun c => !isRunReport c)
        ∧ (s.image.hold = false → s.image.inCopy = none →
            t.image.inHost = (!s.image.inHost) ∧ t.image.hostFresh = s.image.linkFresh ∧ t.image.linkFresh = 0
              ∧ t.image.snapCycle = s.sched.cycleNumber ∧ t.image.inCopy = some 0 ∧ t.image.inMap = 0
              ∧ t.fault.latches &&& 0x0008#16 = 0x0008#16)
        ∧ (s.image.hold = true ∨ s.image.inCopy.isSome = true →
            t.image.inHost = s.image.inHost ∧ t.image.hostFresh = s.image.hostFresh
              ∧ t.image.linkFresh = s.image.linkFresh ∧ t.image.snapCycle = s.image.snapCycle
              ∧ t.image.inCopy = s.image.inCopy ∧ t.image.inMap = s.image.inMap
              ∧ t.fault.latches.getLsbD 3 = s.fault.latches.getLsbD 3)
        ∧ (t.image.out0 = s.image.out0 ∧ t.image.out1 = s.image.out1 ∧ t.image.in0 = s.image.in0
            ∧ t.image.in1 = s.image.in1)
        ∧ ∀ c ∈ s.decidedAtSlotEnd j, c ∈ t.due

/-- What the events of the line do to the run state (R143, R147 to R150): "line quiet" enters RUNNING from SETTLING and
RESUMING from RECOVERY with a cycle start; an activity report counts in RECOVERY and the ninth halts the part; a link fault
takes RUNNING to RECOVERY, DRAINING to STOPPED and RESUMING to HALTED, with the cycle abandoned. That an activity report
outside RECOVERY and a link fault in STOPPED, SETTLING, RECOVERY or HALTED, where no report reaches the run controller, have
no effect is the model's choice, log entries 3 and 23. -/
def Obligations.LineEventsMoveTheRun : Prop :=
  ∀ s : State, s.inReset = false →
    (s.link.state = .quietWait → s.link.quietRunning = true →
      (s.run.state = .settling → ∃ t, exec .lineQuiet s = .next t ∧ s.StartsCycle t
        ∧ t.run = { s.run with state := .running } ∧ t.fault.latches &&& 0x0010#16 = 0x0010#16)
      ∧ (s.run.state = .recovery → ∃ t, exec .lineQuiet s = .next t ∧ s.StartsCycle t
        ∧ t.run = { s.run with state := .resuming } ∧ t.fault.latches &&& 0x0010#16 = 0x0010#16))
    ∧ (s.run.state ≠ .recovery → exec .activityReport s = .next { s with due := s.due.erase .activityReport })
    ∧ (s.run.state = .recovery → s.run.restarts.toNat < 8 →
      exec .activityReport s = .next { s with
        run := { s.run with restarts := s.run.restarts + 1 }
        due := s.due.erase .activityReport })
    ∧ (s.run.state = .recovery → s.run.restarts = 8 → s.PushLaw →
      ∃ t, exec .activityReport s = .next t ∧ s.EntersHalted t .xRecovery 9 ∧ t.run.restarts = 9)
    ∧ ∀ kind,
      (s.run.state = .running → ∃ t, exec (.linkFault kind) s = .next t
        ∧ t.run = { state := .recovery, restarts := 0 } ∧ t.sched = { s.sched with state := .idle }
        ∧ (s.marking = false → t.link.state = .quietWait ∧ t.link.quietRunning = true ∧ t.timers.quiet = 0)
        ∧ t.fault = { s.fault with latches := s.fault.latches ||| 0x0010#16 }
        ∧ t.nodes = s.nodes ∧ t.cmd = s.cmd ∧ t.result = s.result ∧ t.image = s.image)
      ∧ (s.run.state = .draining → ∃ t, exec (.linkFault kind) s = .next t ∧ s.EntersStopped t ∧ t.nodes = s.nodes
        ∧ t.cmd = s.cmd ∧ t.result = s.result)
      ∧ (s.run.state = .resuming → s.PushLaw → ∃ t, exec (.linkFault kind) s = .next t
        ∧ s.EntersHalted t .xResume (match kind with | .foreign => 1 | .readback => 2)
        ∧ t.run.restarts = s.run.restarts)
      ∧ (s.run.state = .stopped ∨ s.run.state = .settling ∨ s.run.state = .recovery ∨ s.run.state = .halted →
        exec (.linkFault kind) s = .next { s with due := s.due.erase (.linkFault kind) })

/-- Window outcomes and LATE notices at the node table (R57 to R65). -/
def Obligations.NodeOutcomesTaken : Prop :=
  ∀ (s : State) (n : NodeAddr) (k : SlotIndex) (e : NodeEntry), s.inReset = false → n ≠ 0 → s.node? n = some e →
    let base (c : Instr) : State := { s with due := s.due.erase c }
    let reply (kind : WindowKind) : Prop := kind ≠ .probe
    -- a node that is DISABLED: ignored
    (∀ kind v, e.state = .disabled → kind.admits v = true →
      exec (.nodeOutcome n kind k v) s = .next (base (.nodeOutcome n kind k v)))
    -- a good reply
    ∧ (∀ kind, reply kind → e.state = .lagging → exec (.nodeOutcome n kind k .good) s = .next
        (((base (.nodeOutcome n kind k .good)).setNode n { e with state := .online, missCount := 0 }).joinChangeSet n))
    ∧ (∀ kind, reply kind → e.state = .online → exec (.nodeOutcome n kind k .good) s = .next
        ((base (.nodeOutcome n kind k .good)).setNode n { e with missCount := 0 }))
    -- a miss below the limit
    ∧ (∀ kind, reply kind → e.state = .online → e.missCount.toNat + 1 < e.missLimit.toNat →
        exec (.nodeOutcome n kind k .silent) s = .next
          (((base (.nodeOutcome n kind k .silent)).setNode n
            { e with state := .lagging, missCount := e.missCount + 1 }).joinChangeSet n))
    ∧ (∀ kind, reply kind → e.state = .lagging → e.missCount.toNat + 1 < e.missLimit.toNat →
        exec (.nodeOutcome n kind k .silent) s = .next
          ((base (.nodeOutcome n kind k .silent)).setNode n { e with missCount := e.missCount + 1 }))
    -- a miss that reaches the limit
    ∧ (∀ kind, reply kind → e.state = .online ∨ e.state = .lagging → e.missLimit.toNat ≤ e.missCount.toNat + 1 →
        exec (.nodeOutcome n kind k .silent) s = .next
          { (((base (.nodeOutcome n kind k .silent)).setNode n { e with state := .offline, missCount := 0 }).joinChangeSet
              n) with
            due := s.due.erase (.nodeOutcome n kind k .silent)
              ++ [.faultReport ⟨.nLost, n, place k 0 ||| place e.missLimit 8⟩, .nodeDownNotice n] })
    -- BAD: a miss, and counted
    ∧ (∀ kind c, reply kind → e.state = .lagging → e.missCount.toNat + 1 < e.missLimit.toNat →
        exec (.nodeOutcome n kind k (.bad c)) s = .next
          ((((base (.nodeOutcome n kind k (.bad c))).setNode n { e with
              missCount := e.missCount + 1
              badCount := if e.badCount = 0xFF then 0xFF else e.badCount + 1 }).reported .nBad n
            (place k 0 ||| BitVec.ofNat 16 (badNumber c) <<< 8))))
    ∧ (∀ kind c, reply kind → e.state = .online → e.missCount.toNat + 1 < e.missLimit.toNat →
        exec (.nodeOutcome n kind k (.bad c)) s = .next
          (((((base (.nodeOutcome n kind k (.bad c))).setNode n { e with
              state := .lagging
              missCount := e.missCount + 1
              badCount := if e.badCount = 0xFF then 0xFF else e.badCount + 1 }).joinChangeSet n).reported .nBad n
            (place k 0 ||| BitVec.ofNat 16 (badNumber c) <<< 8))))
    ∧ (∀ kind c, reply kind → e.state = .online ∨ e.state = .lagging → e.missLimit.toNat ≤ e.missCount.toNat + 1 →
        exec (.nodeOutcome n kind k (.bad c)) s = .next
          { (((base (.nodeOutcome n kind k (.bad c))).setNode n { e with
              state := .offline
              missCount := 0
              badCount := if e.badCount = 0xFF then 0xFF else e.badCount + 1 }).joinChangeSet n) with
            due := s.due.erase (.nodeOutcome n kind k (.bad c))
              ++ [.faultReport ⟨.nLost, n, place k 0 ||| place e.missLimit 8⟩, .nodeDownNotice n,
                .faultReport ⟨.nBad, n, place k 0 ||| BitVec.ofNat 16 (badNumber c) <<< 8⟩] })
    ∧ (∀ kind c, reply kind → e.state = .offline ∨ e.state = .mismatch →
        exec (.nodeOutcome n kind k (.bad c)) s = .next
          (((base (.nodeOutcome n kind k (.bad c))).setNode n
              { e with badCount := if e.badCount = 0xFF then 0xFF else e.badCount + 1 }).reported .nBad n
            (place k 0 ||| BitVec.ofNat 16 (badNumber c) <<< 8)))
    -- PROBE windows
    ∧ (∀ r, e.state ≠ .offline → exec (.nodeOutcome n .probe k (.ident r)) s =
        .next (base (.nodeOutcome n .probe k (.ident r))))
    ∧ (exec (.nodeOutcome n .probe k .silent) s = .next (base (.nodeOutcome n .probe k .silent)))
    ∧ (∀ c, e.state ≠ .disabled → exec (.nodeOutcome n .probe k (.bad c)) s = .next
        (((base (.nodeOutcome n .probe k (.bad c))).setNode n
            { e with badCount := if e.badCount = 0xFF then 0xFF else e.badCount + 1 }).reported .nBad n
          (place k 0 ||| BitVec.ofNat 16 (badNumber c) <<< 8)))
    ∧ (∀ r, e.state = .offline → r.outSize.toNat = e.outLen.toNat → r.inSize.toNat = e.inLen.toNat →
        exec (.nodeOutcome n .probe k (.ident r)) s = .next
          (((base (.nodeOutcome n .probe k (.ident r))).setNode n
            { e with state := .online, missCount := 0, ident := some r }).joinChangeSet n))
    ∧ (∀ r, e.state = .offline → r.outSize.toNat ≠ e.outLen.toNat ∨ r.inSize.toNat ≠ e.inLen.toNat →
        exec (.nodeOutcome n .probe k (.ident r)) s = .next
          ((((base (.nodeOutcome n .probe k (.ident r))).setNode n
            { e with state := .mismatch, missCount := 0, ident := some r }).joinChangeSet n).reported .nMismatch n
              (place r.outSize 0 ||| place r.inSize 8)))
    -- an outcome that does not fit the state
    ∧ (∀ kind v, reply kind → e.state = .offline ∨ e.state = .mismatch → v = .good ∨ v = .silent →
        exec (.nodeOutcome n kind k v) s = .next (base (.nodeOutcome n kind k v)))
    -- LATE notices
    ∧ (e.state = .disabled → exec (.lateNotice n k) s = .next (base (.lateNotice n k)))
    ∧ (e.state ≠ .disabled → exec (.lateNotice n k) s = .next
        (((base (.lateNotice n k)).setNode n
          { e with lateCount := if e.lateCount = 0xFF then 0xFF else e.lateCount + 1 }).reported .nLate n (place k 0)))

/-! ### Laws that every step keeps -/

/-- The state after reset meets every law. -/
def Obligations.ResetMeetsEveryLaw : Prop :=
  State.reset.MemoryLaw ∧ State.reset.CapacityLaw ∧ State.reset.ResponseLaw ∧ State.reset.PushLaw ∧ State.reset.TagLaw
    ∧ State.reset.NodeDownLaw ∧ State.reset.CreditLaw ∧ State.reset.NodeLaw ∧ State.reset.SliceLaw
    ∧ State.reset.StoppedLaw ∧ State.reset.BudgetLaw ∧ State.reset.SettingsLaw ∧ State.reset.PortLaw
    ∧ State.reset.ResetLaw ∧ State.reset.SettleOrderLaw ∧ State.reset.LatchLaw

/-- Every step keeps the canonical form of the four banks, so that equal memories are equal data. The form is the model's own
way of holding the 1024 bytes of a bank (R70), log entry 22. -/
def Obligations.StepKeepsMemoryLaw : Prop :=
  ∀ s t : State, s.MemoryLaw → step s = .next t → t.MemoryLaw

/-- Every step keeps the capacities (R93, R95, R134), and that an item waits only while the response queue is full
(R130). -/
def Obligations.StepKeepsQueueLaws : Prop :=
  ∀ s t : State, s.CapacityLaw → s.ResponseLaw → step s = .next t → t.CapacityLaw ∧ t.ResponseLaw

/-- Every step keeps the tag law (R91), the push order (R92), the third part of the miss law (R61, R62) and the credit law
(R97), but for one exception: for a node whose node-down notice is handed and not yet taken nothing is said of its in-flight
count, since the entries of a disabled node count until the notice is taken (R96), and a DISABLED node may be given a lower
credit before that; and that the settle-order numbers of the items that wait to be posted are distinct and below the next one
(R120, R129). -/
def Obligations.StepKeepsTransactionLaws : Prop :=
  (∀ s t : State, s.PushLaw → s.TagLaw → s.NodeDownLaw → s.CreditLaw → step s = .next t →
    t.PushLaw ∧ t.TagLaw ∧ t.NodeDownLaw ∧ t.CreditLaw)
  ∧ ∀ s t : State, s.PushLaw → s.SettleOrderLaw → step s = .next t → t.SettleOrderLaw

/-- Every step keeps the ranges of the node entries (R49), the first two parts of the miss law (R61) and the slice law
(R52). Of the miss law one bound is left out: a LAGGING node's count is one less than its miss limit at most, but only until
the limit is lowered (R51, R61). -/
def Obligations.StepKeepsNodeTableLaws : Prop :=
  ∀ s t : State, s.NodeLaw → s.SliceLaw → step s = .next t → t.NodeLaw ∧ t.SliceLaw

/-- Every step keeps what STOPPED means (R139, R42, R75), the budget law (R40) and the ranges of the settings (R1,
R117). -/
def Obligations.StepKeepsRunLaws : Prop :=
  ∀ s t : State, s.StoppedLaw → s.BudgetLaw → s.SettingsLaw → step s = .next t →
    t.StoppedLaw ∧ t.BudgetLaw ∧ t.SettingsLaw

/-- Every step keeps that only an image access starts a wait (R171, R177), that a part held in reset keeps its
hardware-reset values (R180), and that only the five event causes are latched (R166). -/
def Obligations.StepKeepsPortAndResetLaws : Prop :=
  (∀ s t : State, s.PortLaw → s.ResetLaw → step s = .next t → t.PortLaw ∧ t.ResetLaw)
  ∧ ∀ s t : State, s.LatchLaw → step s = .next t → t.LatchLaw

/-! ### Rules over all commands -/

/-- No command or event but a hardware reset changes a link, command or timeout setting outside STOPPED (R153), and no tick
of the clock changes one. -/
def Obligations.SettingsChangeOnlyInStopped : Prop :=
  let kept (s t : State) : Prop := t.link.rate = s.link.rate ∧ t.link.window = s.link.window
    ∧ t.sched.pacingSetting = s.sched.pacingSetting ∧ t.cmd.retryLimit = s.cmd.retryLimit
    ∧ t.cmd.resultTimeout = s.cmd.resultTimeout
  (∀ (c : Instr) (s t : State), s.PortLaw → c ≠ .hardwareReset → s.run.state ≠ .stopped → exec c s = .next t → kept s t)
  ∧ ∀ s : State, kept s s.tick

/-- Every change of the run state is one of those that R154 lists and latches RUNCHG, except one made by a controller reset
or a hardware reset, which leave the run controller and the fault and interrupt unit in their reset state; and nothing
else latches RUNCHG (R154, R170). A tick of the clock changes neither. -/
def Obligations.RunChangesAreLatched : Prop :=
  (∀ (c : Instr) (s t : State), s.PortLaw → exec c s = .next t →
    (t.run.state ≠ s.run.state →
      t.fault.latches.getLsbD 4 = true ∧ s.run.state.changesTo t.run.state = true
      ∨ t.run = RunControl.reset ∧ t.fault = FaultUnit.reset)
    ∧ (t.run.state = s.run.state → t.fault.latches.getLsbD 4 = true → s.fault.latches.getLsbD 4 = true))
  ∧ ∀ s : State, s.tick.run = s.run ∧ s.tick.fault = s.fault

/-- The cycle number changes only at a cycle start, where it goes up by one and CYC is latched; a cycle starts only at a
slot end or when the line is found quiet; a controller reset and a tick of the clock leave it, a hardware reset sets it to
0, and CYCNUM reads it (R44, R48). -/
def Obligations.CycleNumberChangesOnlyAtCycleStart : Prop :=
  (∀ (c : Instr) (s t : State), c ≠ .hardwareReset → exec c s = .next t →
    t.sched.cycleNumber = s.sched.cycleNumber
    ∨ t.sched.cycleNumber = s.sched.cycleNumber + 1 ∧ t.sched.state = .head
        ∧ t.fault.latches &&& 0x0001#16 = 0x0001#16 ∧ (c = .slotEnd ∨ c = .lineQuiet))
  ∧ (∀ s : State, s.tick.sched.cycleNumber = s.sched.cycleNumber)
  ∧ (∀ s : State, ∃ t, exec .hardwareReset s = .next t ∧ t.sched.cycleNumber = 0)
  ∧ ∀ s : State, s.readRegister .cycnum = s.sched.cycleNumber

/-- The output link bank changes only at an output swap, and the input host bank, the host-side fresh set and the snapshot
cycle number only at an input swap (R78, R80, R83). A tick of the clock makes no swap and changes none of them. -/
def Obligations.FacingBanksChangeOnlyAtSwaps : Prop :=
  let keeps (u v : Image) : Prop := (v.outHost = u.outHost → v.outLinkBank = u.outLinkBank)
    ∧ (v.inHost = u.inHost → v.inHostBank = u.inHostBank ∧ v.hostFresh = u.hostFresh ∧ v.snapCycle = u.snapCycle)
  (∀ (c : Instr) (s t : State), c ≠ .hardwareReset → exec c s = .next t → keeps s.image t.image)
  ∧ ∀ s : State, s.tick.image.outHost = s.image.outHost ∧ s.tick.image.inHost = s.image.inHost ∧ keeps s.image s.tick.image
end

