-- ==== Sys2Proof/Laws/State.lean ====
section
/-! SUPPORT. What the named updates of the state leave unchanged and what they set: one lemma for each field of each
update. -/

namespace Sys2Proof.Machine

open Sys2Proof

/-! ### State.hand -/

@[simp] theorem State.hand_port (s : State) (c : Instr) : (s.hand c).port = s.port := rfl
@[simp] theorem State.hand_link (s : State) (c : Instr) : (s.hand c).link = s.link := rfl
@[simp] theorem State.hand_sched (s : State) (c : Instr) : (s.hand c).sched = s.sched := rfl
@[simp] theorem State.hand_nodes (s : State) (c : Instr) : (s.hand c).nodes = s.nodes := rfl
@[simp] theorem State.hand_image (s : State) (c : Instr) : (s.hand c).image = s.image := rfl
@[simp] theorem State.hand_cmd (s : State) (c : Instr) : (s.hand c).cmd = s.cmd := rfl
@[simp] theorem State.hand_result (s : State) (c : Instr) : (s.hand c).result = s.result := rfl
@[simp] theorem State.hand_run (s : State) (c : Instr) : (s.hand c).run = s.run := rfl
@[simp] theorem State.hand_fault (s : State) (c : Instr) : (s.hand c).fault = s.fault := rfl
@[simp] theorem State.hand_timers (s : State) (c : Instr) : (s.hand c).timers = s.timers := rfl
@[simp] theorem State.hand_inReset (s : State) (c : Instr) : (s.hand c).inReset = s.inReset := rfl
@[simp] theorem State.hand_pending (s : State) (c : Instr) : (s.hand c).pending = s.pending := rfl
@[simp] theorem State.hand_due (s : State) (c : Instr) : (s.hand c).due = s.due ++ [c] := rfl

/-! ### State.takeDue -/

@[simp] theorem State.takeDue_port (s : State) (c : Instr) : (s.takeDue c).port = s.port := rfl
@[simp] theorem State.takeDue_link (s : State) (c : Instr) : (s.takeDue c).link = s.link := rfl
@[simp] theorem State.takeDue_sched (s : State) (c : Instr) : (s.takeDue c).sched = s.sched := rfl
@[simp] theorem State.takeDue_nodes (s : State) (c : Instr) : (s.takeDue c).nodes = s.nodes := rfl
@[simp] theorem State.takeDue_image (s : State) (c : Instr) : (s.takeDue c).image = s.image := rfl
@[simp] theorem State.takeDue_cmd (s : State) (c : Instr) : (s.takeDue c).cmd = s.cmd := rfl
@[simp] theorem State.takeDue_result (s : State) (c : Instr) : (s.takeDue c).result = s.result := rfl
@[simp] theorem State.takeDue_run (s : State) (c : Instr) : (s.takeDue c).run = s.run := rfl
@[simp] theorem State.takeDue_fault (s : State) (c : Instr) : (s.takeDue c).fault = s.fault := rfl
@[simp] theorem State.takeDue_timers (s : State) (c : Instr) : (s.takeDue c).timers = s.timers := rfl
@[simp] theorem State.takeDue_inReset (s : State) (c : Instr) : (s.takeDue c).inReset = s.inReset := rfl
@[simp] theorem State.takeDue_pending (s : State) (c : Instr) : (s.takeDue c).pending = s.pending := rfl
@[simp] theorem State.takeDue_due (s : State) (c : Instr) : (s.takeDue c).due = s.due.erase c := rfl

/-! ### State.raise -/

@[simp] theorem State.raise_port (s : State) (code : FaultCode) (node : NodeAddr) (detail : Word) :
    (s.raise code node detail).port = s.port := rfl
@[simp] theorem State.raise_link (s : State) (code : FaultCode) (node : NodeAddr) (detail : Word) :
    (s.raise code node detail).link = s.link := rfl
@[simp] theorem State.raise_sched (s : State) (code : FaultCode) (node : NodeAddr) (detail : Word) :
    (s.raise code node detail).sched = s.sched := rfl
@[simp] theorem State.raise_nodes (s : State) (code : FaultCode) (node : NodeAddr) (detail : Word) :
    (s.raise code node detail).nodes = s.nodes := rfl
@[simp] theorem State.raise_image (s : State) (code : FaultCode) (node : NodeAddr) (detail : Word) :
    (s.raise code node detail).image = s.image := rfl
@[simp] theorem State.raise_cmd (s : State) (code : FaultCode) (node : NodeAddr) (detail : Word) :
    (s.raise code node detail).cmd = s.cmd := rfl
@[simp] theorem State.raise_result (s : State) (code : FaultCode) (node : NodeAddr) (detail : Word) :
    (s.raise code node detail).result = s.result := rfl
@[simp] theorem State.raise_run (s : State) (code : FaultCode) (node : NodeAddr) (detail : Word) :
    (s.raise code node detail).run = s.run := rfl
@[simp] theorem State.raise_fault (s : State) (code : FaultCode) (node : NodeAddr) (detail : Word) :
    (s.raise code node detail).fault = s.fault := rfl
@[simp] theorem State.raise_timers (s : State) (code : FaultCode) (node : NodeAddr) (detail : Word) :
    (s.raise code node detail).timers = s.timers := rfl
@[simp] theorem State.raise_inReset (s : State) (code : FaultCode) (node : NodeAddr) (detail : Word) :
    (s.raise code node detail).inReset = s.inReset := rfl
@[simp] theorem State.raise_pending (s : State) (code : FaultCode) (node : NodeAddr) (detail : Word) :
    (s.raise code node detail).pending = s.pending := rfl
@[simp] theorem State.raise_due (s : State) (code : FaultCode) (node : NodeAddr) (detail : Word) :
    (s.raise code node detail).due = s.due ++ [.faultReport { code := code, node := node, detail := detail }] := rfl

/-! ### State.reported -/

@[simp] theorem State.reported_port (s : State) (code : FaultCode) (node : NodeAddr) (detail : Word) :
    (s.reported code node detail).port = s.port := rfl
@[simp] theorem State.reported_link (s : State) (code : FaultCode) (node : NodeAddr) (detail : Word) :
    (s.reported code node detail).link = s.link := rfl
@[simp] theorem State.reported_sched (s : State) (code : FaultCode) (node : NodeAddr) (detail : Word) :
    (s.reported code node detail).sched = s.sched := rfl
@[simp] theorem State.reported_nodes (s : State) (code : FaultCode) (node : NodeAddr) (detail : Word) :
    (s.reported code node detail).nodes = s.nodes := rfl
@[simp] theorem State.reported_image (s : State) (code : FaultCode) (node : NodeAddr) (detail : Word) :
    (s.reported code node detail).image = s.image := rfl
@[simp] theorem State.reported_cmd (s : State) (code : FaultCode) (node : NodeAddr) (detail : Word) :
    (s.reported code node detail).cmd = s.cmd := rfl
@[simp] theorem State.reported_result (s : State) (code : FaultCode) (node : NodeAddr) (detail : Word) :
    (s.reported code node detail).result = s.result := rfl
@[simp] theorem State.reported_run (s : State) (code : FaultCode) (node : NodeAddr) (detail : Word) :
    (s.reported code node detail).run = s.run := rfl
@[simp] theorem State.reported_fault (s : State) (code : FaultCode) (node : NodeAddr) (detail : Word) :
    (s.reported code node detail).fault = s.fault := rfl
@[simp] theorem State.reported_timers (s : State) (code : FaultCode) (node : NodeAddr) (detail : Word) :
    (s.reported code node detail).timers = s.timers := rfl
@[simp] theorem State.reported_inReset (s : State) (code : FaultCode) (node : NodeAddr) (detail : Word) :
    (s.reported code node detail).inReset = s.inReset := rfl
@[simp] theorem State.reported_pending (s : State) (code : FaultCode) (node : NodeAddr) (detail : Word) :
    (s.reported code node detail).pending = s.pending := rfl
@[simp] theorem State.reported_due (s : State) (code : FaultCode) (node : NodeAddr) (detail : Word) :
    (s.reported code node detail).due = s.due ++ [.faultReport { code := code, node := node, detail := detail }] := rfl

/-! ### State.dropLineTimers -/

@[simp] theorem State.dropLineTimers_port (s : State) : (s.dropLineTimers).port = s.port := rfl
@[simp] theorem State.dropLineTimers_link (s : State) : (s.dropLineTimers).link = s.link := rfl
@[simp] theorem State.dropLineTimers_sched (s : State) : (s.dropLineTimers).sched = s.sched := rfl
@[simp] theorem State.dropLineTimers_nodes (s : State) : (s.dropLineTimers).nodes = s.nodes := rfl
@[simp] theorem State.dropLineTimers_image (s : State) : (s.dropLineTimers).image = s.image := rfl
@[simp] theorem State.dropLineTimers_cmd (s : State) : (s.dropLineTimers).cmd = s.cmd := rfl
@[simp] theorem State.dropLineTimers_result (s : State) : (s.dropLineTimers).result = s.result := rfl
@[simp] theorem State.dropLineTimers_run (s : State) : (s.dropLineTimers).run = s.run := rfl
@[simp] theorem State.dropLineTimers_fault (s : State) : (s.dropLineTimers).fault = s.fault := rfl
@[simp] theorem State.dropLineTimers_timers (s : State) : (s.dropLineTimers).timers = s.timers := rfl
@[simp] theorem State.dropLineTimers_inReset (s : State) : (s.dropLineTimers).inReset = s.inReset := rfl
@[simp] theorem State.dropLineTimers_pending (s : State) : (s.dropLineTimers).pending = s.pending := rfl
@[simp] theorem State.dropLineTimers_due (s : State) :
    (s.dropLineTimers).due = s.due.filter fun c => !isLineTimer c := rfl

/-! ### State.dropWindowTimers -/

@[simp] theorem State.dropWindowTimers_port (s : State) : (s.dropWindowTimers).port = s.port := rfl
@[simp] theorem State.dropWindowTimers_link (s : State) : (s.dropWindowTimers).link = s.link := rfl
@[simp] theorem State.dropWindowTimers_sched (s : State) : (s.dropWindowTimers).sched = s.sched := rfl
@[simp] theorem State.dropWindowTimers_nodes (s : State) : (s.dropWindowTimers).nodes = s.nodes := rfl
@[simp] theorem State.dropWindowTimers_image (s : State) : (s.dropWindowTimers).image = s.image := rfl
@[simp] theorem State.dropWindowTimers_cmd (s : State) : (s.dropWindowTimers).cmd = s.cmd := rfl
@[simp] theorem State.dropWindowTimers_result (s : State) : (s.dropWindowTimers).result = s.result := rfl
@[simp] theorem State.dropWindowTimers_run (s : State) : (s.dropWindowTimers).run = s.run := rfl
@[simp] theorem State.dropWindowTimers_fault (s : State) : (s.dropWindowTimers).fault = s.fault := rfl
@[simp] theorem State.dropWindowTimers_timers (s : State) : (s.dropWindowTimers).timers = s.timers := rfl
@[simp] theorem State.dropWindowTimers_inReset (s : State) : (s.dropWindowTimers).inReset = s.inReset := rfl
@[simp] theorem State.dropWindowTimers_pending (s : State) : (s.dropWindowTimers).pending = s.pending := rfl
@[simp] theorem State.dropWindowTimers_due (s : State) :
    (s.dropWindowTimers).due = s.due.filter fun c => !isWindowTimer c := rfl

/-! ### State.dropRunReports -/

@[simp] theorem State.dropRunReports_port (s : State) : (s.dropRunReports).port = s.port := rfl
@[simp] theorem State.dropRunReports_link (s : State) : (s.dropRunReports).link = s.link := rfl
@[simp] theorem State.dropRunReports_sched (s : State) : (s.dropRunReports).sched = s.sched := rfl
@[simp] theorem State.dropRunReports_nodes (s : State) : (s.dropRunReports).nodes = s.nodes := rfl
@[simp] theorem State.dropRunReports_image (s : State) : (s.dropRunReports).image = s.image := rfl
@[simp] theorem State.dropRunReports_cmd (s : State) : (s.dropRunReports).cmd = s.cmd := rfl
@[simp] theorem State.dropRunReports_result (s : State) : (s.dropRunReports).result = s.result := rfl
@[simp] theorem State.dropRunReports_run (s : State) : (s.dropRunReports).run = s.run := rfl
@[simp] theorem State.dropRunReports_fault (s : State) : (s.dropRunReports).fault = s.fault := rfl
@[simp] theorem State.dropRunReports_timers (s : State) : (s.dropRunReports).timers = s.timers := rfl
@[simp] theorem State.dropRunReports_inReset (s : State) : (s.dropRunReports).inReset = s.inReset := rfl
@[simp] theorem State.dropRunReports_pending (s : State) : (s.dropRunReports).pending = s.pending := rfl
@[simp] theorem State.dropRunReports_due (s : State) :
    (s.dropRunReports).due = s.due.filter fun c => !isRunReport c := rfl

/-! ### State.joinChangeSet -/

@[simp] theorem State.joinChangeSet_port (s : State) (n : NodeAddr) : (s.joinChangeSet n).port = s.port := rfl
@[simp] theorem State.joinChangeSet_link (s : State) (n : NodeAddr) : (s.joinChangeSet n).link = s.link := rfl
@[simp] theorem State.joinChangeSet_sched (s : State) (n : NodeAddr) : (s.joinChangeSet n).sched = s.sched := rfl
@[simp] theorem State.joinChangeSet_image (s : State) (n : NodeAddr) : (s.joinChangeSet n).image = s.image := rfl
@[simp] theorem State.joinChangeSet_cmd (s : State) (n : NodeAddr) : (s.joinChangeSet n).cmd = s.cmd := rfl
@[simp] theorem State.joinChangeSet_result (s : State) (n : NodeAddr) : (s.joinChangeSet n).result = s.result := rfl
@[simp] theorem State.joinChangeSet_run (s : State) (n : NodeAddr) : (s.joinChangeSet n).run = s.run := rfl
@[simp] theorem State.joinChangeSet_fault (s : State) (n : NodeAddr) : (s.joinChangeSet n).fault = s.fault := rfl
@[simp] theorem State.joinChangeSet_timers (s : State) (n : NodeAddr) : (s.joinChangeSet n).timers = s.timers := rfl
@[simp] theorem State.joinChangeSet_inReset (s : State) (n : NodeAddr) : (s.joinChangeSet n).inReset = s.inReset := rfl
@[simp] theorem State.joinChangeSet_due (s : State) (n : NodeAddr) : (s.joinChangeSet n).due = s.due := rfl
@[simp] theorem State.joinChangeSet_pending (s : State) (n : NodeAddr) : (s.joinChangeSet n).pending = s.pending := rfl
@[simp] theorem State.joinChangeSet_nodes_nsel (s : State) (n : NodeAddr) :
    (s.joinChangeSet n).nodes.nsel = s.nodes.nsel := rfl
@[simp] theorem State.joinChangeSet_nodes_changeSet (s : State) (n : NodeAddr) :
    (s.joinChangeSet n).nodes.changeSet = NodeSet.insert s.nodes.changeSet n := rfl
@[simp] theorem State.joinChangeSet_nodes_entries (s : State) (n : NodeAddr) :
    (s.joinChangeSet n).nodes.entries = s.nodes.entries := rfl

/-! ### State.takeReport -/

@[simp] theorem State.takeReport_port (s : State) (r : FaultReport) : (s.takeReport r).port = s.port := rfl
@[simp] theorem State.takeReport_link (s : State) (r : FaultReport) : (s.takeReport r).link = s.link := rfl
@[simp] theorem State.takeReport_sched (s : State) (r : FaultReport) : (s.takeReport r).sched = s.sched := rfl
@[simp] theorem State.takeReport_nodes (s : State) (r : FaultReport) : (s.takeReport r).nodes = s.nodes := rfl
@[simp] theorem State.takeReport_image (s : State) (r : FaultReport) : (s.takeReport r).image = s.image := rfl
@[simp] theorem State.takeReport_cmd (s : State) (r : FaultReport) : (s.takeReport r).cmd = s.cmd := rfl
@[simp] theorem State.takeReport_result (s : State) (r : FaultReport) : (s.takeReport r).result = s.result := rfl
@[simp] theorem State.takeReport_run (s : State) (r : FaultReport) : (s.takeReport r).run = s.run := rfl
@[simp] theorem State.takeReport_timers (s : State) (r : FaultReport) : (s.takeReport r).timers = s.timers := rfl
@[simp] theorem State.takeReport_inReset (s : State) (r : FaultReport) : (s.takeReport r).inReset = s.inReset := rfl
@[simp] theorem State.takeReport_due (s : State) (r : FaultReport) : (s.takeReport r).due = s.due := rfl
@[simp] theorem State.takeReport_pending (s : State) (r : FaultReport) : (s.takeReport r).pending = s.pending := rfl

/-! ### State.emptyCapture -/

@[simp] theorem State.emptyCapture_port (s : State) : (s.emptyCapture).port = s.port := rfl
@[simp] theorem State.emptyCapture_link (s : State) : (s.emptyCapture).link = s.link := rfl
@[simp] theorem State.emptyCapture_sched (s : State) : (s.emptyCapture).sched = s.sched := rfl
@[simp] theorem State.emptyCapture_nodes (s : State) : (s.emptyCapture).nodes = s.nodes := rfl
@[simp] theorem State.emptyCapture_image (s : State) : (s.emptyCapture).image = s.image := rfl
@[simp] theorem State.emptyCapture_cmd (s : State) : (s.emptyCapture).cmd = s.cmd := rfl
@[simp] theorem State.emptyCapture_result (s : State) : (s.emptyCapture).result = s.result := rfl
@[simp] theorem State.emptyCapture_run (s : State) : (s.emptyCapture).run = s.run := rfl
@[simp] theorem State.emptyCapture_timers (s : State) : (s.emptyCapture).timers = s.timers := rfl
@[simp] theorem State.emptyCapture_inReset (s : State) : (s.emptyCapture).inReset = s.inReset := rfl
@[simp] theorem State.emptyCapture_due (s : State) : (s.emptyCapture).due = s.due := rfl
@[simp] theorem State.emptyCapture_pending (s : State) : (s.emptyCapture).pending = s.pending := rfl
@[simp] theorem State.emptyCapture_fault_fflag0 (s : State) : (s.emptyCapture).fault.fflag0 = s.fault.fflag0 := rfl
@[simp] theorem State.emptyCapture_fault_fflag1 (s : State) : (s.emptyCapture).fault.fflag1 = s.fault.fflag1 := rfl
@[simp] theorem State.emptyCapture_fault_enables (s : State) : (s.emptyCapture).fault.enables = s.fault.enables := rfl

/-! ### State.latch -/

@[simp] theorem State.latch_port (s : State) (c : EventCause) : (s.latch c).port = s.port := rfl
@[simp] theorem State.latch_link (s : State) (c : EventCause) : (s.latch c).link = s.link := rfl
@[simp] theorem State.latch_sched (s : State) (c : EventCause) : (s.latch c).sched = s.sched := rfl
@[simp] theorem State.latch_nodes (s : State) (c : EventCause) : (s.latch c).nodes = s.nodes := rfl
@[simp] theorem State.latch_image (s : State) (c : EventCause) : (s.latch c).image = s.image := rfl
@[simp] theorem State.latch_cmd (s : State) (c : EventCause) : (s.latch c).cmd = s.cmd := rfl
@[simp] theorem State.latch_result (s : State) (c : EventCause) : (s.latch c).result = s.result := rfl
@[simp] theorem State.latch_run (s : State) (c : EventCause) : (s.latch c).run = s.run := rfl
@[simp] theorem State.latch_timers (s : State) (c : EventCause) : (s.latch c).timers = s.timers := rfl
@[simp] theorem State.latch_inReset (s : State) (c : EventCause) : (s.latch c).inReset = s.inReset := rfl
@[simp] theorem State.latch_due (s : State) (c : EventCause) : (s.latch c).due = s.due := rfl
@[simp] theorem State.latch_pending (s : State) (c : EventCause) : (s.latch c).pending = s.pending := rfl
@[simp] theorem State.latch_fault_fflag0 (s : State) (c : EventCause) :
    (s.latch c).fault.fflag0 = s.fault.fflag0 := rfl
@[simp] theorem State.latch_fault_fflag1 (s : State) (c : EventCause) :
    (s.latch c).fault.fflag1 = s.fault.fflag1 := rfl
@[simp] theorem State.latch_fault_capture (s : State) (c : EventCause) :
    (s.latch c).fault.capture = s.fault.capture := rfl
@[simp] theorem State.latch_fault_enables (s : State) (c : EventCause) :
    (s.latch c).fault.enables = s.fault.enables := rfl
@[simp] theorem State.latch_fault_latches (s : State) (c : EventCause) :
    (s.latch c).fault.latches = s.fault.latches ||| c.mask := rfl

/-! ### State.clearLatches -/

@[simp] theorem State.clearLatches_port (s : State) (v : Word) : (s.clearLatches v).port = s.port := rfl
@[simp] theorem State.clearLatches_link (s : State) (v : Word) : (s.clearLatches v).link = s.link := rfl
@[simp] theorem State.clearLatches_sched (s : State) (v : Word) : (s.clearLatches v).sched = s.sched := rfl
@[simp] theorem State.clearLatches_nodes (s : State) (v : Word) : (s.clearLatches v).nodes = s.nodes := rfl
@[simp] theorem State.clearLatches_image (s : State) (v : Word) : (s.clearLatches v).image = s.image := rfl
@[simp] theorem State.clearLatches_cmd (s : State) (v : Word) : (s.clearLatches v).cmd = s.cmd := rfl
@[simp] theorem State.clearLatches_result (s : State) (v : Word) : (s.clearLatches v).result = s.result := rfl
@[simp] theorem State.clearLatches_run (s : State) (v : Word) : (s.clearLatches v).run = s.run := rfl
@[simp] theorem State.clearLatches_timers (s : State) (v : Word) : (s.clearLatches v).timers = s.timers := rfl
@[simp] theorem State.clearLatches_inReset (s : State) (v : Word) : (s.clearLatches v).inReset = s.inReset := rfl
@[simp] theorem State.clearLatches_due (s : State) (v : Word) : (s.clearLatches v).due = s.due := rfl
@[simp] theorem State.clearLatches_pending (s : State) (v : Word) : (s.clearLatches v).pending = s.pending := rfl
@[simp] theorem State.clearLatches_fault_fflag0 (s : State) (v : Word) :
    (s.clearLatches v).fault.fflag0 = s.fault.fflag0 := rfl
@[simp] theorem State.clearLatches_fault_fflag1 (s : State) (v : Word) :
    (s.clearLatches v).fault.fflag1 = s.fault.fflag1 := rfl
@[simp] theorem State.clearLatches_fault_capture (s : State) (v : Word) :
    (s.clearLatches v).fault.capture = s.fault.capture := rfl
@[simp] theorem State.clearLatches_fault_enables (s : State) (v : Word) :
    (s.clearLatches v).fault.enables = s.fault.enables := rfl

/-! ### State.storeEnables -/

@[simp] theorem State.storeEnables_port (s : State) (v : Word) : (s.storeEnables v).port = s.port := rfl
@[simp] theorem State.storeEnables_link (s : State) (v : Word) : (s.storeEnables v).link = s.link := rfl
@[simp] theorem State.storeEnables_sched (s : State) (v : Word) : (s.storeEnables v).sched = s.sched := rfl
@[simp] theorem State.storeEnables_nodes (s : State) (v : Word) : (s.storeEnables v).nodes = s.nodes := rfl
@[simp] theorem State.storeEnables_image (s : State) (v : Word) : (s.storeEnables v).image = s.image := rfl
@[simp] theorem State.storeEnables_cmd (s : State) (v : Word) : (s.storeEnables v).cmd = s.cmd := rfl
@[simp] theorem State.storeEnables_result (s : State) (v : Word) : (s.storeEnables v).result = s.result := rfl
@[simp] theorem State.storeEnables_run (s : State) (v : Word) : (s.storeEnables v).run = s.run := rfl
@[simp] theorem State.storeEnables_timers (s : State) (v : Word) : (s.storeEnables v).timers = s.timers := rfl
@[simp] theorem State.storeEnables_inReset (s : State) (v : Word) : (s.storeEnables v).inReset = s.inReset := rfl
@[simp] theorem State.storeEnables_due (s : State) (v : Word) : (s.storeEnables v).due = s.due := rfl
@[simp] theorem State.storeEnables_pending (s : State) (v : Word) : (s.storeEnables v).pending = s.pending := rfl
@[simp] theorem State.storeEnables_fault_fflag0 (s : State) (v : Word) :
    (s.storeEnables v).fault.fflag0 = s.fault.fflag0 := rfl
@[simp] theorem State.storeEnables_fault_fflag1 (s : State) (v : Word) :
    (s.storeEnables v).fault.fflag1 = s.fault.fflag1 := rfl
@[simp] theorem State.storeEnables_fault_capture (s : State) (v : Word) :
    (s.storeEnables v).fault.capture = s.fault.capture := rfl

/-! ### State.takeSwitch -/

@[simp] theorem State.takeSwitch_port (s : State) (t : TableId) : (s.takeSwitch t).port = s.port := rfl
@[simp] theorem State.takeSwitch_link (s : State) (t : TableId) : (s.takeSwitch t).link = s.link := rfl
@[simp] theorem State.takeSwitch_nodes (s : State) (t : TableId) : (s.takeSwitch t).nodes = s.nodes := rfl
@[simp] theorem State.takeSwitch_image (s : State) (t : TableId) : (s.takeSwitch t).image = s.image := rfl
@[simp] theorem State.takeSwitch_cmd (s : State) (t : TableId) : (s.takeSwitch t).cmd = s.cmd := rfl
@[simp] theorem State.takeSwitch_result (s : State) (t : TableId) : (s.takeSwitch t).result = s.result := rfl
@[simp] theorem State.takeSwitch_run (s : State) (t : TableId) : (s.takeSwitch t).run = s.run := rfl
@[simp] theorem State.takeSwitch_timers (s : State) (t : TableId) : (s.takeSwitch t).timers = s.timers := rfl
@[simp] theorem State.takeSwitch_inReset (s : State) (t : TableId) : (s.takeSwitch t).inReset = s.inReset := rfl
@[simp] theorem State.takeSwitch_due (s : State) (t : TableId) : (s.takeSwitch t).due = s.due := rfl
@[simp] theorem State.takeSwitch_pending (s : State) (t : TableId) : (s.takeSwitch t).pending = s.pending := rfl
@[simp] theorem State.takeSwitch_sched_tableA (s : State) (t : TableId) :
    (s.takeSwitch t).sched.tableA = s.sched.tableA := rfl
@[simp] theorem State.takeSwitch_sched_tableB (s : State) (t : TableId) :
    (s.takeSwitch t).sched.tableB = s.sched.tableB := rfl
@[simp] theorem State.takeSwitch_sched_pacingSetting (s : State) (t : TableId) :
    (s.takeSwitch t).sched.pacingSetting = s.sched.pacingSetting := rfl
@[simp] theorem State.takeSwitch_sched_cycleNumber (s : State) (t : TableId) :
    (s.takeSwitch t).sched.cycleNumber = s.sched.cycleNumber := rfl
@[simp] theorem State.takeSwitch_sched_selTable (s : State) (t : TableId) :
    (s.takeSwitch t).sched.selTable = s.sched.selTable := rfl
@[simp] theorem State.takeSwitch_sched_selSlot (s : State) (t : TableId) :
    (s.takeSwitch t).sched.selSlot = s.sched.selSlot := rfl
@[simp] theorem State.takeSwitch_fault_fflag0 (s : State) (t : TableId) :
    (s.takeSwitch t).fault.fflag0 = s.fault.fflag0 := rfl
@[simp] theorem State.takeSwitch_fault_fflag1 (s : State) (t : TableId) :
    (s.takeSwitch t).fault.fflag1 = s.fault.fflag1 := rfl
@[simp] theorem State.takeSwitch_fault_capture (s : State) (t : TableId) :
    (s.takeSwitch t).fault.capture = s.fault.capture := rfl
@[simp] theorem State.takeSwitch_fault_enables (s : State) (t : TableId) :
    (s.takeSwitch t).fault.enables = s.fault.enables := rfl
@[simp] theorem State.takeSwitch_sched_active (s : State) (t : TableId) : (s.takeSwitch t).sched.active = t := rfl
@[simp] theorem State.takeSwitch_sched_pendingSwitch (s : State) (t : TableId) :
    (s.takeSwitch t).sched.pendingSwitch = none := rfl
@[simp] theorem State.takeSwitch_sched_state (s : State) (t : TableId) :
    (s.takeSwitch t).sched.state = s.sched.state := rfl
@[simp] theorem State.takeSwitch_fault_latches (s : State) (t : TableId) :
    (s.takeSwitch t).fault.latches = s.fault.latches ||| 0x0002#16 := rfl

/-! ### State.cancelSwitch -/

@[simp] theorem State.cancelSwitch_port (s : State) : (s.cancelSwitch).port = s.port := rfl
@[simp] theorem State.cancelSwitch_link (s : State) : (s.cancelSwitch).link = s.link := rfl
@[simp] theorem State.cancelSwitch_nodes (s : State) : (s.cancelSwitch).nodes = s.nodes := rfl
@[simp] theorem State.cancelSwitch_image (s : State) : (s.cancelSwitch).image = s.image := rfl
@[simp] theorem State.cancelSwitch_cmd (s : State) : (s.cancelSwitch).cmd = s.cmd := rfl
@[simp] theorem State.cancelSwitch_result (s : State) : (s.cancelSwitch).result = s.result := rfl
@[simp] theorem State.cancelSwitch_run (s : State) : (s.cancelSwitch).run = s.run := rfl
@[simp] theorem State.cancelSwitch_fault (s : State) : (s.cancelSwitch).fault = s.fault := rfl
@[simp] theorem State.cancelSwitch_timers (s : State) : (s.cancelSwitch).timers = s.timers := rfl
@[simp] theorem State.cancelSwitch_inReset (s : State) : (s.cancelSwitch).inReset = s.inReset := rfl
@[simp] theorem State.cancelSwitch_due (s : State) : (s.cancelSwitch).due = s.due := rfl
@[simp] theorem State.cancelSwitch_pending (s : State) : (s.cancelSwitch).pending = s.pending := rfl
@[simp] theorem State.cancelSwitch_sched_tableA (s : State) : (s.cancelSwitch).sched.tableA = s.sched.tableA := rfl
@[simp] theorem State.cancelSwitch_sched_tableB (s : State) : (s.cancelSwitch).sched.tableB = s.sched.tableB := rfl
@[simp] theorem State.cancelSwitch_sched_pacingSetting (s : State) :
    (s.cancelSwitch).sched.pacingSetting = s.sched.pacingSetting := rfl
@[simp] theorem State.cancelSwitch_sched_cycleNumber (s : State) :
    (s.cancelSwitch).sched.cycleNumber = s.sched.cycleNumber := rfl
@[simp] theorem State.cancelSwitch_sched_selTable (s : State) :
    (s.cancelSwitch).sched.selTable = s.sched.selTable := rfl
@[simp] theorem State.cancelSwitch_sched_selSlot (s : State) : (s.cancelSwitch).sched.selSlot = s.sched.selSlot := rfl
@[simp] theorem State.cancelSwitch_sched (s : State) :
    (s.cancelSwitch).sched = { s.sched with pendingSwitch := none } := rfl

/-! ### State.appendResponse -/

@[simp] theorem State.appendResponse_port (s : State) (r : Response) : (s.appendResponse r).port = s.port := rfl
@[simp] theorem State.appendResponse_link (s : State) (r : Response) : (s.appendResponse r).link = s.link := rfl
@[simp] theorem State.appendResponse_sched (s : State) (r : Response) : (s.appendResponse r).sched = s.sched := rfl
@[simp] theorem State.appendResponse_nodes (s : State) (r : Response) : (s.appendResponse r).nodes = s.nodes := rfl
@[simp] theorem State.appendResponse_image (s : State) (r : Response) : (s.appendResponse r).image = s.image := rfl
@[simp] theorem State.appendResponse_cmd (s : State) (r : Response) : (s.appendResponse r).cmd = s.cmd := rfl
@[simp] theorem State.appendResponse_run (s : State) (r : Response) : (s.appendResponse r).run = s.run := rfl
@[simp] theorem State.appendResponse_fault (s : State) (r : Response) : (s.appendResponse r).fault = s.fault := rfl
@[simp] theorem State.appendResponse_timers (s : State) (r : Response) : (s.appendResponse r).timers = s.timers := rfl
@[simp] theorem State.appendResponse_inReset (s : State) (r : Response) :
    (s.appendResponse r).inReset = s.inReset := rfl
@[simp] theorem State.appendResponse_due (s : State) (r : Response) : (s.appendResponse r).due = s.due := rfl
@[simp] theorem State.appendResponse_pending (s : State) (r : Response) :
    (s.appendResponse r).pending = s.pending := rfl
@[simp] theorem State.appendResponse_result_responses (s : State) (r : Response) :
    (s.appendResponse r).result.responses = s.result.responses ++ [r] := rfl
@[simp] theorem State.appendResponse_result_nextOrder (s : State) (r : Response) :
    (s.appendResponse r).result.nextOrder = s.result.nextOrder := rfl

/-! ### State.freeOut -/

@[simp] theorem State.freeOut_port (s : State) (push : Nat) : (s.freeOut push).port = s.port := rfl
@[simp] theorem State.freeOut_link (s : State) (push : Nat) : (s.freeOut push).link = s.link := rfl
@[simp] theorem State.freeOut_sched (s : State) (push : Nat) : (s.freeOut push).sched = s.sched := rfl
@[simp] theorem State.freeOut_nodes (s : State) (push : Nat) : (s.freeOut push).nodes = s.nodes := rfl
@[simp] theorem State.freeOut_image (s : State) (push : Nat) : (s.freeOut push).image = s.image := rfl
@[simp] theorem State.freeOut_result (s : State) (push : Nat) : (s.freeOut push).result = s.result := rfl
@[simp] theorem State.freeOut_run (s : State) (push : Nat) : (s.freeOut push).run = s.run := rfl
@[simp] theorem State.freeOut_fault (s : State) (push : Nat) : (s.freeOut push).fault = s.fault := rfl
@[simp] theorem State.freeOut_timers (s : State) (push : Nat) : (s.freeOut push).timers = s.timers := rfl
@[simp] theorem State.freeOut_inReset (s : State) (push : Nat) : (s.freeOut push).inReset = s.inReset := rfl
@[simp] theorem State.freeOut_due (s : State) (push : Nat) : (s.freeOut push).due = s.due := rfl
@[simp] theorem State.freeOut_pending (s : State) (push : Nat) : (s.freeOut push).pending = s.pending := rfl
@[simp] theorem State.freeOut_cmd_retryLimit (s : State) (push : Nat) :
    (s.freeOut push).cmd.retryLimit = s.cmd.retryLimit := rfl
@[simp] theorem State.freeOut_cmd_resultTimeout (s : State) (push : Nat) :
    (s.freeOut push).cmd.resultTimeout = s.cmd.resultTimeout := rfl
@[simp] theorem State.freeOut_cmd_staging (s : State) (push : Nat) :
    (s.freeOut push).cmd.staging = s.cmd.staging := rfl
@[simp] theorem State.freeOut_cmd_outstanding (s : State) (push : Nat) :
    (s.freeOut push).cmd.outstanding = s.cmd.outstanding.filter fun e => e.push != push := rfl
@[simp] theorem State.freeOut_cmd_queue (s : State) (push : Nat) : (s.freeOut push).cmd.queue = s.cmd.queue := rfl
@[simp] theorem State.freeOut_cmd_nextPush (s : State) (push : Nat) :
    (s.freeOut push).cmd.nextPush = s.cmd.nextPush := rfl
@[simp] theorem State.freeOut_cmd_inFlightMark (s : State) (push : Nat) :
    (s.freeOut push).cmd.inFlightMark = s.cmd.inFlightMark := rfl

/-! ### State.freeQueue -/

@[simp] theorem State.freeQueue_port (s : State) (push : Nat) : (s.freeQueue push).port = s.port := rfl
@[simp] theorem State.freeQueue_link (s : State) (push : Nat) : (s.freeQueue push).link = s.link := rfl
@[simp] theorem State.freeQueue_sched (s : State) (push : Nat) : (s.freeQueue push).sched = s.sched := rfl
@[simp] theorem State.freeQueue_nodes (s : State) (push : Nat) : (s.freeQueue push).nodes = s.nodes := rfl
@[simp] theorem State.freeQueue_image (s : State) (push : Nat) : (s.freeQueue push).image = s.image := rfl
@[simp] theorem State.freeQueue_result (s : State) (push : Nat) : (s.freeQueue push).result = s.result := rfl
@[simp] theorem State.freeQueue_run (s : State) (push : Nat) : (s.freeQueue push).run = s.run := rfl
@[simp] theorem State.freeQueue_fault (s : State) (push : Nat) : (s.freeQueue push).fault = s.fault := rfl
@[simp] theorem State.freeQueue_timers (s : State) (push : Nat) : (s.freeQueue push).timers = s.timers := rfl
@[simp] theorem State.freeQueue_inReset (s : State) (push : Nat) : (s.freeQueue push).inReset = s.inReset := rfl
@[simp] theorem State.freeQueue_due (s : State) (push : Nat) : (s.freeQueue push).due = s.due := rfl
@[simp] theorem State.freeQueue_pending (s : State) (push : Nat) : (s.freeQueue push).pending = s.pending := rfl
@[simp] theorem State.freeQueue_cmd_retryLimit (s : State) (push : Nat) :
    (s.freeQueue push).cmd.retryLimit = s.cmd.retryLimit := rfl
@[simp] theorem State.freeQueue_cmd_resultTimeout (s : State) (push : Nat) :
    (s.freeQueue push).cmd.resultTimeout = s.cmd.resultTimeout := rfl
@[simp] theorem State.freeQueue_cmd_staging (s : State) (push : Nat) :
    (s.freeQueue push).cmd.staging = s.cmd.staging := rfl
@[simp] theorem State.freeQueue_cmd_queue (s : State) (push : Nat) :
    (s.freeQueue push).cmd.queue = s.cmd.queue.filter fun q => q.push != push := rfl
@[simp] theorem State.freeQueue_cmd_outstanding (s : State) (push : Nat) :
    (s.freeQueue push).cmd.outstanding = s.cmd.outstanding := rfl
@[simp] theorem State.freeQueue_cmd_nextPush (s : State) (push : Nat) :
    (s.freeQueue push).cmd.nextPush = s.cmd.nextPush := rfl
@[simp] theorem State.freeQueue_cmd_inFlightMark (s : State) (push : Nat) :
    (s.freeQueue push).cmd.inFlightMark = s.cmd.inFlightMark := rfl

/-! ### State.updateOut -/

@[simp] theorem State.updateOut_port (s : State) (push : Nat) (f : OutEntry → OutEntry) :
    (s.updateOut push f).port = s.port := rfl
@[simp] theorem State.updateOut_link (s : State) (push : Nat) (f : OutEntry → OutEntry) :
    (s.updateOut push f).link = s.link := rfl
@[simp] theorem State.updateOut_sched (s : State) (push : Nat) (f : OutEntry → OutEntry) :
    (s.updateOut push f).sched = s.sched := rfl
@[simp] theorem State.updateOut_nodes (s : State) (push : Nat) (f : OutEntry → OutEntry) :
    (s.updateOut push f).nodes = s.nodes := rfl
@[simp] theorem State.updateOut_image (s : State) (push : Nat) (f : OutEntry → OutEntry) :
    (s.updateOut push f).image = s.image := rfl
@[simp] theorem State.updateOut_result (s : State) (push : Nat) (f : OutEntry → OutEntry) :
    (s.updateOut push f).result = s.result := rfl
@[simp] theorem State.updateOut_run (s : State) (push : Nat) (f : OutEntry → OutEntry) :
    (s.updateOut push f).run = s.run := rfl
@[simp] theorem State.updateOut_fault (s : State) (push : Nat) (f : OutEntry → OutEntry) :
    (s.updateOut push f).fault = s.fault := rfl
@[simp] theorem State.updateOut_timers (s : State) (push : Nat) (f : OutEntry → OutEntry) :
    (s.updateOut push f).timers = s.timers := rfl
@[simp] theorem State.updateOut_inReset (s : State) (push : Nat) (f : OutEntry → OutEntry) :
    (s.updateOut push f).inReset = s.inReset := rfl
@[simp] theorem State.updateOut_due (s : State) (push : Nat) (f : OutEntry → OutEntry) :
    (s.updateOut push f).due = s.due := rfl
@[simp] theorem State.updateOut_pending (s : State) (push : Nat) (f : OutEntry → OutEntry) :
    (s.updateOut push f).pending = s.pending := rfl
@[simp] theorem State.updateOut_cmd_retryLimit (s : State) (push : Nat) (f : OutEntry → OutEntry) :
    (s.updateOut push f).cmd.retryLimit = s.cmd.retryLimit := rfl
@[simp] theorem State.updateOut_cmd_resultTimeout (s : State) (push : Nat) (f : OutEntry → OutEntry) :
    (s.updateOut push f).cmd.resultTimeout = s.cmd.resultTimeout := rfl
@[simp] theorem State.updateOut_cmd_staging (s : State) (push : Nat) (f : OutEntry → OutEntry) :
    (s.updateOut push f).cmd.staging = s.cmd.staging := rfl
@[simp] theorem State.updateOut_cmd_outstanding (s : State) (push : Nat) (f : OutEntry → OutEntry) :
    (s.updateOut push f).cmd.outstanding = s.cmd.outstanding.map fun e => if e.push = push then f e else e := rfl
@[simp] theorem State.updateOut_cmd_queue (s : State) (push : Nat) (f : OutEntry → OutEntry) :
    (s.updateOut push f).cmd.queue = s.cmd.queue := rfl
@[simp] theorem State.updateOut_cmd_nextPush (s : State) (push : Nat) (f : OutEntry → OutEntry) :
    (s.updateOut push f).cmd.nextPush = s.cmd.nextPush := rfl
@[simp] theorem State.updateOut_cmd_inFlightMark (s : State) (push : Nat) (f : OutEntry → OutEntry) :
    (s.updateOut push f).cmd.inFlightMark = s.cmd.inFlightMark := rfl

/-! ### State.updateQueue -/

@[simp] theorem State.updateQueue_port (s : State) (push : Nat) (f : QueueEntry → QueueEntry) :
    (s.updateQueue push f).port = s.port := rfl
@[simp] theorem State.updateQueue_link (s : State) (push : Nat) (f : QueueEntry → QueueEntry) :
    (s.updateQueue push f).link = s.link := rfl
@[simp] theorem State.updateQueue_sched (s : State) (push : Nat) (f : QueueEntry → QueueEntry) :
    (s.updateQueue push f).sched = s.sched := rfl
@[simp] theorem State.updateQueue_nodes (s : State) (push : Nat) (f : QueueEntry → QueueEntry) :
    (s.updateQueue push f).nodes = s.nodes := rfl
@[simp] theorem State.updateQueue_image (s : State) (push : Nat) (f : QueueEntry → QueueEntry) :
    (s.updateQueue push f).image = s.image := rfl
@[simp] theorem State.updateQueue_result (s : State) (push : Nat) (f : QueueEntry → QueueEntry) :
    (s.updateQueue push f).result = s.result := rfl
@[simp] theorem State.updateQueue_run (s : State) (push : Nat) (f : QueueEntry → QueueEntry) :
    (s.updateQueue push f).run = s.run := rfl
@[simp] theorem State.updateQueue_fault (s : State) (push : Nat) (f : QueueEntry → QueueEntry) :
    (s.updateQueue push f).fault = s.fault := rfl
@[simp] theorem State.updateQueue_timers (s : State) (push : Nat) (f : QueueEntry → QueueEntry) :
    (s.updateQueue push f).timers = s.timers := rfl
@[simp] theorem State.updateQueue_inReset (s : State) (push : Nat) (f : QueueEntry → QueueEntry) :
    (s.updateQueue push f).inReset = s.inReset := rfl
@[simp] theorem State.updateQueue_due (s : State) (push : Nat) (f : QueueEntry → QueueEntry) :
    (s.updateQueue push f).due = s.due := rfl
@[simp] theorem State.updateQueue_pending (s : State) (push : Nat) (f : QueueEntry → QueueEntry) :
    (s.updateQueue push f).pending = s.pending := rfl
@[simp] theorem State.updateQueue_cmd_retryLimit (s : State) (push : Nat) (f : QueueEntry → QueueEntry) :
    (s.updateQueue push f).cmd.retryLimit = s.cmd.retryLimit := rfl
@[simp] theorem State.updateQueue_cmd_resultTimeout (s : State) (push : Nat) (f : QueueEntry → QueueEntry) :
    (s.updateQueue push f).cmd.resultTimeout = s.cmd.resultTimeout := rfl
@[simp] theorem State.updateQueue_cmd_staging (s : State) (push : Nat) (f : QueueEntry → QueueEntry) :
    (s.updateQueue push f).cmd.staging = s.cmd.staging := rfl
@[simp] theorem State.updateQueue_cmd_queue (s : State) (push : Nat) (f : QueueEntry → QueueEntry) :
    (s.updateQueue push f).cmd.queue = s.cmd.queue.map fun q => if q.push = push then f q else q := rfl
@[simp] theorem State.updateQueue_cmd_outstanding (s : State) (push : Nat) (f : QueueEntry → QueueEntry) :
    (s.updateQueue push f).cmd.outstanding = s.cmd.outstanding := rfl
@[simp] theorem State.updateQueue_cmd_nextPush (s : State) (push : Nat) (f : QueueEntry → QueueEntry) :
    (s.updateQueue push f).cmd.nextPush = s.cmd.nextPush := rfl
@[simp] theorem State.updateQueue_cmd_inFlightMark (s : State) (push : Nat) (f : QueueEntry → QueueEntry) :
    (s.updateQueue push f).cmd.inFlightMark = s.cmd.inFlightMark := rfl

/-! ### State.advanceOrder -/

@[simp] theorem State.advanceOrder_port (s : State) : (s.advanceOrder).port = s.port := rfl
@[simp] theorem State.advanceOrder_link (s : State) : (s.advanceOrder).link = s.link := rfl
@[simp] theorem State.advanceOrder_sched (s : State) : (s.advanceOrder).sched = s.sched := rfl
@[simp] theorem State.advanceOrder_nodes (s : State) : (s.advanceOrder).nodes = s.nodes := rfl
@[simp] theorem State.advanceOrder_image (s : State) : (s.advanceOrder).image = s.image := rfl
@[simp] theorem State.advanceOrder_cmd (s : State) : (s.advanceOrder).cmd = s.cmd := rfl
@[simp] theorem State.advanceOrder_run (s : State) : (s.advanceOrder).run = s.run := rfl
@[simp] theorem State.advanceOrder_fault (s : State) : (s.advanceOrder).fault = s.fault := rfl
@[simp] theorem State.advanceOrder_timers (s : State) : (s.advanceOrder).timers = s.timers := rfl
@[simp] theorem State.advanceOrder_inReset (s : State) : (s.advanceOrder).inReset = s.inReset := rfl
@[simp] theorem State.advanceOrder_due (s : State) : (s.advanceOrder).due = s.due := rfl
@[simp] theorem State.advanceOrder_pending (s : State) : (s.advanceOrder).pending = s.pending := rfl
@[simp] theorem State.advanceOrder_result_nextOrder (s : State) :
    (s.advanceOrder).result.nextOrder = s.result.nextOrder + 1 := rfl
@[simp] theorem State.advanceOrder_result_responses (s : State) :
    (s.advanceOrder).result.responses = s.result.responses := rfl

/-! ### State.clearMark -/

@[simp] theorem State.clearMark_port (s : State) : (s.clearMark).port = s.port := rfl
@[simp] theorem State.clearMark_link (s : State) : (s.clearMark).link = s.link := rfl
@[simp] theorem State.clearMark_sched (s : State) : (s.clearMark).sched = s.sched := rfl
@[simp] theorem State.clearMark_nodes (s : State) : (s.clearMark).nodes = s.nodes := rfl
@[simp] theorem State.clearMark_image (s : State) : (s.clearMark).image = s.image := rfl
@[simp] theorem State.clearMark_result (s : State) : (s.clearMark).result = s.result := rfl
@[simp] theorem State.clearMark_run (s : State) : (s.clearMark).run = s.run := rfl
@[simp] theorem State.clearMark_fault (s : State) : (s.clearMark).fault = s.fault := rfl
@[simp] theorem State.clearMark_timers (s : State) : (s.clearMark).timers = s.timers := rfl
@[simp] theorem State.clearMark_inReset (s : State) : (s.clearMark).inReset = s.inReset := rfl
@[simp] theorem State.clearMark_due (s : State) : (s.clearMark).due = s.due := rfl
@[simp] theorem State.clearMark_pending (s : State) : (s.clearMark).pending = s.pending := rfl
@[simp] theorem State.clearMark_cmd_retryLimit (s : State) : (s.clearMark).cmd.retryLimit = s.cmd.retryLimit := rfl
@[simp] theorem State.clearMark_cmd_resultTimeout (s : State) :
    (s.clearMark).cmd.resultTimeout = s.cmd.resultTimeout := rfl
@[simp] theorem State.clearMark_cmd_staging (s : State) : (s.clearMark).cmd.staging = s.cmd.staging := rfl
@[simp] theorem State.clearMark_cmd_inFlightMark (s : State) : (s.clearMark).cmd.inFlightMark = none := rfl
@[simp] theorem State.clearMark_cmd_outstanding (s : State) : (s.clearMark).cmd.outstanding = s.cmd.outstanding := rfl
@[simp] theorem State.clearMark_cmd_queue (s : State) : (s.clearMark).cmd.queue = s.cmd.queue := rfl
@[simp] theorem State.clearMark_cmd_nextPush (s : State) : (s.clearMark).cmd.nextPush = s.cmd.nextPush := rfl
@[simp] theorem State.clearMark_cmd_endedMarks (s : State) :
    (s.clearMark).cmd.endedMarks = s.cmd.endedMarks := rfl

/-! ### State.dropEndedMark -/

@[simp] theorem State.dropEndedMark_port (s : State) : (s.dropEndedMark).port = s.port := rfl
@[simp] theorem State.dropEndedMark_link (s : State) : (s.dropEndedMark).link = s.link := rfl
@[simp] theorem State.dropEndedMark_sched (s : State) : (s.dropEndedMark).sched = s.sched := rfl
@[simp] theorem State.dropEndedMark_nodes (s : State) : (s.dropEndedMark).nodes = s.nodes := rfl
@[simp] theorem State.dropEndedMark_image (s : State) : (s.dropEndedMark).image = s.image := rfl
@[simp] theorem State.dropEndedMark_result (s : State) : (s.dropEndedMark).result = s.result := rfl
@[simp] theorem State.dropEndedMark_run (s : State) : (s.dropEndedMark).run = s.run := rfl
@[simp] theorem State.dropEndedMark_fault (s : State) : (s.dropEndedMark).fault = s.fault := rfl
@[simp] theorem State.dropEndedMark_timers (s : State) : (s.dropEndedMark).timers = s.timers := rfl
@[simp] theorem State.dropEndedMark_inReset (s : State) : (s.dropEndedMark).inReset = s.inReset := rfl
@[simp] theorem State.dropEndedMark_due (s : State) : (s.dropEndedMark).due = s.due := rfl
@[simp] theorem State.dropEndedMark_pending (s : State) : (s.dropEndedMark).pending = s.pending := rfl
@[simp] theorem State.dropEndedMark_cmd_retryLimit (s : State) : (s.dropEndedMark).cmd.retryLimit = s.cmd.retryLimit := rfl
@[simp] theorem State.dropEndedMark_cmd_resultTimeout (s : State) :
    (s.dropEndedMark).cmd.resultTimeout = s.cmd.resultTimeout := rfl
@[simp] theorem State.dropEndedMark_cmd_staging (s : State) : (s.dropEndedMark).cmd.staging = s.cmd.staging := rfl
@[simp] theorem State.dropEndedMark_cmd_inFlightMark (s : State) :
    (s.dropEndedMark).cmd.inFlightMark = s.cmd.inFlightMark := rfl
@[simp] theorem State.dropEndedMark_cmd_outstanding (s : State) : (s.dropEndedMark).cmd.outstanding = s.cmd.outstanding := rfl
@[simp] theorem State.dropEndedMark_cmd_queue (s : State) : (s.dropEndedMark).cmd.queue = s.cmd.queue := rfl
@[simp] theorem State.dropEndedMark_cmd_nextPush (s : State) : (s.dropEndedMark).cmd.nextPush = s.cmd.nextPush := rfl
@[simp] theorem State.dropEndedMark_cmd_endedMarks (s : State) :
    (s.dropEndedMark).cmd.endedMarks = s.cmd.endedMarks.tail := rfl

/-! ### State.sendRetry -/

@[simp] theorem State.sendRetry_port (s : State) (e : OutEntry) : (s.sendRetry e).port = s.port := rfl
@[simp] theorem State.sendRetry_link (s : State) (e : OutEntry) : (s.sendRetry e).link = s.link := rfl
@[simp] theorem State.sendRetry_sched (s : State) (e : OutEntry) : (s.sendRetry e).sched = s.sched := rfl
@[simp] theorem State.sendRetry_nodes (s : State) (e : OutEntry) : (s.sendRetry e).nodes = s.nodes := rfl
@[simp] theorem State.sendRetry_image (s : State) (e : OutEntry) : (s.sendRetry e).image = s.image := rfl
@[simp] theorem State.sendRetry_result (s : State) (e : OutEntry) : (s.sendRetry e).result = s.result := rfl
@[simp] theorem State.sendRetry_run (s : State) (e : OutEntry) : (s.sendRetry e).run = s.run := rfl
@[simp] theorem State.sendRetry_fault (s : State) (e : OutEntry) : (s.sendRetry e).fault = s.fault := rfl
@[simp] theorem State.sendRetry_timers (s : State) (e : OutEntry) : (s.sendRetry e).timers = s.timers := rfl
@[simp] theorem State.sendRetry_inReset (s : State) (e : OutEntry) : (s.sendRetry e).inReset = s.inReset := rfl
@[simp] theorem State.sendRetry_due (s : State) (e : OutEntry) : (s.sendRetry e).due = s.due := rfl
@[simp] theorem State.sendRetry_pending (s : State) (e : OutEntry) : (s.sendRetry e).pending = s.pending := rfl
@[simp] theorem State.sendRetry_cmd_retryLimit (s : State) (e : OutEntry) :
    (s.sendRetry e).cmd.retryLimit = s.cmd.retryLimit := rfl
@[simp] theorem State.sendRetry_cmd_resultTimeout (s : State) (e : OutEntry) :
    (s.sendRetry e).cmd.resultTimeout = s.cmd.resultTimeout := rfl
@[simp] theorem State.sendRetry_cmd_staging (s : State) (e : OutEntry) :
    (s.sendRetry e).cmd.staging = s.cmd.staging := rfl
@[simp] theorem State.sendRetry_cmd_endedMarks (s : State) (e : OutEntry) :
    (s.sendRetry e).cmd.endedMarks = s.marksLeft := rfl
@[simp] theorem State.sendRetry_cmd_inFlightMark (s : State) (e : OutEntry) :
    (s.sendRetry e).cmd.inFlightMark = some e.push := rfl
@[simp] theorem State.sendRetry_cmd_queue (s : State) (e : OutEntry) : (s.sendRetry e).cmd.queue = s.cmd.queue := rfl
@[simp] theorem State.sendRetry_cmd_nextPush (s : State) (e : OutEntry) :
    (s.sendRetry e).cmd.nextPush = s.cmd.nextPush := rfl
@[simp] theorem State.sendRetry_cmd_outstanding (s : State) (e : OutEntry) :
    (s.sendRetry e).cmd.outstanding =
      s.cmd.outstanding.map fun x => if x.push = e.push then { x with state := .awaitAck } else x := rfl

/-! ### State.setImage -/

@[simp] theorem State.setImage_port (s : State) (u : Image) : (s.setImage u).port = s.port := rfl
@[simp] theorem State.setImage_link (s : State) (u : Image) : (s.setImage u).link = s.link := rfl
@[simp] theorem State.setImage_sched (s : State) (u : Image) : (s.setImage u).sched = s.sched := rfl
@[simp] theorem State.setImage_nodes (s : State) (u : Image) : (s.setImage u).nodes = s.nodes := rfl
@[simp] theorem State.setImage_cmd (s : State) (u : Image) : (s.setImage u).cmd = s.cmd := rfl
@[simp] theorem State.setImage_result (s : State) (u : Image) : (s.setImage u).result = s.result := rfl
@[simp] theorem State.setImage_run (s : State) (u : Image) : (s.setImage u).run = s.run := rfl
@[simp] theorem State.setImage_fault (s : State) (u : Image) : (s.setImage u).fault = s.fault := rfl
@[simp] theorem State.setImage_timers (s : State) (u : Image) : (s.setImage u).timers = s.timers := rfl
@[simp] theorem State.setImage_inReset (s : State) (u : Image) : (s.setImage u).inReset = s.inReset := rfl
@[simp] theorem State.setImage_due (s : State) (u : Image) : (s.setImage u).due = s.due := rfl
@[simp] theorem State.setImage_pending (s : State) (u : Image) : (s.setImage u).pending = s.pending := rfl
@[simp] theorem State.setImage_image (s : State) (u : Image) : (s.setImage u).image = u := rfl

/-! ### State.outputSwap -/

@[simp] theorem State.outputSwap_port (s : State) : (s.outputSwap).port = s.port := rfl
@[simp] theorem State.outputSwap_link (s : State) : (s.outputSwap).link = s.link := rfl
@[simp] theorem State.outputSwap_sched (s : State) : (s.outputSwap).sched = s.sched := rfl
@[simp] theorem State.outputSwap_nodes (s : State) : (s.outputSwap).nodes = s.nodes := rfl
@[simp] theorem State.outputSwap_cmd (s : State) : (s.outputSwap).cmd = s.cmd := rfl
@[simp] theorem State.outputSwap_result (s : State) : (s.outputSwap).result = s.result := rfl
@[simp] theorem State.outputSwap_run (s : State) : (s.outputSwap).run = s.run := rfl
@[simp] theorem State.outputSwap_timers (s : State) : (s.outputSwap).timers = s.timers := rfl
@[simp] theorem State.outputSwap_inReset (s : State) : (s.outputSwap).inReset = s.inReset := rfl
@[simp] theorem State.outputSwap_due (s : State) : (s.outputSwap).due = s.due := rfl
@[simp] theorem State.outputSwap_pending (s : State) : (s.outputSwap).pending = s.pending := rfl
@[simp] theorem State.outputSwap_image_hold (s : State) : (s.outputSwap).image.hold = s.image.hold := rfl
@[simp] theorem State.outputSwap_image_ptest (s : State) : (s.outputSwap).image.ptest = s.image.ptest := rfl
@[simp] theorem State.outputSwap_fault_fflag0 (s : State) : (s.outputSwap).fault.fflag0 = s.fault.fflag0 := rfl
@[simp] theorem State.outputSwap_fault_fflag1 (s : State) : (s.outputSwap).fault.fflag1 = s.fault.fflag1 := rfl
@[simp] theorem State.outputSwap_fault_capture (s : State) : (s.outputSwap).fault.capture = s.fault.capture := rfl
@[simp] theorem State.outputSwap_fault_enables (s : State) : (s.outputSwap).fault.enables = s.fault.enables := rfl
@[simp] theorem State.outputSwap_fault_latches (s : State) :
    (s.outputSwap).fault.latches = s.fault.latches ||| 0x0004#16 := rfl

/-! ### State.inputSwap -/

@[simp] theorem State.inputSwap_port (s : State) : (s.inputSwap).port = s.port := rfl
@[simp] theorem State.inputSwap_link (s : State) : (s.inputSwap).link = s.link := rfl
@[simp] theorem State.inputSwap_sched (s : State) : (s.inputSwap).sched = s.sched := rfl
@[simp] theorem State.inputSwap_nodes (s : State) : (s.inputSwap).nodes = s.nodes := rfl
@[simp] theorem State.inputSwap_cmd (s : State) : (s.inputSwap).cmd = s.cmd := rfl
@[simp] theorem State.inputSwap_result (s : State) : (s.inputSwap).result = s.result := rfl
@[simp] theorem State.inputSwap_run (s : State) : (s.inputSwap).run = s.run := rfl
@[simp] theorem State.inputSwap_timers (s : State) : (s.inputSwap).timers = s.timers := rfl
@[simp] theorem State.inputSwap_inReset (s : State) : (s.inputSwap).inReset = s.inReset := rfl
@[simp] theorem State.inputSwap_due (s : State) : (s.inputSwap).due = s.due := rfl
@[simp] theorem State.inputSwap_pending (s : State) : (s.inputSwap).pending = s.pending := rfl
@[simp] theorem State.inputSwap_image_hold (s : State) : (s.inputSwap).image.hold = s.image.hold := rfl
@[simp] theorem State.inputSwap_image_ptest (s : State) : (s.inputSwap).image.ptest = s.image.ptest := rfl
@[simp] theorem State.inputSwap_fault_fflag0 (s : State) : (s.inputSwap).fault.fflag0 = s.fault.fflag0 := rfl
@[simp] theorem State.inputSwap_fault_fflag1 (s : State) : (s.inputSwap).fault.fflag1 = s.fault.fflag1 := rfl
@[simp] theorem State.inputSwap_fault_capture (s : State) : (s.inputSwap).fault.capture = s.fault.capture := rfl
@[simp] theorem State.inputSwap_fault_enables (s : State) : (s.inputSwap).fault.enables = s.fault.enables := rfl
@[simp] theorem State.inputSwap_fault_latches (s : State) :
    (s.inputSwap).fault.latches = s.fault.latches ||| 0x0008#16 := rfl

/-! ### State.dropSlice -/

@[simp] theorem State.dropSlice_port (s : State) (n : NodeAddr) : (s.dropSlice n).port = s.port := rfl
@[simp] theorem State.dropSlice_link (s : State) (n : NodeAddr) : (s.dropSlice n).link = s.link := rfl
@[simp] theorem State.dropSlice_sched (s : State) (n : NodeAddr) : (s.dropSlice n).sched = s.sched := rfl
@[simp] theorem State.dropSlice_nodes (s : State) (n : NodeAddr) : (s.dropSlice n).nodes = s.nodes := rfl
@[simp] theorem State.dropSlice_cmd (s : State) (n : NodeAddr) : (s.dropSlice n).cmd = s.cmd := rfl
@[simp] theorem State.dropSlice_result (s : State) (n : NodeAddr) : (s.dropSlice n).result = s.result := rfl
@[simp] theorem State.dropSlice_run (s : State) (n : NodeAddr) : (s.dropSlice n).run = s.run := rfl
@[simp] theorem State.dropSlice_fault (s : State) (n : NodeAddr) : (s.dropSlice n).fault = s.fault := rfl
@[simp] theorem State.dropSlice_timers (s : State) (n : NodeAddr) : (s.dropSlice n).timers = s.timers := rfl
@[simp] theorem State.dropSlice_inReset (s : State) (n : NodeAddr) : (s.dropSlice n).inReset = s.inReset := rfl
@[simp] theorem State.dropSlice_due (s : State) (n : NodeAddr) : (s.dropSlice n).due = s.due := rfl
@[simp] theorem State.dropSlice_pending (s : State) (n : NodeAddr) : (s.dropSlice n).pending = s.pending := rfl
@[simp] theorem State.dropSlice_image_hold (s : State) (n : NodeAddr) :
    (s.dropSlice n).image.hold = s.image.hold := rfl
@[simp] theorem State.dropSlice_image_ptest (s : State) (n : NodeAddr) :
    (s.dropSlice n).image.ptest = s.image.ptest := rfl

/-! ### State.removeChanged -/

@[simp] theorem State.removeChanged_port (s : State) (h : Half) (v : Word) : (s.removeChanged h v).port = s.port := rfl
@[simp] theorem State.removeChanged_link (s : State) (h : Half) (v : Word) : (s.removeChanged h v).link = s.link := rfl
@[simp] theorem State.removeChanged_sched (s : State) (h : Half) (v : Word) :
    (s.removeChanged h v).sched = s.sched := rfl
@[simp] theorem State.removeChanged_image (s : State) (h : Half) (v : Word) :
    (s.removeChanged h v).image = s.image := rfl
@[simp] theorem State.removeChanged_cmd (s : State) (h : Half) (v : Word) : (s.removeChanged h v).cmd = s.cmd := rfl
@[simp] theorem State.removeChanged_result (s : State) (h : Half) (v : Word) :
    (s.removeChanged h v).result = s.result := rfl
@[simp] theorem State.removeChanged_run (s : State) (h : Half) (v : Word) : (s.removeChanged h v).run = s.run := rfl
@[simp] theorem State.removeChanged_fault (s : State) (h : Half) (v : Word) :
    (s.removeChanged h v).fault = s.fault := rfl
@[simp] theorem State.removeChanged_timers (s : State) (h : Half) (v : Word) :
    (s.removeChanged h v).timers = s.timers := rfl
@[simp] theorem State.removeChanged_inReset (s : State) (h : Half) (v : Word) :
    (s.removeChanged h v).inReset = s.inReset := rfl
@[simp] theorem State.removeChanged_due (s : State) (h : Half) (v : Word) : (s.removeChanged h v).due = s.due := rfl
@[simp] theorem State.removeChanged_pending (s : State) (h : Half) (v : Word) :
    (s.removeChanged h v).pending = s.pending := rfl
@[simp] theorem State.removeChanged_nodes_nsel (s : State) (h : Half) (v : Word) :
    (s.removeChanged h v).nodes.nsel = s.nodes.nsel := rfl
@[simp] theorem State.removeChanged_nodes_entries (s : State) (h : Half) (v : Word) :
    (s.removeChanged h v).nodes.entries = s.nodes.entries := rfl

/-! ### State.linkClear -/

@[simp] theorem State.linkClear_port (s : State) (st : LinkState) : (s.linkClear st).port = s.port := rfl
@[simp] theorem State.linkClear_sched (s : State) (st : LinkState) : (s.linkClear st).sched = s.sched := rfl
@[simp] theorem State.linkClear_nodes (s : State) (st : LinkState) : (s.linkClear st).nodes = s.nodes := rfl
@[simp] theorem State.linkClear_image (s : State) (st : LinkState) : (s.linkClear st).image = s.image := rfl
@[simp] theorem State.linkClear_cmd (s : State) (st : LinkState) : (s.linkClear st).cmd = s.cmd := rfl
@[simp] theorem State.linkClear_result (s : State) (st : LinkState) : (s.linkClear st).result = s.result := rfl
@[simp] theorem State.linkClear_run (s : State) (st : LinkState) : (s.linkClear st).run = s.run := rfl
@[simp] theorem State.linkClear_fault (s : State) (st : LinkState) : (s.linkClear st).fault = s.fault := rfl
@[simp] theorem State.linkClear_inReset (s : State) (st : LinkState) : (s.linkClear st).inReset = s.inReset := rfl
@[simp] theorem State.linkClear_due (s : State) (st : LinkState) : (s.linkClear st).due = s.due := rfl
@[simp] theorem State.linkClear_pending (s : State) (st : LinkState) : (s.linkClear st).pending = s.pending := rfl
@[simp] theorem State.linkClear_link_rate (s : State) (st : LinkState) :
    (s.linkClear st).link.rate = s.link.rate := rfl
@[simp] theorem State.linkClear_link_window (s : State) (st : LinkState) :
    (s.linkClear st).link.window = s.link.window := rfl
@[simp] theorem State.linkClear_link_state (s : State) (st : LinkState) : (s.linkClear st).link.state = st := rfl
@[simp] theorem State.linkClear_link_exchange (s : State) (st : LinkState) :
    (s.linkClear st).link.exchange = .silent := rfl
@[simp] theorem State.linkClear_link_rxd (s : State) (st : LinkState) : (s.linkClear st).link.rxd = s.link.rxd := rfl
@[simp] theorem State.linkClear_timers_segment (s : State) (st : LinkState) :
    (s.linkClear st).timers.segment = s.timers.segment := rfl
@[simp] theorem State.linkClear_timers_frame (s : State) (st : LinkState) : (s.linkClear st).timers.frame = none := rfl
@[simp] theorem State.linkClear_timers_cut (s : State) (st : LinkState) : (s.linkClear st).timers.cut = none := rfl
@[simp] theorem State.linkClear_timers_mark (s : State) (st : LinkState) : (s.linkClear st).timers.mark = none := rfl
@[simp] theorem State.linkClear_timers_window (s : State) (st : LinkState) :
    (s.linkClear st).timers.window = none := rfl
@[simp] theorem State.linkClear_timers_window2 (s : State) (st : LinkState) :
    (s.linkClear st).timers.window2 = none := rfl

/-! ### State.linkOff -/

@[simp] theorem State.linkOff_port (s : State) : (s.linkOff).port = s.port := rfl
@[simp] theorem State.linkOff_sched (s : State) : (s.linkOff).sched = s.sched := rfl
@[simp] theorem State.linkOff_nodes (s : State) : (s.linkOff).nodes = s.nodes := rfl
@[simp] theorem State.linkOff_image (s : State) : (s.linkOff).image = s.image := rfl
@[simp] theorem State.linkOff_cmd (s : State) : (s.linkOff).cmd = s.cmd := rfl
@[simp] theorem State.linkOff_result (s : State) : (s.linkOff).result = s.result := rfl
@[simp] theorem State.linkOff_run (s : State) : (s.linkOff).run = s.run := rfl
@[simp] theorem State.linkOff_fault (s : State) : (s.linkOff).fault = s.fault := rfl
@[simp] theorem State.linkOff_inReset (s : State) : (s.linkOff).inReset = s.inReset := rfl
@[simp] theorem State.linkOff_due (s : State) : (s.linkOff).due = s.due := rfl
@[simp] theorem State.linkOff_pending (s : State) : (s.linkOff).pending = s.pending := rfl
@[simp] theorem State.linkOff_link_rate (s : State) : (s.linkOff).link.rate = s.link.rate := rfl
@[simp] theorem State.linkOff_link_window (s : State) : (s.linkOff).link.window = s.link.window := rfl
@[simp] theorem State.linkOff_link_state (s : State) : (s.linkOff).link.state = .linkOff := rfl
@[simp] theorem State.linkOff_timers_segment (s : State) : (s.linkOff).timers.segment = s.timers.segment := rfl
@[simp] theorem State.linkOff_link_rxd (s : State) : (s.linkOff).link.rxd = s.link.rxd := rfl

/-! ### State.startQuiet -/

@[simp] theorem State.startQuiet_port (s : State) : (s.startQuiet).port = s.port := rfl
@[simp] theorem State.startQuiet_sched (s : State) : (s.startQuiet).sched = s.sched := rfl
@[simp] theorem State.startQuiet_nodes (s : State) : (s.startQuiet).nodes = s.nodes := rfl
@[simp] theorem State.startQuiet_image (s : State) : (s.startQuiet).image = s.image := rfl
@[simp] theorem State.startQuiet_cmd (s : State) : (s.startQuiet).cmd = s.cmd := rfl
@[simp] theorem State.startQuiet_result (s : State) : (s.startQuiet).result = s.result := rfl
@[simp] theorem State.startQuiet_run (s : State) : (s.startQuiet).run = s.run := rfl
@[simp] theorem State.startQuiet_fault (s : State) : (s.startQuiet).fault = s.fault := rfl
@[simp] theorem State.startQuiet_inReset (s : State) : (s.startQuiet).inReset = s.inReset := rfl
@[simp] theorem State.startQuiet_due (s : State) : (s.startQuiet).due = s.due := rfl
@[simp] theorem State.startQuiet_pending (s : State) : (s.startQuiet).pending = s.pending := rfl
@[simp] theorem State.startQuiet_link_rate (s : State) : (s.startQuiet).link.rate = s.link.rate := rfl
@[simp] theorem State.startQuiet_link_window (s : State) : (s.startQuiet).link.window = s.link.window := rfl
@[simp] theorem State.startQuiet_link_state (s : State) : (s.startQuiet).link.state = .quietWait := rfl
@[simp] theorem State.startQuiet_link_quietRunning (s : State) : (s.startQuiet).link.quietRunning = true := rfl
@[simp] theorem State.startQuiet_timers_quiet (s : State) : (s.startQuiet).timers.quiet = 0 := rfl
@[simp] theorem State.startQuiet_timers_segment (s : State) : (s.startQuiet).timers.segment = s.timers.segment := rfl

/-! ### State.enterMark, State.beginCut and State.startMark -/

@[simp] theorem State.enterMark_port (s : State) (quiet : Bool) : (s.enterMark quiet).port = s.port := rfl
@[simp] theorem State.enterMark_sched (s : State) (quiet : Bool) : (s.enterMark quiet).sched = s.sched := rfl
@[simp] theorem State.enterMark_nodes (s : State) (quiet : Bool) : (s.enterMark quiet).nodes = s.nodes := rfl
@[simp] theorem State.enterMark_image (s : State) (quiet : Bool) : (s.enterMark quiet).image = s.image := rfl
@[simp] theorem State.enterMark_cmd (s : State) (quiet : Bool) : (s.enterMark quiet).cmd = s.cmd := rfl
@[simp] theorem State.enterMark_result (s : State) (quiet : Bool) : (s.enterMark quiet).result = s.result := rfl
@[simp] theorem State.enterMark_run (s : State) (quiet : Bool) : (s.enterMark quiet).run = s.run := rfl
@[simp] theorem State.enterMark_fault (s : State) (quiet : Bool) : (s.enterMark quiet).fault = s.fault := rfl
@[simp] theorem State.enterMark_inReset (s : State) (quiet : Bool) : (s.enterMark quiet).inReset = s.inReset := rfl
@[simp] theorem State.enterMark_due (s : State) (quiet : Bool) : (s.enterMark quiet).due = s.due := rfl
@[simp] theorem State.enterMark_pending (s : State) (quiet : Bool) : (s.enterMark quiet).pending = s.pending := rfl
@[simp] theorem State.enterMark_link_rate (s : State) (quiet : Bool) : (s.enterMark quiet).link.rate = s.link.rate :=
    rfl
@[simp] theorem State.enterMark_link_window (s : State) (quiet : Bool) :
    (s.enterMark quiet).link.window = s.link.window := rfl
@[simp] theorem State.enterMark_timers_segment (s : State) (quiet : Bool) :
    (s.enterMark quiet).timers.segment = s.timers.segment := rfl
@[simp] theorem State.enterMark_link_state (s : State) (quiet : Bool) : (s.enterMark quiet).link.state = .mark := rfl
@[simp] theorem State.enterMark_link_quietAfterMark (s : State) (quiet : Bool) :
    (s.enterMark quiet).link.quietAfterMark = quiet := rfl
@[simp] theorem State.enterMark_link_rxd (s : State) (quiet : Bool) : (s.enterMark quiet).link.rxd = false := rfl
@[simp] theorem State.enterMark_link_frameRate (s : State) (quiet : Bool) :
    (s.enterMark quiet).link.frameRate = s.link.frameRate := rfl
@[simp] theorem State.enterMark_timers_mark (s : State) (quiet : Bool) :
    (s.enterMark quiet).timers.mark = some (s.frameTimes Config.abortMark) := rfl
@[simp] theorem State.enterMark_timers_frame (s : State) (quiet : Bool) : (s.enterMark quiet).timers.frame = none := rfl
@[simp] theorem State.enterMark_timers_cut (s : State) (quiet : Bool) : (s.enterMark quiet).timers.cut = none := rfl

@[simp] theorem State.beginCut_port (s : State) : (s.beginCut).port = s.port := rfl
@[simp] theorem State.beginCut_sched (s : State) : (s.beginCut).sched = s.sched := rfl
@[simp] theorem State.beginCut_nodes (s : State) : (s.beginCut).nodes = s.nodes := rfl
@[simp] theorem State.beginCut_image (s : State) : (s.beginCut).image = s.image := rfl
@[simp] theorem State.beginCut_cmd (s : State) : (s.beginCut).cmd = s.cmd := rfl
@[simp] theorem State.beginCut_result (s : State) : (s.beginCut).result = s.result := rfl
@[simp] theorem State.beginCut_run (s : State) : (s.beginCut).run = s.run := rfl
@[simp] theorem State.beginCut_fault (s : State) : (s.beginCut).fault = s.fault := rfl
@[simp] theorem State.beginCut_inReset (s : State) : (s.beginCut).inReset = s.inReset := rfl
@[simp] theorem State.beginCut_due (s : State) : (s.beginCut).due = s.due := rfl
@[simp] theorem State.beginCut_pending (s : State) : (s.beginCut).pending = s.pending := rfl
@[simp] theorem State.beginCut_link_rate (s : State) : (s.beginCut).link.rate = s.link.rate := rfl
@[simp] theorem State.beginCut_link_frameRate (s : State) : (s.beginCut).link.frameRate = s.link.frameRate := rfl
@[simp] theorem State.beginCut_link_window (s : State) : (s.beginCut).link.window = s.link.window := rfl
@[simp] theorem State.beginCut_link_frame (s : State) : (s.beginCut).link.frame = s.link.frame := rfl
@[simp] theorem State.beginCut_timers_segment (s : State) : (s.beginCut).timers.segment = s.timers.segment := rfl
@[simp] theorem State.beginCut_timers_frame (s : State) : (s.beginCut).timers.frame = s.timers.frame := rfl
@[simp] theorem State.beginCut_link_state (s : State) : (s.beginCut).link.state = .send := rfl
@[simp] theorem State.beginCut_link_quietAfterMark (s : State) : (s.beginCut).link.quietAfterMark = false := rfl
@[simp] theorem State.beginCut_timers_mark (s : State) : (s.beginCut).timers.mark = none := rfl
@[simp] theorem State.beginCut_timers_cut (s : State) : (s.beginCut).timers.cut = some s.restOfBit := rfl

@[simp] theorem State.startMark_port (s : State) : (s.startMark).port = s.port :=
    by unfold State.startMark; split <;> rfl
@[simp] theorem State.startMark_sched (s : State) : (s.startMark).sched = s.sched :=
    by unfold State.startMark; split <;> rfl
@[simp] theorem State.startMark_nodes (s : State) : (s.startMark).nodes = s.nodes :=
    by unfold State.startMark; split <;> rfl
@[simp] theorem State.startMark_image (s : State) : (s.startMark).image = s.image :=
    by unfold State.startMark; split <;> rfl
@[simp] theorem State.startMark_cmd (s : State) : (s.startMark).cmd = s.cmd := by unfold State.startMark; split <;> rfl
@[simp] theorem State.startMark_result (s : State) : (s.startMark).result = s.result :=
    by unfold State.startMark; split <;> rfl
@[simp] theorem State.startMark_run (s : State) : (s.startMark).run = s.run := by unfold State.startMark; split <;> rfl
@[simp] theorem State.startMark_fault (s : State) : (s.startMark).fault = s.fault :=
    by unfold State.startMark; split <;> rfl
@[simp] theorem State.startMark_inReset (s : State) : (s.startMark).inReset = s.inReset :=
    by unfold State.startMark; split <;> rfl
@[simp] theorem State.startMark_due (s : State) : (s.startMark).due = s.due := by unfold State.startMark; split <;> rfl
@[simp] theorem State.startMark_pending (s : State) : (s.startMark).pending = s.pending :=
    by unfold State.startMark; split <;> rfl
@[simp] theorem State.startMark_link_rate (s : State) : (s.startMark).link.rate = s.link.rate :=
    by unfold State.startMark; split <;> rfl
@[simp] theorem State.startMark_link_window (s : State) : (s.startMark).link.window = s.link.window :=
    by unfold State.startMark; split <;> rfl
@[simp] theorem State.startMark_timers_segment (s : State) : (s.startMark).timers.segment = s.timers.segment :=
    by unfold State.startMark; split <;> rfl
@[simp] theorem State.startMark_link_quietAfterMark (s : State) : (s.startMark).link.quietAfterMark = false :=
    by unfold State.startMark; split <;> rfl

/-! ### State.directAfterMark -/

@[simp] theorem State.directAfterMark_port (s : State) (quiet : Bool) : (s.directAfterMark quiet).port = s.port := rfl
@[simp] theorem State.directAfterMark_sched (s : State) (quiet : Bool) : (s.directAfterMark quiet).sched = s.sched :=
    rfl
@[simp] theorem State.directAfterMark_nodes (s : State) (quiet : Bool) : (s.directAfterMark quiet).nodes = s.nodes :=
    rfl
@[simp] theorem State.directAfterMark_image (s : State) (quiet : Bool) : (s.directAfterMark quiet).image = s.image :=
    rfl
@[simp] theorem State.directAfterMark_cmd (s : State) (quiet : Bool) : (s.directAfterMark quiet).cmd = s.cmd := rfl
@[simp] theorem State.directAfterMark_result (s : State) (quiet : Bool) : (s.directAfterMark quiet).result = s.result :=
    rfl
@[simp] theorem State.directAfterMark_run (s : State) (quiet : Bool) : (s.directAfterMark quiet).run = s.run := rfl
@[simp] theorem State.directAfterMark_fault (s : State) (quiet : Bool) : (s.directAfterMark quiet).fault = s.fault :=
    rfl
@[simp] theorem State.directAfterMark_inReset (s : State) (quiet : Bool) :
    (s.directAfterMark quiet).inReset = s.inReset := rfl
@[simp] theorem State.directAfterMark_due (s : State) (quiet : Bool) : (s.directAfterMark quiet).due = s.due := rfl
@[simp] theorem State.directAfterMark_pending (s : State) (quiet : Bool) :
    (s.directAfterMark quiet).pending = s.pending := rfl
@[simp] theorem State.directAfterMark_timers (s : State) (quiet : Bool) : (s.directAfterMark quiet).timers = s.timers :=
    rfl
@[simp] theorem State.directAfterMark_link_rate (s : State) (quiet : Bool) :
    (s.directAfterMark quiet).link.rate = s.link.rate := rfl
@[simp] theorem State.directAfterMark_link_window (s : State) (quiet : Bool) :
    (s.directAfterMark quiet).link.window = s.link.window := rfl
@[simp] theorem State.directAfterMark_link_state (s : State) (quiet : Bool) :
    (s.directAfterMark quiet).link.state = s.link.state := rfl
@[simp] theorem State.directAfterMark_link_quietAfterMark (s : State) (quiet : Bool) :
    (s.directAfterMark quiet).link.quietAfterMark = quiet := rfl

/-! ### State.schedIdle -/

@[simp] theorem State.schedIdle_port (s : State) : (s.schedIdle).port = s.port := rfl
@[simp] theorem State.schedIdle_link (s : State) : (s.schedIdle).link = s.link := rfl
@[simp] theorem State.schedIdle_nodes (s : State) : (s.schedIdle).nodes = s.nodes := rfl
@[simp] theorem State.schedIdle_image (s : State) : (s.schedIdle).image = s.image := rfl
@[simp] theorem State.schedIdle_cmd (s : State) : (s.schedIdle).cmd = s.cmd := rfl
@[simp] theorem State.schedIdle_result (s : State) : (s.schedIdle).result = s.result := rfl
@[simp] theorem State.schedIdle_run (s : State) : (s.schedIdle).run = s.run := rfl
@[simp] theorem State.schedIdle_fault (s : State) : (s.schedIdle).fault = s.fault := rfl
@[simp] theorem State.schedIdle_inReset (s : State) : (s.schedIdle).inReset = s.inReset := rfl
@[simp] theorem State.schedIdle_due (s : State) : (s.schedIdle).due = s.due := rfl
@[simp] theorem State.schedIdle_pending (s : State) : (s.schedIdle).pending = s.pending := rfl
@[simp] theorem State.schedIdle_sched_tableA (s : State) : (s.schedIdle).sched.tableA = s.sched.tableA := rfl
@[simp] theorem State.schedIdle_sched_tableB (s : State) : (s.schedIdle).sched.tableB = s.sched.tableB := rfl
@[simp] theorem State.schedIdle_sched_pacingSetting (s : State) :
    (s.schedIdle).sched.pacingSetting = s.sched.pacingSetting := rfl
@[simp] theorem State.schedIdle_sched_cycleNumber (s : State) :
    (s.schedIdle).sched.cycleNumber = s.sched.cycleNumber := rfl
@[simp] theorem State.schedIdle_sched_selTable (s : State) : (s.schedIdle).sched.selTable = s.sched.selTable := rfl
@[simp] theorem State.schedIdle_sched_selSlot (s : State) : (s.schedIdle).sched.selSlot = s.sched.selSlot := rfl
@[simp] theorem State.schedIdle_sched (s : State) : (s.schedIdle).sched = { s.sched with state := .idle } := rfl
@[simp] theorem State.schedIdle_timers_segment (s : State) : (s.schedIdle).timers.segment = none := rfl
@[simp] theorem State.schedIdle_timers_mark (s : State) : (s.schedIdle).timers.mark = s.timers.mark := rfl

/-! ### State.changeRun -/

@[simp] theorem State.changeRun_port (s : State) (r : RunState) : (s.changeRun r).port = s.port := rfl
@[simp] theorem State.changeRun_link (s : State) (r : RunState) : (s.changeRun r).link = s.link := rfl
@[simp] theorem State.changeRun_sched (s : State) (r : RunState) : (s.changeRun r).sched = s.sched := rfl
@[simp] theorem State.changeRun_nodes (s : State) (r : RunState) : (s.changeRun r).nodes = s.nodes := rfl
@[simp] theorem State.changeRun_image (s : State) (r : RunState) : (s.changeRun r).image = s.image := rfl
@[simp] theorem State.changeRun_cmd (s : State) (r : RunState) : (s.changeRun r).cmd = s.cmd := rfl
@[simp] theorem State.changeRun_result (s : State) (r : RunState) : (s.changeRun r).result = s.result := rfl
@[simp] theorem State.changeRun_timers (s : State) (r : RunState) : (s.changeRun r).timers = s.timers := rfl
@[simp] theorem State.changeRun_inReset (s : State) (r : RunState) : (s.changeRun r).inReset = s.inReset := rfl
@[simp] theorem State.changeRun_due (s : State) (r : RunState) : (s.changeRun r).due = s.due := rfl
@[simp] theorem State.changeRun_pending (s : State) (r : RunState) : (s.changeRun r).pending = s.pending := rfl
@[simp] theorem State.changeRun_fault_fflag0 (s : State) (r : RunState) :
    (s.changeRun r).fault.fflag0 = s.fault.fflag0 := rfl
@[simp] theorem State.changeRun_fault_fflag1 (s : State) (r : RunState) :
    (s.changeRun r).fault.fflag1 = s.fault.fflag1 := rfl
@[simp] theorem State.changeRun_fault_capture (s : State) (r : RunState) :
    (s.changeRun r).fault.capture = s.fault.capture := rfl
@[simp] theorem State.changeRun_fault_enables (s : State) (r : RunState) :
    (s.changeRun r).fault.enables = s.fault.enables := rfl
@[simp] theorem State.changeRun_run (s : State) (r : RunState) : (s.changeRun r).run = { s.run with state := r } := rfl
@[simp] theorem State.changeRun_fault_latches (s : State) (r : RunState) :
    (s.changeRun r).fault.latches = s.fault.latches ||| 0x0010#16 := rfl

/-! ### State.setRestarts -/

@[simp] theorem State.setRestarts_port (s : State) (n : BitVec 4) : (s.setRestarts n).port = s.port := rfl
@[simp] theorem State.setRestarts_link (s : State) (n : BitVec 4) : (s.setRestarts n).link = s.link := rfl
@[simp] theorem State.setRestarts_sched (s : State) (n : BitVec 4) : (s.setRestarts n).sched = s.sched := rfl
@[simp] theorem State.setRestarts_nodes (s : State) (n : BitVec 4) : (s.setRestarts n).nodes = s.nodes := rfl
@[simp] theorem State.setRestarts_image (s : State) (n : BitVec 4) : (s.setRestarts n).image = s.image := rfl
@[simp] theorem State.setRestarts_cmd (s : State) (n : BitVec 4) : (s.setRestarts n).cmd = s.cmd := rfl
@[simp] theorem State.setRestarts_result (s : State) (n : BitVec 4) : (s.setRestarts n).result = s.result := rfl
@[simp] theorem State.setRestarts_fault (s : State) (n : BitVec 4) : (s.setRestarts n).fault = s.fault := rfl
@[simp] theorem State.setRestarts_timers (s : State) (n : BitVec 4) : (s.setRestarts n).timers = s.timers := rfl
@[simp] theorem State.setRestarts_inReset (s : State) (n : BitVec 4) : (s.setRestarts n).inReset = s.inReset := rfl
@[simp] theorem State.setRestarts_due (s : State) (n : BitVec 4) : (s.setRestarts n).due = s.due := rfl
@[simp] theorem State.setRestarts_pending (s : State) (n : BitVec 4) : (s.setRestarts n).pending = s.pending := rfl
@[simp] theorem State.setRestarts_run (s : State) (n : BitVec 4) :
    (s.setRestarts n).run = { s.run with restarts := n } := rfl

/-! ### State.beginLine -/

@[simp] theorem State.beginLine_port (s : State) (st : LinkState) (ex : Exchange) (frame : List Byte) :
    (s.beginLine st ex frame).port = s.port := rfl
@[simp] theorem State.beginLine_sched (s : State) (st : LinkState) (ex : Exchange) (frame : List Byte) :
    (s.beginLine st ex frame).sched = s.sched := rfl
@[simp] theorem State.beginLine_nodes (s : State) (st : LinkState) (ex : Exchange) (frame : List Byte) :
    (s.beginLine st ex frame).nodes = s.nodes := rfl
@[simp] theorem State.beginLine_image (s : State) (st : LinkState) (ex : Exchange) (frame : List Byte) :
    (s.beginLine st ex frame).image = s.image := rfl
@[simp] theorem State.beginLine_cmd (s : State) (st : LinkState) (ex : Exchange) (frame : List Byte) :
    (s.beginLine st ex frame).cmd = s.cmd := rfl
@[simp] theorem State.beginLine_result (s : State) (st : LinkState) (ex : Exchange) (frame : List Byte) :
    (s.beginLine st ex frame).result = s.result := rfl
@[simp] theorem State.beginLine_run (s : State) (st : LinkState) (ex : Exchange) (frame : List Byte) :
    (s.beginLine st ex frame).run = s.run := rfl
@[simp] theorem State.beginLine_fault (s : State) (st : LinkState) (ex : Exchange) (frame : List Byte) :
    (s.beginLine st ex frame).fault = s.fault := rfl
@[simp] theorem State.beginLine_inReset (s : State) (st : LinkState) (ex : Exchange) (frame : List Byte) :
    (s.beginLine st ex frame).inReset = s.inReset := rfl
@[simp] theorem State.beginLine_due (s : State) (st : LinkState) (ex : Exchange) (frame : List Byte) :
    (s.beginLine st ex frame).due = s.due := rfl
@[simp] theorem State.beginLine_pending (s : State) (st : LinkState) (ex : Exchange) (frame : List Byte) :
    (s.beginLine st ex frame).pending = s.pending := rfl
@[simp] theorem State.beginLine_link_rate (s : State) (st : LinkState) (ex : Exchange) (frame : List Byte) :
    (s.beginLine st ex frame).link.rate = s.link.rate := rfl
@[simp] theorem State.beginLine_link_window (s : State) (st : LinkState) (ex : Exchange) (frame : List Byte) :
    (s.beginLine st ex frame).link.window = s.link.window := rfl
@[simp] theorem State.beginLine_link_state (s : State) (st : LinkState) (ex : Exchange) (frame : List Byte) :
    (s.beginLine st ex frame).link.state = st := rfl
@[simp] theorem State.beginLine_link_exchange (s : State) (st : LinkState) (ex : Exchange) (frame : List Byte) :
    (s.beginLine st ex frame).link.exchange = ex := rfl
@[simp] theorem State.beginLine_link_frame (s : State) (st : LinkState) (ex : Exchange) (frame : List Byte) :
    (s.beginLine st ex frame).link.frame = frame := rfl
@[simp] theorem State.beginLine_timers_segment (s : State) (st : LinkState) (ex : Exchange) (frame : List Byte) :
    (s.beginLine st ex frame).timers.segment = s.timers.segment := rfl

/-! ### State.startFrame -/

@[simp] theorem State.startFrame_port (s : State) (ex : Exchange) (frame : List Byte) :
    (s.startFrame ex frame).port = s.port := rfl
@[simp] theorem State.startFrame_sched (s : State) (ex : Exchange) (frame : List Byte) :
    (s.startFrame ex frame).sched = s.sched := rfl
@[simp] theorem State.startFrame_nodes (s : State) (ex : Exchange) (frame : List Byte) :
    (s.startFrame ex frame).nodes = s.nodes := rfl
@[simp] theorem State.startFrame_image (s : State) (ex : Exchange) (frame : List Byte) :
    (s.startFrame ex frame).image = s.image := rfl
@[simp] theorem State.startFrame_cmd (s : State) (ex : Exchange) (frame : List Byte) :
    (s.startFrame ex frame).cmd = s.cmd := rfl
@[simp] theorem State.startFrame_result (s : State) (ex : Exchange) (frame : List Byte) :
    (s.startFrame ex frame).result = s.result := rfl
@[simp] theorem State.startFrame_run (s : State) (ex : Exchange) (frame : List Byte) :
    (s.startFrame ex frame).run = s.run := rfl
@[simp] theorem State.startFrame_fault (s : State) (ex : Exchange) (frame : List Byte) :
    (s.startFrame ex frame).fault = s.fault := rfl
@[simp] theorem State.startFrame_inReset (s : State) (ex : Exchange) (frame : List Byte) :
    (s.startFrame ex frame).inReset = s.inReset := rfl
@[simp] theorem State.startFrame_due (s : State) (ex : Exchange) (frame : List Byte) :
    (s.startFrame ex frame).due = s.due := rfl
@[simp] theorem State.startFrame_pending (s : State) (ex : Exchange) (frame : List Byte) :
    (s.startFrame ex frame).pending = s.pending := rfl
@[simp] theorem State.startFrame_link_rate (s : State) (ex : Exchange) (frame : List Byte) :
    (s.startFrame ex frame).link.rate = s.link.rate := rfl
@[simp] theorem State.startFrame_link_window (s : State) (ex : Exchange) (frame : List Byte) :
    (s.startFrame ex frame).link.window = s.link.window := rfl
@[simp] theorem State.startFrame_link_state (s : State) (ex : Exchange) (frame : List Byte) :
    (s.startFrame ex frame).link.state = .send := rfl
@[simp] theorem State.startFrame_link_exchange (s : State) (ex : Exchange) (frame : List Byte) :
    (s.startFrame ex frame).link.exchange = ex := rfl
@[simp] theorem State.startFrame_link_frame (s : State) (ex : Exchange) (frame : List Byte) :
    (s.startFrame ex frame).link.frame = frame := rfl
@[simp] theorem State.startFrame_link_frameRate (s : State) (ex : Exchange) (frame : List Byte) :
    (s.startFrame ex frame).link.frameRate = s.link.rate := rfl
@[simp] theorem State.startFrame_timers_frame (s : State) (ex : Exchange) (frame : List Byte) :
    (s.startFrame ex frame).timers.frame = some (s.bitTimes (lineTime frame)) := rfl
@[simp] theorem State.startFrame_timers_segment (s : State) (ex : Exchange) (frame : List Byte) :
    (s.startFrame ex frame).timers.segment = s.timers.segment := rfl

/-! ### State.startSilent -/

@[simp] theorem State.startSilent_port (s : State) : (s.startSilent).port = s.port := rfl
@[simp] theorem State.startSilent_sched (s : State) : (s.startSilent).sched = s.sched := rfl
@[simp] theorem State.startSilent_nodes (s : State) : (s.startSilent).nodes = s.nodes := rfl
@[simp] theorem State.startSilent_image (s : State) : (s.startSilent).image = s.image := rfl
@[simp] theorem State.startSilent_cmd (s : State) : (s.startSilent).cmd = s.cmd := rfl
@[simp] theorem State.startSilent_result (s : State) : (s.startSilent).result = s.result := rfl
@[simp] theorem State.startSilent_run (s : State) : (s.startSilent).run = s.run := rfl
@[simp] theorem State.startSilent_fault (s : State) : (s.startSilent).fault = s.fault := rfl
@[simp] theorem State.startSilent_inReset (s : State) : (s.startSilent).inReset = s.inReset := rfl
@[simp] theorem State.startSilent_due (s : State) : (s.startSilent).due = s.due := rfl
@[simp] theorem State.startSilent_pending (s : State) : (s.startSilent).pending = s.pending := rfl
@[simp] theorem State.startSilent_link_rate (s : State) : (s.startSilent).link.rate = s.link.rate := rfl
@[simp] theorem State.startSilent_link_window (s : State) : (s.startSilent).link.window = s.link.window := rfl
@[simp] theorem State.startSilent_link_state (s : State) : (s.startSilent).link.state = .guarding := rfl
@[simp] theorem State.startSilent_link_exchange (s : State) : (s.startSilent).link.exchange = .silent := rfl
@[simp] theorem State.startSilent_link_frame (s : State) : (s.startSilent).link.frame = [] := rfl
@[simp] theorem State.startSilent_timers_frame (s : State) : (s.startSilent).timers.frame = none := rfl
@[simp] theorem State.startSilent_timers_segment (s : State) : (s.startSilent).timers.segment = s.timers.segment := rfl

/-! ### State.setPacing -/

@[simp] theorem State.setPacing_port (s : State) (v : BitVec 2) : (s.setPacing v).port = s.port := rfl
@[simp] theorem State.setPacing_link (s : State) (v : BitVec 2) : (s.setPacing v).link = s.link := rfl
@[simp] theorem State.setPacing_nodes (s : State) (v : BitVec 2) : (s.setPacing v).nodes = s.nodes := rfl
@[simp] theorem State.setPacing_image (s : State) (v : BitVec 2) : (s.setPacing v).image = s.image := rfl
@[simp] theorem State.setPacing_cmd (s : State) (v : BitVec 2) : (s.setPacing v).cmd = s.cmd := rfl
@[simp] theorem State.setPacing_result (s : State) (v : BitVec 2) : (s.setPacing v).result = s.result := rfl
@[simp] theorem State.setPacing_run (s : State) (v : BitVec 2) : (s.setPacing v).run = s.run := rfl
@[simp] theorem State.setPacing_fault (s : State) (v : BitVec 2) : (s.setPacing v).fault = s.fault := rfl
@[simp] theorem State.setPacing_timers (s : State) (v : BitVec 2) : (s.setPacing v).timers = s.timers := rfl
@[simp] theorem State.setPacing_inReset (s : State) (v : BitVec 2) : (s.setPacing v).inReset = s.inReset := rfl
@[simp] theorem State.setPacing_due (s : State) (v : BitVec 2) : (s.setPacing v).due = s.due := rfl
@[simp] theorem State.setPacing_pending (s : State) (v : BitVec 2) : (s.setPacing v).pending = s.pending := rfl
@[simp] theorem State.setPacing_sched_tableA (s : State) (v : BitVec 2) :
    (s.setPacing v).sched.tableA = s.sched.tableA := rfl
@[simp] theorem State.setPacing_sched_tableB (s : State) (v : BitVec 2) :
    (s.setPacing v).sched.tableB = s.sched.tableB := rfl
@[simp] theorem State.setPacing_sched_pacingSetting (s : State) (v : BitVec 2) :
    (s.setPacing v).sched.pacingSetting = s.sched.pacingSetting := rfl
@[simp] theorem State.setPacing_sched_cycleNumber (s : State) (v : BitVec 2) :
    (s.setPacing v).sched.cycleNumber = s.sched.cycleNumber := rfl
@[simp] theorem State.setPacing_sched_selTable (s : State) (v : BitVec 2) :
    (s.setPacing v).sched.selTable = s.sched.selTable := rfl
@[simp] theorem State.setPacing_sched_selSlot (s : State) (v : BitVec 2) :
    (s.setPacing v).sched.selSlot = s.sched.selSlot := rfl
@[simp] theorem State.setPacing_sched (s : State) (v : BitVec 2) :
    (s.setPacing v).sched = { s.sched with pacing := v } := rfl

/-! ### State.enterSlot -/

@[simp] theorem State.enterSlot_port (s : State) (k : SlotIndex) (r : SlotRecord) :
    (s.enterSlot k r).port = s.port := rfl
@[simp] theorem State.enterSlot_nodes (s : State) (k : SlotIndex) (r : SlotRecord) :
    (s.enterSlot k r).nodes = s.nodes := rfl
@[simp] theorem State.enterSlot_cmd (s : State) (k : SlotIndex) (r : SlotRecord) : (s.enterSlot k r).cmd = s.cmd := rfl
@[simp] theorem State.enterSlot_result (s : State) (k : SlotIndex) (r : SlotRecord) :
    (s.enterSlot k r).result = s.result := rfl
@[simp] theorem State.enterSlot_run (s : State) (k : SlotIndex) (r : SlotRecord) : (s.enterSlot k r).run = s.run := rfl
@[simp] theorem State.enterSlot_fault (s : State) (k : SlotIndex) (r : SlotRecord) :
    (s.enterSlot k r).fault = s.fault := rfl
@[simp] theorem State.enterSlot_inReset (s : State) (k : SlotIndex) (r : SlotRecord) :
    (s.enterSlot k r).inReset = s.inReset := rfl
@[simp] theorem State.enterSlot_due (s : State) (k : SlotIndex) (r : SlotRecord) : (s.enterSlot k r).due = s.due := rfl
@[simp] theorem State.enterSlot_pending (s : State) (k : SlotIndex) (r : SlotRecord) :
    (s.enterSlot k r).pending = s.pending := rfl
@[simp] theorem State.enterSlot_sched_tableA (s : State) (k : SlotIndex) (r : SlotRecord) :
    (s.enterSlot k r).sched.tableA = s.sched.tableA := rfl
@[simp] theorem State.enterSlot_sched_tableB (s : State) (k : SlotIndex) (r : SlotRecord) :
    (s.enterSlot k r).sched.tableB = s.sched.tableB := rfl
@[simp] theorem State.enterSlot_sched_pacingSetting (s : State) (k : SlotIndex) (r : SlotRecord) :
    (s.enterSlot k r).sched.pacingSetting = s.sched.pacingSetting := rfl
@[simp] theorem State.enterSlot_sched_cycleNumber (s : State) (k : SlotIndex) (r : SlotRecord) :
    (s.enterSlot k r).sched.cycleNumber = s.sched.cycleNumber := rfl
@[simp] theorem State.enterSlot_sched_selTable (s : State) (k : SlotIndex) (r : SlotRecord) :
    (s.enterSlot k r).sched.selTable = s.sched.selTable := rfl
@[simp] theorem State.enterSlot_sched_selSlot (s : State) (k : SlotIndex) (r : SlotRecord) :
    (s.enterSlot k r).sched.selSlot = s.sched.selSlot := rfl
@[simp] theorem State.enterSlot_link_rate (s : State) (k : SlotIndex) (r : SlotRecord) :
    (s.enterSlot k r).link.rate = s.link.rate := rfl
@[simp] theorem State.enterSlot_link_window (s : State) (k : SlotIndex) (r : SlotRecord) :
    (s.enterSlot k r).link.window = s.link.window := rfl
@[simp] theorem State.enterSlot_image_hold (s : State) (k : SlotIndex) (r : SlotRecord) :
    (s.enterSlot k r).image.hold = s.image.hold := rfl
@[simp] theorem State.enterSlot_image_ptest (s : State) (k : SlotIndex) (r : SlotRecord) :
    (s.enterSlot k r).image.ptest = s.image.ptest := rfl
@[simp] theorem State.enterSlot_sched (s : State) (k : SlotIndex) (r : SlotRecord) :
    (s.enterSlot k r).sched = { s.sched with state := .slot k } := rfl
@[simp] theorem State.enterSlot_timers_segment (s : State) (k : SlotIndex) (r : SlotRecord) :
    (s.enterSlot k r).timers.segment = some (s.bitTimes r.length.toNat) := rfl

/-! ### State.windowDone -/

@[simp] theorem State.windowDone_port (s : State) (st : LinkState) : (s.windowDone st).port = s.port := rfl
@[simp] theorem State.windowDone_sched (s : State) (st : LinkState) : (s.windowDone st).sched = s.sched := rfl
@[simp] theorem State.windowDone_nodes (s : State) (st : LinkState) : (s.windowDone st).nodes = s.nodes := rfl
@[simp] theorem State.windowDone_image (s : State) (st : LinkState) : (s.windowDone st).image = s.image := rfl
@[simp] theorem State.windowDone_cmd (s : State) (st : LinkState) : (s.windowDone st).cmd = s.cmd := rfl
@[simp] theorem State.windowDone_result (s : State) (st : LinkState) : (s.windowDone st).result = s.result := rfl
@[simp] theorem State.windowDone_run (s : State) (st : LinkState) : (s.windowDone st).run = s.run := rfl
@[simp] theorem State.windowDone_fault (s : State) (st : LinkState) : (s.windowDone st).fault = s.fault := rfl
@[simp] theorem State.windowDone_inReset (s : State) (st : LinkState) : (s.windowDone st).inReset = s.inReset := rfl
@[simp] theorem State.windowDone_due (s : State) (st : LinkState) : (s.windowDone st).due = s.due := rfl
@[simp] theorem State.windowDone_pending (s : State) (st : LinkState) : (s.windowDone st).pending = s.pending := rfl
@[simp] theorem State.windowDone_link_rate (s : State) (st : LinkState) :
    (s.windowDone st).link.rate = s.link.rate := rfl
@[simp] theorem State.windowDone_link_window (s : State) (st : LinkState) :
    (s.windowDone st).link.window = s.link.window := rfl
@[simp] theorem State.windowDone_link_state (s : State) (st : LinkState) : (s.windowDone st).link.state = st := rfl
@[simp] theorem State.windowDone_link_exchange (s : State) (st : LinkState) :
    (s.windowDone st).link.exchange = s.link.exchange := rfl
@[simp] theorem State.windowDone_link_lastDecided (s : State) (st : LinkState) :
    (s.windowDone st).link.lastDecided = some s.link.windowNode := rfl
@[simp] theorem State.windowDone_link_second (s : State) (st : LinkState) :
    (s.windowDone st).link.second = s.link.second := rfl

/-! ### State.openWindow -/

@[simp] theorem State.openWindow_port (s : State) (second : Bool) : (s.openWindow second).port = s.port := rfl
@[simp] theorem State.openWindow_sched (s : State) (second : Bool) : (s.openWindow second).sched = s.sched := rfl
@[simp] theorem State.openWindow_nodes (s : State) (second : Bool) : (s.openWindow second).nodes = s.nodes := rfl
@[simp] theorem State.openWindow_image (s : State) (second : Bool) : (s.openWindow second).image = s.image := rfl
@[simp] theorem State.openWindow_cmd (s : State) (second : Bool) : (s.openWindow second).cmd = s.cmd := rfl
@[simp] theorem State.openWindow_result (s : State) (second : Bool) : (s.openWindow second).result = s.result := rfl
@[simp] theorem State.openWindow_run (s : State) (second : Bool) : (s.openWindow second).run = s.run := rfl
@[simp] theorem State.openWindow_fault (s : State) (second : Bool) : (s.openWindow second).fault = s.fault := rfl
@[simp] theorem State.openWindow_inReset (s : State) (second : Bool) : (s.openWindow second).inReset = s.inReset := rfl
@[simp] theorem State.openWindow_due (s : State) (second : Bool) : (s.openWindow second).due = s.due := rfl
@[simp] theorem State.openWindow_pending (s : State) (second : Bool) : (s.openWindow second).pending = s.pending := rfl
@[simp] theorem State.openWindow_link_rate (s : State) (second : Bool) :
    (s.openWindow second).link.rate = s.link.rate := rfl
@[simp] theorem State.openWindow_link_window (s : State) (second : Bool) :
    (s.openWindow second).link.window = s.link.window := rfl
@[simp] theorem State.openWindow_link_state (s : State) (second : Bool) :
    (s.openWindow second).link.state = .window := rfl
@[simp] theorem State.openWindow_link_exchange (s : State) (second : Bool) :
    (s.openWindow second).link.exchange = s.link.exchange := rfl
@[simp] theorem State.openWindow_link_second (s : State) (second : Bool) :
    (s.openWindow second).link.second = second := rfl
@[simp] theorem State.openWindow_timers_window (s : State) (second : Bool) :
    (s.openWindow second).timers.window = some (s.bitTimes s.windowLength) := rfl
@[simp] theorem State.openWindow_timers_window2 (s : State) (second : Bool) :
    (s.openWindow second).timers.window2 = s.timers.window2 := rfl

/-! ### State.setRxd -/

@[simp] theorem State.setRxd_port (s : State) (level : Bool) : (s.setRxd level).port = s.port := rfl
@[simp] theorem State.setRxd_sched (s : State) (level : Bool) : (s.setRxd level).sched = s.sched := rfl
@[simp] theorem State.setRxd_nodes (s : State) (level : Bool) : (s.setRxd level).nodes = s.nodes := rfl
@[simp] theorem State.setRxd_image (s : State) (level : Bool) : (s.setRxd level).image = s.image := rfl
@[simp] theorem State.setRxd_cmd (s : State) (level : Bool) : (s.setRxd level).cmd = s.cmd := rfl
@[simp] theorem State.setRxd_result (s : State) (level : Bool) : (s.setRxd level).result = s.result := rfl
@[simp] theorem State.setRxd_run (s : State) (level : Bool) : (s.setRxd level).run = s.run := rfl
@[simp] theorem State.setRxd_fault (s : State) (level : Bool) : (s.setRxd level).fault = s.fault := rfl
@[simp] theorem State.setRxd_inReset (s : State) (level : Bool) : (s.setRxd level).inReset = s.inReset := rfl
@[simp] theorem State.setRxd_due (s : State) (level : Bool) : (s.setRxd level).due = s.due := rfl
@[simp] theorem State.setRxd_pending (s : State) (level : Bool) : (s.setRxd level).pending = s.pending := rfl
@[simp] theorem State.setRxd_link_rate (s : State) (level : Bool) : (s.setRxd level).link.rate = s.link.rate := rfl
@[simp] theorem State.setRxd_link_window (s : State) (level : Bool) :
    (s.setRxd level).link.window = s.link.window := rfl
@[simp] theorem State.setRxd_link (s : State) (level : Bool) :
    (s.setRxd level).link = { s.link with rxd := level } := rfl
@[simp] theorem State.setRxd_timers (s : State) (level : Bool) :
    (s.setRxd level).timers = { s.timers with idle := 0, gap := 0 } := rfl

/-! ### State.windowOnset -/

@[simp] theorem State.windowOnset_port (s : State) : (s.windowOnset).port = s.port := rfl
@[simp] theorem State.windowOnset_sched (s : State) : (s.windowOnset).sched = s.sched := rfl
@[simp] theorem State.windowOnset_nodes (s : State) : (s.windowOnset).nodes = s.nodes := rfl
@[simp] theorem State.windowOnset_image (s : State) : (s.windowOnset).image = s.image := rfl
@[simp] theorem State.windowOnset_cmd (s : State) : (s.windowOnset).cmd = s.cmd := rfl
@[simp] theorem State.windowOnset_result (s : State) : (s.windowOnset).result = s.result := rfl
@[simp] theorem State.windowOnset_run (s : State) : (s.windowOnset).run = s.run := rfl
@[simp] theorem State.windowOnset_fault (s : State) : (s.windowOnset).fault = s.fault := rfl
@[simp] theorem State.windowOnset_inReset (s : State) : (s.windowOnset).inReset = s.inReset := rfl
@[simp] theorem State.windowOnset_pending (s : State) : (s.windowOnset).pending = s.pending := rfl
@[simp] theorem State.windowOnset_link_rate (s : State) : (s.windowOnset).link.rate = s.link.rate := rfl
@[simp] theorem State.windowOnset_link_window (s : State) : (s.windowOnset).link.window = s.link.window := rfl

/-! ### State.setStaging -/

@[simp] theorem State.setStaging_port (s : State) (r : Staging) : (s.setStaging r).port = s.port := rfl
@[simp] theorem State.setStaging_link (s : State) (r : Staging) : (s.setStaging r).link = s.link := rfl
@[simp] theorem State.setStaging_sched (s : State) (r : Staging) : (s.setStaging r).sched = s.sched := rfl
@[simp] theorem State.setStaging_nodes (s : State) (r : Staging) : (s.setStaging r).nodes = s.nodes := rfl
@[simp] theorem State.setStaging_image (s : State) (r : Staging) : (s.setStaging r).image = s.image := rfl
@[simp] theorem State.setStaging_result (s : State) (r : Staging) : (s.setStaging r).result = s.result := rfl
@[simp] theorem State.setStaging_run (s : State) (r : Staging) : (s.setStaging r).run = s.run := rfl
@[simp] theorem State.setStaging_fault (s : State) (r : Staging) : (s.setStaging r).fault = s.fault := rfl
@[simp] theorem State.setStaging_timers (s : State) (r : Staging) : (s.setStaging r).timers = s.timers := rfl
@[simp] theorem State.setStaging_inReset (s : State) (r : Staging) : (s.setStaging r).inReset = s.inReset := rfl
@[simp] theorem State.setStaging_due (s : State) (r : Staging) : (s.setStaging r).due = s.due := rfl
@[simp] theorem State.setStaging_pending (s : State) (r : Staging) : (s.setStaging r).pending = s.pending := rfl
@[simp] theorem State.setStaging_cmd_retryLimit (s : State) (r : Staging) :
    (s.setStaging r).cmd.retryLimit = s.cmd.retryLimit := rfl
@[simp] theorem State.setStaging_cmd_resultTimeout (s : State) (r : Staging) :
    (s.setStaging r).cmd.resultTimeout = s.cmd.resultTimeout := rfl

/-! ### State.writeSsel -/

@[simp] theorem State.writeSsel_port (s : State) (v : Word) : (s.writeSsel v).port = s.port := rfl
@[simp] theorem State.writeSsel_link (s : State) (v : Word) : (s.writeSsel v).link = s.link := rfl
@[simp] theorem State.writeSsel_nodes (s : State) (v : Word) : (s.writeSsel v).nodes = s.nodes := rfl
@[simp] theorem State.writeSsel_image (s : State) (v : Word) : (s.writeSsel v).image = s.image := rfl
@[simp] theorem State.writeSsel_cmd (s : State) (v : Word) : (s.writeSsel v).cmd = s.cmd := rfl
@[simp] theorem State.writeSsel_result (s : State) (v : Word) : (s.writeSsel v).result = s.result := rfl
@[simp] theorem State.writeSsel_run (s : State) (v : Word) : (s.writeSsel v).run = s.run := rfl
@[simp] theorem State.writeSsel_fault (s : State) (v : Word) : (s.writeSsel v).fault = s.fault := rfl
@[simp] theorem State.writeSsel_timers (s : State) (v : Word) : (s.writeSsel v).timers = s.timers := rfl
@[simp] theorem State.writeSsel_inReset (s : State) (v : Word) : (s.writeSsel v).inReset = s.inReset := rfl
@[simp] theorem State.writeSsel_due (s : State) (v : Word) : (s.writeSsel v).due = s.due := rfl
@[simp] theorem State.writeSsel_pending (s : State) (v : Word) : (s.writeSsel v).pending = s.pending := rfl
@[simp] theorem State.writeSsel_sched_tableA (s : State) (v : Word) :
    (s.writeSsel v).sched.tableA = s.sched.tableA := rfl
@[simp] theorem State.writeSsel_sched_tableB (s : State) (v : Word) :
    (s.writeSsel v).sched.tableB = s.sched.tableB := rfl
@[simp] theorem State.writeSsel_sched_pacingSetting (s : State) (v : Word) :
    (s.writeSsel v).sched.pacingSetting = s.sched.pacingSetting := rfl
@[simp] theorem State.writeSsel_sched_cycleNumber (s : State) (v : Word) :
    (s.writeSsel v).sched.cycleNumber = s.sched.cycleNumber := rfl

/-! ### State.writeNsel -/

@[simp] theorem State.writeNsel_port (s : State) (v : Word) : (s.writeNsel v).port = s.port := rfl
@[simp] theorem State.writeNsel_link (s : State) (v : Word) : (s.writeNsel v).link = s.link := rfl
@[simp] theorem State.writeNsel_sched (s : State) (v : Word) : (s.writeNsel v).sched = s.sched := rfl
@[simp] theorem State.writeNsel_image (s : State) (v : Word) : (s.writeNsel v).image = s.image := rfl
@[simp] theorem State.writeNsel_cmd (s : State) (v : Word) : (s.writeNsel v).cmd = s.cmd := rfl
@[simp] theorem State.writeNsel_result (s : State) (v : Word) : (s.writeNsel v).result = s.result := rfl
@[simp] theorem State.writeNsel_run (s : State) (v : Word) : (s.writeNsel v).run = s.run := rfl
@[simp] theorem State.writeNsel_fault (s : State) (v : Word) : (s.writeNsel v).fault = s.fault := rfl
@[simp] theorem State.writeNsel_timers (s : State) (v : Word) : (s.writeNsel v).timers = s.timers := rfl
@[simp] theorem State.writeNsel_inReset (s : State) (v : Word) : (s.writeNsel v).inReset = s.inReset := rfl
@[simp] theorem State.writeNsel_due (s : State) (v : Word) : (s.writeNsel v).due = s.due := rfl
@[simp] theorem State.writeNsel_pending (s : State) (v : Word) : (s.writeNsel v).pending = s.pending := rfl
@[simp] theorem State.writeNsel_nodes_entries (s : State) (v : Word) :
    (s.writeNsel v).nodes.entries = s.nodes.entries := rfl
@[simp] theorem State.writeNsel_nodes_changeSet (s : State) (v : Word) :
    (s.writeNsel v).nodes.changeSet = s.nodes.changeSet := rfl

/-! ### State.setPort -/

@[simp] theorem State.setPort_link (s : State) (p : Port) : (s.setPort p).link = s.link := rfl
@[simp] theorem State.setPort_sched (s : State) (p : Port) : (s.setPort p).sched = s.sched := rfl
@[simp] theorem State.setPort_nodes (s : State) (p : Port) : (s.setPort p).nodes = s.nodes := rfl
@[simp] theorem State.setPort_image (s : State) (p : Port) : (s.setPort p).image = s.image := rfl
@[simp] theorem State.setPort_cmd (s : State) (p : Port) : (s.setPort p).cmd = s.cmd := rfl
@[simp] theorem State.setPort_result (s : State) (p : Port) : (s.setPort p).result = s.result := rfl
@[simp] theorem State.setPort_run (s : State) (p : Port) : (s.setPort p).run = s.run := rfl
@[simp] theorem State.setPort_fault (s : State) (p : Port) : (s.setPort p).fault = s.fault := rfl
@[simp] theorem State.setPort_timers (s : State) (p : Port) : (s.setPort p).timers = s.timers := rfl
@[simp] theorem State.setPort_inReset (s : State) (p : Port) : (s.setPort p).inReset = s.inReset := rfl
@[simp] theorem State.setPort_due (s : State) (p : Port) : (s.setPort p).due = s.due := rfl
@[simp] theorem State.setPort_pending (s : State) (p : Port) : (s.setPort p).pending = s.pending := rfl
@[simp] theorem State.setPort_port (s : State) (p : Port) : (s.setPort p).port = p := rfl

/-! ### State.written -/

@[simp] theorem State.written_link (s : State) : (s.written).link = s.link := rfl
@[simp] theorem State.written_sched (s : State) : (s.written).sched = s.sched := rfl
@[simp] theorem State.written_nodes (s : State) : (s.written).nodes = s.nodes := rfl
@[simp] theorem State.written_image (s : State) : (s.written).image = s.image := rfl
@[simp] theorem State.written_cmd (s : State) : (s.written).cmd = s.cmd := rfl
@[simp] theorem State.written_result (s : State) : (s.written).result = s.result := rfl
@[simp] theorem State.written_run (s : State) : (s.written).run = s.run := rfl
@[simp] theorem State.written_fault (s : State) : (s.written).fault = s.fault := rfl
@[simp] theorem State.written_timers (s : State) : (s.written).timers = s.timers := rfl
@[simp] theorem State.written_inReset (s : State) : (s.written).inReset = s.inReset := rfl
@[simp] theorem State.written_due (s : State) : (s.written).due = s.due := rfl
@[simp] theorem State.written_pending (s : State) : (s.written).pending = s.pending := rfl
@[simp] theorem State.written_port (s : State) : (s.written).port = Port.taken none := rfl

/-! ### State.driving -/

@[simp] theorem State.driving_link (s : State) (v : Word) : (s.driving v).link = s.link := rfl
@[simp] theorem State.driving_sched (s : State) (v : Word) : (s.driving v).sched = s.sched := rfl
@[simp] theorem State.driving_nodes (s : State) (v : Word) : (s.driving v).nodes = s.nodes := rfl
@[simp] theorem State.driving_image (s : State) (v : Word) : (s.driving v).image = s.image := rfl
@[simp] theorem State.driving_cmd (s : State) (v : Word) : (s.driving v).cmd = s.cmd := rfl
@[simp] theorem State.driving_result (s : State) (v : Word) : (s.driving v).result = s.result := rfl
@[simp] theorem State.driving_run (s : State) (v : Word) : (s.driving v).run = s.run := rfl
@[simp] theorem State.driving_fault (s : State) (v : Word) : (s.driving v).fault = s.fault := rfl
@[simp] theorem State.driving_timers (s : State) (v : Word) : (s.driving v).timers = s.timers := rfl
@[simp] theorem State.driving_inReset (s : State) (v : Word) : (s.driving v).inReset = s.inReset := rfl
@[simp] theorem State.driving_due (s : State) (v : Word) : (s.driving v).due = s.due := rfl
@[simp] theorem State.driving_pending (s : State) (v : Word) : (s.driving v).pending = s.pending := rfl
@[simp] theorem State.driving_port (s : State) (v : Word) : (s.driving v).port = Port.taken (some v) := rfl

/-! ### State.countIdle -/

@[simp] theorem State.countIdle_port (s : State) :
    (s.countIdle).port = s.port := by unfold State.countIdle; split <;> rfl
@[simp] theorem State.countIdle_link (s : State) :
    (s.countIdle).link = s.link := by unfold State.countIdle; split <;> rfl
@[simp] theorem State.countIdle_sched (s : State) :
    (s.countIdle).sched = s.sched := by unfold State.countIdle; split <;> rfl
@[simp] theorem State.countIdle_nodes (s : State) :
    (s.countIdle).nodes = s.nodes := by unfold State.countIdle; split <;> rfl
@[simp] theorem State.countIdle_image (s : State) :
    (s.countIdle).image = s.image := by unfold State.countIdle; split <;> rfl
@[simp] theorem State.countIdle_cmd (s : State) : (s.countIdle).cmd = s.cmd := by unfold State.countIdle; split <;> rfl
@[simp] theorem State.countIdle_result (s : State) :
    (s.countIdle).result = s.result := by unfold State.countIdle; split <;> rfl
@[simp] theorem State.countIdle_run (s : State) : (s.countIdle).run = s.run := by unfold State.countIdle; split <;> rfl
@[simp] theorem State.countIdle_fault (s : State) :
    (s.countIdle).fault = s.fault := by unfold State.countIdle; split <;> rfl
@[simp] theorem State.countIdle_inReset (s : State) :
    (s.countIdle).inReset = s.inReset := by unfold State.countIdle; split <;> rfl
@[simp] theorem State.countIdle_due (s : State) : (s.countIdle).due = s.due := by unfold State.countIdle; split <;> rfl
@[simp] theorem State.countIdle_pending (s : State) :
    (s.countIdle).pending = s.pending := by unfold State.countIdle; split <;> rfl

/-! ### State.beginLineCopy -/

@[simp] theorem State.beginLineCopy_port (s : State) (d : Direction) : (s.beginLineCopy d).port = s.port := rfl
@[simp] theorem State.beginLineCopy_link (s : State) (d : Direction) : (s.beginLineCopy d).link = s.link := rfl
@[simp] theorem State.beginLineCopy_sched (s : State) (d : Direction) : (s.beginLineCopy d).sched = s.sched := rfl
@[simp] theorem State.beginLineCopy_nodes (s : State) (d : Direction) : (s.beginLineCopy d).nodes = s.nodes := rfl
@[simp] theorem State.beginLineCopy_cmd (s : State) (d : Direction) : (s.beginLineCopy d).cmd = s.cmd := rfl
@[simp] theorem State.beginLineCopy_result (s : State) (d : Direction) : (s.beginLineCopy d).result = s.result := rfl
@[simp] theorem State.beginLineCopy_run (s : State) (d : Direction) : (s.beginLineCopy d).run = s.run := rfl
@[simp] theorem State.beginLineCopy_fault (s : State) (d : Direction) : (s.beginLineCopy d).fault = s.fault := rfl
@[simp] theorem State.beginLineCopy_inReset (s : State) (d : Direction) :
    (s.beginLineCopy d).inReset = s.inReset := rfl
@[simp] theorem State.beginLineCopy_due (s : State) (d : Direction) : (s.beginLineCopy d).due = s.due := rfl
@[simp] theorem State.beginLineCopy_pending (s : State) (d : Direction) :
    (s.beginLineCopy d).pending = s.pending := rfl
@[simp] theorem State.beginLineCopy_image_hold (s : State) (d : Direction) :
    (s.beginLineCopy d).image.hold = s.image.hold := rfl
@[simp] theorem State.beginLineCopy_image_ptest (s : State) (d : Direction) :
    (s.beginLineCopy d).image.ptest = s.image.ptest := rfl

end Sys2Proof.Machine
end

