-- ==== Sys2Proof/Laws/Frames.lean ====
section
/-! SUPPORT. What each shared operation leaves unchanged: one lemma for each, whose parts are rewrite rules. -/

namespace Sys2Proof.Machine

open Sys2Proof

/-! ### Tables, flags and the schedule unit -/

@[simp] theorem State.setNode_frame (s : State) (n : NodeAddr) (e : NodeEntry) :
    (s.setNode n e).port = s.port ∧ (s.setNode n e).link = s.link ∧ (s.setNode n e).sched = s.sched
      ∧ (s.setNode n e).nodes.nsel = s.nodes.nsel ∧ (s.setNode n e).image = s.image ∧ (s.setNode n e).cmd = s.cmd
      ∧ (s.setNode n e).result = s.result ∧ (s.setNode n e).run = s.run ∧ (s.setNode n e).fault = s.fault
      ∧ (s.setNode n e).timers = s.timers ∧ (s.setNode n e).inReset = s.inReset ∧ (s.setNode n e).due = s.due
      ∧ (s.setNode n e).pending = s.pending := by
  unfold State.setNode
  repeat' split
  all_goals simp

@[simp] theorem State.setNode_changeSet (s : State) (n : NodeAddr) (e : NodeEntry) :
    (s.setNode n e).nodes.changeSet = s.nodes.changeSet := by
  unfold State.setNode
  split <;> rfl

@[simp] theorem State.clearFlags_frame (s : State) (h : Half) (v : Word) :
    (s.clearFlags h v).port = s.port ∧ (s.clearFlags h v).link = s.link ∧ (s.clearFlags h v).sched = s.sched
      ∧ (s.clearFlags h v).nodes = s.nodes ∧ (s.clearFlags h v).image = s.image ∧ (s.clearFlags h v).cmd = s.cmd
      ∧ (s.clearFlags h v).result = s.result ∧ (s.clearFlags h v).run = s.run
      ∧ (s.clearFlags h v).fault.capture = s.fault.capture ∧ (s.clearFlags h v).fault.enables = s.fault.enables
      ∧ (s.clearFlags h v).timers = s.timers ∧ (s.clearFlags h v).inReset = s.inReset
      ∧ (s.clearFlags h v).due = s.due ∧ (s.clearFlags h v).pending = s.pending := by
  unfold State.clearFlags
  repeat' split
  all_goals simp

@[simp] theorem FaultUnit.setFlag_frame (u : FaultUnit) (c : FaultCode) :
    (u.setFlag c).capture = u.capture ∧ (u.setFlag c).latches = u.latches ∧ (u.setFlag c).enables = u.enables := by
  unfold FaultUnit.setFlag
  split <;> simp

@[simp] theorem FaultUnit.offer_frame (u : FaultUnit) (r : FaultReport) (cycle : Word) :
    (u.offer r cycle).fflag0 = u.fflag0 ∧ (u.offer r cycle).fflag1 = u.fflag1 ∧ (u.offer r cycle).latches = u.latches
      ∧ (u.offer r cycle).enables = u.enables := by
  unfold FaultUnit.offer
  repeat' split
  all_goals simp

@[simp] theorem State.takeReport_latches (s : State) (r : FaultReport) :
    (s.takeReport r).fault.latches = s.fault.latches ∧ (s.takeReport r).fault.enables = s.fault.enables := by
  simp [State.takeReport]

@[simp] theorem State.recordValidation_frame (s : State) (v : Validation) :
    (s.recordValidation v).port = s.port ∧ (s.recordValidation v).link = s.link
      ∧ (s.recordValidation v).sched.tableA = s.sched.tableA ∧ (s.recordValidation v).sched.tableB = s.sched.tableB
      ∧ (s.recordValidation v).sched.pacingSetting = s.sched.pacingSetting
      ∧ (s.recordValidation v).sched.cycleNumber = s.sched.cycleNumber
      ∧ (s.recordValidation v).sched.selTable = s.sched.selTable
      ∧ (s.recordValidation v).sched.selSlot = s.sched.selSlot ∧ (s.recordValidation v).nodes = s.nodes
      ∧ (s.recordValidation v).image = s.image ∧ (s.recordValidation v).cmd = s.cmd
      ∧ (s.recordValidation v).result = s.result ∧ (s.recordValidation v).run = s.run
      ∧ (s.recordValidation v).fault = s.fault ∧ (s.recordValidation v).timers = s.timers
      ∧ (s.recordValidation v).inReset = s.inReset ∧ (s.recordValidation v).pending = s.pending := by
  unfold State.recordValidation
  repeat' split
  all_goals simp

@[simp] theorem State.takePendingSwitch_frame (s : State) :
    (s.takePendingSwitch).port = s.port ∧ (s.takePendingSwitch).link = s.link
      ∧ (s.takePendingSwitch).sched.tableA = s.sched.tableA ∧ (s.takePendingSwitch).sched.tableB = s.sched.tableB
      ∧ (s.takePendingSwitch).sched.pacingSetting = s.sched.pacingSetting
      ∧ (s.takePendingSwitch).sched.cycleNumber = s.sched.cycleNumber
      ∧ (s.takePendingSwitch).sched.selTable = s.sched.selTable
      ∧ (s.takePendingSwitch).sched.selSlot = s.sched.selSlot ∧ (s.takePendingSwitch).nodes = s.nodes
      ∧ (s.takePendingSwitch).image = s.image ∧ (s.takePendingSwitch).cmd = s.cmd
      ∧ (s.takePendingSwitch).result = s.result ∧ (s.takePendingSwitch).run = s.run
      ∧ (s.takePendingSwitch).fault.fflag0 = s.fault.fflag0 ∧ (s.takePendingSwitch).fault.fflag1 = s.fault.fflag1
      ∧ (s.takePendingSwitch).fault.capture = s.fault.capture
      ∧ (s.takePendingSwitch).fault.enables = s.fault.enables ∧ (s.takePendingSwitch).timers = s.timers
      ∧ (s.takePendingSwitch).inReset = s.inReset ∧ (s.takePendingSwitch).due = s.due
      ∧ (s.takePendingSwitch).pending = s.pending := by
  unfold State.takePendingSwitch
  repeat' split
  all_goals simp

@[simp] theorem State.requestSwitch_frame (s : State) (t : TableId) :
    (s.requestSwitch t).port = s.port ∧ (s.requestSwitch t).link = s.link
      ∧ (s.requestSwitch t).sched.tableA = s.sched.tableA ∧ (s.requestSwitch t).sched.tableB = s.sched.tableB
      ∧ (s.requestSwitch t).sched.pacingSetting = s.sched.pacingSetting
      ∧ (s.requestSwitch t).sched.cycleNumber = s.sched.cycleNumber
      ∧ (s.requestSwitch t).sched.selTable = s.sched.selTable ∧ (s.requestSwitch t).sched.selSlot = s.sched.selSlot
      ∧ (s.requestSwitch t).nodes = s.nodes ∧ (s.requestSwitch t).image = s.image ∧ (s.requestSwitch t).cmd = s.cmd
      ∧ (s.requestSwitch t).result = s.result ∧ (s.requestSwitch t).run = s.run
      ∧ (s.requestSwitch t).fault.fflag0 = s.fault.fflag0 ∧ (s.requestSwitch t).fault.fflag1 = s.fault.fflag1
      ∧ (s.requestSwitch t).fault.capture = s.fault.capture ∧ (s.requestSwitch t).fault.enables = s.fault.enables
      ∧ (s.requestSwitch t).timers = s.timers ∧ (s.requestSwitch t).inReset = s.inReset
      ∧ (s.requestSwitch t).pending = s.pending := by
  unfold State.requestSwitch
  dsimp only
  repeat' split
  all_goals simp

@[simp] theorem Sched.setRecord_frame (u : Sched) (t : TableId) (k : SlotIndex) (r : SlotRecord) :
    (u.setRecord t k r).active = u.active ∧ (u.setRecord t k r).pendingSwitch = u.pendingSwitch
      ∧ (u.setRecord t k r).validation = u.validation ∧ (u.setRecord t k r).pacing = u.pacing
      ∧ (u.setRecord t k r).pacingSetting = u.pacingSetting ∧ (u.setRecord t k r).cycleNumber = u.cycleNumber
      ∧ (u.setRecord t k r).state = u.state ∧ (u.setRecord t k r).selTable = u.selTable
      ∧ (u.setRecord t k r).selSlot = u.selSlot := by
  unfold Sched.setRecord
  split <;> simp

@[simp] theorem State.writeSlotRecord_frame (s : State) (offset : Word) (f : SlotRecord → SlotRecord) :
    (s.writeSlotRecord offset f).port = s.port ∧ (s.writeSlotRecord offset f).link = s.link
      ∧ (s.writeSlotRecord offset f).sched.pacingSetting = s.sched.pacingSetting
      ∧ (s.writeSlotRecord offset f).sched.cycleNumber = s.sched.cycleNumber
      ∧ (s.writeSlotRecord offset f).sched.selTable = s.sched.selTable
      ∧ (s.writeSlotRecord offset f).sched.selSlot = s.sched.selSlot ∧ (s.writeSlotRecord offset f).nodes = s.nodes
      ∧ (s.writeSlotRecord offset f).image = s.image ∧ (s.writeSlotRecord offset f).cmd = s.cmd
      ∧ (s.writeSlotRecord offset f).result = s.result ∧ (s.writeSlotRecord offset f).run = s.run
      ∧ (s.writeSlotRecord offset f).fault = s.fault ∧ (s.writeSlotRecord offset f).timers = s.timers
      ∧ (s.writeSlotRecord offset f).inReset = s.inReset ∧ (s.writeSlotRecord offset f).pending = s.pending := by
  unfold State.writeSlotRecord
  dsimp only
  split <;> simp

/-! ### Settlement and responses -/

@[simp] theorem State.settleOut_frame (s : State) (push : Nat) (status : Status) (code : Byte) (data : List Byte) :
    (s.settleOut push status code data).port = s.port ∧ (s.settleOut push status code data).link = s.link
      ∧ (s.settleOut push status code data).sched = s.sched ∧ (s.settleOut push status code data).nodes = s.nodes
      ∧ (s.settleOut push status code data).image = s.image
      ∧ (s.settleOut push status code data).cmd.retryLimit = s.cmd.retryLimit
      ∧ (s.settleOut push status code data).cmd.resultTimeout = s.cmd.resultTimeout
      ∧ (s.settleOut push status code data).cmd.staging = s.cmd.staging
      ∧ (s.settleOut push status code data).run = s.run ∧ (s.settleOut push status code data).fault = s.fault
      ∧ (s.settleOut push status code data).timers = s.timers
      ∧ (s.settleOut push status code data).inReset = s.inReset ∧ (s.settleOut push status code data).due = s.due
      ∧ (s.settleOut push status code data).pending = s.pending := by
  unfold State.settleOut
  repeat' split
  all_goals simp

@[simp] theorem State.settleQueue_frame (s : State) (push : Nat) :
    (s.settleQueue push).port = s.port ∧ (s.settleQueue push).link = s.link ∧ (s.settleQueue push).sched = s.sched
      ∧ (s.settleQueue push).nodes = s.nodes ∧ (s.settleQueue push).image = s.image
      ∧ (s.settleQueue push).cmd.retryLimit = s.cmd.retryLimit
      ∧ (s.settleQueue push).cmd.resultTimeout = s.cmd.resultTimeout
      ∧ (s.settleQueue push).cmd.staging = s.cmd.staging ∧ (s.settleQueue push).run = s.run
      ∧ (s.settleQueue push).fault = s.fault ∧ (s.settleQueue push).timers = s.timers
      ∧ (s.settleQueue push).inReset = s.inReset ∧ (s.settleQueue push).due = s.due
      ∧ (s.settleQueue push).pending = s.pending := by
  unfold State.settleQueue
  repeat' split
  all_goals simp

@[simp] theorem State.postWaiting_frame (s : State) (order : Nat) :
    (s.postWaiting order).port = s.port ∧ (s.postWaiting order).link = s.link
      ∧ (s.postWaiting order).sched = s.sched ∧ (s.postWaiting order).nodes = s.nodes
      ∧ (s.postWaiting order).image = s.image ∧ (s.postWaiting order).cmd.retryLimit = s.cmd.retryLimit
      ∧ (s.postWaiting order).cmd.resultTimeout = s.cmd.resultTimeout
      ∧ (s.postWaiting order).cmd.staging = s.cmd.staging ∧ (s.postWaiting order).run = s.run
      ∧ (s.postWaiting order).fault = s.fault ∧ (s.postWaiting order).timers = s.timers
      ∧ (s.postWaiting order).inReset = s.inReset ∧ (s.postWaiting order).due = s.due
      ∧ (s.postWaiting order).pending = s.pending := by
  unfold State.postWaiting
  repeat' split
  all_goals simp

@[simp] theorem State.takeResponse_frame (s : State) :
    (s.takeResponse).port = s.port ∧ (s.takeResponse).link = s.link ∧ (s.takeResponse).sched = s.sched
      ∧ (s.takeResponse).nodes = s.nodes ∧ (s.takeResponse).image = s.image
      ∧ (s.takeResponse).cmd.retryLimit = s.cmd.retryLimit
      ∧ (s.takeResponse).cmd.resultTimeout = s.cmd.resultTimeout ∧ (s.takeResponse).cmd.staging = s.cmd.staging
      ∧ (s.takeResponse).run = s.run ∧ (s.takeResponse).fault = s.fault ∧ (s.takeResponse).timers = s.timers
      ∧ (s.takeResponse).inReset = s.inReset ∧ (s.takeResponse).pending = s.pending := by
  unfold State.takeResponse
  dsimp only
  repeat' split
  all_goals simp

@[simp] theorem State.settleAll_frame (s : State) (pushes : List Nat) (status : Status) :
    (s.settleAll pushes status).port = s.port ∧ (s.settleAll pushes status).link = s.link
      ∧ (s.settleAll pushes status).sched = s.sched ∧ (s.settleAll pushes status).nodes = s.nodes
      ∧ (s.settleAll pushes status).image = s.image ∧ (s.settleAll pushes status).cmd.retryLimit = s.cmd.retryLimit
      ∧ (s.settleAll pushes status).cmd.resultTimeout = s.cmd.resultTimeout
      ∧ (s.settleAll pushes status).cmd.staging = s.cmd.staging ∧ (s.settleAll pushes status).run = s.run
      ∧ (s.settleAll pushes status).fault = s.fault ∧ (s.settleAll pushes status).timers = s.timers
      ∧ (s.settleAll pushes status).inReset = s.inReset ∧ (s.settleAll pushes status).due = s.due
      ∧ (s.settleAll pushes status).pending = s.pending := by
  induction pushes generalizing s with
  | nil => simp [State.settleAll]
  | cons p rest ih => simp [State.settleAll, ih]

@[simp] theorem State.settleAllQueued_frame (s : State) (pushes : List Nat) :
    (s.settleAllQueued pushes).port = s.port ∧ (s.settleAllQueued pushes).link = s.link
      ∧ (s.settleAllQueued pushes).sched = s.sched ∧ (s.settleAllQueued pushes).nodes = s.nodes
      ∧ (s.settleAllQueued pushes).image = s.image ∧ (s.settleAllQueued pushes).cmd.retryLimit = s.cmd.retryLimit
      ∧ (s.settleAllQueued pushes).cmd.resultTimeout = s.cmd.resultTimeout
      ∧ (s.settleAllQueued pushes).cmd.staging = s.cmd.staging ∧ (s.settleAllQueued pushes).run = s.run
      ∧ (s.settleAllQueued pushes).fault = s.fault ∧ (s.settleAllQueued pushes).timers = s.timers
      ∧ (s.settleAllQueued pushes).inReset = s.inReset ∧ (s.settleAllQueued pushes).due = s.due
      ∧ (s.settleAllQueued pushes).pending = s.pending := by
  induction pushes generalizing s with
  | nil => simp [State.settleAllQueued]
  | cons p rest ih => simp [State.settleAllQueued, ih]

@[simp] theorem State.abortTransactions_frame (s : State) :
    (s.abortTransactions).port = s.port ∧ (s.abortTransactions).link = s.link
      ∧ (s.abortTransactions).sched = s.sched ∧ (s.abortTransactions).nodes = s.nodes
      ∧ (s.abortTransactions).image = s.image ∧ (s.abortTransactions).cmd.retryLimit = s.cmd.retryLimit
      ∧ (s.abortTransactions).cmd.resultTimeout = s.cmd.resultTimeout
      ∧ (s.abortTransactions).cmd.staging = s.cmd.staging ∧ (s.abortTransactions).run = s.run
      ∧ (s.abortTransactions).fault = s.fault ∧ (s.abortTransactions).timers = s.timers
      ∧ (s.abortTransactions).inReset = s.inReset ∧ (s.abortTransactions).due = s.due
      ∧ (s.abortTransactions).pending = s.pending := by
  simp [State.abortTransactions]

@[simp] theorem State.takeNodeDown_frame (s : State) (n : NodeAddr) :
    (s.takeNodeDown n).port = s.port ∧ (s.takeNodeDown n).link = s.link ∧ (s.takeNodeDown n).sched = s.sched
      ∧ (s.takeNodeDown n).nodes = s.nodes ∧ (s.takeNodeDown n).image = s.image
      ∧ (s.takeNodeDown n).cmd.retryLimit = s.cmd.retryLimit
      ∧ (s.takeNodeDown n).cmd.resultTimeout = s.cmd.resultTimeout ∧ (s.takeNodeDown n).cmd.staging = s.cmd.staging
      ∧ (s.takeNodeDown n).run = s.run ∧ (s.takeNodeDown n).fault = s.fault ∧ (s.takeNodeDown n).timers = s.timers
      ∧ (s.takeNodeDown n).inReset = s.inReset ∧ (s.takeNodeDown n).due = s.due
      ∧ (s.takeNodeDown n).pending = s.pending := by
  unfold State.takeNodeDown
  dsimp only
  split <;> simp

/-! ### Commands and results -/

@[simp] theorem State.acceptPut_frame (s : State) (op : Op) :
    (s.acceptPut op).port = s.port ∧ (s.acceptPut op).link = s.link ∧ (s.acceptPut op).sched = s.sched
      ∧ (s.acceptPut op).nodes = s.nodes ∧ (s.acceptPut op).image = s.image
      ∧ (s.acceptPut op).cmd.retryLimit = s.cmd.retryLimit
      ∧ (s.acceptPut op).cmd.resultTimeout = s.cmd.resultTimeout ∧ (s.acceptPut op).cmd.staging = s.cmd.staging
      ∧ (s.acceptPut op).run = s.run ∧ (s.acceptPut op).fault = s.fault ∧ (s.acceptPut op).timers = s.timers
      ∧ (s.acceptPut op).inReset = s.inReset ∧ (s.acceptPut op).due = s.due ∧ (s.acceptPut op).pending = s.pending := by
  unfold State.acceptPut
  dsimp only
  repeat' split
  all_goals simp

@[simp] theorem State.put_frame (s : State) :
    (s.put).port = s.port ∧ (s.put).link = s.link ∧ (s.put).sched = s.sched ∧ (s.put).nodes = s.nodes
      ∧ (s.put).image = s.image ∧ (s.put).cmd.retryLimit = s.cmd.retryLimit
      ∧ (s.put).cmd.resultTimeout = s.cmd.resultTimeout ∧ (s.put).cmd.staging = s.cmd.staging ∧ (s.put).run = s.run
      ∧ (s.put).fault = s.fault ∧ (s.put).timers = s.timers ∧ (s.put).inReset = s.inReset
      ∧ (s.put).pending = s.pending := by
  unfold State.put
  dsimp only
  repeat' split
  all_goals simp

@[simp] theorem State.advanceSerial_frame (s : State) (n : NodeAddr) :
    (s.advanceSerial n).port = s.port ∧ (s.advanceSerial n).link = s.link ∧ (s.advanceSerial n).sched = s.sched
      ∧ (s.advanceSerial n).nodes.nsel = s.nodes.nsel ∧ (s.advanceSerial n).image = s.image
      ∧ (s.advanceSerial n).cmd = s.cmd ∧ (s.advanceSerial n).result = s.result ∧ (s.advanceSerial n).run = s.run
      ∧ (s.advanceSerial n).fault = s.fault ∧ (s.advanceSerial n).timers = s.timers
      ∧ (s.advanceSerial n).inReset = s.inReset ∧ (s.advanceSerial n).due = s.due
      ∧ (s.advanceSerial n).pending = s.pending := by
  unfold State.advanceSerial
  repeat' split
  all_goals simp

@[simp] theorem State.advanceSerial_changeSet (s : State) (n : NodeAddr) :
    (s.advanceSerial n).nodes.changeSet = s.nodes.changeSet := by
  unfold State.advanceSerial
  split <;> simp

@[simp] theorem State.sendFirst_frame (s : State) (q : QueueEntry) :
    (s.sendFirst q).port = s.port ∧ (s.sendFirst q).link = s.link ∧ (s.sendFirst q).sched = s.sched
      ∧ (s.sendFirst q).nodes.nsel = s.nodes.nsel ∧ (s.sendFirst q).image = s.image
      ∧ (s.sendFirst q).cmd.retryLimit = s.cmd.retryLimit ∧ (s.sendFirst q).cmd.resultTimeout = s.cmd.resultTimeout
      ∧ (s.sendFirst q).cmd.staging = s.cmd.staging ∧ (s.sendFirst q).result = s.result
      ∧ (s.sendFirst q).run = s.run ∧ (s.sendFirst q).fault = s.fault ∧ (s.sendFirst q).timers = s.timers
      ∧ (s.sendFirst q).inReset = s.inReset ∧ (s.sendFirst q).due = s.due ∧ (s.sendFirst q).pending = s.pending := by
  unfold State.sendFirst
  repeat' split
  all_goals simp

@[simp] theorem State.ackAccept_frame (s : State) (e : OutEntry) :
    (s.ackAccept e).port = s.port ∧ (s.ackAccept e).link = s.link ∧ (s.ackAccept e).sched = s.sched
      ∧ (s.ackAccept e).nodes = s.nodes ∧ (s.ackAccept e).image = s.image
      ∧ (s.ackAccept e).cmd.retryLimit = s.cmd.retryLimit ∧ (s.ackAccept e).cmd.resultTimeout = s.cmd.resultTimeout
      ∧ (s.ackAccept e).cmd.staging = s.cmd.staging ∧ (s.ackAccept e).run = s.run ∧ (s.ackAccept e).fault = s.fault
      ∧ (s.ackAccept e).timers = s.timers ∧ (s.ackAccept e).inReset = s.inReset ∧ (s.ackAccept e).due = s.due
      ∧ (s.ackAccept e).pending = s.pending := by
  unfold State.ackAccept
  repeat' split
  all_goals simp

@[simp] theorem State.ackBusy_frame (s : State) (e : OutEntry) :
    (s.ackBusy e).port = s.port ∧ (s.ackBusy e).link = s.link ∧ (s.ackBusy e).sched = s.sched
      ∧ (s.ackBusy e).nodes = s.nodes ∧ (s.ackBusy e).image = s.image
      ∧ (s.ackBusy e).cmd.retryLimit = s.cmd.retryLimit ∧ (s.ackBusy e).cmd.resultTimeout = s.cmd.resultTimeout
      ∧ (s.ackBusy e).cmd.staging = s.cmd.staging ∧ (s.ackBusy e).run = s.run ∧ (s.ackBusy e).fault = s.fault
      ∧ (s.ackBusy e).timers = s.timers ∧ (s.ackBusy e).inReset = s.inReset ∧ (s.ackBusy e).due = s.due
      ∧ (s.ackBusy e).pending = s.pending := by
  unfold State.ackBusy
  repeat' split
  all_goals simp

@[simp] theorem State.ackMissed_frame (s : State) (e : OutEntry) :
    (s.ackMissed e).port = s.port ∧ (s.ackMissed e).link = s.link ∧ (s.ackMissed e).sched = s.sched
      ∧ (s.ackMissed e).nodes = s.nodes ∧ (s.ackMissed e).image = s.image
      ∧ (s.ackMissed e).cmd.retryLimit = s.cmd.retryLimit ∧ (s.ackMissed e).cmd.resultTimeout = s.cmd.resultTimeout
      ∧ (s.ackMissed e).cmd.staging = s.cmd.staging ∧ (s.ackMissed e).run = s.run ∧ (s.ackMissed e).fault = s.fault
      ∧ (s.ackMissed e).timers = s.timers ∧ (s.ackMissed e).inReset = s.inReset ∧ (s.ackMissed e).due = s.due
      ∧ (s.ackMissed e).pending = s.pending := by
  unfold State.ackMissed
  repeat' split
  all_goals simp

@[simp] theorem State.applyAck_frame (s : State) (e : OutEntry) (v : AckVerdict) :
    (s.applyAck e v).port = s.port ∧ (s.applyAck e v).link = s.link ∧ (s.applyAck e v).sched = s.sched
      ∧ (s.applyAck e v).nodes = s.nodes ∧ (s.applyAck e v).image = s.image
      ∧ (s.applyAck e v).cmd.retryLimit = s.cmd.retryLimit ∧ (s.applyAck e v).cmd.resultTimeout = s.cmd.resultTimeout
      ∧ (s.applyAck e v).cmd.staging = s.cmd.staging ∧ (s.applyAck e v).run = s.run ∧ (s.applyAck e v).fault = s.fault
      ∧ (s.applyAck e v).timers = s.timers ∧ (s.applyAck e v).inReset = s.inReset ∧ (s.applyAck e v).due = s.due
      ∧ (s.applyAck e v).pending = s.pending := by
  unfold State.applyAck
  repeat' split
  all_goals simp

@[simp] theorem State.takeAck_frame (s : State) (v : AckVerdict) :
    (s.takeAck v).port = s.port ∧ (s.takeAck v).link = s.link ∧ (s.takeAck v).sched = s.sched
      ∧ (s.takeAck v).nodes = s.nodes ∧ (s.takeAck v).image = s.image
      ∧ (s.takeAck v).cmd.retryLimit = s.cmd.retryLimit ∧ (s.takeAck v).cmd.resultTimeout = s.cmd.resultTimeout
      ∧ (s.takeAck v).cmd.staging = s.cmd.staging ∧ (s.takeAck v).run = s.run ∧ (s.takeAck v).fault = s.fault
      ∧ (s.takeAck v).timers = s.timers ∧ (s.takeAck v).inReset = s.inReset ∧ (s.takeAck v).due = s.due
      ∧ (s.takeAck v).pending = s.pending := by
  unfold State.takeAck
  repeat' split
  all_goals simp

@[simp] theorem State.broadcastSent_frame (s : State) :
    (s.broadcastSent).port = s.port ∧ (s.broadcastSent).link = s.link ∧ (s.broadcastSent).sched = s.sched
      ∧ (s.broadcastSent).nodes = s.nodes ∧ (s.broadcastSent).image = s.image
      ∧ (s.broadcastSent).cmd.retryLimit = s.cmd.retryLimit
      ∧ (s.broadcastSent).cmd.resultTimeout = s.cmd.resultTimeout ∧ (s.broadcastSent).cmd.staging = s.cmd.staging
      ∧ (s.broadcastSent).run = s.run ∧ (s.broadcastSent).fault = s.fault ∧ (s.broadcastSent).timers = s.timers
      ∧ (s.broadcastSent).inReset = s.inReset ∧ (s.broadcastSent).due = s.due
      ∧ (s.broadcastSent).pending = s.pending := by
  unfold State.broadcastSent
  repeat' split
  all_goals simp

@[simp] theorem State.takeAbandon_frame (s : State) :
    (s.takeAbandon).port = s.port ∧ (s.takeAbandon).link = s.link ∧ (s.takeAbandon).sched = s.sched
      ∧ (s.takeAbandon).nodes = s.nodes ∧ (s.takeAbandon).image = s.image
      ∧ (s.takeAbandon).cmd.retryLimit = s.cmd.retryLimit ∧ (s.takeAbandon).cmd.resultTimeout = s.cmd.resultTimeout
      ∧ (s.takeAbandon).cmd.staging = s.cmd.staging ∧ (s.takeAbandon).result = s.result
      ∧ (s.takeAbandon).run = s.run ∧ (s.takeAbandon).fault = s.fault ∧ (s.takeAbandon).timers = s.timers
      ∧ (s.takeAbandon).inReset = s.inReset ∧ (s.takeAbandon).due = s.due ∧ (s.takeAbandon).pending = s.pending := by
  unfold State.takeAbandon
  repeat' split
  all_goals simp

@[simp] theorem State.takeTrailer_frame
    (s : State) (n : NodeAddr) (tag : Byte) (serial : BitVec 4) (outcome : BitVec 4) (data : List Byte) :
    (s.takeTrailer n tag serial outcome data).port = s.port
      ∧ (s.takeTrailer n tag serial outcome data).link = s.link
      ∧ (s.takeTrailer n tag serial outcome data).sched = s.sched
      ∧ (s.takeTrailer n tag serial outcome data).nodes = s.nodes
      ∧ (s.takeTrailer n tag serial outcome data).image = s.image
      ∧ (s.takeTrailer n tag serial outcome data).cmd.retryLimit = s.cmd.retryLimit
      ∧ (s.takeTrailer n tag serial outcome data).cmd.resultTimeout = s.cmd.resultTimeout
      ∧ (s.takeTrailer n tag serial outcome data).cmd.staging = s.cmd.staging
      ∧ (s.takeTrailer n tag serial outcome data).run = s.run
      ∧ (s.takeTrailer n tag serial outcome data).fault = s.fault
      ∧ (s.takeTrailer n tag serial outcome data).timers = s.timers
      ∧ (s.takeTrailer n tag serial outcome data).inReset = s.inReset
      ∧ (s.takeTrailer n tag serial outcome data).pending = s.pending := by
  unfold State.takeTrailer
  repeat' split
  all_goals simp

@[simp] theorem State.takeTimeouts_frame (s : State) :
    (s.takeTimeouts).port = s.port ∧ (s.takeTimeouts).link = s.link ∧ (s.takeTimeouts).sched = s.sched
      ∧ (s.takeTimeouts).nodes = s.nodes ∧ (s.takeTimeouts).image = s.image
      ∧ (s.takeTimeouts).cmd.retryLimit = s.cmd.retryLimit
      ∧ (s.takeTimeouts).cmd.resultTimeout = s.cmd.resultTimeout ∧ (s.takeTimeouts).cmd.staging = s.cmd.staging
      ∧ (s.takeTimeouts).run = s.run ∧ (s.takeTimeouts).fault = s.fault ∧ (s.takeTimeouts).timers = s.timers
      ∧ (s.takeTimeouts).inReset = s.inReset ∧ (s.takeTimeouts).due = s.due ∧ (s.takeTimeouts).pending = s.pending := by
  simp [State.takeTimeouts]

/-! ### The image unit -/

@[simp] theorem State.delayCopies_frame (s : State) :
    (s.delayCopies).port = s.port ∧ (s.delayCopies).link = s.link ∧ (s.delayCopies).sched = s.sched
      ∧ (s.delayCopies).nodes = s.nodes ∧ (s.delayCopies).image = s.image ∧ (s.delayCopies).cmd = s.cmd
      ∧ (s.delayCopies).result = s.result ∧ (s.delayCopies).run = s.run ∧ (s.delayCopies).fault = s.fault
      ∧ (s.delayCopies).inReset = s.inReset ∧ (s.delayCopies).due = s.due ∧ (s.delayCopies).pending = s.pending := by
  unfold State.delayCopies
  repeat' split
  all_goals simp

@[simp] theorem Image.setOutHostBank_frame (u : Image) (m : Memory) :
    (u.setOutHostBank m).in0 = u.in0 ∧ (u.setOutHostBank m).in1 = u.in1 ∧ (u.setOutHostBank m).outHost = u.outHost
      ∧ (u.setOutHostBank m).inHost = u.inHost ∧ (u.setOutHostBank m).publishPending = u.publishPending
      ∧ (u.setOutHostBank m).outCopy = u.outCopy ∧ (u.setOutHostBank m).inCopy = u.inCopy
      ∧ (u.setOutHostBank m).outMap = u.outMap ∧ (u.setOutHostBank m).inMap = u.inMap
      ∧ (u.setOutHostBank m).hold = u.hold ∧ (u.setOutHostBank m).ptest = u.ptest
      ∧ (u.setOutHostBank m).linkFresh = u.linkFresh ∧ (u.setOutHostBank m).hostFresh = u.hostFresh
      ∧ (u.setOutHostBank m).snapCycle = u.snapCycle ∧ (u.setOutHostBank m).slices = u.slices
      ∧ (u.setOutHostBank m).lineInProgress = u.lineInProgress := by
  unfold Image.setOutHostBank
  split <;> simp

@[simp] theorem Image.setInLinkBank_frame (u : Image) (m : Memory) :
    (u.setInLinkBank m).out0 = u.out0 ∧ (u.setInLinkBank m).out1 = u.out1 ∧ (u.setInLinkBank m).outHost = u.outHost
      ∧ (u.setInLinkBank m).inHost = u.inHost ∧ (u.setInLinkBank m).publishPending = u.publishPending
      ∧ (u.setInLinkBank m).outCopy = u.outCopy ∧ (u.setInLinkBank m).inCopy = u.inCopy
      ∧ (u.setInLinkBank m).outMap = u.outMap ∧ (u.setInLinkBank m).inMap = u.inMap
      ∧ (u.setInLinkBank m).hold = u.hold ∧ (u.setInLinkBank m).ptest = u.ptest
      ∧ (u.setInLinkBank m).linkFresh = u.linkFresh ∧ (u.setInLinkBank m).hostFresh = u.hostFresh
      ∧ (u.setInLinkBank m).snapCycle = u.snapCycle ∧ (u.setInLinkBank m).slices = u.slices
      ∧ (u.setInLinkBank m).lineInProgress = u.lineInProgress := by
  unfold Image.setInLinkBank
  split <;> simp

@[simp] theorem Image.hostStore_frame (u : Image) (o : Nat) (b : Byte) :
    (u.hostStore o b).in0 = u.in0 ∧ (u.hostStore o b).in1 = u.in1 ∧ (u.hostStore o b).outHost = u.outHost
      ∧ (u.hostStore o b).inHost = u.inHost ∧ (u.hostStore o b).publishPending = u.publishPending
      ∧ (u.hostStore o b).outCopy = u.outCopy ∧ (u.hostStore o b).inCopy = u.inCopy
      ∧ (u.hostStore o b).inMap = u.inMap ∧ (u.hostStore o b).hold = u.hold ∧ (u.hostStore o b).ptest = u.ptest
      ∧ (u.hostStore o b).linkFresh = u.linkFresh ∧ (u.hostStore o b).hostFresh = u.hostFresh
      ∧ (u.hostStore o b).snapCycle = u.snapCycle ∧ (u.hostStore o b).slices = u.slices
      ∧ (u.hostStore o b).lineInProgress = u.lineInProgress := by
  unfold Image.hostStore
  dsimp only
  split <;> simp

@[simp] theorem Image.hostStoreAll_frame (u : Image) (l : List (Nat × Byte)) :
    (u.hostStoreAll l).in0 = u.in0 ∧ (u.hostStoreAll l).in1 = u.in1 ∧ (u.hostStoreAll l).outHost = u.outHost
      ∧ (u.hostStoreAll l).inHost = u.inHost ∧ (u.hostStoreAll l).publishPending = u.publishPending
      ∧ (u.hostStoreAll l).outCopy = u.outCopy ∧ (u.hostStoreAll l).inCopy = u.inCopy
      ∧ (u.hostStoreAll l).inMap = u.inMap ∧ (u.hostStoreAll l).hold = u.hold ∧ (u.hostStoreAll l).ptest = u.ptest
      ∧ (u.hostStoreAll l).linkFresh = u.linkFresh ∧ (u.hostStoreAll l).hostFresh = u.hostFresh
      ∧ (u.hostStoreAll l).snapCycle = u.snapCycle ∧ (u.hostStoreAll l).slices = u.slices
      ∧ (u.hostStoreAll l).lineInProgress = u.lineInProgress := by
  induction l generalizing u with
  | nil => simp [Image.hostStoreAll]
  | cons c rest ih => simp [Image.hostStoreAll, ih]

@[simp] theorem Image.linkStore_frame (u : Image) (o : Nat) (bytes : List Byte) :
    (u.linkStore o bytes).out0 = u.out0 ∧ (u.linkStore o bytes).out1 = u.out1
      ∧ (u.linkStore o bytes).outHost = u.outHost ∧ (u.linkStore o bytes).inHost = u.inHost
      ∧ (u.linkStore o bytes).publishPending = u.publishPending ∧ (u.linkStore o bytes).outCopy = u.outCopy
      ∧ (u.linkStore o bytes).inCopy = u.inCopy ∧ (u.linkStore o bytes).outMap = u.outMap
      ∧ (u.linkStore o bytes).hold = u.hold ∧ (u.linkStore o bytes).ptest = u.ptest
      ∧ (u.linkStore o bytes).linkFresh = u.linkFresh ∧ (u.linkStore o bytes).hostFresh = u.hostFresh
      ∧ (u.linkStore o bytes).snapCycle = u.snapCycle ∧ (u.linkStore o bytes).slices = u.slices
      ∧ (u.linkStore o bytes).lineInProgress = u.lineInProgress := by
  induction bytes generalizing u o with
  | nil => simp [Image.linkStore]
  | cons b rest ih =>
    unfold Image.linkStore
    dsimp only
    split <;> simp [ih]

@[simp] theorem State.imageWrite_frame (s : State) (lanes : Lanes) (addr : BitVec 11) (data : Word) :
    (s.imageWrite lanes addr data).port = s.port ∧ (s.imageWrite lanes addr data).link = s.link
      ∧ (s.imageWrite lanes addr data).sched = s.sched ∧ (s.imageWrite lanes addr data).nodes = s.nodes
      ∧ (s.imageWrite lanes addr data).image.hold = s.image.hold
      ∧ (s.imageWrite lanes addr data).image.ptest = s.image.ptest ∧ (s.imageWrite lanes addr data).cmd = s.cmd
      ∧ (s.imageWrite lanes addr data).result = s.result ∧ (s.imageWrite lanes addr data).run = s.run
      ∧ (s.imageWrite lanes addr data).fault = s.fault ∧ (s.imageWrite lanes addr data).inReset = s.inReset
      ∧ (s.imageWrite lanes addr data).pending = s.pending := by
  unfold State.imageWrite
  dsimp only
  repeat' split
  all_goals simp

@[simp] theorem State.imageRead_frame (s : State) (lanes : Lanes) (addr : BitVec 11) :
    (s.imageRead lanes addr).1.port = s.port ∧ (s.imageRead lanes addr).1.link = s.link
      ∧ (s.imageRead lanes addr).1.sched = s.sched ∧ (s.imageRead lanes addr).1.nodes = s.nodes
      ∧ (s.imageRead lanes addr).1.image = s.image ∧ (s.imageRead lanes addr).1.cmd = s.cmd
      ∧ (s.imageRead lanes addr).1.result = s.result ∧ (s.imageRead lanes addr).1.run = s.run
      ∧ (s.imageRead lanes addr).1.fault = s.fault ∧ (s.imageRead lanes addr).1.inReset = s.inReset
      ∧ (s.imageRead lanes addr).1.pending = s.pending := by
  unfold State.imageRead
  dsimp only
  split <;> simp

@[simp] theorem State.takePendingPublish_frame (s : State) :
    (s.takePendingPublish).port = s.port ∧ (s.takePendingPublish).link = s.link
      ∧ (s.takePendingPublish).sched = s.sched ∧ (s.takePendingPublish).nodes = s.nodes
      ∧ (s.takePendingPublish).image.hold = s.image.hold ∧ (s.takePendingPublish).image.ptest = s.image.ptest
      ∧ (s.takePendingPublish).cmd = s.cmd ∧ (s.takePendingPublish).result = s.result
      ∧ (s.takePendingPublish).run = s.run ∧ (s.takePendingPublish).fault.fflag0 = s.fault.fflag0
      ∧ (s.takePendingPublish).fault.fflag1 = s.fault.fflag1
      ∧ (s.takePendingPublish).fault.capture = s.fault.capture
      ∧ (s.takePendingPublish).fault.enables = s.fault.enables ∧ (s.takePendingPublish).timers = s.timers
      ∧ (s.takePendingPublish).inReset = s.inReset ∧ (s.takePendingPublish).due = s.due
      ∧ (s.takePendingPublish).pending = s.pending := by
  unfold State.takePendingPublish
  repeat' split
  all_goals simp

@[simp] theorem State.requestPublish_frame (s : State) :
    (s.requestPublish).port = s.port ∧ (s.requestPublish).link = s.link ∧ (s.requestPublish).sched = s.sched
      ∧ (s.requestPublish).nodes = s.nodes ∧ (s.requestPublish).image.hold = s.image.hold
      ∧ (s.requestPublish).image.ptest = s.image.ptest ∧ (s.requestPublish).cmd = s.cmd
      ∧ (s.requestPublish).result = s.result ∧ (s.requestPublish).run = s.run
      ∧ (s.requestPublish).fault.fflag0 = s.fault.fflag0 ∧ (s.requestPublish).fault.fflag1 = s.fault.fflag1
      ∧ (s.requestPublish).fault.capture = s.fault.capture ∧ (s.requestPublish).fault.enables = s.fault.enables
      ∧ (s.requestPublish).timers = s.timers ∧ (s.requestPublish).inReset = s.inReset
      ∧ (s.requestPublish).due = s.due ∧ (s.requestPublish).pending = s.pending := by
  unfold State.requestPublish
  dsimp only
  repeat' split
  all_goals simp

@[simp] theorem State.writeIctl_frame (s : State) (v : Word) :
    (s.writeIctl v).port = s.port ∧ (s.writeIctl v).link = s.link ∧ (s.writeIctl v).sched = s.sched
      ∧ (s.writeIctl v).nodes = s.nodes ∧ (s.writeIctl v).cmd = s.cmd ∧ (s.writeIctl v).result = s.result
      ∧ (s.writeIctl v).run = s.run ∧ (s.writeIctl v).fault.fflag0 = s.fault.fflag0
      ∧ (s.writeIctl v).fault.fflag1 = s.fault.fflag1 ∧ (s.writeIctl v).fault.capture = s.fault.capture
      ∧ (s.writeIctl v).fault.enables = s.fault.enables ∧ (s.writeIctl v).timers = s.timers
      ∧ (s.writeIctl v).inReset = s.inReset ∧ (s.writeIctl v).due = s.due ∧ (s.writeIctl v).pending = s.pending := by
  unfold State.writeIctl
  dsimp only
  split <;> simp

@[simp] theorem State.storeReply_frame (s : State) (n : NodeAddr) (bytes : List Byte) :
    (s.storeReply n bytes).port = s.port ∧ (s.storeReply n bytes).link = s.link
      ∧ (s.storeReply n bytes).sched = s.sched ∧ (s.storeReply n bytes).nodes = s.nodes
      ∧ (s.storeReply n bytes).image.hold = s.image.hold ∧ (s.storeReply n bytes).image.ptest = s.image.ptest
      ∧ (s.storeReply n bytes).cmd = s.cmd ∧ (s.storeReply n bytes).result = s.result
      ∧ (s.storeReply n bytes).run = s.run ∧ (s.storeReply n bytes).fault = s.fault
      ∧ (s.storeReply n bytes).timers = s.timers ∧ (s.storeReply n bytes).inReset = s.inReset
      ∧ (s.storeReply n bytes).due = s.due ∧ (s.storeReply n bytes).pending = s.pending := by
  unfold State.storeReply
  repeat' split
  all_goals simp

@[simp] theorem State.cycleEndSwap_frame (s : State) :
    (s.cycleEndSwap).port = s.port ∧ (s.cycleEndSwap).link = s.link ∧ (s.cycleEndSwap).sched = s.sched
      ∧ (s.cycleEndSwap).nodes = s.nodes ∧ (s.cycleEndSwap).image.hold = s.image.hold
      ∧ (s.cycleEndSwap).image.ptest = s.image.ptest ∧ (s.cycleEndSwap).cmd = s.cmd
      ∧ (s.cycleEndSwap).result = s.result ∧ (s.cycleEndSwap).run = s.run
      ∧ (s.cycleEndSwap).fault.fflag0 = s.fault.fflag0 ∧ (s.cycleEndSwap).fault.fflag1 = s.fault.fflag1
      ∧ (s.cycleEndSwap).fault.capture = s.fault.capture ∧ (s.cycleEndSwap).fault.enables = s.fault.enables
      ∧ (s.cycleEndSwap).timers = s.timers ∧ (s.cycleEndSwap).inReset = s.inReset ∧ (s.cycleEndSwap).due = s.due
      ∧ (s.cycleEndSwap).pending = s.pending := by
  unfold State.cycleEndSwap
  repeat' split
  all_goals simp

@[simp] theorem State.raiseCopyFault_frame (s : State) (seen : Bool) (bad : Option Nat) :
    (s.raiseCopyFault seen bad).port = s.port ∧ (s.raiseCopyFault seen bad).link = s.link
      ∧ (s.raiseCopyFault seen bad).sched = s.sched ∧ (s.raiseCopyFault seen bad).nodes = s.nodes
      ∧ (s.raiseCopyFault seen bad).image = s.image ∧ (s.raiseCopyFault seen bad).cmd = s.cmd
      ∧ (s.raiseCopyFault seen bad).result = s.result ∧ (s.raiseCopyFault seen bad).run = s.run
      ∧ (s.raiseCopyFault seen bad).fault = s.fault ∧ (s.raiseCopyFault seen bad).timers = s.timers
      ∧ (s.raiseCopyFault seen bad).inReset = s.inReset ∧ (s.raiseCopyFault seen bad).pending = s.pending := by
  unfold State.raiseCopyFault
  repeat' split
  all_goals simp

@[simp] theorem State.publishAfterLine_frame (s : State) (k : BitVec 6) :
    (s.publishAfterLine k).port = s.port ∧ (s.publishAfterLine k).link = s.link
      ∧ (s.publishAfterLine k).sched = s.sched ∧ (s.publishAfterLine k).nodes = s.nodes
      ∧ (s.publishAfterLine k).image.hold = s.image.hold ∧ (s.publishAfterLine k).image.ptest = s.image.ptest
      ∧ (s.publishAfterLine k).cmd = s.cmd ∧ (s.publishAfterLine k).result = s.result
      ∧ (s.publishAfterLine k).run = s.run ∧ (s.publishAfterLine k).fault.fflag0 = s.fault.fflag0
      ∧ (s.publishAfterLine k).fault.fflag1 = s.fault.fflag1
      ∧ (s.publishAfterLine k).fault.capture = s.fault.capture
      ∧ (s.publishAfterLine k).fault.enables = s.fault.enables ∧ (s.publishAfterLine k).timers = s.timers
      ∧ (s.publishAfterLine k).inReset = s.inReset ∧ (s.publishAfterLine k).due = s.due
      ∧ (s.publishAfterLine k).pending = s.pending := by
  unfold State.publishAfterLine
  repeat' split
  all_goals simp

@[simp] theorem State.outputLine_frame (s : State) (k : BitVec 6) :
    (s.outputLine k).port = s.port ∧ (s.outputLine k).link = s.link ∧ (s.outputLine k).sched = s.sched
      ∧ (s.outputLine k).nodes = s.nodes ∧ (s.outputLine k).image.hold = s.image.hold
      ∧ (s.outputLine k).image.ptest = s.image.ptest ∧ (s.outputLine k).cmd = s.cmd
      ∧ (s.outputLine k).result = s.result ∧ (s.outputLine k).run = s.run
      ∧ (s.outputLine k).fault.fflag0 = s.fault.fflag0 ∧ (s.outputLine k).fault.fflag1 = s.fault.fflag1
      ∧ (s.outputLine k).fault.capture = s.fault.capture ∧ (s.outputLine k).fault.enables = s.fault.enables
      ∧ (s.outputLine k).timers = s.timers ∧ (s.outputLine k).inReset = s.inReset
      ∧ (s.outputLine k).pending = s.pending := by
  simp [State.outputLine]

@[simp] theorem State.inputLine_frame (s : State) (k : BitVec 6) :
    (s.inputLine k).port = s.port ∧ (s.inputLine k).link = s.link ∧ (s.inputLine k).sched = s.sched
      ∧ (s.inputLine k).nodes = s.nodes ∧ (s.inputLine k).image.hold = s.image.hold
      ∧ (s.inputLine k).image.ptest = s.image.ptest ∧ (s.inputLine k).cmd = s.cmd
      ∧ (s.inputLine k).result = s.result ∧ (s.inputLine k).run = s.run ∧ (s.inputLine k).fault = s.fault
      ∧ (s.inputLine k).timers = s.timers ∧ (s.inputLine k).inReset = s.inReset
      ∧ (s.inputLine k).pending = s.pending := by
  simp [State.inputLine]

@[simp] theorem State.copyLine_frame (s : State) :
    (s.copyLine).port = s.port ∧ (s.copyLine).link = s.link ∧ (s.copyLine).sched = s.sched
      ∧ (s.copyLine).nodes = s.nodes ∧ (s.copyLine).image.hold = s.image.hold
      ∧ (s.copyLine).image.ptest = s.image.ptest ∧ (s.copyLine).cmd = s.cmd ∧ (s.copyLine).result = s.result
      ∧ (s.copyLine).run = s.run ∧ (s.copyLine).fault.fflag0 = s.fault.fflag0
      ∧ (s.copyLine).fault.fflag1 = s.fault.fflag1 ∧ (s.copyLine).fault.capture = s.fault.capture
      ∧ (s.copyLine).fault.enables = s.fault.enables
      ∧ (s.copyLine).timers = { s.timers with lineCopy := none } ∧ (s.copyLine).inReset = s.inReset
      ∧ (s.copyLine).pending = s.pending := by
  unfold State.copyLine
  dsimp only
  split <;> simp

@[simp] theorem State.lineCopy_frame (s : State) :
    (s.lineCopy).port = s.port ∧ (s.lineCopy).link = s.link ∧ (s.lineCopy).sched = s.sched
      ∧ (s.lineCopy).nodes = s.nodes ∧ (s.lineCopy).image.hold = s.image.hold
      ∧ (s.lineCopy).image.ptest = s.image.ptest ∧ (s.lineCopy).cmd = s.cmd ∧ (s.lineCopy).result = s.result
      ∧ (s.lineCopy).run = s.run ∧ (s.lineCopy).fault.fflag0 = s.fault.fflag0
      ∧ (s.lineCopy).fault.fflag1 = s.fault.fflag1 ∧ (s.lineCopy).fault.capture = s.fault.capture
      ∧ (s.lineCopy).fault.enables = s.fault.enables ∧ (s.lineCopy).inReset = s.inReset
      ∧ (s.lineCopy).pending = s.pending := by
  unfold State.lineCopy
  dsimp only
  repeat' split
  all_goals simp

/-! ### The node table -/

@[simp] theorem State.enableNode_frame (s : State) (n : NodeAddr) (e : NodeEntry) :
    (s.enableNode n e).port = s.port ∧ (s.enableNode n e).link = s.link ∧ (s.enableNode n e).sched = s.sched
      ∧ (s.enableNode n e).nodes.nsel = s.nodes.nsel ∧ (s.enableNode n e).image = s.image
      ∧ (s.enableNode n e).cmd = s.cmd ∧ (s.enableNode n e).result = s.result ∧ (s.enableNode n e).run = s.run
      ∧ (s.enableNode n e).fault = s.fault ∧ (s.enableNode n e).timers = s.timers
      ∧ (s.enableNode n e).inReset = s.inReset ∧ (s.enableNode n e).pending = s.pending := by
  unfold State.enableNode
  repeat' split
  all_goals simp

@[simp] theorem State.disableNode_frame (s : State) (n : NodeAddr) (e : NodeEntry) :
    (s.disableNode n e).port = s.port ∧ (s.disableNode n e).link = s.link ∧ (s.disableNode n e).sched = s.sched
      ∧ (s.disableNode n e).nodes.nsel = s.nodes.nsel ∧ (s.disableNode n e).image.hold = s.image.hold
      ∧ (s.disableNode n e).image.ptest = s.image.ptest ∧ (s.disableNode n e).cmd = s.cmd
      ∧ (s.disableNode n e).result = s.result ∧ (s.disableNode n e).run = s.run
      ∧ (s.disableNode n e).fault = s.fault ∧ (s.disableNode n e).timers = s.timers
      ∧ (s.disableNode n e).inReset = s.inReset ∧ (s.disableNode n e).pending = s.pending := by
  simp [State.disableNode]

@[simp] theorem State.takeEnable_frame (s : State) (n : NodeAddr) (enable : Bool) :
    (s.takeEnable n enable).port = s.port ∧ (s.takeEnable n enable).link = s.link
      ∧ (s.takeEnable n enable).sched = s.sched ∧ (s.takeEnable n enable).nodes.nsel = s.nodes.nsel
      ∧ (s.takeEnable n enable).image.hold = s.image.hold ∧ (s.takeEnable n enable).image.ptest = s.image.ptest
      ∧ (s.takeEnable n enable).cmd = s.cmd ∧ (s.takeEnable n enable).result = s.result
      ∧ (s.takeEnable n enable).run = s.run ∧ (s.takeEnable n enable).fault = s.fault
      ∧ (s.takeEnable n enable).timers = s.timers ∧ (s.takeEnable n enable).inReset = s.inReset
      ∧ (s.takeEnable n enable).pending = s.pending := by
  unfold State.takeEnable
  repeat' split
  all_goals simp

@[simp] theorem State.takeLimits_frame (s : State) (n : NodeAddr) (e : NodeEntry) (v : Word) :
    (s.takeLimits n e v).port = s.port ∧ (s.takeLimits n e v).link = s.link ∧ (s.takeLimits n e v).sched = s.sched
      ∧ (s.takeLimits n e v).nodes.nsel = s.nodes.nsel ∧ (s.takeLimits n e v).image = s.image
      ∧ (s.takeLimits n e v).cmd = s.cmd ∧ (s.takeLimits n e v).result = s.result ∧ (s.takeLimits n e v).run = s.run
      ∧ (s.takeLimits n e v).fault = s.fault ∧ (s.takeLimits n e v).timers = s.timers
      ∧ (s.takeLimits n e v).inReset = s.inReset ∧ (s.takeLimits n e v).pending = s.pending := by
  unfold State.takeLimits
  dsimp only
  repeat' split
  all_goals simp

@[simp] theorem State.writeNcfg_frame (s : State) (v : Word) :
    (s.writeNcfg v).port = s.port ∧ (s.writeNcfg v).link = s.link ∧ (s.writeNcfg v).sched = s.sched
      ∧ (s.writeNcfg v).nodes.nsel = s.nodes.nsel ∧ (s.writeNcfg v).image.hold = s.image.hold
      ∧ (s.writeNcfg v).image.ptest = s.image.ptest ∧ (s.writeNcfg v).cmd = s.cmd
      ∧ (s.writeNcfg v).result = s.result ∧ (s.writeNcfg v).run = s.run ∧ (s.writeNcfg v).fault = s.fault
      ∧ (s.writeNcfg v).timers = s.timers ∧ (s.writeNcfg v).inReset = s.inReset
      ∧ (s.writeNcfg v).pending = s.pending := by
  unfold State.writeNcfg
  dsimp only
  split <;> simp

@[simp] theorem State.writeSliceOffset_frame (s : State) (offset : Word) (f : NodeEntry → NodeEntry) :
    (s.writeSliceOffset offset f).port = s.port ∧ (s.writeSliceOffset offset f).link = s.link
      ∧ (s.writeSliceOffset offset f).sched = s.sched ∧ (s.writeSliceOffset offset f).nodes.nsel = s.nodes.nsel
      ∧ (s.writeSliceOffset offset f).image = s.image ∧ (s.writeSliceOffset offset f).cmd = s.cmd
      ∧ (s.writeSliceOffset offset f).result = s.result ∧ (s.writeSliceOffset offset f).run = s.run
      ∧ (s.writeSliceOffset offset f).fault = s.fault ∧ (s.writeSliceOffset offset f).timers = s.timers
      ∧ (s.writeSliceOffset offset f).inReset = s.inReset ∧ (s.writeSliceOffset offset f).pending = s.pending := by
  unfold State.writeSliceOffset
  dsimp only
  repeat' split
  all_goals simp

@[simp] theorem State.writeNlen_frame (s : State) (v : Word) :
    (s.writeNlen v).port = s.port ∧ (s.writeNlen v).link = s.link ∧ (s.writeNlen v).sched = s.sched
      ∧ (s.writeNlen v).nodes.nsel = s.nodes.nsel ∧ (s.writeNlen v).image = s.image ∧ (s.writeNlen v).cmd = s.cmd
      ∧ (s.writeNlen v).result = s.result ∧ (s.writeNlen v).run = s.run ∧ (s.writeNlen v).fault = s.fault
      ∧ (s.writeNlen v).timers = s.timers ∧ (s.writeNlen v).inReset = s.inReset
      ∧ (s.writeNlen v).pending = s.pending := by
  unfold State.writeNlen
  dsimp only
  repeat' split
  all_goals simp

@[simp] theorem State.writeNcnt_frame (s : State) :
    (s.writeNcnt).port = s.port ∧ (s.writeNcnt).link = s.link ∧ (s.writeNcnt).sched = s.sched
      ∧ (s.writeNcnt).nodes.nsel = s.nodes.nsel ∧ (s.writeNcnt).image = s.image ∧ (s.writeNcnt).cmd = s.cmd
      ∧ (s.writeNcnt).result = s.result ∧ (s.writeNcnt).run = s.run ∧ (s.writeNcnt).fault = s.fault
      ∧ (s.writeNcnt).timers = s.timers ∧ (s.writeNcnt).inReset = s.inReset ∧ (s.writeNcnt).due = s.due
      ∧ (s.writeNcnt).pending = s.pending := by
  unfold State.writeNcnt
  dsimp only
  repeat' split
  all_goals simp

@[simp] theorem State.goodReply_frame (s : State) (n : NodeAddr) (e : NodeEntry) :
    (s.goodReply n e).port = s.port ∧ (s.goodReply n e).link = s.link ∧ (s.goodReply n e).sched = s.sched
      ∧ (s.goodReply n e).nodes.nsel = s.nodes.nsel ∧ (s.goodReply n e).image = s.image
      ∧ (s.goodReply n e).cmd = s.cmd ∧ (s.goodReply n e).result = s.result ∧ (s.goodReply n e).run = s.run
      ∧ (s.goodReply n e).fault = s.fault ∧ (s.goodReply n e).timers = s.timers
      ∧ (s.goodReply n e).inReset = s.inReset ∧ (s.goodReply n e).due = s.due
      ∧ (s.goodReply n e).pending = s.pending := by
  unfold State.goodReply
  repeat' split
  all_goals simp

@[simp] theorem State.miss_frame (s : State) (n : NodeAddr) (e : NodeEntry) (slot : SlotIndex) :
    (s.miss n e slot).port = s.port ∧ (s.miss n e slot).link = s.link ∧ (s.miss n e slot).sched = s.sched
      ∧ (s.miss n e slot).nodes.nsel = s.nodes.nsel ∧ (s.miss n e slot).image = s.image
      ∧ (s.miss n e slot).cmd = s.cmd ∧ (s.miss n e slot).result = s.result ∧ (s.miss n e slot).run = s.run
      ∧ (s.miss n e slot).fault = s.fault ∧ (s.miss n e slot).timers = s.timers
      ∧ (s.miss n e slot).inReset = s.inReset ∧ (s.miss n e slot).pending = s.pending := by
  unfold State.miss
  repeat' split
  all_goals simp

@[simp] theorem State.countBad_frame (s : State) (n : NodeAddr) (slot : SlotIndex) (c : BadCause) :
    (s.countBad n slot c).port = s.port ∧ (s.countBad n slot c).link = s.link
      ∧ (s.countBad n slot c).sched = s.sched ∧ (s.countBad n slot c).nodes.nsel = s.nodes.nsel
      ∧ (s.countBad n slot c).image = s.image ∧ (s.countBad n slot c).cmd = s.cmd
      ∧ (s.countBad n slot c).result = s.result ∧ (s.countBad n slot c).run = s.run
      ∧ (s.countBad n slot c).fault = s.fault ∧ (s.countBad n slot c).timers = s.timers
      ∧ (s.countBad n slot c).inReset = s.inReset ∧ (s.countBad n slot c).pending = s.pending := by
  unfold State.countBad
  repeat' split
  all_goals simp

@[simp] theorem State.identReceived_frame (s : State) (n : NodeAddr) (e : NodeEntry) (r : IdentRecord) :
    (s.identReceived n e r).port = s.port ∧ (s.identReceived n e r).link = s.link
      ∧ (s.identReceived n e r).sched = s.sched ∧ (s.identReceived n e r).nodes.nsel = s.nodes.nsel
      ∧ (s.identReceived n e r).image = s.image ∧ (s.identReceived n e r).cmd = s.cmd
      ∧ (s.identReceived n e r).result = s.result ∧ (s.identReceived n e r).run = s.run
      ∧ (s.identReceived n e r).fault = s.fault ∧ (s.identReceived n e r).timers = s.timers
      ∧ (s.identReceived n e r).inReset = s.inReset ∧ (s.identReceived n e r).pending = s.pending := by
  unfold State.identReceived
  repeat' split
  all_goals simp

@[simp] theorem State.takeOutcome_frame
    (s : State) (n : NodeAddr) (kind : WindowKind) (slot : SlotIndex) (v : Verdict) :
    (s.takeOutcome n kind slot v).port = s.port ∧ (s.takeOutcome n kind slot v).link = s.link
      ∧ (s.takeOutcome n kind slot v).sched = s.sched ∧ (s.takeOutcome n kind slot v).nodes.nsel = s.nodes.nsel
      ∧ (s.takeOutcome n kind slot v).image = s.image ∧ (s.takeOutcome n kind slot v).cmd = s.cmd
      ∧ (s.takeOutcome n kind slot v).result = s.result ∧ (s.takeOutcome n kind slot v).run = s.run
      ∧ (s.takeOutcome n kind slot v).fault = s.fault ∧ (s.takeOutcome n kind slot v).timers = s.timers
      ∧ (s.takeOutcome n kind slot v).inReset = s.inReset ∧ (s.takeOutcome n kind slot v).pending = s.pending := by
  unfold State.takeOutcome
  repeat' split
  all_goals simp

@[simp] theorem State.takeLate_frame (s : State) (n : NodeAddr) (slot : SlotIndex) :
    (s.takeLate n slot).port = s.port ∧ (s.takeLate n slot).link = s.link ∧ (s.takeLate n slot).sched = s.sched
      ∧ (s.takeLate n slot).nodes.nsel = s.nodes.nsel ∧ (s.takeLate n slot).image = s.image
      ∧ (s.takeLate n slot).cmd = s.cmd ∧ (s.takeLate n slot).result = s.result ∧ (s.takeLate n slot).run = s.run
      ∧ (s.takeLate n slot).fault = s.fault ∧ (s.takeLate n slot).timers = s.timers
      ∧ (s.takeLate n slot).inReset = s.inReset ∧ (s.takeLate n slot).pending = s.pending := by
  unfold State.takeLate
  repeat' split
  all_goals simp

@[simp] theorem State.haltNode_frame (s : State) (n : NodeAddr) :
    (s.haltNode n).port = s.port ∧ (s.haltNode n).link = s.link ∧ (s.haltNode n).sched = s.sched
      ∧ (s.haltNode n).nodes.nsel = s.nodes.nsel ∧ (s.haltNode n).image = s.image ∧ (s.haltNode n).cmd = s.cmd
      ∧ (s.haltNode n).result = s.result ∧ (s.haltNode n).run = s.run ∧ (s.haltNode n).fault = s.fault
      ∧ (s.haltNode n).timers = s.timers ∧ (s.haltNode n).inReset = s.inReset ∧ (s.haltNode n).pending = s.pending := by
  unfold State.haltNode
  repeat' split
  all_goals simp

@[simp] theorem State.haltNodes_frame (s : State) (ns : List NodeAddr) :
    (s.haltNodes ns).port = s.port ∧ (s.haltNodes ns).link = s.link ∧ (s.haltNodes ns).sched = s.sched
      ∧ (s.haltNodes ns).nodes.nsel = s.nodes.nsel ∧ (s.haltNodes ns).image = s.image ∧ (s.haltNodes ns).cmd = s.cmd
      ∧ (s.haltNodes ns).result = s.result ∧ (s.haltNodes ns).run = s.run ∧ (s.haltNodes ns).fault = s.fault
      ∧ (s.haltNodes ns).timers = s.timers ∧ (s.haltNodes ns).inReset = s.inReset ∧ (s.haltNodes ns).pending = s.pending := by
  induction ns generalizing s with
  | nil => simp [State.haltNodes]
  | cons n rest ih => simp [State.haltNodes, ih]

/-! ### The line, the cycle and the run -/

@[simp] theorem State.directOff_frame (s : State) :
    (s.directOff).port = s.port ∧ (s.directOff).link.rate = s.link.rate
      ∧ (s.directOff).link.window = s.link.window ∧ (s.directOff).sched = s.sched ∧ (s.directOff).nodes = s.nodes
      ∧ (s.directOff).image = s.image ∧ (s.directOff).cmd = s.cmd ∧ (s.directOff).result = s.result
      ∧ (s.directOff).run = s.run ∧ (s.directOff).fault = s.fault ∧ (s.directOff).inReset = s.inReset
      ∧ (s.directOff).due = s.due ∧ (s.directOff).pending = s.pending := by
  unfold State.directOff
  repeat' split
  all_goals simp

@[simp] theorem State.directQuiet_frame (s : State) :
    (s.directQuiet).port = s.port ∧ (s.directQuiet).link.rate = s.link.rate
      ∧ (s.directQuiet).link.window = s.link.window ∧ (s.directQuiet).sched = s.sched
      ∧ (s.directQuiet).nodes = s.nodes ∧ (s.directQuiet).image = s.image ∧ (s.directQuiet).cmd = s.cmd
      ∧ (s.directQuiet).result = s.result ∧ (s.directQuiet).run = s.run ∧ (s.directQuiet).fault = s.fault
      ∧ (s.directQuiet).inReset = s.inReset ∧ (s.directQuiet).due = s.due ∧ (s.directQuiet).pending = s.pending := by
  unfold State.directQuiet
  repeat' split
  all_goals simp

@[simp] theorem State.cutLine_frame (s : State) :
    (s.cutLine).port = s.port ∧ (s.cutLine).link.rate = s.link.rate ∧ (s.cutLine).link.window = s.link.window
      ∧ (s.cutLine).sched = s.sched ∧ (s.cutLine).nodes = s.nodes ∧ (s.cutLine).image = s.image
      ∧ (s.cutLine).cmd = s.cmd ∧ (s.cutLine).result = s.result ∧ (s.cutLine).run = s.run
      ∧ (s.cutLine).fault = s.fault ∧ (s.cutLine).inReset = s.inReset ∧ (s.cutLine).due = s.due
      ∧ (s.cutLine).pending = s.pending := by
  unfold State.cutLine
  repeat' split
  all_goals simp

@[simp] theorem State.enterStopped_frame (s : State) :
    (s.enterStopped).port = s.port ∧ (s.enterStopped).link = s.link
      ∧ (s.enterStopped).sched.tableA = s.sched.tableA ∧ (s.enterStopped).sched.tableB = s.sched.tableB
      ∧ (s.enterStopped).sched.pacingSetting = s.sched.pacingSetting
      ∧ (s.enterStopped).sched.cycleNumber = s.sched.cycleNumber
      ∧ (s.enterStopped).sched.selTable = s.sched.selTable ∧ (s.enterStopped).sched.selSlot = s.sched.selSlot
      ∧ (s.enterStopped).nodes = s.nodes ∧ (s.enterStopped).image.hold = s.image.hold
      ∧ (s.enterStopped).image.ptest = s.image.ptest ∧ (s.enterStopped).cmd = s.cmd
      ∧ (s.enterStopped).result = s.result ∧ (s.enterStopped).fault.fflag0 = s.fault.fflag0
      ∧ (s.enterStopped).fault.fflag1 = s.fault.fflag1 ∧ (s.enterStopped).fault.capture = s.fault.capture
      ∧ (s.enterStopped).fault.enables = s.fault.enables ∧ (s.enterStopped).inReset = s.inReset
      ∧ (s.enterStopped).pending = s.pending := by
  simp [State.enterStopped]

@[simp] theorem State.haltRun_frame (s : State) :
    (s.haltRun).port = s.port ∧ (s.haltRun).link.rate = s.link.rate ∧ (s.haltRun).link.window = s.link.window
      ∧ (s.haltRun).sched.tableA = s.sched.tableA ∧ (s.haltRun).sched.tableB = s.sched.tableB
      ∧ (s.haltRun).sched.pacingSetting = s.sched.pacingSetting
      ∧ (s.haltRun).sched.cycleNumber = s.sched.cycleNumber ∧ (s.haltRun).sched.selTable = s.sched.selTable
      ∧ (s.haltRun).sched.selSlot = s.sched.selSlot ∧ (s.haltRun).nodes = s.nodes ∧ (s.haltRun).image = s.image
      ∧ (s.haltRun).cmd = s.cmd ∧ (s.haltRun).result = s.result ∧ (s.haltRun).fault = s.fault
      ∧ (s.haltRun).inReset = s.inReset ∧ (s.haltRun).pending = s.pending := by
  simp [State.haltRun]

@[simp] theorem State.enterHalted_frame (s : State) (code : FaultCode) (detail : Word) :
    (s.enterHalted code detail).port = s.port ∧ (s.enterHalted code detail).link.rate = s.link.rate
      ∧ (s.enterHalted code detail).link.window = s.link.window
      ∧ (s.enterHalted code detail).sched.tableA = s.sched.tableA
      ∧ (s.enterHalted code detail).sched.tableB = s.sched.tableB
      ∧ (s.enterHalted code detail).sched.pacingSetting = s.sched.pacingSetting
      ∧ (s.enterHalted code detail).sched.cycleNumber = s.sched.cycleNumber
      ∧ (s.enterHalted code detail).sched.selTable = s.sched.selTable
      ∧ (s.enterHalted code detail).sched.selSlot = s.sched.selSlot
      ∧ (s.enterHalted code detail).nodes.nsel = s.nodes.nsel ∧ (s.enterHalted code detail).image = s.image
      ∧ (s.enterHalted code detail).cmd.retryLimit = s.cmd.retryLimit
      ∧ (s.enterHalted code detail).cmd.resultTimeout = s.cmd.resultTimeout
      ∧ (s.enterHalted code detail).cmd.staging = s.cmd.staging
      ∧ (s.enterHalted code detail).fault.fflag0 = s.fault.fflag0
      ∧ (s.enterHalted code detail).fault.fflag1 = s.fault.fflag1
      ∧ (s.enterHalted code detail).fault.capture = s.fault.capture
      ∧ (s.enterHalted code detail).fault.enables = s.fault.enables
      ∧ (s.enterHalted code detail).inReset = s.inReset ∧ (s.enterHalted code detail).pending = s.pending := by
  simp [State.enterHalted]

@[simp] theorem State.startBuilt_frame (s : State) (copies : List SliceCopy) (ex : Exchange) (frame : List Byte) :
    (s.startBuilt copies ex frame).port = s.port ∧ (s.startBuilt copies ex frame).link.rate = s.link.rate
      ∧ (s.startBuilt copies ex frame).link.window = s.link.window ∧ (s.startBuilt copies ex frame).sched = s.sched
      ∧ (s.startBuilt copies ex frame).nodes = s.nodes ∧ (s.startBuilt copies ex frame).image = s.image
      ∧ (s.startBuilt copies ex frame).cmd = s.cmd ∧ (s.startBuilt copies ex frame).result = s.result
      ∧ (s.startBuilt copies ex frame).run = s.run ∧ (s.startBuilt copies ex frame).fault = s.fault
      ∧ (s.startBuilt copies ex frame).inReset = s.inReset ∧ (s.startBuilt copies ex frame).pending = s.pending := by
  unfold State.startBuilt
  repeat' split
  all_goals simp

@[simp] theorem State.sendData_frame (s : State) (n : NodeAddr) (trailer : Bool) :
    (s.sendData n trailer).port = s.port ∧ (s.sendData n trailer).link.rate = s.link.rate
      ∧ (s.sendData n trailer).link.window = s.link.window ∧ (s.sendData n trailer).sched = s.sched
      ∧ (s.sendData n trailer).nodes = s.nodes ∧ (s.sendData n trailer).image = s.image
      ∧ (s.sendData n trailer).cmd = s.cmd ∧ (s.sendData n trailer).result = s.result
      ∧ (s.sendData n trailer).run = s.run ∧ (s.sendData n trailer).fault = s.fault
      ∧ (s.sendData n trailer).inReset = s.inReset ∧ (s.sendData n trailer).pending = s.pending := by
  simp [State.sendData]

@[simp] theorem State.sendPair_frame (s : State) (a : NodeAddr) (b : NodeAddr) :
    (s.sendPair a b).port = s.port ∧ (s.sendPair a b).link.rate = s.link.rate
      ∧ (s.sendPair a b).link.window = s.link.window ∧ (s.sendPair a b).sched = s.sched
      ∧ (s.sendPair a b).nodes = s.nodes ∧ (s.sendPair a b).image = s.image ∧ (s.sendPair a b).cmd = s.cmd
      ∧ (s.sendPair a b).result = s.result ∧ (s.sendPair a b).run = s.run ∧ (s.sendPair a b).fault = s.fault
      ∧ (s.sendPair a b).inReset = s.inReset ∧ (s.sendPair a b).pending = s.pending := by
  simp [State.sendPair]

@[simp] theorem State.resolveCyc_frame (s : State) (r : SlotRecord) :
    (s.resolveCyc r).port = s.port ∧ (s.resolveCyc r).link.rate = s.link.rate
      ∧ (s.resolveCyc r).link.window = s.link.window ∧ (s.resolveCyc r).sched = s.sched
      ∧ (s.resolveCyc r).nodes = s.nodes ∧ (s.resolveCyc r).image = s.image ∧ (s.resolveCyc r).cmd = s.cmd
      ∧ (s.resolveCyc r).result = s.result ∧ (s.resolveCyc r).run = s.run ∧ (s.resolveCyc r).fault = s.fault
      ∧ (s.resolveCyc r).inReset = s.inReset ∧ (s.resolveCyc r).pending = s.pending := by
  unfold State.resolveCyc
  repeat' split
  all_goals simp

@[simp] theorem State.resolvePair_frame (s : State) (r : SlotRecord) :
    (s.resolvePair r).port = s.port ∧ (s.resolvePair r).link.rate = s.link.rate
      ∧ (s.resolvePair r).link.window = s.link.window ∧ (s.resolvePair r).sched = s.sched
      ∧ (s.resolvePair r).nodes = s.nodes ∧ (s.resolvePair r).image = s.image ∧ (s.resolvePair r).cmd = s.cmd
      ∧ (s.resolvePair r).result = s.result ∧ (s.resolvePair r).run = s.run ∧ (s.resolvePair r).fault = s.fault
      ∧ (s.resolvePair r).inReset = s.inReset ∧ (s.resolvePair r).pending = s.pending := by
  unfold State.resolvePair
  repeat' split
  all_goals simp

@[simp] theorem State.resolveCyclic_frame (s : State) (r : SlotRecord) :
    (s.resolveCyclic r).port = s.port ∧ (s.resolveCyclic r).link.rate = s.link.rate
      ∧ (s.resolveCyclic r).link.window = s.link.window ∧ (s.resolveCyclic r).sched = s.sched
      ∧ (s.resolveCyclic r).nodes = s.nodes ∧ (s.resolveCyclic r).image = s.image ∧ (s.resolveCyclic r).cmd = s.cmd
      ∧ (s.resolveCyclic r).result = s.result ∧ (s.resolveCyclic r).run = s.run
      ∧ (s.resolveCyclic r).fault = s.fault ∧ (s.resolveCyclic r).inReset = s.inReset
      ∧ (s.resolveCyclic r).pending = s.pending := by
  unfold State.resolveCyclic
  repeat' split
  all_goals simp

@[simp] theorem State.decreasePacing_frame (s : State) :
    (s.decreasePacing).port = s.port ∧ (s.decreasePacing).link = s.link
      ∧ (s.decreasePacing).sched.tableA = s.sched.tableA ∧ (s.decreasePacing).sched.tableB = s.sched.tableB
      ∧ (s.decreasePacing).sched.pacingSetting = s.sched.pacingSetting
      ∧ (s.decreasePacing).sched.cycleNumber = s.sched.cycleNumber
      ∧ (s.decreasePacing).sched.selTable = s.sched.selTable ∧ (s.decreasePacing).sched.selSlot = s.sched.selSlot
      ∧ (s.decreasePacing).nodes = s.nodes ∧ (s.decreasePacing).image = s.image ∧ (s.decreasePacing).cmd = s.cmd
      ∧ (s.decreasePacing).result = s.result ∧ (s.decreasePacing).run = s.run ∧ (s.decreasePacing).fault = s.fault
      ∧ (s.decreasePacing).timers = s.timers ∧ (s.decreasePacing).inReset = s.inReset
      ∧ (s.decreasePacing).due = s.due ∧ (s.decreasePacing).pending = s.pending := by
  unfold State.decreasePacing
  repeat' split
  all_goals simp

/-- The command an opportunity sends comes with a state that differs in the command engine and the node table only. -/
theorem State.selectCommand_frame (s t : State) (e : OutEntry) (h : s.selectCommand = some (e, t)) :
    t.port = s.port ∧ t.link = s.link ∧ t.sched = s.sched ∧ t.image = s.image ∧ t.result = s.result ∧ t.run = s.run
      ∧ t.fault = s.fault ∧ t.timers = s.timers ∧ t.inReset = s.inReset ∧ t.due = s.due ∧ t.pending = s.pending
      ∧ t.nodes.nsel = s.nodes.nsel ∧ t.nodes.changeSet = s.nodes.changeSet ∧ t.cmd.staging = s.cmd.staging
      ∧ t.cmd.retryLimit = s.cmd.retryLimit ∧ t.cmd.resultTimeout = s.cmd.resultTimeout := by
  unfold State.selectCommand at h
  repeat' split at h
  all_goals simp at h
  all_goals obtain ⟨rfl, rfl⟩ := h
  all_goals simp [State.sendFirst]

@[simp] theorem State.slotStart_frame (s : State) (k : SlotIndex) :
    (s.slotStart k).port = s.port ∧ (s.slotStart k).link.rate = s.link.rate
      ∧ (s.slotStart k).link.window = s.link.window ∧ (s.slotStart k).sched.tableA = s.sched.tableA
      ∧ (s.slotStart k).sched.tableB = s.sched.tableB ∧ (s.slotStart k).sched.pacingSetting = s.sched.pacingSetting
      ∧ (s.slotStart k).sched.cycleNumber = s.sched.cycleNumber ∧ (s.slotStart k).sched.selTable = s.sched.selTable
      ∧ (s.slotStart k).sched.selSlot = s.sched.selSlot ∧ (s.slotStart k).nodes.nsel = s.nodes.nsel
      ∧ (s.slotStart k).image.hold = s.image.hold ∧ (s.slotStart k).image.ptest = s.image.ptest
      ∧ (s.slotStart k).cmd.retryLimit = s.cmd.retryLimit ∧ (s.slotStart k).cmd.resultTimeout = s.cmd.resultTimeout
      ∧ (s.slotStart k).cmd.staging = s.cmd.staging ∧ (s.slotStart k).result = s.result
      ∧ (s.slotStart k).run = s.run ∧ (s.slotStart k).fault = s.fault ∧ (s.slotStart k).inReset = s.inReset
      ∧ (s.slotStart k).pending = s.pending := by
  unfold State.slotStart
  dsimp only
  split
  · next e t h =>
    split at h
    · have f := State.selectCommand_frame _ _ _ h
      simp [f]
    · simp at h
  · simp

@[simp] theorem State.cycleStart_frame (s : State) :
    (s.cycleStart).port = s.port ∧ (s.cycleStart).link.rate = s.link.rate
      ∧ (s.cycleStart).link.window = s.link.window ∧ (s.cycleStart).sched.tableA = s.sched.tableA
      ∧ (s.cycleStart).sched.tableB = s.sched.tableB ∧ (s.cycleStart).sched.pacingSetting = s.sched.pacingSetting
      ∧ (s.cycleStart).sched.selTable = s.sched.selTable ∧ (s.cycleStart).sched.selSlot = s.sched.selSlot
      ∧ (s.cycleStart).nodes = s.nodes ∧ (s.cycleStart).image.hold = s.image.hold
      ∧ (s.cycleStart).image.ptest = s.image.ptest ∧ (s.cycleStart).cmd = s.cmd ∧ (s.cycleStart).result = s.result
      ∧ (s.cycleStart).run = s.run ∧ (s.cycleStart).fault.fflag0 = s.fault.fflag0
      ∧ (s.cycleStart).fault.fflag1 = s.fault.fflag1 ∧ (s.cycleStart).fault.capture = s.fault.capture
      ∧ (s.cycleStart).fault.enables = s.fault.enables ∧ (s.cycleStart).inReset = s.inReset
      ∧ (s.cycleStart).pending = s.pending := by
  simp [State.cycleStart]

@[simp] theorem State.cycleEnd_frame (s : State) :
    (s.cycleEnd).port = s.port ∧ (s.cycleEnd).link.rate = s.link.rate ∧ (s.cycleEnd).link.window = s.link.window
      ∧ (s.cycleEnd).sched.tableA = s.sched.tableA ∧ (s.cycleEnd).sched.tableB = s.sched.tableB
      ∧ (s.cycleEnd).sched.pacingSetting = s.sched.pacingSetting ∧ (s.cycleEnd).sched.selTable = s.sched.selTable
      ∧ (s.cycleEnd).sched.selSlot = s.sched.selSlot ∧ (s.cycleEnd).nodes = s.nodes
      ∧ (s.cycleEnd).image.hold = s.image.hold ∧ (s.cycleEnd).image.ptest = s.image.ptest ∧ (s.cycleEnd).cmd = s.cmd
      ∧ (s.cycleEnd).result = s.result ∧ (s.cycleEnd).fault.fflag0 = s.fault.fflag0
      ∧ (s.cycleEnd).fault.fflag1 = s.fault.fflag1 ∧ (s.cycleEnd).fault.capture = s.fault.capture
      ∧ (s.cycleEnd).fault.enables = s.fault.enables ∧ (s.cycleEnd).inReset = s.inReset
      ∧ (s.cycleEnd).pending = s.pending := by
  unfold State.cycleEnd
  dsimp only
  split <;> simp

@[simp] theorem State.afterSlot_frame (s : State) (k : SlotIndex) :
    (s.afterSlot k).port = s.port ∧ (s.afterSlot k).link.rate = s.link.rate
      ∧ (s.afterSlot k).link.window = s.link.window ∧ (s.afterSlot k).sched.tableA = s.sched.tableA
      ∧ (s.afterSlot k).sched.tableB = s.sched.tableB ∧ (s.afterSlot k).sched.pacingSetting = s.sched.pacingSetting
      ∧ (s.afterSlot k).sched.selTable = s.sched.selTable ∧ (s.afterSlot k).sched.selSlot = s.sched.selSlot
      ∧ (s.afterSlot k).nodes.nsel = s.nodes.nsel ∧ (s.afterSlot k).image.hold = s.image.hold
      ∧ (s.afterSlot k).image.ptest = s.image.ptest ∧ (s.afterSlot k).cmd.retryLimit = s.cmd.retryLimit
      ∧ (s.afterSlot k).cmd.resultTimeout = s.cmd.resultTimeout ∧ (s.afterSlot k).cmd.staging = s.cmd.staging
      ∧ (s.afterSlot k).result = s.result ∧ (s.afterSlot k).fault.fflag0 = s.fault.fflag0
      ∧ (s.afterSlot k).fault.fflag1 = s.fault.fflag1 ∧ (s.afterSlot k).fault.capture = s.fault.capture
      ∧ (s.afterSlot k).fault.enables = s.fault.enables ∧ (s.afterSlot k).inReset = s.inReset
      ∧ (s.afterSlot k).pending = s.pending := by
  unfold State.afterSlot
  repeat' split
  all_goals simp

@[simp] theorem State.handAbandon_frame (s : State) :
    (s.handAbandon).port = s.port ∧ (s.handAbandon).link = s.link ∧ (s.handAbandon).sched = s.sched
      ∧ (s.handAbandon).nodes = s.nodes ∧ (s.handAbandon).image = s.image ∧ (s.handAbandon).cmd = s.cmd
      ∧ (s.handAbandon).result = s.result ∧ (s.handAbandon).run = s.run ∧ (s.handAbandon).fault = s.fault
      ∧ (s.handAbandon).timers = s.timers ∧ (s.handAbandon).inReset = s.inReset
      ∧ (s.handAbandon).pending = s.pending := by
  unfold State.handAbandon
  repeat' split
  all_goals simp

@[simp] theorem State.linkFault_frame (s : State) (kind : LinkFaultKind) (node : NodeAddr) :
    (s.linkFault kind node).port = s.port ∧ (s.linkFault kind node).link.rate = s.link.rate
      ∧ (s.linkFault kind node).link.window = s.link.window ∧ (s.linkFault kind node).sched.tableA = s.sched.tableA
      ∧ (s.linkFault kind node).sched.tableB = s.sched.tableB
      ∧ (s.linkFault kind node).sched.pacingSetting = s.sched.pacingSetting
      ∧ (s.linkFault kind node).sched.cycleNumber = s.sched.cycleNumber
      ∧ (s.linkFault kind node).sched.selTable = s.sched.selTable
      ∧ (s.linkFault kind node).sched.selSlot = s.sched.selSlot ∧ (s.linkFault kind node).nodes = s.nodes
      ∧ (s.linkFault kind node).image = s.image ∧ (s.linkFault kind node).cmd = s.cmd
      ∧ (s.linkFault kind node).result = s.result ∧ (s.linkFault kind node).run = s.run
      ∧ (s.linkFault kind node).fault = s.fault ∧ (s.linkFault kind node).inReset = s.inReset
      ∧ (s.linkFault kind node).pending = s.pending := by
  simp [State.linkFault]

/-! ### Windows and the events of the line -/

@[simp] theorem State.handMissed_frame (s : State) (v : Verdict) (ack : AckVerdict) :
    (s.handMissed v ack).port = s.port ∧ (s.handMissed v ack).link = s.link ∧ (s.handMissed v ack).sched = s.sched
      ∧ (s.handMissed v ack).nodes = s.nodes ∧ (s.handMissed v ack).image = s.image
      ∧ (s.handMissed v ack).cmd = s.cmd ∧ (s.handMissed v ack).result = s.result ∧ (s.handMissed v ack).run = s.run
      ∧ (s.handMissed v ack).fault = s.fault ∧ (s.handMissed v ack).timers = s.timers
      ∧ (s.handMissed v ack).inReset = s.inReset ∧ (s.handMissed v ack).pending = s.pending := by
  unfold State.handMissed
  dsimp only
  split <;> simp

@[simp] theorem State.decideBad_frame (s : State) (c : BadCause) :
    (s.decideBad c).port = s.port ∧ (s.decideBad c).link.rate = s.link.rate
      ∧ (s.decideBad c).link.window = s.link.window ∧ (s.decideBad c).sched = s.sched
      ∧ (s.decideBad c).nodes = s.nodes ∧ (s.decideBad c).image = s.image ∧ (s.decideBad c).cmd = s.cmd
      ∧ (s.decideBad c).result = s.result ∧ (s.decideBad c).run = s.run ∧ (s.decideBad c).fault = s.fault
      ∧ (s.decideBad c).inReset = s.inReset ∧ (s.decideBad c).pending = s.pending := by
  simp [State.decideBad]

@[simp] theorem State.decideNone_frame (s : State) :
    (s.decideNone).port = s.port ∧ (s.decideNone).link.rate = s.link.rate
      ∧ (s.decideNone).link.window = s.link.window ∧ (s.decideNone).sched = s.sched ∧ (s.decideNone).nodes = s.nodes
      ∧ (s.decideNone).image = s.image ∧ (s.decideNone).cmd = s.cmd ∧ (s.decideNone).result = s.result
      ∧ (s.decideNone).run = s.run ∧ (s.decideNone).fault = s.fault ∧ (s.decideNone).inReset = s.inReset
      ∧ (s.decideNone).pending = s.pending := by
  simp [State.decideNone]

@[simp] theorem State.decideGood_frame (s : State) (bytes : List Byte) :
    (s.decideGood bytes).port = s.port ∧ (s.decideGood bytes).link.rate = s.link.rate
      ∧ (s.decideGood bytes).link.window = s.link.window ∧ (s.decideGood bytes).sched = s.sched
      ∧ (s.decideGood bytes).nodes = s.nodes ∧ (s.decideGood bytes).image = s.image
      ∧ (s.decideGood bytes).cmd = s.cmd ∧ (s.decideGood bytes).result = s.result ∧ (s.decideGood bytes).run = s.run
      ∧ (s.decideGood bytes).fault = s.fault ∧ (s.decideGood bytes).inReset = s.inReset
      ∧ (s.decideGood bytes).pending = s.pending := by
  unfold State.decideGood
  dsimp only
  repeat' split
  all_goals simp

@[simp] theorem State.judgeByte_frame (s : State) (b : Byte) :
    (s.judgeByte b).port = s.port ∧ (s.judgeByte b).link.rate = s.link.rate
      ∧ (s.judgeByte b).link.window = s.link.window ∧ (s.judgeByte b).sched = s.sched
      ∧ (s.judgeByte b).nodes = s.nodes ∧ (s.judgeByte b).image = s.image ∧ (s.judgeByte b).cmd = s.cmd
      ∧ (s.judgeByte b).result = s.result ∧ (s.judgeByte b).run = s.run ∧ (s.judgeByte b).fault = s.fault
      ∧ (s.judgeByte b).inReset = s.inReset ∧ (s.judgeByte b).pending = s.pending := by
  unfold State.judgeByte
  dsimp only
  repeat' split
  all_goals simp

@[simp] theorem State.quietOnset_frame (s : State) :
    (s.quietOnset).port = s.port ∧ (s.quietOnset).link.rate = s.link.rate
      ∧ (s.quietOnset).link.window = s.link.window ∧ (s.quietOnset).sched = s.sched ∧ (s.quietOnset).nodes = s.nodes
      ∧ (s.quietOnset).image = s.image ∧ (s.quietOnset).cmd = s.cmd ∧ (s.quietOnset).result = s.result
      ∧ (s.quietOnset).run = s.run ∧ (s.quietOnset).fault = s.fault ∧ (s.quietOnset).inReset = s.inReset
      ∧ (s.quietOnset).pending = s.pending := by
  unfold State.quietOnset
  dsimp only
  split <;> simp

@[simp] theorem State.receiveOnset_frame (s : State) :
    (s.receiveOnset).port = s.port ∧ (s.receiveOnset).link.rate = s.link.rate
      ∧ (s.receiveOnset).link.window = s.link.window ∧ (s.receiveOnset).sched = s.sched
      ∧ (s.receiveOnset).nodes = s.nodes ∧ (s.receiveOnset).image = s.image ∧ (s.receiveOnset).cmd = s.cmd
      ∧ (s.receiveOnset).result = s.result ∧ (s.receiveOnset).run = s.run ∧ (s.receiveOnset).fault = s.fault
      ∧ (s.receiveOnset).inReset = s.inReset
      ∧ (s.receiveOnset).pending = s.pending := by
  unfold State.receiveOnset
  repeat' split
  all_goals simp

@[simp] theorem State.lateOnset_frame (s : State) :
    (s.lateOnset).port = s.port ∧ (s.lateOnset).link.rate = s.link.rate
      ∧ (s.lateOnset).link.window = s.link.window ∧ (s.lateOnset).sched = s.sched ∧ (s.lateOnset).nodes = s.nodes
      ∧ (s.lateOnset).image = s.image ∧ (s.lateOnset).cmd = s.cmd ∧ (s.lateOnset).result = s.result
      ∧ (s.lateOnset).run = s.run ∧ (s.lateOnset).fault = s.fault ∧ (s.lateOnset).timers = s.timers
      ∧ (s.lateOnset).inReset = s.inReset ∧ (s.lateOnset).pending = s.pending := by
  unfold State.lateOnset
  repeat' split
  all_goals simp

@[simp] theorem State.onset_frame (s : State) :
    (s.onset).port = s.port ∧ (s.onset).link.rate = s.link.rate ∧ (s.onset).link.window = s.link.window
      ∧ (s.onset).sched.tableA = s.sched.tableA ∧ (s.onset).sched.tableB = s.sched.tableB
      ∧ (s.onset).sched.pacingSetting = s.sched.pacingSetting ∧ (s.onset).sched.cycleNumber = s.sched.cycleNumber
      ∧ (s.onset).sched.selTable = s.sched.selTable ∧ (s.onset).sched.selSlot = s.sched.selSlot
      ∧ (s.onset).nodes = s.nodes ∧ (s.onset).image = s.image ∧ (s.onset).cmd = s.cmd ∧ (s.onset).result = s.result
      ∧ (s.onset).run = s.run ∧ (s.onset).fault = s.fault ∧ (s.onset).inReset = s.inReset
      ∧ (s.onset).pending = s.pending := by
  unfold State.onset
  repeat' split
  all_goals simp

@[simp] theorem State.characterGap_frame (s : State) :
    (s.characterGap).port = s.port ∧ (s.characterGap).link.rate = s.link.rate
      ∧ (s.characterGap).link.window = s.link.window ∧ (s.characterGap).sched = s.sched
      ∧ (s.characterGap).nodes = s.nodes ∧ (s.characterGap).image = s.image ∧ (s.characterGap).cmd = s.cmd
      ∧ (s.characterGap).result = s.result ∧ (s.characterGap).run = s.run ∧ (s.characterGap).fault = s.fault
      ∧ (s.characterGap).inReset = s.inReset ∧ (s.characterGap).pending = s.pending := by
  unfold State.characterGap
  repeat' split
  all_goals simp

@[simp] theorem State.windowClose_frame (s : State) :
    (s.windowClose).port = s.port ∧ (s.windowClose).link.rate = s.link.rate
      ∧ (s.windowClose).link.window = s.link.window ∧ (s.windowClose).sched = s.sched
      ∧ (s.windowClose).nodes = s.nodes ∧ (s.windowClose).image = s.image ∧ (s.windowClose).cmd = s.cmd
      ∧ (s.windowClose).result = s.result ∧ (s.windowClose).run = s.run ∧ (s.windowClose).fault = s.fault
      ∧ (s.windowClose).inReset = s.inReset ∧ (s.windowClose).pending = s.pending := by
  unfold State.windowClose
  repeat' split
  all_goals simp

@[simp] theorem State.closeFirst_frame (s : State) :
    (s.closeFirst).port = s.port ∧ (s.closeFirst).link.rate = s.link.rate
      ∧ (s.closeFirst).link.window = s.link.window ∧ (s.closeFirst).sched = s.sched ∧ (s.closeFirst).nodes = s.nodes
      ∧ (s.closeFirst).image = s.image ∧ (s.closeFirst).cmd = s.cmd ∧ (s.closeFirst).result = s.result
      ∧ (s.closeFirst).run = s.run ∧ (s.closeFirst).fault = s.fault ∧ (s.closeFirst).inReset = s.inReset
      ∧ (s.closeFirst).pending = s.pending := by
  unfold State.closeFirst
  repeat' split
  all_goals simp

@[simp] theorem State.characterEnd_frame (s : State) (b : Byte) (stopBit : Bool) :
    (s.characterEnd b stopBit).port = s.port ∧ (s.characterEnd b stopBit).link.rate = s.link.rate
      ∧ (s.characterEnd b stopBit).link.window = s.link.window ∧ (s.characterEnd b stopBit).sched = s.sched
      ∧ (s.characterEnd b stopBit).nodes = s.nodes ∧ (s.characterEnd b stopBit).image = s.image
      ∧ (s.characterEnd b stopBit).cmd = s.cmd ∧ (s.characterEnd b stopBit).result = s.result
      ∧ (s.characterEnd b stopBit).run = s.run ∧ (s.characterEnd b stopBit).fault = s.fault
      ∧ (s.characterEnd b stopBit).inReset = s.inReset ∧ (s.characterEnd b stopBit).pending = s.pending := by
  unfold State.characterEnd
  dsimp only
  repeat' split
  all_goals simp

@[simp] theorem State.window2Open_frame (s : State) :
    (s.window2Open).port = s.port ∧ (s.window2Open).link.rate = s.link.rate
      ∧ (s.window2Open).link.window = s.link.window ∧ (s.window2Open).sched = s.sched
      ∧ (s.window2Open).nodes = s.nodes ∧ (s.window2Open).image = s.image ∧ (s.window2Open).cmd = s.cmd
      ∧ (s.window2Open).result = s.result ∧ (s.window2Open).run = s.run ∧ (s.window2Open).fault = s.fault
      ∧ (s.window2Open).inReset = s.inReset ∧ (s.window2Open).pending = s.pending := by
  unfold State.window2Open
  dsimp only
  repeat' split
  all_goals simp

@[simp] theorem State.afterFrame_frame (s : State) :
    (s.afterFrame).port = s.port ∧ (s.afterFrame).link.rate = s.link.rate
      ∧ (s.afterFrame).link.window = s.link.window ∧ (s.afterFrame).sched = s.sched ∧ (s.afterFrame).nodes = s.nodes
      ∧ (s.afterFrame).image = s.image ∧ (s.afterFrame).cmd.retryLimit = s.cmd.retryLimit
      ∧ (s.afterFrame).cmd.resultTimeout = s.cmd.resultTimeout ∧ (s.afterFrame).cmd.staging = s.cmd.staging
      ∧ (s.afterFrame).run = s.run ∧ (s.afterFrame).fault = s.fault ∧ (s.afterFrame).inReset = s.inReset
      ∧ (s.afterFrame).due = s.due ∧ (s.afterFrame).pending = s.pending := by
  unfold State.afterFrame
  dsimp only
  split <;> simp

@[simp] theorem State.frameEnd_frame (s : State) :
    (s.frameEnd).port = s.port ∧ (s.frameEnd).link.rate = s.link.rate ∧ (s.frameEnd).link.window = s.link.window
      ∧ (s.frameEnd).sched = s.sched ∧ (s.frameEnd).nodes = s.nodes ∧ (s.frameEnd).image = s.image
      ∧ (s.frameEnd).cmd.retryLimit = s.cmd.retryLimit ∧ (s.frameEnd).cmd.resultTimeout = s.cmd.resultTimeout
      ∧ (s.frameEnd).cmd.staging = s.cmd.staging ∧ (s.frameEnd).run = s.run ∧ (s.frameEnd).fault = s.fault
      ∧ (s.frameEnd).inReset = s.inReset ∧ (s.frameEnd).due = s.due ∧ (s.frameEnd).pending = s.pending := by
  unfold State.frameEnd
  dsimp only
  repeat' split
  all_goals simp

@[simp] theorem State.readback_frame (s : State) (received : Bool) :
    (s.readback received).port = s.port ∧ (s.readback received).link.rate = s.link.rate
      ∧ (s.readback received).link.window = s.link.window ∧ (s.readback received).sched.tableA = s.sched.tableA
      ∧ (s.readback received).sched.tableB = s.sched.tableB
      ∧ (s.readback received).sched.pacingSetting = s.sched.pacingSetting
      ∧ (s.readback received).sched.cycleNumber = s.sched.cycleNumber
      ∧ (s.readback received).sched.selTable = s.sched.selTable
      ∧ (s.readback received).sched.selSlot = s.sched.selSlot ∧ (s.readback received).nodes = s.nodes
      ∧ (s.readback received).image = s.image ∧ (s.readback received).cmd = s.cmd
      ∧ (s.readback received).result = s.result ∧ (s.readback received).run = s.run
      ∧ (s.readback received).fault = s.fault ∧ (s.readback received).inReset = s.inReset
      ∧ (s.readback received).pending = s.pending := by
  unfold State.readback
  repeat' split
  all_goals simp

@[simp] theorem State.markEnd_frame (s : State) :
    (s.markEnd).port = s.port ∧ (s.markEnd).link.rate = s.link.rate ∧ (s.markEnd).link.window = s.link.window
      ∧ (s.markEnd).sched = s.sched ∧ (s.markEnd).nodes = s.nodes ∧ (s.markEnd).image = s.image
      ∧ (s.markEnd).cmd = s.cmd ∧ (s.markEnd).result = s.result ∧ (s.markEnd).run = s.run
      ∧ (s.markEnd).fault = s.fault ∧ (s.markEnd).inReset = s.inReset ∧ (s.markEnd).due = s.due
      ∧ (s.markEnd).pending = s.pending := by
  unfold State.markEnd
  dsimp only
  repeat' split
  all_goals simp

@[simp] theorem State.lineReturns_frame (s : State) :
    (s.lineReturns).port = s.port ∧ (s.lineReturns).link.rate = s.link.rate
      ∧ (s.lineReturns).link.window = s.link.window ∧ (s.lineReturns).sched = s.sched
      ∧ (s.lineReturns).nodes = s.nodes ∧ (s.lineReturns).image = s.image ∧ (s.lineReturns).cmd = s.cmd
      ∧ (s.lineReturns).result = s.result ∧ (s.lineReturns).run = s.run ∧ (s.lineReturns).fault = s.fault
      ∧ (s.lineReturns).inReset = s.inReset ∧ (s.lineReturns).due = s.due ∧ (s.lineReturns).pending = s.pending := by
  unfold State.lineReturns
  dsimp only
  repeat' split
  all_goals simp

@[simp] theorem State.cutSlot_frame (s : State) :
    (s.cutSlot).port = s.port ∧ (s.cutSlot).link.rate = s.link.rate ∧ (s.cutSlot).link.window = s.link.window
      ∧ (s.cutSlot).sched = s.sched ∧ (s.cutSlot).nodes = s.nodes ∧ (s.cutSlot).image = s.image
      ∧ (s.cutSlot).cmd = s.cmd ∧ (s.cutSlot).result = s.result ∧ (s.cutSlot).run = s.run
      ∧ (s.cutSlot).fault = s.fault ∧ (s.cutSlot).inReset = s.inReset ∧ (s.cutSlot).pending = s.pending := by
  unfold State.cutSlot
  repeat' split
  all_goals simp

@[simp] theorem State.slotEnd_frame (s : State) :
    (s.slotEnd).port = s.port ∧ (s.slotEnd).link.rate = s.link.rate ∧ (s.slotEnd).link.window = s.link.window
      ∧ (s.slotEnd).sched.tableA = s.sched.tableA ∧ (s.slotEnd).sched.tableB = s.sched.tableB
      ∧ (s.slotEnd).sched.pacingSetting = s.sched.pacingSetting ∧ (s.slotEnd).sched.selTable = s.sched.selTable
      ∧ (s.slotEnd).sched.selSlot = s.sched.selSlot ∧ (s.slotEnd).nodes.nsel = s.nodes.nsel
      ∧ (s.slotEnd).image.hold = s.image.hold ∧ (s.slotEnd).image.ptest = s.image.ptest
      ∧ (s.slotEnd).cmd.retryLimit = s.cmd.retryLimit ∧ (s.slotEnd).cmd.resultTimeout = s.cmd.resultTimeout
      ∧ (s.slotEnd).cmd.staging = s.cmd.staging ∧ (s.slotEnd).result = s.result
      ∧ (s.slotEnd).fault.fflag0 = s.fault.fflag0 ∧ (s.slotEnd).fault.fflag1 = s.fault.fflag1
      ∧ (s.slotEnd).fault.capture = s.fault.capture ∧ (s.slotEnd).fault.enables = s.fault.enables
      ∧ (s.slotEnd).inReset = s.inReset ∧ (s.slotEnd).pending = s.pending := by
  unfold State.slotEnd
  repeat' split
  all_goals simp

@[simp] theorem State.headEnd_frame (s : State) :
    (s.headEnd).port = s.port ∧ (s.headEnd).link.rate = s.link.rate ∧ (s.headEnd).link.window = s.link.window
      ∧ (s.headEnd).sched.tableA = s.sched.tableA ∧ (s.headEnd).sched.tableB = s.sched.tableB
      ∧ (s.headEnd).sched.pacingSetting = s.sched.pacingSetting
      ∧ (s.headEnd).sched.cycleNumber = s.sched.cycleNumber ∧ (s.headEnd).sched.selTable = s.sched.selTable
      ∧ (s.headEnd).sched.selSlot = s.sched.selSlot ∧ (s.headEnd).nodes.nsel = s.nodes.nsel
      ∧ (s.headEnd).image.hold = s.image.hold ∧ (s.headEnd).image.ptest = s.image.ptest
      ∧ (s.headEnd).cmd.retryLimit = s.cmd.retryLimit ∧ (s.headEnd).cmd.resultTimeout = s.cmd.resultTimeout
      ∧ (s.headEnd).cmd.staging = s.cmd.staging ∧ (s.headEnd).result = s.result ∧ (s.headEnd).run = s.run
      ∧ (s.headEnd).fault = s.fault ∧ (s.headEnd).inReset = s.inReset ∧ (s.headEnd).pending = s.pending := by
  unfold State.headEnd
  repeat' split
  all_goals simp

/-! ### The run controller -/

@[simp] theorem State.startRun_frame (s : State) :
    (s.startRun).port = s.port ∧ (s.startRun).link.rate = s.link.rate ∧ (s.startRun).link.window = s.link.window
      ∧ (s.startRun).sched.tableA = s.sched.tableA ∧ (s.startRun).sched.tableB = s.sched.tableB
      ∧ (s.startRun).sched.pacingSetting = s.sched.pacingSetting
      ∧ (s.startRun).sched.cycleNumber = s.sched.cycleNumber ∧ (s.startRun).sched.selTable = s.sched.selTable
      ∧ (s.startRun).sched.selSlot = s.sched.selSlot ∧ (s.startRun).nodes = s.nodes ∧ (s.startRun).image = s.image
      ∧ (s.startRun).cmd = s.cmd ∧ (s.startRun).result = s.result ∧ (s.startRun).fault.fflag0 = s.fault.fflag0
      ∧ (s.startRun).fault.fflag1 = s.fault.fflag1 ∧ (s.startRun).fault.capture = s.fault.capture
      ∧ (s.startRun).fault.enables = s.fault.enables ∧ (s.startRun).inReset = s.inReset ∧ (s.startRun).due = s.due
      ∧ (s.startRun).pending = s.pending := by
  simp [State.startRun]

@[simp] theorem State.refuseRun_frame (s : State) :
    (s.refuseRun).port = s.port ∧ (s.refuseRun).link = s.link ∧ (s.refuseRun).sched = s.sched
      ∧ (s.refuseRun).nodes = s.nodes ∧ (s.refuseRun).image = s.image ∧ (s.refuseRun).cmd = s.cmd
      ∧ (s.refuseRun).result = s.result ∧ (s.refuseRun).run = s.run ∧ (s.refuseRun).fault = s.fault
      ∧ (s.refuseRun).timers = s.timers ∧ (s.refuseRun).inReset = s.inReset ∧ (s.refuseRun).pending = s.pending := by
  simp [State.refuseRun]

@[simp] theorem State.cmdRun_frame (s : State) :
    (s.cmdRun).port = s.port ∧ (s.cmdRun).link.rate = s.link.rate ∧ (s.cmdRun).link.window = s.link.window
      ∧ (s.cmdRun).sched.tableA = s.sched.tableA ∧ (s.cmdRun).sched.tableB = s.sched.tableB
      ∧ (s.cmdRun).sched.pacingSetting = s.sched.pacingSetting ∧ (s.cmdRun).sched.cycleNumber = s.sched.cycleNumber
      ∧ (s.cmdRun).sched.selTable = s.sched.selTable ∧ (s.cmdRun).sched.selSlot = s.sched.selSlot
      ∧ (s.cmdRun).nodes = s.nodes ∧ (s.cmdRun).image = s.image ∧ (s.cmdRun).cmd = s.cmd
      ∧ (s.cmdRun).result = s.result ∧ (s.cmdRun).fault.fflag0 = s.fault.fflag0
      ∧ (s.cmdRun).fault.fflag1 = s.fault.fflag1 ∧ (s.cmdRun).fault.capture = s.fault.capture
      ∧ (s.cmdRun).fault.enables = s.fault.enables ∧ (s.cmdRun).inReset = s.inReset ∧ (s.cmdRun).pending = s.pending := by
  unfold State.cmdRun
  dsimp only
  repeat' split
  all_goals simp

@[simp] theorem State.cmdStop_frame (s : State) :
    (s.cmdStop).port = s.port ∧ (s.cmdStop).link.rate = s.link.rate ∧ (s.cmdStop).link.window = s.link.window
      ∧ (s.cmdStop).sched.tableA = s.sched.tableA ∧ (s.cmdStop).sched.tableB = s.sched.tableB
      ∧ (s.cmdStop).sched.pacingSetting = s.sched.pacingSetting
      ∧ (s.cmdStop).sched.cycleNumber = s.sched.cycleNumber ∧ (s.cmdStop).sched.selTable = s.sched.selTable
      ∧ (s.cmdStop).sched.selSlot = s.sched.selSlot ∧ (s.cmdStop).nodes = s.nodes
      ∧ (s.cmdStop).image.hold = s.image.hold ∧ (s.cmdStop).image.ptest = s.image.ptest ∧ (s.cmdStop).cmd = s.cmd
      ∧ (s.cmdStop).result = s.result ∧ (s.cmdStop).fault.fflag0 = s.fault.fflag0
      ∧ (s.cmdStop).fault.fflag1 = s.fault.fflag1 ∧ (s.cmdStop).fault.capture = s.fault.capture
      ∧ (s.cmdStop).fault.enables = s.fault.enables ∧ (s.cmdStop).inReset = s.inReset
      ∧ (s.cmdStop).pending = s.pending := by
  unfold State.cmdStop
  repeat' split
  all_goals simp

@[simp] theorem State.cmdAbort_frame (s : State) :
    (s.cmdAbort).port = s.port ∧ (s.cmdAbort).link.rate = s.link.rate ∧ (s.cmdAbort).link.window = s.link.window
      ∧ (s.cmdAbort).sched.tableA = s.sched.tableA ∧ (s.cmdAbort).sched.tableB = s.sched.tableB
      ∧ (s.cmdAbort).sched.pacingSetting = s.sched.pacingSetting
      ∧ (s.cmdAbort).sched.cycleNumber = s.sched.cycleNumber ∧ (s.cmdAbort).sched.selTable = s.sched.selTable
      ∧ (s.cmdAbort).sched.selSlot = s.sched.selSlot ∧ (s.cmdAbort).nodes = s.nodes
      ∧ (s.cmdAbort).image.hold = s.image.hold ∧ (s.cmdAbort).image.ptest = s.image.ptest
      ∧ (s.cmdAbort).cmd.retryLimit = s.cmd.retryLimit ∧ (s.cmdAbort).cmd.resultTimeout = s.cmd.resultTimeout
      ∧ (s.cmdAbort).cmd.staging = s.cmd.staging ∧ (s.cmdAbort).fault.fflag0 = s.fault.fflag0
      ∧ (s.cmdAbort).fault.fflag1 = s.fault.fflag1 ∧ (s.cmdAbort).fault.capture = s.fault.capture
      ∧ (s.cmdAbort).fault.enables = s.fault.enables ∧ (s.cmdAbort).inReset = s.inReset
      ∧ (s.cmdAbort).pending = s.pending := by
  unfold State.cmdAbort
  repeat' split
  all_goals simp

@[simp] theorem State.cmdRestart_frame (s : State) :
    (s.cmdRestart).port = s.port ∧ (s.cmdRestart).link.rate = s.link.rate
      ∧ (s.cmdRestart).link.window = s.link.window ∧ (s.cmdRestart).sched.tableA = s.sched.tableA
      ∧ (s.cmdRestart).sched.tableB = s.sched.tableB ∧ (s.cmdRestart).sched.pacingSetting = s.sched.pacingSetting
      ∧ (s.cmdRestart).sched.cycleNumber = s.sched.cycleNumber ∧ (s.cmdRestart).sched.selTable = s.sched.selTable
      ∧ (s.cmdRestart).sched.selSlot = s.sched.selSlot ∧ (s.cmdRestart).nodes = s.nodes
      ∧ (s.cmdRestart).image.hold = s.image.hold ∧ (s.cmdRestart).image.ptest = s.image.ptest
      ∧ (s.cmdRestart).cmd = s.cmd ∧ (s.cmdRestart).result = s.result ∧ (s.cmdRestart).fault.fflag0 = s.fault.fflag0
      ∧ (s.cmdRestart).fault.fflag1 = s.fault.fflag1 ∧ (s.cmdRestart).fault.capture = s.fault.capture
      ∧ (s.cmdRestart).fault.enables = s.fault.enables ∧ (s.cmdRestart).inReset = s.inReset
      ∧ (s.cmdRestart).pending = s.pending := by
  unfold State.cmdRestart
  repeat' split
  all_goals simp

@[simp] theorem State.takeLineQuiet_frame (s : State) :
    (s.takeLineQuiet).port = s.port ∧ (s.takeLineQuiet).link.rate = s.link.rate
      ∧ (s.takeLineQuiet).link.window = s.link.window ∧ (s.takeLineQuiet).sched.tableA = s.sched.tableA
      ∧ (s.takeLineQuiet).sched.tableB = s.sched.tableB
      ∧ (s.takeLineQuiet).sched.pacingSetting = s.sched.pacingSetting
      ∧ (s.takeLineQuiet).sched.selTable = s.sched.selTable ∧ (s.takeLineQuiet).sched.selSlot = s.sched.selSlot
      ∧ (s.takeLineQuiet).nodes = s.nodes ∧ (s.takeLineQuiet).image.hold = s.image.hold
      ∧ (s.takeLineQuiet).image.ptest = s.image.ptest ∧ (s.takeLineQuiet).cmd = s.cmd
      ∧ (s.takeLineQuiet).result = s.result ∧ (s.takeLineQuiet).fault.fflag0 = s.fault.fflag0
      ∧ (s.takeLineQuiet).fault.fflag1 = s.fault.fflag1 ∧ (s.takeLineQuiet).fault.capture = s.fault.capture
      ∧ (s.takeLineQuiet).fault.enables = s.fault.enables ∧ (s.takeLineQuiet).inReset = s.inReset
      ∧ (s.takeLineQuiet).pending = s.pending := by
  unfold State.takeLineQuiet
  repeat' split
  all_goals simp

@[simp] theorem State.takeActivityReport_frame (s : State) :
    (s.takeActivityReport).port = s.port ∧ (s.takeActivityReport).link.rate = s.link.rate
      ∧ (s.takeActivityReport).link.window = s.link.window ∧ (s.takeActivityReport).sched.tableA = s.sched.tableA
      ∧ (s.takeActivityReport).sched.tableB = s.sched.tableB
      ∧ (s.takeActivityReport).sched.pacingSetting = s.sched.pacingSetting
      ∧ (s.takeActivityReport).sched.cycleNumber = s.sched.cycleNumber
      ∧ (s.takeActivityReport).sched.selTable = s.sched.selTable
      ∧ (s.takeActivityReport).sched.selSlot = s.sched.selSlot ∧ (s.takeActivityReport).nodes.nsel = s.nodes.nsel
      ∧ (s.takeActivityReport).image = s.image ∧ (s.takeActivityReport).cmd.retryLimit = s.cmd.retryLimit
      ∧ (s.takeActivityReport).cmd.resultTimeout = s.cmd.resultTimeout
      ∧ (s.takeActivityReport).cmd.staging = s.cmd.staging ∧ (s.takeActivityReport).fault.fflag0 = s.fault.fflag0
      ∧ (s.takeActivityReport).fault.fflag1 = s.fault.fflag1
      ∧ (s.takeActivityReport).fault.capture = s.fault.capture
      ∧ (s.takeActivityReport).fault.enables = s.fault.enables ∧ (s.takeActivityReport).inReset = s.inReset
      ∧ (s.takeActivityReport).pending = s.pending := by
  unfold State.takeActivityReport
  dsimp only
  repeat' split
  all_goals simp

@[simp] theorem State.takeLinkFault_frame (s : State) (kind : LinkFaultKind) :
    (s.takeLinkFault kind).port = s.port ∧ (s.takeLinkFault kind).link.rate = s.link.rate
      ∧ (s.takeLinkFault kind).link.window = s.link.window ∧ (s.takeLinkFault kind).sched.tableA = s.sched.tableA
      ∧ (s.takeLinkFault kind).sched.tableB = s.sched.tableB
      ∧ (s.takeLinkFault kind).sched.pacingSetting = s.sched.pacingSetting
      ∧ (s.takeLinkFault kind).sched.cycleNumber = s.sched.cycleNumber
      ∧ (s.takeLinkFault kind).sched.selTable = s.sched.selTable
      ∧ (s.takeLinkFault kind).sched.selSlot = s.sched.selSlot ∧ (s.takeLinkFault kind).nodes.nsel = s.nodes.nsel
      ∧ (s.takeLinkFault kind).image.hold = s.image.hold ∧ (s.takeLinkFault kind).image.ptest = s.image.ptest
      ∧ (s.takeLinkFault kind).cmd.retryLimit = s.cmd.retryLimit
      ∧ (s.takeLinkFault kind).cmd.resultTimeout = s.cmd.resultTimeout
      ∧ (s.takeLinkFault kind).cmd.staging = s.cmd.staging ∧ (s.takeLinkFault kind).fault.fflag0 = s.fault.fflag0
      ∧ (s.takeLinkFault kind).fault.fflag1 = s.fault.fflag1
      ∧ (s.takeLinkFault kind).fault.capture = s.fault.capture
      ∧ (s.takeLinkFault kind).fault.enables = s.fault.enables ∧ (s.takeLinkFault kind).inReset = s.inReset
      ∧ (s.takeLinkFault kind).pending = s.pending := by
  unfold State.takeLinkFault
  repeat' split
  all_goals simp

@[simp] theorem State.cmdCreset_frame (s : State) :
    s.cmdCreset.port = s.port ∧ s.cmdCreset.inReset = s.inReset ∧ s.cmdCreset.pending = s.pending
      ∧ s.cmdCreset.link.rate = s.link.rate ∧ s.cmdCreset.link.window = s.link.window
      ∧ s.cmdCreset.sched = s.sched.controllerReset ∧ s.cmdCreset.nodes = s.nodes.controllerReset
      ∧ s.cmdCreset.cmd = s.cmd.controllerReset ∧ s.cmdCreset.result = ResultUnit.reset
      ∧ s.cmdCreset.run = RunControl.reset ∧ s.cmdCreset.fault = FaultUnit.reset := by
  simp [State.cmdCreset]

/-! ### The host bus port -/

@[simp] theorem State.refuseAccess_frame (s : State) (o : Nat) :
    (s.refuseAccess o).port = s.port ∧ (s.refuseAccess o).link = s.link ∧ (s.refuseAccess o).sched = s.sched
      ∧ (s.refuseAccess o).nodes = s.nodes ∧ (s.refuseAccess o).image = s.image ∧ (s.refuseAccess o).cmd = s.cmd
      ∧ (s.refuseAccess o).result = s.result ∧ (s.refuseAccess o).run = s.run ∧ (s.refuseAccess o).fault = s.fault
      ∧ (s.refuseAccess o).timers = s.timers ∧ (s.refuseAccess o).inReset = s.inReset
      ∧ (s.refuseAccess o).pending = s.pending := by
  simp [State.refuseAccess]

@[simp] theorem State.readOffset_frame (s : State) (o : Nat) :
    (s.readOffset o).1.port = s.port ∧ (s.readOffset o).1.link = s.link ∧ (s.readOffset o).1.sched = s.sched
      ∧ (s.readOffset o).1.nodes = s.nodes ∧ (s.readOffset o).1.image = s.image ∧ (s.readOffset o).1.cmd = s.cmd
      ∧ (s.readOffset o).1.result = s.result ∧ (s.readOffset o).1.run = s.run ∧ (s.readOffset o).1.fault = s.fault
      ∧ (s.readOffset o).1.timers = s.timers ∧ (s.readOffset o).1.inReset = s.inReset
      ∧ (s.readOffset o).1.pending = s.pending := by
  unfold State.readOffset
  repeat' split
  all_goals simp

/-- What any register write leaves. -/
@[simp] theorem State.writeRegister_frame (s : State) (r : WriteReg) (v : Word) :
    (s.writeRegister r v).port = s.port ∧ (s.writeRegister r v).inReset = s.inReset
      ∧ (s.writeRegister r v).pending = s.pending := by
  unfold State.writeRegister
  split
  case h_1 => unfold State.writeRcmd; split <;> simp
  case h_2 => unfold State.writeLset State.writeSetting; split <;> simp
  case h_3 => unfold State.writeCset State.writeSetting; split <;> simp
  case h_4 => unfold State.writeTset State.writeSetting; split <;> simp
  case h_5 => unfold State.writeSctl; split <;> simp
  case h_7 => simp [State.writeSrule]
  case h_8 => simp [State.writeSnodeb]
  case h_9 => simp [State.writeSlen]
  case h_11 => unfold State.writeNode; repeat' split
               all_goals simp
  all_goals simp

/-- What any access leaves once it is taken. -/
@[simp] theorem State.carryOut_frame (s : State) (a : Access) :
    (s.carryOut a).1.port = s.port ∧ (s.carryOut a).1.inReset = s.inReset ∧ (s.carryOut a).1.pending = s.pending := by
  unfold State.carryOut State.registerAccess State.imageAccess State.writeOffset
  dsimp only
  repeat' split
  all_goals simp

end Sys2Proof.Machine
end

