-- ==== Sys2Proof/Laws/Port.lean ====
section
/-! SUPPORT. What the host bus port does with an access, and with which register: the facts by which a statement about a
host command reaches the register write it makes. -/

namespace Sys2Proof.Machine

open Sys2Proof

/-! ### The register map -/

/-- Every write register lies at its own offset. -/
theorem writeRegAt_offset (r : WriteReg) : writeRegAt r.offset = some r := by
  have data : ∀ k : BitVec 4, writeRegAt (WriteReg.cdata k).offset = some (.cdata k) := by decide +kernel
  have chg : ∀ h : Half, writeRegAt (WriteReg.chg h).offset = some (.chg h) := by intro h; cases h <;> decide +kernel
  have flag : ∀ h : Half, writeRegAt (WriteReg.fflag h).offset = some (.fflag h) := by
    intro h; cases h <;> decide +kernel
  have node : ∀ n : NodeWriteReg, writeRegAt (WriteReg.node n).offset = some (.node n) := by
    intro n; cases n <;> decide +kernel
  cases r
  case node n => exact node n
  case chg h => exact chg h
  case cdata k => exact data k
  case fflag h => exact flag h
  all_goals decide +kernel

/-- Every write register's offset is even and inside the register window. -/
theorem WriteReg.offset_range (r : WriteReg) : r.offset < 256 ∧ r.offset % 2 = 0 := by
  cases r
  case node n => cases n <;> decide
  case chg h => cases h <;> decide
  case fflag h => cases h <;> decide
  case cdata k =>
    have := k.isLt
    simp only [WriteReg.offset]
    omega
  all_goals decide

/-- An even register offset goes through the address lines unchanged. -/
theorem registerOffset_registerAddress (o : BitVec 8) : registerOffset (registerAddress o) = o.toNat - o.toNat % 2 := by
  have h := o.isLt
  have e : (registerAddress o).toNat = o.toNat / 2 := by
    simp only [registerAddress, BitVec.toNat_setWidth, BitVec.toNat_ushiftRight, Nat.shiftRight_one]
    omega
  simp only [registerOffset, e]
  omega

/-- The address a host command presents for a write register is that register's. -/
theorem registerOffset_writeTo (r : WriteReg) :
    registerOffset (registerAddress (BitVec.ofNat 8 r.offset)) = r.offset := by
  have h := r.offset_range
  rw [registerOffset_registerAddress, BitVec.toNat_ofNat, Nat.mod_eq_of_lt h.1, h.2]
  omega

/-! ### Accesses taken at their presentation -/

/-- A register access is taken at its presentation by a port that is ready (R174). -/
theorem State.present_register (s : State) (a : Access) (h : s.Ready) (w : a.window = .registers) :
    s.present a = s.takeAccess a := by
  obtain ⟨h1, h2⟩ := h
  have m : s.mustWait a = false := by simp [State.mustWait, w]
  unfold State.present
  cases p : s.port.state <;> simp_all

/-- An image access is taken at its presentation while no line copy is in progress (R177). -/
theorem State.present_image (s : State) (a : Access) (h : s.ImageReady) : s.present a = s.takeAccess a := by
  obtain ⟨⟨h1, h2⟩, h3⟩ := h
  have m : s.mustWait a = false := by simp [State.mustWait, h3]
  unfold State.present
  cases p : s.port.state <;> simp_all

/-- A word write to an offset: the block that owns the offset takes it, and the port is in TAKEN (R174). -/
theorem State.present_writeAt (s : State) (o : BitVec 8) (v : Word) (h : s.Ready) :
    s.present (Access.writeAt o v) = (s.writeOffset (o.toNat - o.toNat % 2) v).written := by
  rw [State.present_register s _ h rfl]
  simp only [State.takeAccess, State.carryOut, State.registerAccess, Access.writeAt, registerOffset_registerAddress,
    if_true, State.written]

/-- A word write to a write register has the register's effect, and the port is in TAKEN (R174). -/
theorem State.hostWrite_ready (s : State) (r : WriteReg) (v : Word) (h : s.Ready) :
    s.hostWrite r v = .next (s.writeRegister r v).written := by
  have e : (BitVec.ofNat 8 r.offset).toNat - (BitVec.ofNat 8 r.offset).toNat % 2 = r.offset := by
    rw [← registerOffset_registerAddress, registerOffset_writeTo]
  rw [State.hostWrite, Access.writeTo, State.present_writeAt s _ v h, e]
  simp only [State.writeOffset, writeRegAt_offset]

/-- A byte write to the register window is refused with the even offset (R175). -/
theorem State.present_byteWrite (s : State) (o : BitVec 8) (v : Word) (lanes : Lanes) (h : s.Ready)
    (l : lanes = .low ∨ lanes = .high) :
    s.present { Access.writeAt o v with lanes := lanes } = (s.refuseAccess (o.toNat - o.toNat % 2)).written := by
  rw [State.present_register s _ h rfl]
  rcases l with rfl | rfl <;>
    simp only [State.takeAccess, State.carryOut, State.registerAccess, Access.writeAt, registerOffset_registerAddress,
      if_true, State.written]

/-- In reset a read drives 0 and a write is dropped (R180). -/
theorem State.present_inReset (s : State) (a : Access) (h : s.inReset = true) :
    s.present a = s.setPort { s.port with dataOut := a.nothing } := by
  simp [State.present, h]

/-- What the taking of the waiting accesses leads to: `P` holds until the first access is carried out, and `Q` once the
second is (R177, R178). -/
theorem State.takeWaiting_leads {s : State} (P Q : State → Prop) (portP : ∀ u p, P u → P (u.setPort p))
    (portQ : ∀ u p, Q u → Q (u.setPort p)) (first : ∀ u a, s.port.first = some a → P u → P (u.carryOut a).1)
    (second : ∀ u a, s.port.second = some a → P u → Q (u.carryOut a).1) (weaken : ∀ u, P u → Q u) (h : P s) :
    Q s.takeWaiting := by
  have taken : P ((s.setPort Port.reset).takeLatched s.port.first) := by
    unfold State.takeLatched
    split
    · exact portP _ _ h
    · next a m => exact portP _ _ (first _ a m (portP _ _ h))
  unfold State.takeWaiting
  split
  · dsimp only
    split
    · exact portQ _ _ (weaken _ taken)
    · next a m => exact portQ _ _ (portQ _ _ (second _ a m taken))
  · exact weaken _ h
  · exact weaken _ h
  · exact weaken _ h

/-- What every port setting and every access carried out keeps, the taking of the waiting accesses keeps (R177, R178). -/
theorem State.takeWaiting_keeps {s : State} (P : State → Prop) (port : ∀ u p, P u → P (u.setPort p))
    (carry : ∀ u a, P u → P (u.carryOut a).1) (h : P s) : P s.takeWaiting :=
  State.takeWaiting_leads P P port port (fun u a _ => carry u a) (fun u a _ => carry u a) (fun _ => id) h

/-- The ways a line copy can end: it is put behind a waiting access, or the line is copied, and a waiting access is then due
(R77, R84, R177). -/
theorem State.lineCopy_cases (s : State) :
    s.lineCopy = s ∨ s.lineCopy = s.copyLine ∨ s.lineCopy = s.copyLine.hand .waitingAccessTaken := by
  unfold State.lineCopy
  dsimp only
  split
  · exact .inl rfl
  · split
    · exact .inr (.inr rfl)
    · exact .inr (.inl rfl)
    · exact .inr (.inl rfl)

/-! ### Events -/

/-- An event has its effect on the state in which it is no longer due. -/
theorem State.event_ready (s : State) (c : Instr) (f : State → State) (h : s.inReset = false) :
    s.event c f = f (s.takeDue c) := by
  simp [State.event, unlessReset, h]

/-- In reset an event has no effect (R180). -/
theorem State.event_inReset (s : State) (c : Instr) (f : State → State) (h : s.inReset = true) : s.event c f = s := by
  simp [State.event, unlessReset, h]

end Sys2Proof.Machine
end

