-- ==== Sys2Proof/Laws/Run.lean ====
section
/-! SUPPORT. What entering STOPPED, starting a cycle, directing the link engine and taking a pending switch or publish do,
each said once. -/

namespace Sys2Proof.Machine

open Sys2Proof

/-! ### Latched causes -/

/-- A cause just latched is latched. -/
@[simp] theorem latched_self (x m : Word) : (x ||| m) &&& m = m := by
  ext i
  simp only [BitVec.getElem_and, BitVec.getElem_or]
  cases m[i] <;> simp

/-- A latched cause stays latched when another is. -/
theorem latched_or (x y m : Word) (h : x &&& m = m) : (x ||| y) &&& m = m := by
  ext i hi
  have := congrArg (fun z => z[i]) h
  simp only [BitVec.getElem_and, BitVec.getElem_or] at this ⊢
  revert this
  cases x[i] <;> cases y[i] <;> cases m[i] <;> simp

/-- Latching a cause keeps every cause that is latched. -/
theorem State.latch_keeps (s : State) (c : EventCause) (m : Word) (h : s.fault.latches &&& m = m) :
    (s.latch c).fault.latches &&& m = m := by
  simp only [State.latch_fault_latches]
  exact latched_or _ _ _ h

/-- A validation result recorded is the one SSTAT shows (R39). -/
@[simp] theorem State.recordValidation_validation (s : State) (v : Validation) :
    (s.recordValidation v).sched.validation = v := by
  unfold State.recordValidation; split <;> rfl

/-- Taking a pending switch keeps every cause that is latched. -/
theorem State.takePendingSwitch_keeps (s : State) (m : Word) (h : s.fault.latches &&& m = m) :
    s.takePendingSwitch.fault.latches &&& m = m := by
  unfold State.takePendingSwitch
  split
  · exact h
  · simp only [State.takeSwitch_fault_latches]
    exact latched_or _ _ _ h

/-- Taking a pending publish keeps every cause that is latched. -/
theorem State.takePendingPublish_keeps (s : State) (m : Word) (h : s.fault.latches &&& m = m) :
    s.takePendingPublish.fault.latches &&& m = m := by
  unfold State.takePendingPublish
  split
  · simp only [State.outputSwap_fault_latches]
    exact latched_or _ _ _ h
  · exact h

/-- The cycle end's input swap keeps every cause that is latched. -/
theorem State.cycleEndSwap_keeps (s : State) (m : Word) (h : s.fault.latches &&& m = m) :
    s.cycleEndSwap.fault.latches &&& m = m := by
  unfold State.cycleEndSwap
  split
  · simp only [State.inputSwap_fault_latches]
    exact latched_or _ _ _ h
  · exact h

/-! ### Pending requests taken -/

/-- A pending switch, when taken, makes its table the active one and is no longer pending (R42). -/
theorem State.takePendingSwitch_sched (s : State) :
    s.takePendingSwitch.sched
      = { s.sched with active := s.sched.pendingSwitch.getD s.sched.active, pendingSwitch := none } := by
  unfold State.takePendingSwitch
  cases h : s.sched.pendingSwitch with
  | none => simp only [Option.getD_none]; rw [← h]
  | some t => rfl

/-- Taking a pending switch latches SWITCH, and only that (R42). -/
theorem State.takePendingSwitch_latches (s : State) :
    s.takePendingSwitch.fault.latches
      = s.fault.latches ||| (if s.sched.pendingSwitch.isSome then 0x0002#16 else 0) := by
  unfold State.takePendingSwitch
  cases h : s.sched.pendingSwitch <;> simp

/-- A pending publish with no output catch-up copy active is taken (R75). -/
theorem State.takePendingPublish_taken (s : State) (p : s.image.publishPending = true) (c : s.image.outCopy = none) :
    s.takePendingPublish = s.outputSwap := by
  simp [State.takePendingPublish, p, c]

/-- Without a pending publish, or while the output catch-up copy is active, nothing is taken (R75). -/
theorem State.takePendingPublish_kept (s : State)
    (h : s.image.publishPending = false ∨ s.image.outCopy.isSome = true) : s.takePendingPublish = s := by
  unfold State.takePendingPublish
  rcases h with h | h
  · simp [h]
  · cases c : s.image.outCopy <;> simp_all

/-- Taking a pending publish moves no byte (R74). -/
@[simp] theorem State.takePendingPublish_banks (s : State) :
    s.takePendingPublish.image.out0 = s.image.out0 ∧ s.takePendingPublish.image.out1 = s.image.out1
      ∧ s.takePendingPublish.image.in0 = s.image.in0 ∧ s.takePendingPublish.image.in1 = s.image.in1
      ∧ s.takePendingPublish.image.inHost = s.image.inHost ∧ s.takePendingPublish.image.inCopy = s.image.inCopy
      ∧ s.takePendingPublish.image.hostFresh = s.image.hostFresh
      ∧ s.takePendingPublish.image.linkFresh = s.image.linkFresh
      ∧ s.takePendingPublish.image.snapCycle = s.image.snapCycle
      ∧ s.takePendingPublish.image.lineInProgress = s.image.lineInProgress
      ∧ s.takePendingPublish.image.slices = s.image.slices := by
  unfold State.takePendingPublish
  split <;> simp [State.outputSwap]

/-- Once a pending publish has had its chance, none is pending while no output catch-up copy is active (R75). -/
theorem State.takePendingPublish_settled (s : State) :
    s.takePendingPublish.image.publishPending = true → s.takePendingPublish.image.outCopy.isSome = true := by
  unfold State.takePendingPublish
  split
  · intro h; simp [State.outputSwap] at h
  · next h =>
    intro p
    cases c : s.image.outCopy <;> simp_all

/-! ### The link engine directed -/

/-- No frame is being cut and no abort mark driven in a state other than SEND and MARK. -/
theorem State.marking_of_state (s : State) (h : s.link.state ≠ .send) (h' : s.link.state ≠ .mark) : s.marking = false := by
  unfold State.marking
  cases e : s.link.state <;> simp_all

/-- Whether the line is used is a matter of the link engine and of the cut in progress alone. -/
theorem State.LineUnused.of_same {s t : State} (h : s.LineUnused) (l : t.link = s.link) (c : t.timers.cut = s.timers.cut) :
    t.LineUnused := by
  unfold State.LineUnused State.marking at *
  rwa [l, c]

/-- Directed off, the link engine is in LINK_OFF, or ends the frame that is being cut and then goes there (R4, R141). -/
theorem State.directOff_line (s : State) : s.directOff.LineUnused := by
  unfold State.directOff
  split
  · next h => exact .inr ⟨h, rfl⟩
  · exact .inl ⟨rfl, rfl⟩

/-- A frame in transmission is cut: its bit goes on to the boundary, or the abort mark of 20 bt begins at once where none
of it is left (R4). -/
theorem State.startMark_line (s : State) :
    (s.restOfBit = 0 → s.startMark = s.enterMark false) ∧ (s.restOfBit ≠ 0 → s.startMark = s.beginCut) := by
  unfold State.startMark
  exact ⟨fun h => if_pos h, fun h => if_neg h⟩

/-- A frame in transmission that is cut is followed by the abort mark, and by LINK_OFF after it (R4). -/
theorem State.startMark_marking (s : State) : s.startMark.marking = true := by
  unfold State.startMark
  split <;> rfl

/-- Cut, the link engine is in LINK_OFF, or ends the frame with the abort mark and then goes there (R4). -/
theorem State.cutLine_line (s : State) : s.cutLine.LineUnused := by
  unfold State.cutLine
  split
  · exact .inr ⟨s.startMark_marking, s.startMark_link_quietAfterMark⟩
  · exact s.directOff_line

/-- A frame in transmission is cut by the abort mark (R4). -/
theorem State.cutLine_send (s : State) (h : s.link.state = .send) (c : s.timers.cut = none) :
    s.cutLine = s.startMark := by
  simp [State.cutLine, State.marking, h, c]

/-- A frame that is being cut gets no second mark (R4). -/
theorem State.cutLine_marking (s : State) (h : s.marking = true) : s.cutLine = s.directAfterMark false := by
  simp [State.cutLine, State.directOff, h]

/-- With no frame and no abort mark on the line, cutting it enters LINK_OFF (R146). -/
theorem State.cutLine_off (s : State) (h : s.link.state ≠ .send) (h' : s.link.state ≠ .mark) :
    s.cutLine = s.linkOff := by
  simp [State.cutLine, State.directOff, h, s.marking_of_state h h']

/-! ### STOPPED entered -/

/-- What entering STOPPED does to each block it touches (R141). -/
theorem State.enterStopped_spec (s : State) :
    s.enterStopped.run = { s.run with state := .stopped }
      ∧ s.enterStopped.sched = { s.sched with
          state := .idle, active := s.sched.pendingSwitch.getD s.sched.active, pendingSwitch := none }
      ∧ s.enterStopped.timers = { s.timers with segment := none }
      ∧ s.enterStopped.due = (s.due.filter fun c => !isLineTimer c).filter (fun c => !isRunReport c)
      ∧ s.enterStopped.fault.latches &&& 0x0010#16 = 0x0010#16 := by
  refine ⟨by simp [State.enterStopped], ?_, ?_, ?_, ?_⟩
  · simp [State.enterStopped, State.takePendingSwitch_sched]
  · simp [State.enterStopped]; rfl
  · simp [State.enterStopped]
  · exact State.takePendingPublish_keeps _ _ (State.takePendingSwitch_keeps _ _ (latched_self _ _))

/-- Taking a pending publish at an entry into STOPPED. -/
theorem State.enterStopped_image (s : State) :
    (s.image.publishPending = true → s.image.outCopy = none →
      s.enterStopped.image.outHost = (!s.image.outHost) ∧ s.enterStopped.image.publishPending = false
        ∧ s.enterStopped.image.outCopy = some 0 ∧ s.enterStopped.image.outMap = 0)
    ∧ (s.image.publishPending = false ∨ s.image.outCopy.isSome = true → s.enterStopped.image = s.image) := by
  unfold State.enterStopped
  refine ⟨fun p c => ?_, fun h => ?_⟩
  · rw [State.takePendingPublish_taken _ (by simpa using p) (by simpa using c)]
    simp [State.outputSwap]
  · rw [State.takePendingPublish_kept _ (by simpa using h)]
    simp

/-- A word with one event cause's bit, or none, bit by bit (section 10.7). -/
theorem causeBit (i : Nat) (h : i < 16) (b : Bool) (k : Nat) :
    (if b then BitVec.ofNat 16 (2 ^ i) else 0#16).getLsbD k = (k == i && b) := by
  cases b
  · simp
  · simp only [if_true, BitVec.getLsbD_ofNat, Nat.testBit_two_pow, Bool.and_true]
    by_cases e : i = k
    · subst e; simp [h]
    · simp [e, Ne.symm e]

/-- What taking a pending switch latches (R42). -/
theorem State.takePendingSwitch_fault (s : State) : s.takePendingSwitch.fault = { s.fault with
    latches := s.fault.latches ||| if s.sched.pendingSwitch.isSome then 0x0002#16 else 0 } := by
  unfold State.takePendingSwitch
  cases s.sched.pendingSwitch <;> simp [State.takeSwitch, State.latch, EventCause.mask]

/-- What taking a pending publish latches (R74, R75). -/
theorem State.takePendingPublish_fault (s : State) : s.takePendingPublish.fault = { s.fault with
    latches := s.fault.latches ||| if s.publishTakable then 0x0004#16 else 0 } := by
  unfold State.takePendingPublish
  change (if s.publishTakable then _ else _ : State).fault = _
  cases s.publishTakable <;> simp [State.outputSwap, State.latch, EventCause.mask]

/-- What entering STOPPED latches: RUNCHG, and the causes of what is taken (R42, R74, R141). -/
theorem State.enterStopped_fault (s : State) : s.enterStopped.fault = { s.fault with
    latches := s.fault.latches ||| 0x0010#16 ||| (if s.sched.pendingSwitch.isSome then 0x0002#16 else 0)
      ||| if s.publishTakable then 0x0004#16 else 0 } := by
  unfold State.enterStopped
  rw [State.takePendingPublish_fault, State.takePendingSwitch_fault]
  simp [State.publishTakable, State.changeRun, State.latch, EventCause.mask]

/-- Entering STOPPED from a state whose line has been ended and whose other blocks are those of an earlier state, but for the
state of the schedule unit. -/
theorem State.enterStopped_enters (s u : State)
    (hs : u.sched = { s.sched with state := u.sched.state }) (hi : u.image = s.image) (hr : u.run = s.run)
    (hf : u.fault = s.fault) (hl : u.LineUnused) :
    s.EntersStopped u.enterStopped := by
  obtain ⟨run, sched, timers, -, -⟩ := u.enterStopped_spec
  obtain ⟨taken, kept⟩ := u.enterStopped_image
  rw [hi] at taken kept
  have ps : u.sched.pendingSwitch = s.sched.pendingSwitch := by rw [hs]
  constructor
  · rw [run, hr]
  · exact hl.of_same (by simp) (by rw [timers])
  · rw [sched, hs]
  · exact taken
  · exact kept
  · simp [State.enterStopped, hi]
  · rw [u.enterStopped_fault, hf]
  · intro k
    have p : u.publishTakable = s.publishTakable := by rw [State.publishTakable, hi]; rfl
    rw [u.enterStopped_fault, hf, ps, p]
    simp only [BitVec.getLsbD_or]
    have h1 := causeBit 1 (by omega) s.sched.pendingSwitch.isSome k
    have h2 := causeBit 2 (by omega) s.publishTakable k
    have h4 := causeBit 4 (by omega) true k
    rw [show (0x0010#16).getLsbD k = (k == 4) by simpa using h4]
    exact congrArg₂ _ (congrArg₂ _ rfl h1) h2

/-! ### A cycle started -/

/-- The slots gone through are the non-zero ones of the active table: as many as the HEAD frame counts (R7). -/
theorem Sched.nonZeroSlots_length (u : Sched) : u.nonZeroSlots.length = u.slotCount := by
  have : slotIndices = (List.range 16).map (BitVec.ofNat 4) := by decide
  rw [Sched.nonZeroSlots, this, List.filter_map, List.length_map]
  rfl

/-- What a cycle start latches: CYC, and the causes of what is taken (R42, R44, R74). -/
theorem State.cycleStart_latches (s : State) (k : Nat) : s.cycleStart.fault.latches.getLsbD k
    = (s.fault.latches.getLsbD k || k == 0 || k == 1 && s.sched.pendingSwitch.isSome || k == 2 && s.publishTakable) := by
  have h0 := causeBit 0 (by omega) true k
  have h1 := causeBit 1 (by omega) s.sched.pendingSwitch.isSome k
  have h2 := causeBit 2 (by omega) s.publishTakable k
  have e : s.cycleStart.fault.latches = s.fault.latches ||| (if s.sched.pendingSwitch.isSome then 0x0002#16 else 0)
      ||| (if s.publishTakable then 0x0004#16 else 0) ||| 0x0001#16 := by
    unfold State.cycleStart
    simp only [State.hand_fault, State.latch_fault_latches, State.startFrame_fault, State.takePendingPublish_fault,
      State.takePendingSwitch_fault]
    simp [State.publishTakable, EventCause.mask]
  rw [e]
  simp only [BitVec.getLsbD_or]
  rw [show (0x0001#16).getLsbD k = (k == 0) by simpa using h0, show (0x0002#16) = BitVec.ofNat 16 (2 ^ 1) from rfl,
    show (0x0004#16) = BitVec.ofNat 16 (2 ^ 2) from rfl, show (0 : Word) = 0#16 from rfl, h1, h2]
  cases s.fault.latches.getLsbD k <;> cases k == 0 <;> simp

/-- A cycle start from a state that has the schedule tables, the output side of the image unit, the first three latched causes
and the transactions of an earlier one. -/
theorem State.cycleStart_starts (s u : State) (hsched : u.sched = { s.sched with state := u.sched.state })
    (hi : u.image.publishPending = s.image.publishPending ∧ u.image.outCopy = s.image.outCopy
      ∧ u.image.outHost = s.image.outHost ∧ u.image.outMap = s.image.outMap)
    (hf : ∀ k, k < 3 → u.fault.latches.getLsbD k = s.fault.latches.getLsbD k)
    (hn : u.nodes = s.nodes ∧ u.cmd = s.cmd ∧ u.result = s.result) (hr : u.link.rate = s.link.rate) :
    s.StartsCycle u.cycleStart := by
  have hps : u.sched.pendingSwitch = s.sched.pendingSwitch := by rw [hsched]
  have hpt : u.publishTakable = s.publishTakable := by unfold State.publishTakable; rw [hi.1, hi.2.1]
  have lat := u.cycleStart_latches
  obtain ⟨u1, h1⟩ : ∃ v, v = u.takePendingSwitch := ⟨_, rfl⟩
  obtain ⟨u2, h2⟩ : ∃ v : State, v = { u1 with sched := { u1.sched with
    cycleNumber := u1.sched.cycleNumber + 1, state := .head } } := ⟨_, rfl⟩
  obtain ⟨u3, h3⟩ : ∃ v, v = u2.takePendingPublish := ⟨_, rfl⟩
  have e : u.cycleStart = (let s := (u3.startFrame .head
    (headFrame u3.sched.cycleNumber u3.sched.nonZeroSlots.length u3.sched.active)).latch .cyc
    { s with timers := { s.timers with segment := some (s.bitTimes Config.headSegment) } }.hand .resultTimeout) := by
    rw [h3, h2, h1]; rfl
  have s3 : u3.sched = { s.sched with
      active := s.sched.pendingSwitch.getD s.sched.active
      pendingSwitch := none
      cycleNumber := s.sched.cycleNumber + 1
      state := .head } := by
    simp only [h3, State.takePendingPublish_frame, h2, h1, State.takePendingSwitch_sched]
    rw [hsched]
  have r3 : u3.link.rate = s.link.rate := by simp [h3, h2, h1, hr]
  have i2 : u2.image = u.image := by simp [h2, h1]
  have d3 : u3.nodes = u.nodes ∧ u3.cmd = u.cmd ∧ u3.result = u.result := by simp [h3, h2, h1]
  have sched : u.cycleStart.sched = u3.sched := by simp [e]
  constructor
  · rw [sched, s3]
  · rw [sched, s3]
  · simp [sched, s3]
  · rw [sched, ← Sched.nonZeroSlots_length]
    simp [e, r3]
  · rw [e]
    simp only [State.hand_timers, State.latch_timers, State.startFrame_timers_frame, State.bitTimes, r3, State.latch_link,
      State.startFrame_link_rate]
    exact ⟨rfl, rfl⟩
  · intro k hk
    rw [lat, hf k hk, hps, hpt]
  · intro hp hc
    have : u3 = u2.outputSwap := by
      rw [h3]; exact State.takePendingPublish_taken _ (by rw [i2, hi.1]; exact hp) (by rw [i2, hi.2.1]; exact hc)
    have hh : u3.image.outHost = (!s.image.outHost) ∧ u3.image.publishPending = false ∧ u3.image.outCopy = some 0
        ∧ u3.image.outMap = 0 := by
      rw [this]; simp [State.outputSwap, i2, hi]
    rw [e]; exact hh
  · intro hp
    have : u3 = u2 := by rw [h3]; exact State.takePendingPublish_kept _ (by rw [i2, hi.1, hi.2.1]; exact hp)
    have hh : u3.image = u.image := by rw [this, i2]
    rw [e]
    show u3.image.outHost = _ ∧ u3.image.publishPending = _ ∧ u3.image.outCopy = _ ∧ u3.image.outMap = _
    rw [hh]; exact ⟨hi.2.2.1, hi.1, hi.2.1, hi.2.2.2⟩
  · simp [e]
  · rw [e]; simpa [d3] using hn

end Sys2Proof.Machine
end

