-- ==== Sys2Proof/Laws/Settle.lean ====
section
/-! SUPPORT. What settlement does to the command queue, the outstanding table and the response queue (R110, R129 to R131),
said once for one entry and once for many. -/

namespace Sys2Proof.Machine

open Sys2Proof

/-- What tells an outstanding entry apart and says whose it is: tag, node and push order. -/
def OutEntry.key (e : OutEntry) : Byte × NodeAddr × Nat := (e.tag, e.node, e.push)

/-- See `OutEntry.key`. -/
def QueueEntry.key (q : QueueEntry) : Byte × NodeAddr × Nat := (q.tag, q.node, q.push)

/-- The keys of the unsettled outstanding entries. -/
def State.unsettledKeys (s : State) : List (Byte × NodeAddr × Nat) :=
  (s.cmd.outstanding.filter fun e => e.unsettled).map OutEntry.key

/-- The keys of the WAITING queue entries. -/
def State.waitingKeys (s : State) : List (Byte × NodeAddr × Nat) :=
  (s.cmd.queue.filter fun q => q.waiting).map QueueEntry.key

/-- How settling relates the state before to the state after: entries leave or wait to be posted, none comes, none becomes
unsettled again, and records are only added at the tail. -/
structure State.Settles (s t : State) : Prop where
  out : (t.cmd.outstanding.map OutEntry.key).Sublist (s.cmd.outstanding.map OutEntry.key)
  unsettled : t.unsettledKeys.Sublist s.unsettledKeys
  queue : (t.cmd.queue.map QueueEntry.key).Sublist (s.cmd.queue.map QueueEntry.key)
  waiting : t.waitingKeys.Sublist s.waitingKeys
  next : t.cmd.nextPush = s.cmd.nextPush
  law : s.ResponseLaw → t.ResponseLaw

theorem State.Settles.refl (s : State) : s.Settles s :=
  ⟨.refl _, .refl _, .refl _, .refl _, rfl, id⟩

theorem State.Settles.trans {s t u : State} (h : s.Settles t) (h' : t.Settles u) : s.Settles u :=
  ⟨h'.out.trans h.out, h'.unsettled.trans h.unsettled, h'.queue.trans h.queue, h'.waiting.trans h.waiting,
    h'.next.trans h.next, h'.law ∘ h.law⟩

/-- A change elsewhere that leaves the command engine's tables and the result unit alone settles nothing. -/
theorem State.Settles.of_eq {s t : State} (o : t.cmd.outstanding = s.cmd.outstanding) (q : t.cmd.queue = s.cmd.queue)
    (p : t.cmd.nextPush = s.cmd.nextPush) (r : t.result = s.result) : s.Settles t := by
  refine ⟨by rw [o], ?_, by rw [q], ?_, p, ?_⟩
  · rw [State.unsettledKeys, o]; exact .refl _
  · rw [State.waitingKeys, q]; exact .refl _
  · intro h
    simpa [State.ResponseLaw, State.waitingOrders, o, q, r] using h

/-! ### One entry -/

/-- The entry that a search by push order finds has that push order and is in the table. -/
theorem State.out?_some {s : State} {p : Nat} {e : OutEntry} (h : s.out? p = some e) :
    e ∈ s.cmd.outstanding ∧ e.push = p := by
  have h1 := List.mem_of_find?_eq_some h
  have h2 := List.find?_some h
  exact ⟨h1, by simpa using h2⟩

/-- See `State.out?_some`. -/
theorem State.queued?_some {s : State} {p : Nat} {q : QueueEntry} (h : s.queued? p = some q) :
    q ∈ s.cmd.queue ∧ q.push = p := by
  have h1 := List.mem_of_find?_eq_some h
  have h2 := List.find?_some h
  exact ⟨h1, by simpa using h2⟩

/-- Where push orders tell entries apart, a search by push order finds the entry that has it. -/
theorem State.out?_of_mem {s : State} {e : OutEntry} (h : s.PushLaw) (m : e ∈ s.cmd.outstanding) :
    s.out? e.push = some e := by
  have nd : (s.cmd.outstanding.map (·.push)).Nodup := h.1.of_append_right
  unfold State.out?
  generalize s.cmd.outstanding = l at nd m
  induction l with
  | nil => simp at m
  | cons x rest ih =>
    simp only [List.map_cons, List.nodup_cons] at nd
    rcases List.mem_cons.1 m with rfl | m'
    · simp
    · have ne : x.push ≠ e.push := fun c => nd.1 (by rw [c]; exact List.mem_map_of_mem m')
      rw [List.find?_cons_of_neg (by simpa using ne)]
      exact ih nd.2 m'

/-- See `State.out?_of_mem`. -/
theorem State.queued?_of_mem {s : State} {q : QueueEntry} (h : s.PushLaw) (m : q ∈ s.cmd.queue) :
    s.queued? q.push = some q := by
  have nd : (s.cmd.queue.map (·.push)).Nodup := h.1.of_append_left
  unfold State.queued?
  generalize s.cmd.queue = l at nd m
  induction l with
  | nil => simp at m
  | cons x rest ih =>
    simp only [List.map_cons, List.nodup_cons] at nd
    rcases List.mem_cons.1 m with rfl | m'
    · simp
    · have ne : x.push ≠ q.push := fun c => nd.1 (by rw [c]; exact List.mem_map_of_mem m')
      rw [List.find?_cons_of_neg (by simpa using ne)]
      exact ih nd.2 m'

/-- An entry that settles with room in the response queue and nothing waiting is posted, and its place is free (R130,
R131). -/
theorem State.settleOut_posted (s : State) (e : OutEntry) (st : Status) (c : Byte) (d : List Byte)
    (f : s.out? e.push = some e) (u : e.unsettled = true) (p : s.canPost = true) :
    s.settleOut e.push st c d
      = (s.advanceOrder.appendResponse (Response.ofOut e (s.settlementNow st c d))).freeOut e.push := by
  simp [State.settleOut, f, u, p]

/-- An entry that settles without that waits to be posted (R130). -/
theorem State.settleOut_held (s : State) (e : OutEntry) (st : Status) (c : Byte) (d : List Byte)
    (f : s.out? e.push = some e) (u : e.unsettled = true) (p : s.canPost = false) :
    s.settleOut e.push st c d
      = s.advanceOrder.updateOut e.push fun e => { e with state := .held (s.settlementNow st c d) } := by
  simp [State.settleOut, f, u, p]

/-- An item can be posted when the response queue has room and nothing waits (R130). -/
theorem State.canPost_iff {s : State} :
    s.canPost = true ↔ s.result.responses.length < 16 ∧ s.waitingOrders = [] := by
  unfold State.canPost
  rw [Bool.and_eq_true, decide_eq_true_eq, List.isEmpty_iff]
  rfl

/-- Changing an entry in its place puts its changed form there (R92). -/
theorem State.updateOut_eq {s : State} {e : OutEntry} (h : s.PushLaw) (m : e ∈ s.cmd.outstanding)
    (f : OutEntry → OutEntry) (hf : (f e).push = e.push) : s.updateOut e.push f = s.withEntry (f e) := by
  unfold State.updateOut State.withEntry
  have : (s.cmd.outstanding.map fun x => if x.push = e.push then f x else x)
      = s.cmd.outstanding.map fun x => if x.push = (f e).push then f e else x := by
    apply List.map_congr_left
    intro x hx
    rw [hf]
    split
    · next c =>
      have := State.out?_of_mem h hx
      rw [c, State.out?_of_mem h m] at this
      cases this; rfl
    · rfl
  rw [this]

/-- An unsettled entry settles as R110 and R129 to R131 say. -/
theorem State.settleOut_eq {s : State} {e : OutEntry} (st : Status) (c : Byte) (d : List Byte) (h : s.PushLaw)
    (m : e ∈ s.cmd.outstanding) (u : e.unsettled = true) : s.settleOut e.push st c d = s.settledAs e st c d := by
  have f := State.out?_of_mem h m
  unfold State.settledAs
  split
  · next p =>
    rw [State.settleOut_posted s e st c d f u (State.canPost_iff.2 p)]
    rfl
  · next p =>
    have p' : s.canPost = false := by rw [Bool.eq_false_iff]; exact fun c => p (State.canPost_iff.1 c)
    rw [State.settleOut_held s e st c d f u p']
    have ha : s.advanceOrder.PushLaw := h
    rw [State.updateOut_eq ha m (fun e => { e with state := .held (s.settlementNow st c d) }) rfl]
    rfl

/-- An unsettled entry is put in another unsettled condition: it is found there, and nothing else waits than before. -/
theorem State.withEntry_settles {s : State} {e e' : OutEntry} (h : s.PushLaw) (m : e ∈ s.cmd.outstanding)
    (p : e'.push = e.push) (u : e.unsettled = true) (u' : e'.unsettled = true) :
    (s.withEntry e').PushLaw ∧ e' ∈ (s.withEntry e').cmd.outstanding
      ∧ (s.withEntry e').waitingOrders = s.waitingOrders := by
  have hp : (s.withEntry e').cmd.outstanding.map (·.push) = s.cmd.outstanding.map (·.push) := by
    simp only [State.withEntry, List.map_map]
    apply List.map_congr_left
    intro x _
    simp only [Function.comp]
    split
    · next c => exact c.symm
    · rfl
  have hs : ∀ x : OutEntry, x.unsettled = true → x.settlement? = none := by
    intro x hx
    unfold OutEntry.unsettled at hx
    unfold OutEntry.settlement?
    split <;> simp_all
  refine ⟨?_, List.mem_map.2 ⟨e, m, by simp [p]⟩, ?_⟩
  · unfold State.PushLaw
    rw [hp]
    exact h
  · unfold State.waitingOrders
    congr 1
    simp only [State.withEntry, List.filterMap_map]
    apply List.filterMap_congr
    intro x hx
    simp only [Function.comp]
    split
    · next c =>
      have := State.out?_of_mem h hx
      rw [c, p, State.out?_of_mem h m] at this
      cases this
      rw [hs e u, hs e' u']
    · rfl

/-- An unsettled entry changed and settled at once is settled in its changed form (R106, R110, R126). -/
theorem State.settleOut_withEntry {s : State} {e e' : OutEntry} (st : Status) (c : Byte) (d : List Byte) (h : s.PushLaw)
    (m : e ∈ s.cmd.outstanding) (p : e'.push = e.push) (u : e.unsettled = true) (u' : e'.unsettled = true) :
    (s.withEntry e').settleOut e'.push st c d = s.settledAs e' st c d := by
  obtain ⟨h1, h2, h3⟩ := State.withEntry_settles h m p u u'
  rw [State.settleOut_eq st c d h1 h2 u']
  unfold State.settledAs
  rw [h3]
  have f : ∀ l : List OutEntry, (l.map fun x => if x.push = e'.push then e' else x).filter (fun x => x.push != e'.push)
      = l.filter fun x => x.push != e'.push := by
    intro l
    induction l with
    | nil => rfl
    | cons x r ih => by_cases hx : x.push = e'.push <;> simp [hx, ih]
  have g : ∀ (l : List OutEntry) (z : OutEntry),
      (l.map fun x => if x.push = e'.push then e' else x).map (fun x => if x.push = e'.push then z else x)
        = l.map fun x => if x.push = e'.push then z else x := by
    intro l z
    rw [List.map_map]
    apply List.map_congr_left
    intro x _
    by_cases hx : x.push = e'.push <;> simp [hx]
  have r : (s.withEntry e').result = s.result := rfl
  have y : (s.withEntry e').sched = s.sched := rfl
  have o : (s.withEntry e').cmd.outstanding = s.cmd.outstanding.map fun x => if x.push = e'.push then e' else x := rfl
  rw [r, y]
  split
  · simp only [o, f]; rfl
  · unfold State.withEntry
    simp only [g s.cmd.outstanding { e' with state := .held _ }]
/-- The entry in AWAIT_ACK that the in-flight mark names (R104). -/
theorem State.markedAwaiting_eq {s : State} {e : OutEntry} (h : s.PushLaw) (m : e ∈ s.cmd.outstanding)
    (ha : e.state = .awaitAck) (hm : s.cmd.inFlightMark = some e.push) : s.markedAwaiting = some e := by
  simp only [State.markedAwaiting, State.awaiting, hm, State.out?_of_mem h m, ha, if_true]

/-- The entry in AWAIT_ACK that a mark names (R104). -/
theorem State.awaiting_eq {s : State} {e : OutEntry} (h : s.PushLaw) (m : e ∈ s.cmd.outstanding)
    (ha : e.state = .awaitAck) : s.awaiting (some e.push) = some e := by
  simp only [State.awaiting, State.out?_of_mem h m, ha, if_true]

/-- An ACK outcome is applied to the entry its mark names, with that mark cleared (R104, log entry 32). -/
theorem State.takeAck_eq {s : State} {e : OutEntry} {cleared : CmdEngine} (h : s.PushLaw) (m : e ∈ s.cmd.outstanding)
    (ha : e.state = .awaitAck) (r : s.AckReaches e cleared) (v : AckVerdict) :
    s.takeAck v = ({ s with cmd := cleared } : State).applyAck e v := by
  rcases r with ⟨h0, hm, rfl⟩ | ⟨rest, h0, rfl⟩
  · simp only [State.takeAck, h0, State.markedAwaiting_eq h m ha hm, State.clearMark]
  · simp only [State.takeAck, h0, State.awaiting_eq h m ha, State.dropEndedMark, List.tail_cons]

/-- There is room and nothing waits. -/
theorem State.canPost_true {s : State} (h : s.result.responses.length < 16) (w : s.waitingOrders = []) :
    s.canPost = true := State.canPost_iff.2 ⟨h, w⟩

/-- There is no room, or something waits. -/
theorem State.canPost_false {s : State} (h : 16 ≤ s.result.responses.length ∨ s.waitingOrders ≠ []) :
    s.canPost = false := by
  rw [← Bool.not_eq_true, State.canPost_iff]
  rintro ⟨h1, h2⟩
  rcases h with h | h
  · omega
  · exact h h2

/-- Where the response law holds, an item that cannot be posted finds the response queue full. -/
theorem State.full_of_cannot_post {s : State} (h : s.ResponseLaw) (p : s.canPost = false) :
    s.result.responses.length = 16 := by
  obtain ⟨h1, h2⟩ := h
  by_cases w : s.waitingOrders = []
  · by_contra c
    rw [State.canPost_true (by omega) w] at p
    cases p
  · exact h2 w

/-- A place freed: a settlement. -/
theorem State.freeOut_unsettledKeys (s : State) (p : Nat) : (s.freeOut p).unsettledKeys.Sublist s.unsettledKeys := by
  simp only [State.unsettledKeys, State.freeOut_cmd_outstanding]
  exact (List.filter_sublist.filter _).map _

/-- Settling an outstanding entry. -/
theorem State.settleOut_settles (s : State) (p : Nat) (st : Status) (c : Byte) (d : List Byte) :
    s.Settles (s.settleOut p st c d) := by
  unfold State.settleOut
  split
  · exact .refl s
  · next e f =>
    dsimp only
    split
    · exact .refl s
    · split
      · next post =>
        refine ⟨?_, ?_, ?_, ?_, rfl, ?_⟩
        · simp only [State.freeOut_cmd_outstanding, State.appendResponse_cmd, State.advanceOrder_cmd]
          exact List.filter_sublist.map _
        · exact State.freeOut_unsettledKeys (s.advanceOrder.appendResponse _) p
        · exact .refl _
        · exact .refl _
        · intro _
          rw [State.canPost_iff] at post
          refine ⟨by simp; omega, fun w => absurd ?_ w⟩
          have := post.2
          simp only [State.waitingOrders, List.append_eq_nil_iff, List.filterMap_eq_nil_iff] at this ⊢
          refine ⟨this.1, fun x hx => this.2 x ?_⟩
          simp only [State.freeOut_cmd_outstanding, State.appendResponse_cmd, State.advanceOrder_cmd] at hx
          exact List.mem_of_mem_filter hx
      · next post =>
        have keys : (fun e : OutEntry => (if e.push = p then
            { e with state := .held (s.settlementNow st c d) } else e).key) = OutEntry.key := by
          funext e; split <;> rfl
        refine ⟨?_, ?_, ?_, ?_, rfl, ?_⟩
        · simp only [State.updateOut_cmd_outstanding, State.advanceOrder_cmd, List.map_map]
          have : (OutEntry.key ∘ fun e : OutEntry => if e.push = p then
            { e with state := .held (s.settlementNow st c d) } else e) = OutEntry.key := keys
          rw [this]
        · simp only [State.unsettledKeys, State.updateOut_cmd_outstanding, State.advanceOrder_cmd]
          induction s.cmd.outstanding with
          | nil => simp
          | cons x rest ih =>
            rw [List.map_cons]
            by_cases hx : x.push = p
            · simp only [hx, if_true]
              rw [List.filter_cons_of_neg (by simp [OutEntry.unsettled])]
              by_cases hu : x.unsettled
              · rw [List.filter_cons_of_pos hu, List.map_cons]
                exact ih.cons _
              · rw [List.filter_cons_of_neg hu]
                exact ih
            · simp only [hx, if_false]
              by_cases hu : x.unsettled
              · rw [List.filter_cons_of_pos hu, List.filter_cons_of_pos hu, List.map_cons, List.map_cons]
                exact ih.cons_cons _
              · rw [List.filter_cons_of_neg hu, List.filter_cons_of_neg hu]
                exact ih
        · exact .refl _
        · exact .refl _
        · intro law
          have full := State.full_of_cannot_post law (by simpa using post)
          exact ⟨by simp [full], fun _ => by simp [full]⟩

/-- Settling a WAITING queue entry. -/
theorem State.settleQueue_settles (s : State) (p : Nat) : s.Settles (s.settleQueue p) := by
  unfold State.settleQueue
  split
  · exact .refl s
  · next q f =>
    dsimp only
    split
    · exact .refl s
    · split
      · next post =>
        refine ⟨.refl _, .refl _, ?_, ?_, rfl, ?_⟩
        · simp only [State.freeQueue_cmd_queue, State.appendResponse_cmd, State.advanceOrder_cmd]
          exact List.filter_sublist.map _
        · simp only [State.waitingKeys, State.freeQueue_cmd_queue, State.appendResponse_cmd, State.advanceOrder_cmd]
          exact (List.filter_sublist.filter _).map _
        · intro _
          rw [State.canPost_iff] at post
          refine ⟨by simp; omega, fun w => absurd ?_ w⟩
          have := post.2
          simp only [State.waitingOrders, List.append_eq_nil_iff, List.filterMap_eq_nil_iff] at this ⊢
          refine ⟨fun x hx => this.1 x ?_, this.2⟩
          simp only [State.freeQueue_cmd_queue, State.appendResponse_cmd, State.advanceOrder_cmd] at hx
          exact List.mem_of_mem_filter hx
      · next post =>
        refine ⟨.refl _, .refl _, ?_, ?_, rfl, ?_⟩
        · simp only [State.updateQueue_cmd_queue, State.advanceOrder_cmd, List.map_map]
          have : (QueueEntry.key ∘ fun q : QueueEntry => if q.push = p then
            { q with doomed := some (s.settlementNow .nodeDown 0 []) } else q) = QueueEntry.key := by
            funext q; simp only [Function.comp]; split <;> rfl
          rw [this]
        · simp only [State.waitingKeys, State.updateQueue_cmd_queue, State.advanceOrder_cmd]
          induction s.cmd.queue with
          | nil => simp
          | cons x rest ih =>
            rw [List.map_cons]
            by_cases hx : x.push = p
            · simp only [hx, if_true]
              rw [List.filter_cons_of_neg (by simp [QueueEntry.waiting])]
              by_cases hu : x.waiting
              · rw [List.filter_cons_of_pos hu, List.map_cons]
                exact ih.cons _
              · rw [List.filter_cons_of_neg hu]
                exact ih
            · simp only [hx, if_false]
              by_cases hu : x.waiting
              · rw [List.filter_cons_of_pos hu, List.filter_cons_of_pos hu, List.map_cons, List.map_cons]
                exact ih.cons_cons _
              · rw [List.filter_cons_of_neg hu, List.filter_cons_of_neg hu]
                exact ih
        · intro law
          have full := State.full_of_cannot_post law (by simpa using post)
          exact ⟨by simp [full], fun _ => by simp [full]⟩

/-! ### Many entries -/

theorem State.settleAll_settles (s : State) (ps : List Nat) (st : Status) : s.Settles (s.settleAll ps st) := by
  induction ps generalizing s with
  | nil => exact .refl s
  | cons p rest ih => exact (s.settleOut_settles p st 0 []).trans (ih _)

theorem State.settleAllQueued_settles (s : State) (ps : List Nat) : s.Settles (s.settleAllQueued ps) := by
  induction ps generalizing s with
  | nil => exact .refl s
  | cons p rest ih => exact (s.settleQueue_settles p).trans (ih _)

/-- Settling keeps push orders apart. -/
theorem State.Settles.pushLaw {s t : State} (h : s.Settles t) (l : s.PushLaw) : t.PushLaw := by
  have so : (t.cmd.outstanding.map (·.push)).Sublist (s.cmd.outstanding.map (·.push)) := by
    simpa [List.map_map, Function.comp_def, OutEntry.key] using h.out.map (fun k => k.2.2)
  have sq : (t.cmd.queue.map (·.push)).Sublist (s.cmd.queue.map (·.push)) := by
    simpa [List.map_map, Function.comp_def, QueueEntry.key] using h.queue.map (fun k => k.2.2)
  refine ⟨l.1.sublist (sq.append so), fun p hp => ?_⟩
  rw [h.next]
  exact l.2 p ((sq.append so).subset hp)

/-- An entry unsettled after settling was unsettled before, under the same key. -/
theorem State.Settles.unsettled_mem {s t : State} (h : s.Settles t) {e : OutEntry} (m : e ∈ t.cmd.outstanding)
    (u : e.unsettled = true) : ∃ f ∈ s.cmd.outstanding, f.unsettled = true ∧ f.key = e.key := by
  have : e.key ∈ t.unsettledKeys := List.mem_map_of_mem (List.mem_filter.2 ⟨m, u⟩)
  obtain ⟨f, hf, hk⟩ := List.mem_map.1 (h.unsettled.subset this)
  exact ⟨f, (List.mem_filter.1 hf).1, (List.mem_filter.1 hf).2, hk⟩

/-- An entry WAITING after settling was WAITING before, under the same key. -/
theorem State.Settles.waiting_mem {s t : State} (h : s.Settles t) {q : QueueEntry} (m : q ∈ t.cmd.queue)
    (u : q.waiting = true) : ∃ f ∈ s.cmd.queue, f.waiting = true ∧ f.key = q.key := by
  have : q.key ∈ t.waitingKeys := List.mem_map_of_mem (List.mem_filter.2 ⟨m, u⟩)
  obtain ⟨f, hf, hk⟩ := List.mem_map.1 (h.waiting.subset this)
  exact ⟨f, (List.mem_filter.1 hf).1, (List.mem_filter.1 hf).2, hk⟩

/-- A settled entry is no longer unsettled (R110). -/
theorem State.settleOut_done {s : State} (l : s.PushLaw) (p : Nat) (st : Status) (c : Byte) (d : List Byte) :
    ∀ e ∈ (s.settleOut p st c d).cmd.outstanding, e.push = p → e.unsettled = false := by
  intro e m hp
  unfold State.settleOut at m
  split at m
  · next f =>
    have := State.out?_of_mem l m
    rw [hp, f] at this
    cases this
  · next x f =>
    dsimp only at m
    split at m
    · next u =>
      have := State.out?_of_mem l m
      rw [hp, f] at this
      cases this
      simpa using u
    · split at m
      · simp only [State.freeOut_cmd_outstanding, State.appendResponse_cmd, State.advanceOrder_cmd,
          List.mem_filter] at m
        simp [hp] at m
      · simp only [State.updateOut_cmd_outstanding, State.advanceOrder_cmd, List.mem_map] at m
        obtain ⟨x, -, rfl⟩ := m
        split
        · rfl
        · next hx => split at hp <;> simp_all

/-- Every entry named is settled. -/
theorem State.settleAll_done {s : State} (l : s.PushLaw) (ps : List Nat) (st : Status) :
    ∀ p ∈ ps, ∀ e ∈ (s.settleAll ps st).cmd.outstanding, e.push = p → e.unsettled = false := by
  induction ps generalizing s with
  | nil => simp
  | cons q rest ih =>
    intro p hp e m he
    have l' := (s.settleOut_settles q st 0 []).pushLaw l
    rcases List.mem_cons.1 hp with rfl | hp'
    · by_contra c
      obtain ⟨f, hf, hu, hk⟩ := ((s.settleOut p st 0 []).settleAll_settles rest st).unsettled_mem m (by simpa using c)
      have : f.push = e.push := congrArg (·.2.2) hk
      simp [State.settleOut_done l p st 0 [] f hf (this.trans he)] at hu
    · exact ih l' p hp' e m he

/-- What is posted while entries settle. -/
theorem State.settleOut_posts (s : State) (p : Nat) (st : Status) (c : Byte) (d : List Byte) :
    ∃ l, (s.settleOut p st c d).result.responses = s.result.responses ++ l
      ∧ ∀ r ∈ l, r.status = st ∧ r.code = c ∧ r.data = d ∧ r.cycle = s.sched.cycleNumber
        ∧ ∃ e ∈ s.cmd.outstanding, e.push = p ∧ r.node = e.node ∧ r.tag = e.tag := by
  unfold State.settleOut
  split
  · exact ⟨[], by simp⟩
  · next e f =>
    dsimp only
    split
    · exact ⟨[], by simp⟩
    · split
      · exact ⟨[Response.ofOut e (s.settlementNow st c d)], by simp, by
          simp only [List.mem_singleton, forall_eq]
          exact ⟨rfl, rfl, rfl, rfl, e, (State.out?_some f).1, (State.out?_some f).2, rfl, rfl⟩⟩
      · exact ⟨[], by simp⟩

theorem State.settleAll_posts (s : State) (ps : List Nat) (st : Status) :
    ∃ l, (s.settleAll ps st).result.responses = s.result.responses ++ l
      ∧ ∀ r ∈ l, r.status = st ∧ r.code = 0 ∧ r.data = [] ∧ r.cycle = s.sched.cycleNumber
        ∧ ∃ p ∈ ps, ∃ k ∈ s.cmd.outstanding.map OutEntry.key, k.2.2 = p ∧ r.node = k.2.1 ∧ r.tag = k.1 := by
  induction ps generalizing s with
  | nil => exact ⟨[], by simp [State.settleAll]⟩
  | cons p rest ih =>
    obtain ⟨l1, h1, g1⟩ := s.settleOut_posts p st 0 []
    obtain ⟨l2, h2, g2⟩ := ih (s.settleOut p st 0 [])
    refine ⟨l1 ++ l2, by rw [State.settleAll, h2, h1, List.append_assoc], fun r hr => ?_⟩
    rcases List.mem_append.1 hr with hr | hr
    · obtain ⟨a1, a2, a3, a4, e, m, hp, hn, ht⟩ := g1 r hr
      exact ⟨a1, a2, a3, a4, p, by simp, e.key, List.mem_map_of_mem m, hp, hn, ht⟩
    · obtain ⟨a1, a2, a3, a4, q, hq, k, hk, b⟩ := g2 r hr
      exact ⟨a1, a2, a3, by simpa using a4, q, by simp [hq], k, (s.settleOut_settles p st 0 []).out.subset hk, b⟩

/-- The push orders of the unsettled entries that meet a condition. -/
theorem State.mem_unsettledPushes {s : State} {f : OutEntry → Bool} {p : Nat} :
    p ∈ s.unsettledPushes f ↔ ∃ e ∈ s.cmd.outstanding, e.unsettled = true ∧ f e = true ∧ e.push = p := by
  simp only [State.unsettledPushes, sorted, List.mem_insertionSort, List.mem_map, List.mem_filter, Bool.and_eq_true]
  constructor
  · rintro ⟨e, ⟨m, u, c⟩, h⟩; exact ⟨e, m, u, c, h⟩
  · rintro ⟨e, m, u, c, h⟩; exact ⟨e, ⟨m, u, c⟩, h⟩

/-- The push orders of a node's WAITING entries. -/
theorem State.mem_waitingPushes {s : State} {n : NodeAddr} {p : Nat} :
    p ∈ s.waitingPushes n ↔ ∃ q ∈ s.cmd.queue, q.waiting = true ∧ q.node = n ∧ q.push = p := by
  simp only [State.waitingPushes, sorted, List.mem_insertionSort, List.mem_map, List.mem_filter, Bool.and_eq_true,
    beq_iff_eq]
  constructor
  · rintro ⟨e, ⟨m, u, c⟩, h⟩; exact ⟨e, m, u, c, h⟩
  · rintro ⟨e, m, u, c, h⟩; exact ⟨e, ⟨m, u, c⟩, h⟩

/-- An abort leaves no unsettled outstanding entry and no in-flight mark (R114). -/
theorem State.abortTransactions_done {s : State} (l : s.PushLaw) :
    (∀ e ∈ s.abortTransactions.cmd.outstanding, e.unsettled = false)
      ∧ s.abortTransactions.cmd.inFlightMark = none := by
  refine ⟨fun e m => ?_, rfl⟩
  by_contra c
  simp only [State.abortTransactions, State.clearMark_cmd_outstanding] at m
  obtain ⟨f, hf, hu, hk⟩ := (s.settleAll_settles (s.unsettledPushes fun _ => true) .aborted).unsettled_mem m
    (by simpa using c)
  have hp : f.push = e.push := congrArg (·.2.2) hk
  have := State.settleAll_done l _ .aborted f.push (State.mem_unsettledPushes.2 ⟨f, hf, hu, rfl, rfl⟩) e m hp.symm
  simp [this] at c

/-- Settling outstanding entries leaves the command queue as it was. -/
@[simp] theorem State.settleOut_queue (s : State) (p : Nat) (st : Status) (c : Byte) (d : List Byte) :
    (s.settleOut p st c d).cmd.queue = s.cmd.queue ∧ (s.settleOut p st c d).cmd.nextPush = s.cmd.nextPush
      ∧ (s.settleOut p st c d).cmd.inFlightMark = s.cmd.inFlightMark
      ∧ (s.settleOut p st c d).cmd.putStatus = s.cmd.putStatus
      ∧ (s.settleOut p st c d).cmd.barrierSent = s.cmd.barrierSent
      ∧ (s.settleOut p st c d).cmd.endedMarks = s.cmd.endedMarks := by
  unfold State.settleOut
  dsimp only
  repeat' split
  all_goals simp [State.advanceOrder, State.appendResponse, State.freeOut, State.updateOut]

@[simp] theorem State.settleAll_queue (s : State) (ps : List Nat) (st : Status) :
    (s.settleAll ps st).cmd.queue = s.cmd.queue ∧ (s.settleAll ps st).cmd.nextPush = s.cmd.nextPush
      ∧ (s.settleAll ps st).cmd.inFlightMark = s.cmd.inFlightMark
      ∧ (s.settleAll ps st).cmd.putStatus = s.cmd.putStatus
      ∧ (s.settleAll ps st).cmd.barrierSent = s.cmd.barrierSent
      ∧ (s.settleAll ps st).cmd.endedMarks = s.cmd.endedMarks := by
  induction ps generalizing s with
  | nil => simp [State.settleAll]
  | cons p rest ih => simp [State.settleAll, ih]

/-- Settling queue entries leaves the outstanding table as it was. -/
@[simp] theorem State.settleQueue_outstanding (s : State) (p : Nat) :
    (s.settleQueue p).cmd.outstanding = s.cmd.outstanding ∧ (s.settleQueue p).cmd.nextPush = s.cmd.nextPush
      ∧ (s.settleQueue p).cmd.inFlightMark = s.cmd.inFlightMark
      ∧ (s.settleQueue p).cmd.putStatus = s.cmd.putStatus
      ∧ (s.settleQueue p).cmd.barrierSent = s.cmd.barrierSent
      ∧ (s.settleQueue p).cmd.endedMarks = s.cmd.endedMarks := by
  unfold State.settleQueue
  dsimp only
  repeat' split
  all_goals simp [State.advanceOrder, State.appendResponse, State.freeQueue, State.updateQueue]

@[simp] theorem State.settleAllQueued_outstanding (s : State) (ps : List Nat) :
    (s.settleAllQueued ps).cmd.outstanding = s.cmd.outstanding
      ∧ (s.settleAllQueued ps).cmd.nextPush = s.cmd.nextPush
      ∧ (s.settleAllQueued ps).cmd.inFlightMark = s.cmd.inFlightMark
      ∧ (s.settleAllQueued ps).cmd.putStatus = s.cmd.putStatus
      ∧ (s.settleAllQueued ps).cmd.barrierSent = s.cmd.barrierSent
      ∧ (s.settleAllQueued ps).cmd.endedMarks = s.cmd.endedMarks := by
  induction ps generalizing s with
  | nil => simp [State.settleAllQueued]
  | cons p rest ih => simp [State.settleAllQueued, ih]

/-! ### Settling several in push order -/

/-- Two lists of the same numbers, both strictly rising, are one. -/
theorem sorted_eq {l m : List Nat} (nd : l.Nodup) (h : m.Pairwise (· < ·)) (mem : ∀ n, n ∈ m ↔ n ∈ l) : sorted l = m := by
  have p : (sorted l).Perm m :=
    (List.perm_insertionSort (· ≤ ·) l).trans
      ((List.perm_ext_iff_of_nodup nd (h.imp fun h => Nat.ne_of_lt h)).2 fun n => (mem n).symm)
  exact p.eq_of_pairwise (fun _ _ _ _ h1 h2 => le_antisymm h1 h2) (List.pairwise_insertionSort (· ≤ ·) l)
    (h.imp fun h => le_of_lt h)

/-- Unsettled entries listed in push order have the push orders that settling goes through. -/
theorem State.unsettledPushes_eq {s : State} {es : List OutEntry} {p : OutEntry → Prop} {f : OutEntry → Bool} (h : s.PushLaw)
    (o : s.OutInOrder es p) (hf : ∀ e, p e ↔ e.unsettled = true ∧ f e = true) : s.unsettledPushes f = es.map (·.push) := by
  refine sorted_eq ?_ ?_ fun n => ?_
  · exact (h.1.of_append_right).sublist ((List.filter_sublist (l := s.cmd.outstanding)).map _)
  · exact List.pairwise_map.2 o.1
  · simp only [List.mem_map, List.mem_filter, o.2, hf, Bool.and_eq_true]

/-- WAITING entries listed in push order have the push orders that settling goes through. -/
theorem State.waitingPushes_eq {s : State} {qs : List QueueEntry} {n : NodeAddr} (h : s.PushLaw)
    (o : s.QueueInOrder qs fun q => q.waiting = true ∧ q.node = n) : s.waitingPushes n = qs.map (·.push) := by
  refine sorted_eq ?_ ?_ fun k => ?_
  · exact (h.1.of_append_left).sublist ((List.filter_sublist (l := s.cmd.queue)).map _)
  · exact List.pairwise_map.2 o.1
  · simp only [List.mem_map, List.mem_filter, o.2, Bool.and_eq_true, beq_iff_eq]

/-- Settling one entry leaves every other in its place. -/
theorem State.mem_settledAs {s : State} {e f : OutEntry} {st : Status} {c : Byte} {d : List Byte}
    (m : f ∈ s.cmd.outstanding) (ne : f.push ≠ e.push) : f ∈ (s.settledAs e st c d).cmd.outstanding := by
  unfold State.settledAs
  split
  · exact List.mem_filter.2 ⟨m, by simpa using ne⟩
  · exact List.mem_map.2 ⟨f, m, if_neg ne⟩

/-- Settling entries by their push orders is settling them one after another. -/
theorem State.settleAll_eq {s : State} {es : List OutEntry} (st : Status) (h : s.PushLaw)
    (m : ∀ e ∈ es, e ∈ s.cmd.outstanding ∧ e.unsettled = true) (nd : es.Pairwise fun a b => a.push < b.push) :
    s.settleAll (es.map (·.push)) st = s.settledEach es st := by
  induction es generalizing s with
  | nil => rfl
  | cons e rest ih =>
    obtain ⟨me, ue⟩ := m e (by simp)
    rw [List.pairwise_cons] at nd
    have eq := State.settleOut_eq st 0 [] h me ue
    have h' := (s.settleOut_settles e.push st 0 []).pushLaw h
    rw [eq] at h'
    rw [List.map_cons, State.settleAll, eq]
    exact ih h' (fun f hf => ⟨State.mem_settledAs (m f (by simp [hf])).1 (Nat.ne_of_gt (nd.1 f hf)),
      (m f (by simp [hf])).2⟩) nd.2

/-- A WAITING entry settles as `settledQueueAs` says. -/
theorem State.settleQueue_eq {s : State} {q : QueueEntry} (h : s.PushLaw) (m : q ∈ s.cmd.queue) (w : q.waiting = true) :
    s.settleQueue q.push = s.settledQueueAs q := by
  have f := State.queued?_of_mem h m
  unfold State.settleQueue State.settledQueueAs
  simp only [f, w, Bool.not_true, Bool.false_eq_true, if_false, State.canPost_iff]
  split
  · rfl
  · have : (s.cmd.queue.map fun x => if x.push = q.push then { x with doomed := some (s.settlementNow .nodeDown 0 []) } else x)
        = s.cmd.queue.map fun x => if x.push = q.push then { q with doomed := some (s.settlementNow .nodeDown 0 []) } else x := by
      refine List.map_congr_left fun x hx => ?_
      by_cases hp : x.push = q.push
      · have := State.queued?_of_mem h hx
        rw [hp, f] at this
        cases this
        rfl
      · rw [if_neg hp, if_neg hp]
    simp only [State.updateQueue, State.advanceOrder_cmd, this]
    rfl

/-- Settling a queue entry leaves every other in its place. -/
theorem State.mem_settledQueueAs {s : State} {q r : QueueEntry} (m : r ∈ s.cmd.queue) (ne : r.push ≠ q.push) :
    r ∈ (s.settledQueueAs q).cmd.queue := by
  unfold State.settledQueueAs
  split
  · exact List.mem_filter.2 ⟨m, by simpa using ne⟩
  · exact List.mem_map.2 ⟨r, m, if_neg ne⟩

/-- Settling WAITING entries by their push orders is settling them one after another. -/
theorem State.settleAllQueued_eq {s : State} {qs : List QueueEntry} (h : s.PushLaw)
    (m : ∀ q ∈ qs, q ∈ s.cmd.queue ∧ q.waiting = true) (nd : qs.Pairwise fun a b => a.push < b.push) :
    s.settleAllQueued (qs.map (·.push)) = s.settledEachQueued qs := by
  induction qs generalizing s with
  | nil => rfl
  | cons q rest ih =>
    obtain ⟨mq, wq⟩ := m q (by simp)
    rw [List.pairwise_cons] at nd
    have eq := State.settleQueue_eq h mq wq
    have h' := (s.settleQueue_settles q.push).pushLaw h
    rw [eq] at h'
    rw [List.map_cons, State.settleAllQueued, eq]
    exact ih h' (fun f hf => ⟨State.mem_settledQueueAs (m f (by simp [hf])).1 (Nat.ne_of_gt (nd.1 f hf)),
      (m f (by simp [hf])).2⟩) nd.2

/-- What settling does to the tables and the result unit comes from them and the cycle number alone. -/
theorem State.settledAs_congr {s t : State} (e : OutEntry) (st : Status) (c : Byte) (d : List Byte)
    (o : t.cmd.outstanding = s.cmd.outstanding) (q : t.cmd.queue = s.cmd.queue) (r : t.result = s.result)
    (k : t.sched.cycleNumber = s.sched.cycleNumber) :
    (t.settledAs e st c d).cmd.outstanding = (s.settledAs e st c d).cmd.outstanding
      ∧ (t.settledAs e st c d).cmd.queue = (s.settledAs e st c d).cmd.queue
      ∧ (t.settledAs e st c d).result = (s.settledAs e st c d).result
      ∧ (t.settledAs e st c d).sched.cycleNumber = (s.settledAs e st c d).sched.cycleNumber := by
  have w : t.waitingOrders = s.waitingOrders := by simp only [State.waitingOrders, o, q]
  unfold State.settledAs State.withEntry
  rw [w, r, k]
  split <;> simp only [o, q, k] <;> exact ⟨trivial, trivial, trivial, trivial⟩

/-- See `State.settledAs_congr`. -/
theorem State.settledQueueAs_congr {s t : State} (e : QueueEntry)
    (o : t.cmd.outstanding = s.cmd.outstanding) (q : t.cmd.queue = s.cmd.queue) (r : t.result = s.result)
    (k : t.sched.cycleNumber = s.sched.cycleNumber) :
    (t.settledQueueAs e).cmd.outstanding = (s.settledQueueAs e).cmd.outstanding
      ∧ (t.settledQueueAs e).cmd.queue = (s.settledQueueAs e).cmd.queue
      ∧ (t.settledQueueAs e).result = (s.settledQueueAs e).result
      ∧ (t.settledQueueAs e).sched.cycleNumber = (s.settledQueueAs e).sched.cycleNumber := by
  have w : t.waitingOrders = s.waitingOrders := by simp only [State.waitingOrders, o, q]
  unfold State.settledQueueAs
  rw [w, r, k]
  split <;> simp only [o, q, k] <;> exact ⟨trivial, trivial, trivial, trivial⟩

/-- See `State.settledAs_congr`. -/
theorem State.settledEach_congr {s t : State} (es : List OutEntry) (st : Status)
    (o : t.cmd.outstanding = s.cmd.outstanding) (q : t.cmd.queue = s.cmd.queue) (r : t.result = s.result)
    (k : t.sched.cycleNumber = s.sched.cycleNumber) :
    (t.settledEach es st).cmd.outstanding = (s.settledEach es st).cmd.outstanding
      ∧ (t.settledEach es st).cmd.queue = (s.settledEach es st).cmd.queue
      ∧ (t.settledEach es st).result = (s.settledEach es st).result
      ∧ (t.settledEach es st).sched.cycleNumber = (s.settledEach es st).sched.cycleNumber := by
  induction es generalizing s t with
  | nil => exact ⟨o, q, r, k⟩
  | cons e rest ih =>
    obtain ⟨o', q', r', k'⟩ := State.settledAs_congr e st 0 [] o q r k
    exact ih o' q' r' k'

/-- See `State.settledAs_congr`. -/
theorem State.settledEachQueued_congr {s t : State} (qs : List QueueEntry)
    (o : t.cmd.outstanding = s.cmd.outstanding) (q : t.cmd.queue = s.cmd.queue) (r : t.result = s.result)
    (k : t.sched.cycleNumber = s.sched.cycleNumber) :
    (t.settledEachQueued qs).cmd.outstanding = (s.settledEachQueued qs).cmd.outstanding
      ∧ (t.settledEachQueued qs).cmd.queue = (s.settledEachQueued qs).cmd.queue
      ∧ (t.settledEachQueued qs).result = (s.settledEachQueued qs).result
      ∧ (t.settledEachQueued qs).sched.cycleNumber = (s.settledEachQueued qs).sched.cycleNumber := by
  induction qs generalizing s t with
  | nil => exact ⟨o, q, r, k⟩
  | cons e rest ih =>
    obtain ⟨o', q', r', k'⟩ := State.settledQueueAs_congr e o q r k
    exact ih o' q' r' k'

end Sys2Proof.Machine
end

