-- ==== Sys2Proof/Laws/Nodes.lean ====
section
/-! SUPPORT. Reading back a node entry, the arithmetic of slices, the searches of the enable checks, and what the entry into
HALTED does to the nodes (chapter 3). -/

namespace Sys2Proof.Machine

open Sys2Proof

/-! ### Reading back -/

theorem State.node?_zero (s : State) : s.node? 0 = none := by simp [State.node?]

/-- A node has an entry exactly when its address is not 0 (R49). -/
theorem State.node?_isSome {s : State} {n : NodeAddr} : (s.node? n).isSome = true ↔ n ≠ 0 := by
  unfold State.node?
  split <;> simp_all

theorem State.node?_ne_zero {s : State} {n : NodeAddr} {e : NodeEntry} (h : s.node? n = some e) : n ≠ 0 := by
  rintro rfl
  simp [State.node?] at h

/-- The entries alone decide what node n's entry is. -/
theorem State.node?_congr {s t : State} (h : t.nodes.entries = s.nodes.entries) (n : NodeAddr) :
    t.node? n = s.node? n := by
  simp only [State.node?, h]

/-- Different node addresses have different places. -/
theorem nodeIndex_inj {n m : NodeAddr} (hn : n ≠ 0) (hm : m ≠ 0) (h : nodeIndex n = nodeIndex m) : n = m := by
  have h' : n.toNat - 1 = m.toNat - 1 := congrArg Fin.val h
  have a : n.toNat ≠ 0 := fun c => hn (BitVec.eq_of_toNat_eq c)
  have b : m.toNat ≠ 0 := fun c => hm (BitVec.eq_of_toNat_eq c)
  exact BitVec.eq_of_toNat_eq (by omega)

/-- An entry just stored is read back. -/
theorem State.node?_setNode (s : State) {n : NodeAddr} (e : NodeEntry) (h : n ≠ 0) :
    (s.setNode n e).node? n = some e := by
  simp only [State.node?, State.setNode, if_neg h]
  congr 1
  exact Vector.getElem_set_self _

/-- Storing an entry leaves every other as it was. -/
theorem State.node?_setNode_ne (s : State) {n m : NodeAddr} (e : NodeEntry) (h : m ≠ n) :
    (s.setNode n e).node? m = s.node? m := by
  unfold State.setNode
  by_cases hn : n = 0
  · simp [hn]
  · by_cases hm : m = 0
    · simp [State.node?, hm]
    · have ne : (nodeIndex n).val ≠ (nodeIndex m).val := fun c => h (nodeIndex_inj hm hn (Fin.ext c.symm))
      simp only [State.node?, hn, hm, if_false]
      congr 1
      exact Vector.getElem_set_ne _ _ ne

/-- Storing an entry twice is storing the later one. -/
theorem State.setNode_setNode (s : State) (n : NodeAddr) (e f : NodeEntry) :
    (s.setNode n e).setNode n f = s.setNode n f := by
  unfold State.setNode
  split
  · rfl
  · next h => simp [Vector.set_set]

/-- Joining the change set changes no entry. -/
@[simp] theorem State.node?_joinChangeSet (s : State) (n m : NodeAddr) :
    (s.joinChangeSet n).node? m = s.node? m := State.node?_congr rfl m

@[simp] theorem State.node?_hand (s : State) (c : Instr) (m : NodeAddr) :
    (s.hand c).node? m = s.node? m := State.node?_congr rfl m

@[simp] theorem State.node?_raise (s : State) (code : FaultCode) (n : NodeAddr) (d : Word) (m : NodeAddr) :
    (s.raise code n d).node? m = s.node? m := State.node?_congr rfl m

@[simp] theorem State.node?_takeDue (s : State) (c : Instr) (m : NodeAddr) :
    (s.takeDue c).node? m = s.node? m := State.node?_congr rfl m

@[simp] theorem State.node?_dropSlice (s : State) (n m : NodeAddr) :
    (s.dropSlice n).node? m = s.node? m := State.node?_congr rfl m

/-- Whether a node is live is read from its entry. -/
theorem State.isLive_of_node? {s : State} {n : NodeAddr} {e : NodeEntry} (h : s.node? n = some e) :
    s.isLive n = e.state.isLive := by
  simp [State.isLive, State.nodeState, h]

theorem State.isLive_congr {s t : State} {n : NodeAddr} (h : t.node? n = s.node? n) : t.isLive n = s.isLive n := by
  simp only [State.isLive, State.nodeState, h]

/-- The enable of a state, by its one exception (R49). -/
theorem NodeState.isEnabled_iff {st : NodeState} : st.isEnabled = true ↔ st ≠ .disabled := by
  cases st <;> simp [NodeState.isEnabled]

/-! ### Slices -/

theorem sliceBeyond_iff {off : BitVec 10} {len : BitVec 7} :
    sliceBeyond off len = true ↔ 1024 < off.toNat + len.toNat := by
  unfold sliceBeyond
  rw [decide_eq_true_eq]
  rfl

/-- Two slices overlap exactly when they share a byte offset (R52). -/
theorem slicesOverlap_iff {off1 off2 : BitVec 10} {len1 len2 : BitVec 7} :
    slicesOverlap off1 len1 off2 len2 = true ↔ ∃ a, inSlice off1 len1 a ∧ inSlice off2 len2 a := by
  simp only [slicesOverlap, Bool.and_eq_true, decide_eq_true_eq, inSlice]
  constructor
  · rintro ⟨⟨⟨h1, h2⟩, h3⟩, h4⟩
    exact ⟨max off1.toNat off2.toNat, by omega⟩
  · rintro ⟨a, h1, h2⟩
    omega

/-- Every node address but 0 is among those the checks go through. -/
theorem mem_nodeAddresses {n : NodeAddr} : n ∈ nodeAddresses ↔ n ≠ 0 := by
  revert n
  decide

/-- The search for an overlapping node fails exactly when no other enabled node clashes. -/
theorem State.overlapping_none {s : State} {n : NodeAddr} {f : NodeEntry → Bool} :
    s.overlapping n f = none ↔ ∀ m e, m ≠ n → s.node? m = some e → e.state.isEnabled = true → f e = false := by
  simp only [State.overlapping, List.find?_eq_none, mem_nodeAddresses]
  constructor
  · intro h m e hm he hen
    have := h m (State.node?_ne_zero he)
    simpa [hm, he, hen] using this
  · intro h m hm
    cases he : s.node? m with
    | none => simp
    | some e =>
      by_cases hmn : m = n
      · simp [hmn]
      · cases hen : e.state.isEnabled
        · simp [hen]
        · simp [h m e hmn he hen]

/-- A search of a list in rising order finds the lowest element that meets the condition. -/
theorem find?_sorted {α : Type} {f : α → Nat} {l : List α} {p : α → Bool} {a : α}
    (rising : l.Pairwise fun x y => f x < f y) (ha : a ∈ l) (hp : p a = true)
    (low : ∀ b ∈ l, f b < f a → p b = false) : l.find? p = some a := by
  induction l with
  | nil => cases ha
  | cons b l ih =>
    rw [List.pairwise_cons] at rising
    rcases List.mem_cons.1 ha with rfl | ha
    · rw [List.find?_cons_of_pos hp]
    · rw [List.find?_cons_of_neg (by simp [low b (by simp) (rising.1 a ha)])]
      exact ih rising.2 ha fun c hc => low c (List.mem_cons_of_mem b hc)

/-- Node addresses are gone through in rising order. -/
theorem nodeAddresses_rising : nodeAddresses.Pairwise fun a b => a.toNat < b.toNat := by decide

/-- The search for an overlapping node finds the lowest enabled one that clashes (R52, R158). -/
theorem State.overlapping_some {s : State} {n m : NodeAddr} {f : NodeEntry → Bool} (e : NodeEntry) (hm : m ≠ n)
    (he : s.node? m = some e) (hen : e.state.isEnabled = true) (hf : f e = true)
    (low : ∀ j e, j.toNat < m.toNat → j ≠ n → s.node? j = some e → e.state.isEnabled = true → f e = false) :
    s.overlapping n f = some m := by
  refine find?_sorted nodeAddresses_rising (mem_nodeAddresses.2 (State.node?_ne_zero he)) (by simp [hm, he, hen, hf])
    fun j hj hl => ?_
  cases hjn : s.node? j with
  | none => simp
  | some g =>
    by_cases h1 : j = n
    · simp [h1]
    · cases hen : g.state.isEnabled
      · simp [hen]
      · simp [low j g hl h1 hjn hen]

/-- The checks of an enable request pass exactly when both slices lie in the bank and share no byte with an enabled
node's (R52). -/
theorem State.enableFault_none {s : State} {n : NodeAddr} {e : NodeEntry} :
    s.enableFault n e = none ↔
      (e.outOff.toNat + e.outLen.toNat ≤ 1024 ∧ e.inOff.toNat + e.inLen.toNat ≤ 1024)
      ∧ ∀ m f, m ≠ n → s.node? m = some f → f.state.isEnabled = true → ∀ a,
          ¬ (inSlice e.outOff e.outLen a ∧ inSlice f.outOff f.outLen a)
            ∧ ¬ (inSlice e.inOff e.inLen a ∧ inSlice f.inOff f.inLen a) := by
  have clash : ∀ o1 l1 o2 l2, slicesOverlap o1 l1 o2 l2 = false ↔ ∀ a, ¬ (inSlice o1 l1 a ∧ inSlice o2 l2 a) := by
    intro o1 l1 o2 l2
    rw [← Bool.not_eq_true, slicesOverlap_iff, not_exists]
  have beyond : ∀ o l, sliceBeyond o l = false ↔ o.toNat + l.toNat ≤ 1024 := by
    intro o l
    rw [← Bool.not_eq_true, sliceBeyond_iff, not_lt]
  constructor
  · intro h
    unfold State.enableFault at h
    repeat' split at h
    all_goals simp only [reduceCtorEq] at h
    next b1 _ o1 b2 _ o2 =>
    rw [Bool.not_eq_true, beyond] at b1 b2
    rw [State.overlapping_none] at o1 o2
    exact ⟨⟨b1, b2⟩, fun m f hm hf he a =>
      ⟨(clash ..).1 (o1 m f hm hf he) a, (clash ..).1 (o2 m f hm hf he) a⟩⟩
  · rintro ⟨⟨b1, b2⟩, h⟩
    have o1 := (State.overlapping_none (s := s) (n := n) (f := fun m => slicesOverlap e.outOff e.outLen m.outOff m.outLen)).2
      (fun m f hm hf he => (clash ..).2 (fun a => (h m f hm hf he a).1))
    have o2 := (State.overlapping_none (s := s) (n := n) (f := fun m => slicesOverlap e.inOff e.inLen m.inOff m.inLen)).2
      (fun m f hm hf he => (clash ..).2 (fun a => (h m f hm hf he a).2))
    simp only [State.enableFault, (beyond ..).2 b1, (beyond ..).2 b2, o1, o2, Bool.false_eq_true, if_false]

/-! ### Entry into HALTED -/

/-- Adding an address to a set of nodes adds that address alone. -/
theorem NodeSet.has_insert (x : NodeSet) (n m : NodeAddr) :
    NodeSet.has (NodeSet.insert x n) m = (NodeSet.has x m || decide (m = n)) := by
  have h1 := n.isLt
  have h2 : m.toNat < 32 := m.isLt
  simp only [NodeSet.has, NodeSet.insert, NodeSet.single, BitVec.getLsbD_or, BitVec.getLsbD_shiftLeft,
    h2, decide_true, Bool.true_and]
  congr 1
  by_cases h : m = n
  · subst h; simp
  · have hne : m.toNat ≠ n.toNat := fun c => h (BitVec.eq_of_toNat_eq c)
    have : m.toNat < n.toNat ∨ m.toNat - n.toNat ≠ 0 := by omega
    rcases this with h' | h' <;> simp [h, h']

/-- What the entry into HALTED does to one node (R68). -/
theorem State.haltNode_spec {s : State} {n : NodeAddr} {e : NodeEntry} (h : s.node? n = some e) :
    ((s.haltNode n).node? n = some (if s.isLive n then { e with state := .offline, missCount := 0 } else e)
      ∧ ∀ m, m ≠ n → (s.haltNode n).node? m = s.node? m)
    ∧ (s.haltNode n).due = s.due ++ (if s.isLive n then [.nodeDownNotice n] else [])
    ∧ ∀ m, NodeSet.has (s.haltNode n).nodes.changeSet m
        = (NodeSet.has s.nodes.changeSet m || decide (m = n) && s.isLive n) := by
  have hn := State.node?_ne_zero h
  cases hl : s.isLive n
  · have : s.haltNode n = s := by
      rw [State.isLive_of_node? h] at hl
      simp [State.haltNode, h, hl]
    simp [this, h]
  · have : s.haltNode n
        = ((s.setNode n { e with state := .offline, missCount := 0 }).joinChangeSet n).hand (.nodeDownNotice n) := by
      rw [State.isLive_of_node? h] at hl
      simp [State.haltNode, h, hl]
    rw [this]
    refine ⟨⟨by simp [State.node?_setNode _ _ hn], fun m hm => by simp [State.node?_setNode_ne _ _ hm]⟩, by simp,
      fun m => by simp [NodeSet.has_insert]⟩

/-- What the entry into HALTED does to the nodes of a list without repeats (R68): each live one goes to OFFLINE, joins the
change set and has its node-down notice handed; nothing else changes. -/
theorem State.haltNodes_spec (l : List NodeAddr) : ∀ s : State, l.Nodup → (∀ n ∈ l, n ≠ 0) →
    (∀ n e, s.node? n = some e → (s.haltNodes l).node? n
      = some (if n ∈ l ∧ s.isLive n = true then { e with state := .offline, missCount := 0 } else e))
    ∧ (s.haltNodes l).due = s.due ++ (l.filter s.isLive).map .nodeDownNotice
    ∧ ∀ m, NodeSet.has (s.haltNodes l).nodes.changeSet m
        = (NodeSet.has s.nodes.changeSet m || decide (m ∈ l) && s.isLive m) := by
  induction l with
  | nil => intro s _ _; simp [State.haltNodes]
  | cons a r ih =>
    intro s hd hz
    obtain ⟨ha, hr⟩ := List.nodup_cons.1 hd
    obtain ⟨e, he⟩ := Option.isSome_iff_exists.1 ((State.node?_isSome (s := s)).2 (hz a (by simp)))
    obtain ⟨⟨n1, n2⟩, d, c⟩ := State.haltNode_spec he
    obtain ⟨i1, i2, i3⟩ := ih (s.haltNode a) hr fun n hn => hz n (by simp [hn])
    have live : ∀ m ∈ r, (s.haltNode a).isLive m = s.isLive m := fun m hm =>
      State.isLive_congr (n2 m fun x => ha (x ▸ hm))
    rw [State.haltNodes]
    refine ⟨fun n f hf => ?_, ?_, fun m => ?_⟩
    · by_cases hna : n = a
      · subst hna
        rw [he] at hf; cases hf
        rw [i1 n _ n1]
        simp [ha]
      · rw [i1 n f (by rw [n2 n hna, hf])]
        by_cases hnr : n ∈ r
        · simp [hnr, live n hnr]
        · simp [hnr, hna]
    · rw [i2, d, List.filter_congr live]
      cases hl : s.isLive a <;> simp [hl]
    · rw [i3, c]
      by_cases hma : m = a
      · subst hma; simp [ha]
      · by_cases hmr : m ∈ r
        · simp [hma, hmr, live m hmr]
        · simp [hma, hmr]

end Sys2Proof.Machine
end

