-- ==== Sys2Proof/Laws/Memory.lean ====
section
/-! SUPPORT. Image memory: every operation keeps the canonical form of the four banks, and a byte read after a write is the
byte written at its offset and the byte that was there at every other (R70, R71, R77, R79, R84). -/

namespace Sys2Proof.Machine

open Sys2Proof

/-! ### One bank -/

theorem Memory.canonical_nil : Memory.Canonical [] := by simp [Memory.Canonical]

theorem Memory.canonical_tail {c : Nat × ImageByte} {m : Memory} (h : Memory.Canonical (c :: m)) :
    Memory.Canonical m :=
  ⟨h.1.of_cons, fun x hx => h.2 x (List.mem_cons_of_mem _ hx)⟩

/-- An offset below every listed one reads the byte of a hardware reset. -/
theorem Memory.read_below {m : Memory} {a : Nat} (h : ∀ c ∈ m, a < c.1) : Memory.read m a = emptyByte := by
  induction m with
  | nil => rfl
  | cons c rest ih =>
    obtain ⟨b, v⟩ := c
    have : a < b := h (b, v) (by simp)
    rw [Memory.read, if_neg (by omega)]
    exact ih fun x hx => h x (List.mem_cons_of_mem _ hx)

theorem Memory.head_below {b : Nat} {w : ImageByte} {m : Memory} (h : Memory.Canonical ((b, w) :: m)) :
    ∀ c ∈ m, b < c.1 := fun c hc => (List.pairwise_cons.1 h.1).1 c hc

/-- Offsets listed after a write were listed before, or are the one written. -/
theorem Memory.mem_write {m : Memory} {a : Nat} {v : ImageByte} {c : Nat × ImageByte}
    (h : c ∈ Memory.write m a v) : c ∈ m ∨ c = (a, v) ∧ v ≠ emptyByte := by
  induction m with
  | nil =>
    simp only [Memory.write] at h
    split at h <;> simp_all
  | cons d rest ih =>
    obtain ⟨b, w⟩ := d
    simp only [Memory.write] at h
    repeat' split at h
    all_goals simp_all only [List.mem_cons]
    all_goals grind

/-- A write inside the bank keeps the canonical form. -/
theorem Memory.canonical_write {m : Memory} (h : Memory.Canonical m) (a : Nat) (v : ImageByte) (ha : a < 1024) :
    Memory.Canonical (m.write a v) := by
  refine ⟨?_, fun c hc => ?_⟩
  · induction m with
    | nil => simp only [Memory.write]; split <;> simp
    | cons d rest ih =>
      obtain ⟨b, w⟩ := d
      have hb := Memory.head_below h
      have ih := ih (Memory.canonical_tail h)
      have hp := h.1
      simp only [Memory.write]
      split
      · next lt =>
        split
        · exact hp
        · refine List.pairwise_cons.2 ⟨fun c hc => ?_, hp⟩
          rcases List.mem_cons.1 hc with rfl | hc
          · exact lt
          · exact lt.trans (hb c hc)
      · next ge =>
        split
        · next eq =>
          split
          · exact hp.of_cons
          · exact List.pairwise_cons.2 ⟨fun c hc => by rw [eq]; exact hb c hc, hp.of_cons⟩
        · next ne =>
          refine List.pairwise_cons.2 ⟨fun c hc => ?_, ih⟩
          rcases Memory.mem_write hc with hc | ⟨rfl, -⟩
          · exact hb c hc
          · show b < a
            omega
  · rcases Memory.mem_write hc with hc | ⟨rfl, hv⟩
    · exact h.2 c hc
    · exact ⟨ha, hv⟩

/-- A byte read where it was written is the byte written. -/
theorem Memory.read_write_same {m : Memory} (h : Memory.Canonical m) (a : Nat) (v : ImageByte) :
    (m.write a v).read a = v := by
  induction m with
  | nil =>
    simp only [Memory.write]
    split
    · next e => simp [Memory.read, e]
    · simp [Memory.read]
  | cons d rest ih =>
    obtain ⟨b, w⟩ := d
    have hb := Memory.head_below h
    simp only [Memory.write]
    split
    · next lt =>
      split
      · next e =>
        rw [e]
        refine Memory.read_below fun c hc => ?_
        rcases List.mem_cons.1 hc with rfl | hc
        · exact lt
        · exact lt.trans (hb c hc)
      · simp [Memory.read]
    · split
      · next eq =>
        split
        · next e => rw [e, eq]; exact Memory.read_below hb
        · simp [Memory.read]
      · next ne => rw [Memory.read, if_neg ne]; exact ih (Memory.canonical_tail h)

/-- A byte read anywhere else is the byte that was there. -/
theorem Memory.read_write_other {m : Memory} (h : Memory.Canonical m) {a b : Nat} (v : ImageByte) (ne : b ≠ a) :
    (m.write a v).read b = m.read b := by
  induction m with
  | nil =>
    simp only [Memory.write]
    split
    · rfl
    · simp [Memory.read, ne]
  | cons d rest ih =>
    obtain ⟨c, w⟩ := d
    simp only [Memory.write]
    split
    · split
      · rfl
      · simp [Memory.read, ne]
    · split
      · next eq =>
        split <;> simp [Memory.read, ← eq, ne]
      · rw [Memory.read, Memory.read, ih (Memory.canonical_tail h)]

theorem Memory.read_write {m : Memory} (h : Memory.Canonical m) (a b : Nat) (v : ImageByte) :
    (m.write a v).read b = if b = a then v else m.read b := by
  split
  · next e => rw [e, Memory.read_write_same h]
  · next ne => exact Memory.read_write_other h v ne

/-! ### Copies -/

theorem canonical_copyBytes (src : Memory) {dst : Memory} (h : Memory.Canonical dst) (l : List Nat)
    (hl : ∀ a ∈ l, a < 1024) : Memory.Canonical (copyBytes src dst l) := by
  induction l generalizing dst with
  | nil => exact h
  | cons a rest ih =>
    exact ih (Memory.canonical_write h a _ (hl a (by simp))) fun b hb => hl b (List.mem_cons_of_mem _ hb)

/-- Copied offsets read as the source, every other as before. -/
theorem read_copyBytes (src : Memory) {dst : Memory} (h : Memory.Canonical dst) (l : List Nat)
    (hl : ∀ a ∈ l, a < 1024) (b : Nat) :
    (copyBytes src dst l).read b = if b ∈ l then src.read b else dst.read b := by
  induction l generalizing dst with
  | nil => simp [copyBytes]
  | cons a rest ih =>
    rw [copyBytes, ih (Memory.canonical_write h a _ (hl a (by simp))) fun b hb => hl b (List.mem_cons_of_mem _ hb),
      Memory.read_write h]
    by_cases ha : b = a
    · subst ha; simp
    · simp [ha]

/-- The offsets a line copy moves. -/
theorem mem_copiedOffsets {map : BitVec 1024} {k : BitVec 6} {a : Nat} :
    a ∈ copiedOffsets map k ↔ a / 16 = k.toNat ∧ map.getLsbD a = false := by
  simp only [copiedOffsets, List.mem_filter, List.mem_map, List.mem_range, Bool.not_eq_true']
  constructor
  · rintro ⟨⟨i, hi, rfl⟩, h⟩
    exact ⟨by omega, h⟩
  · rintro ⟨hk, h⟩
    exact ⟨⟨a % 16, by omega, by omega⟩, h⟩

theorem copiedOffsets_lt {map : BitVec 1024} {k : BitVec 6} {a : Nat} (h : a ∈ copiedOffsets map k) : a < 1024 := by
  have := (mem_copiedOffsets.1 h).1
  have := k.isLt
  omega

/-! ### The four banks -/

/-- The four banks keep their canonical form. -/
def Image.Canonical (u : Image) : Prop :=
  Memory.Canonical u.out0 ∧ Memory.Canonical u.out1 ∧ Memory.Canonical u.in0 ∧ Memory.Canonical u.in1

theorem State.memoryLaw_iff {s : State} : s.MemoryLaw ↔ s.image.Canonical := Iff.rfl

theorem Image.Canonical.outHostBank {u : Image} (h : u.Canonical) : Memory.Canonical u.outHostBank := by
  unfold Image.outHostBank; split
  · exact h.2.1
  · exact h.1

theorem Image.Canonical.outLinkBank {u : Image} (h : u.Canonical) : Memory.Canonical u.outLinkBank := by
  unfold Image.outLinkBank; split
  · exact h.1
  · exact h.2.1

theorem Image.Canonical.inHostBank {u : Image} (h : u.Canonical) : Memory.Canonical u.inHostBank := by
  unfold Image.inHostBank; split
  · exact h.2.2.2
  · exact h.2.2.1

theorem Image.Canonical.inLinkBank {u : Image} (h : u.Canonical) : Memory.Canonical u.inLinkBank := by
  unfold Image.inLinkBank; split
  · exact h.2.2.1
  · exact h.2.2.2

theorem Image.Canonical.setOutHostBank {u : Image} (h : u.Canonical) {m : Memory} (hm : Memory.Canonical m) :
    (u.setOutHostBank m).Canonical := by
  unfold Image.setOutHostBank; split
  · exact ⟨h.1, hm, h.2.2⟩
  · exact ⟨hm, h.2⟩

theorem Image.Canonical.setInLinkBank {u : Image} (h : u.Canonical) {m : Memory} (hm : Memory.Canonical m) :
    (u.setInLinkBank m).Canonical := by
  unfold Image.setInLinkBank; split
  · exact ⟨h.1, h.2.1, hm, h.2.2.2⟩
  · exact ⟨h.1, h.2.1, h.2.2.1, hm⟩

/-- The output host bank set is the output host bank read, and the link bank stays. -/
@[simp] theorem Image.setOutHostBank_banks (u : Image) (m : Memory) :
    (u.setOutHostBank m).outHostBank = m ∧ (u.setOutHostBank m).outLinkBank = u.outLinkBank
      ∧ (u.setOutHostBank m).inHostBank = u.inHostBank ∧ (u.setOutHostBank m).inLinkBank = u.inLinkBank := by
  unfold Image.setOutHostBank
  split <;> simp_all [Image.outHostBank, Image.outLinkBank, Image.inHostBank, Image.inLinkBank]

/-- The input link bank set is the input link bank read, and the host bank stays. -/
@[simp] theorem Image.setInLinkBank_banks (u : Image) (m : Memory) :
    (u.setInLinkBank m).inLinkBank = m ∧ (u.setInLinkBank m).inHostBank = u.inHostBank
      ∧ (u.setInLinkBank m).outHostBank = u.outHostBank ∧ (u.setInLinkBank m).outLinkBank = u.outLinkBank := by
  unfold Image.setInLinkBank
  split <;> simp_all [Image.outHostBank, Image.outLinkBank, Image.inHostBank, Image.inLinkBank]

/-! ### Host writes -/

/-- One byte written by the host (R76, R85). -/
theorem Image.hostStore_bank (u : Image) (o : Nat) (b : Byte) :
    (u.hostStore o b).outHostBank = u.outHostBank.write o (ImageByte.of b u.ptest)
      ∧ (u.hostStore o b).outLinkBank = u.outLinkBank := by
  have e : (u.hostStore o b).outHostBank
      = (u.setOutHostBank (u.outHostBank.write o (ImageByte.of b u.ptest))).outHostBank := by
    unfold Image.hostStore Image.outHostBank; dsimp only; split <;> rfl
  have e' : (u.hostStore o b).outLinkBank
      = (u.setOutHostBank (u.outHostBank.write o (ImageByte.of b u.ptest))).outLinkBank := by
    unfold Image.hostStore Image.outLinkBank; dsimp only; split <;> rfl
  rw [e, e']
  simp

/-- The map takes the offset of a byte written while the output catch-up copy is active (R76). -/
theorem Image.hostStore_map (u : Image) (o : Nat) (b : Byte) :
    (u.hostStore o b).outMap = if u.outCopy.isSome then mapInsert u.outMap o else u.outMap := by
  unfold Image.hostStore
  dsimp only
  simp only [Image.setOutHostBank_frame]
  split <;> simp

theorem Image.hostStore_canonical {u : Image} (h : u.Canonical) {o : Nat} (ho : o < 1024) (b : Byte) :
    (u.hostStore o b).Canonical := by
  have c := h.setOutHostBank (Memory.canonical_write h.outHostBank o (ImageByte.of b u.ptest) ho)
  unfold Image.hostStore
  dsimp only
  split
  · exact c
  · exact c

theorem Image.hostStoreAll_canonical {u : Image} (h : u.Canonical) (l : List (Nat × Byte))
    (hl : ∀ c ∈ l, c.1 < 1024) : (u.hostStoreAll l).Canonical := by
  induction l generalizing u with
  | nil => exact h
  | cons c rest ih =>
    exact ih (Image.hostStore_canonical h (hl c (by simp)) _) fun d hd => hl d (List.mem_cons_of_mem _ hd)

/-- Whether an offset is in a map it has joined. -/
theorem getLsbD_mapInsert (map : BitVec 1024) (o a : Nat) (ha : a < 1024) :
    (mapInsert map o).getLsbD a = (map.getLsbD a || decide (a = o)) := by
  simp only [mapInsert, BitVec.getLsbD_or, BitVec.getLsbD_shiftLeft, ha, decide_true, Bool.true_and]
  congr 1
  by_cases h : a = o
  · simp [h]
  · by_cases h' : a < o
    · simp [h, h']
    · have : a - o ≠ 0 := by omega
      simp [h, h', BitVec.getLsbD_one, this]

/-- The offsets an access of the image window reaches lie in one view of 1024 bytes. -/
theorem laneBytes_lt {lanes : Lanes} {addr : BitVec 11} {data : Word} {c : Nat × Byte}
    (h : c ∈ laneBytes lanes addr data) (ha : addr.toNat < 512) : c.1 < 1024 := by
  unfold laneBytes at h
  cases lanes <;> simp only [List.mem_cons, List.not_mem_nil, or_false] at h
  · rcases h with rfl | rfl <;> dsimp only <;> omega
  · subst h; dsimp only; omega
  · subst h; dsimp only; omega

/-! ### Reply storage -/

theorem Image.linkStore_canonical {u : Image} (h : u.Canonical) (o : Nat) (l : List Byte) (hl : o + l.length ≤ 1024) :
    (u.linkStore o l).Canonical := by
  induction l generalizing u o with
  | nil => exact h
  | cons b rest ih =>
    simp only [List.length_cons] at hl
    have c := h.setInLinkBank (Memory.canonical_write h.inLinkBank o (ImageByte.of b false) (by omega))
    unfold Image.linkStore
    dsimp only
    split
    · refine ih ?_ (o + 1) (by omega)
      exact c
    · exact ih c (o + 1) (by omega)

/-- The bytes of a stored reply, and every other byte, read back (R79). -/
theorem Image.linkStore_bank (u : Image) (h : u.Canonical) (o : Nat) (l : List Byte) (hl : o + l.length ≤ 1024) :
    (u.linkStore o l).inHostBank = u.inHostBank
      ∧ (∀ a, (u.linkStore o l).inLinkBank.read a =
          if o ≤ a ∧ a < o + l.length then ImageByte.of (l.getD (a - o) 0) false else u.inLinkBank.read a)
      ∧ ∀ a, a < 1024 → ((u.linkStore o l).inMap.getLsbD a ↔ u.inMap.getLsbD a = true ∨
          u.inCopy.isSome = true ∧ o ≤ a ∧ a < o + l.length) := by
  induction l generalizing u o with
  | nil => simp [Image.linkStore]
  | cons b rest ih =>
    simp only [List.length_cons] at hl
    have c := h.setInLinkBank (Memory.canonical_write h.inLinkBank o (ImageByte.of b false) (by omega))
    have hb : ∀ (v : Image), v.Canonical → v.inHostBank = u.inHostBank →
        v.inLinkBank = u.inLinkBank.write o (ImageByte.of b false) → v.inCopy = u.inCopy →
        (∀ a < 1024, (v.inMap.getLsbD a ↔ u.inMap.getLsbD a = true ∨ u.inCopy.isSome = true ∧ a = o)) →
        (v.linkStore (o + 1) rest).inHostBank = u.inHostBank
        ∧ (∀ a, (v.linkStore (o + 1) rest).inLinkBank.read a =
            if o ≤ a ∧ a < o + (rest.length + 1) then ImageByte.of ((b :: rest).getD (a - o) 0) false
            else u.inLinkBank.read a)
        ∧ ∀ a, a < 1024 → ((v.linkStore (o + 1) rest).inMap.getLsbD a ↔ u.inMap.getLsbD a = true ∨
            u.inCopy.isSome = true ∧ o ≤ a ∧ a < o + (rest.length + 1)) := by
      intro v hv h1 h2 h3 h4
      obtain ⟨g1, g2, g3⟩ := ih v hv (o + 1) (by omega)
      refine ⟨g1.trans h1, fun a => ?_, fun a ha => ?_⟩
      · rw [g2 a, h2, Memory.read_write h.inLinkBank]
        by_cases e : a = o
        · subst e
          rw [if_neg (by omega), if_pos rfl, if_pos (by omega)]
          simp
        · by_cases i : o + 1 ≤ a ∧ a < o + 1 + rest.length
          · rw [if_pos i, if_pos (by omega)]
            obtain ⟨d, hd⟩ : ∃ d, a - o = d + 1 := ⟨a - o - 1, by omega⟩
            rw [show a - (o + 1) = d by omega, hd]
            simp
          · rw [if_neg i, if_neg e, if_neg (by omega)]
      · rw [g3 a ha, h4 a ha, h3]
        constructor
        · rintro ((x | ⟨x, y⟩) | ⟨x, y⟩)
          · exact .inl x
          · exact .inr ⟨x, by omega⟩
          · exact .inr ⟨x, by omega⟩
        · rintro (x | ⟨x, y⟩)
          · exact .inl (.inl x)
          · by_cases e : a = o
            · exact .inl (.inr ⟨x, e⟩)
            · exact .inr ⟨x, by omega⟩
    unfold Image.linkStore
    dsimp only
    split
    · next act =>
      refine hb _ c ?_ ?_ (by simp) fun a ha => ?_
      · exact (u.setInLinkBank_banks _).2.1
      · exact (u.setInLinkBank_banks _).1
      · simp only [Image.setInLinkBank_frame, getLsbD_mapInsert _ _ _ ha, Bool.or_eq_true, decide_eq_true_eq]
        simp [act]
    · next act =>
      refine hb _ c (by simp) (by simp) (by simp) fun a ha => ?_
      simp [act]

end Sys2Proof.Machine
end

