-- ==== Sys2Proof/Laws/Select.lean ====
section
/-! SUPPORT. The element with the lowest number, by which selection, settling and posting choose (R97, R110, R132), and the
ways a search by settle order finds an item. -/

namespace Sys2Proof.Machine

open Sys2Proof

/-- The chosen element is in the list and no other has a lower number. -/
theorem lowestBy_some {α : Type} {f : α → Nat} {l : List α} {x : α} (h : lowestBy f l = some x) :
    x ∈ l ∧ ∀ y ∈ l, f x ≤ f y := by
  induction l generalizing x with
  | nil => cases h
  | cons a rest ih =>
    rw [lowestBy] at h
    split at h
    · next e =>
      cases h
      refine ⟨by simp, fun y hy => ?_⟩
      cases rest with
      | nil => simp at hy; rw [hy]
      | cons b r =>
        exfalso
        rw [lowestBy] at e
        split at e
        · cases e
        · split at e <;> cases e
    · next z e =>
      obtain ⟨m, b⟩ := ih e
      split at h
      · next lt =>
        cases h
        refine ⟨List.mem_cons_of_mem _ m, fun y hy => ?_⟩
        rcases List.mem_cons.1 hy with rfl | hy
        · exact le_of_lt lt
        · exact b y hy
      · next ge =>
        cases h
        refine ⟨by simp, fun y hy => ?_⟩
        rcases List.mem_cons.1 hy with rfl | hy
        · exact le_rfl
        · exact (not_lt.1 ge).trans (b y hy)

/-- Only an empty list has no element with the lowest number. -/
theorem lowestBy_eq_none {α : Type} {f : α → Nat} {l : List α} : lowestBy f l = none ↔ l = [] := by
  cases l with
  | nil => simp [lowestBy]
  | cons a rest =>
    rw [lowestBy]
    split
    · simp
    · split <;> simp

/-- The lowest of a list of numbers. -/
theorem lowestBy_id {l : List Nat} {n : Nat} (m : n ∈ l) (b : ∀ k ∈ l, n ≤ k) : lowestBy id l = some n := by
  cases h : lowestBy id l with
  | none => rw [lowestBy_eq_none.1 h] at m; cases m
  | some k =>
    obtain ⟨mk, bk⟩ := lowestBy_some h
    exact congrArg some (le_antisymm (bk n m) (b k mk))

/-- The settle order of a HELD entry is among those waiting. -/
theorem State.held_mem_waitingOrders {s : State} {e : OutEntry} {st : Settlement} (m : e ∈ s.cmd.outstanding)
    (h : e.state = .held st) : st.order ∈ s.waitingOrders := by
  refine List.mem_append_right _ (List.mem_filterMap.2 ⟨e, m, ?_⟩)
  simp [OutEntry.settlement?, h]

/-- The settle order of a DOOMED entry is among those waiting. -/
theorem State.doomed_mem_waitingOrders {s : State} {q : QueueEntry} {st : Settlement} (m : q ∈ s.cmd.queue)
    (h : q.doomed = some st) : st.order ∈ s.waitingOrders :=
  List.mem_append_left _ (List.mem_filterMap.2 ⟨q, m, by simp [h]⟩)

/-- A search for an image under a function finds the one element that has it. -/
theorem find?_image {α : Type} {l : List α} {f : α → Option Nat} {x : α} {n : Nat} (nd : (l.filterMap f).Nodup)
    (m : x ∈ l) (h : f x = some n) : (l.find? fun y => f y == some n) = some x := by
  induction l with
  | nil => cases m
  | cons a rest ih =>
    rcases List.mem_cons.1 m with rfl | m'
    · simp [h]
    · cases ha : f a with
      | none =>
        rw [List.find?_cons_of_neg (by simp [ha])]
        rw [List.filterMap_cons_none ha] at nd
        exact ih nd m'
      | some k =>
        rw [List.filterMap_cons_some ha, List.nodup_cons] at nd
        have ne : k ≠ n := fun c => nd.1 (by rw [c]; exact List.mem_filterMap.2 ⟨x, m', h⟩)
        rw [List.find?_cons_of_neg (by simpa [ha] using ne)]
        exact ih nd.2 m'

/-- A search for an image that no element has finds none. -/
theorem find?_image_none {α : Type} {l : List α} {f : α → Option Nat} {n : Nat} (h : n ∉ l.filterMap f) :
    (l.find? fun y => f y == some n) = none := by
  rw [List.find?_eq_none]
  intro x m c
  exact h (List.mem_filterMap.2 ⟨x, m, by simpa using c⟩)

end Sys2Proof.Machine
end

