-- ==== Sys2Proof/Laws/Step.lean ====
section
/-! SUPPORT. What a step can do, said once: a command is a bus access that the port takes or latches, a change of a pin,
or an event of one of the blocks; and a tick counts timers and makes their expiries due. -/

namespace Sys2Proof.Machine

open Sys2Proof

/-- What an event does in the block that takes it; the other commands are no events. -/
def eventEffect : Instr → State → State
  | .waitingAccessTaken => State.takeWaiting
  | .activityOnset => State.onset
  | .characterEnd b stop => fun s => s.characterEnd b stop
  | .characterGap => State.characterGap
  | .windowClose => State.windowClose
  | .window2Open => State.window2Open
  | .slotEnd => State.slotEnd
  | .headSegmentEnd => State.headEnd
  | .frameEnd => State.frameEnd
  | .lReadback received => fun s => s.readback received
  | .markEnd => State.markEnd
  | .lineQuiet => State.takeLineQuiet
  | .activityReport => State.takeActivityReport
  | .linkFault kind => fun s => s.takeLinkFault kind
  | .nodeOutcome n kind k v => fun s => s.takeOutcome n kind k v
  | .lateNotice n k => fun s => s.takeLate n k
  | .ackOutcome v => fun s => s.takeAck v
  | .replyStorage n bytes => fun s => s.storeReply n bytes
  | .resultTrailer n tag serial outcome data => fun s => s.takeTrailer n tag serial outcome data
  | .nodeDownNotice n => fun s => s.takeNodeDown n
  | .abandonNotice => State.takeAbandon
  | .resultTimeout => State.takeTimeouts
  | .lineCopy => State.lineCopy
  | .faultReport r => fun s => s.takeReport r
  | .lineReturnsTo1 => State.lineReturns
  | _ => id

/-- An event that a block takes: out of reset, with operands that fit, and inside the bank. -/
structure State.Takes (s : State) (c : Instr) : Prop where
  ready : s.inReset = false
  fits : c.wellFormed = true
  stored : ∀ n bytes, c = .replyStorage n bytes → s.storageBeyondBank n bytes = false

theorem State.takes_of (s : State) (c : Instr) (h : s.inReset = false) (f : c.wellFormed = true)
    (r : ∀ n bytes, c ≠ .replyStorage n bytes) : s.Takes c :=
  ⟨h, f, fun n bytes e => absurd e (r n bytes)⟩

/-- A port that latches only what was latched already, or an access to the image window (R171, R177). -/
def Port.Follows (p q : Port) : Prop := ∀ a, p.first = some a → q.first = some a ∨ a.window = .image

/-- Everything a presentation can do: another condition of the port, or the access taken at once. -/
theorem State.present_cases (s : State) (a : Access) :
    (∃ p : Port, s.present a = s.setPort p ∧ p.Follows s.port) ∨ s.inReset = false ∧ s.present a = s.takeAccess a := by
  have wait : s.mustWait a = true → ∀ x : Access, some a = some x → s.port.first = some x ∨ x.window = .image := by
    intro h x e
    unfold State.mustWait at h
    simp only [Bool.and_eq_true, beq_iff_eq] at h
    cases e
    exact .inr h.1.1
  unfold State.present
  by_cases hr : s.inReset = true
  · rw [if_pos hr]; exact .inl ⟨_, rfl, fun x e => .inl e⟩
  · rw [if_neg hr]
    rw [Bool.not_eq_true] at hr
    split
    · split
      · next w => exact .inl ⟨_, rfl, wait w⟩
      · exact .inr ⟨hr, rfl⟩
    · split
      · next w => exact .inl ⟨_, rfl, wait w⟩
      · exact .inr ⟨hr, rfl⟩
    · unfold State.presentBehind
      split
      · exact .inl ⟨s.port, rfl, fun x e => .inl e⟩
      · split
        · exact .inl ⟨_, rfl, fun x e => .inl e⟩
        · exact .inl ⟨_, rfl, fun x e => .inl e⟩

/-- Everything that carrying out an access can do: nothing, a refusal by the register window, a register write, an image
write or an image read. -/
theorem State.carryOut_cases (s : State) (a : Access) :
    (s.carryOut a).1 = s ∨ (a.window = .registers ∧ ∃ o, (s.carryOut a).1 = s.refuseAccess o)
      ∨ (a.window = .registers ∧ ∃ r v, (s.carryOut a).1 = s.writeRegister r v)
      ∨ (a.window = .image ∧ (s.carryOut a).1 = s.imageWrite a.lanes a.addr a.data)
      ∨ (a.window = .image ∧ (s.carryOut a).1 = (s.imageRead a.lanes a.addr).1) := by
  have reg : a.window = .registers → (s.registerAccess a).1 = s ∨ (∃ o, (s.registerAccess a).1 = s.refuseAccess o)
      ∨ ∃ r v, (s.registerAccess a).1 = s.writeRegister r v := by
    intro _
    unfold State.registerAccess
    dsimp only
    split
    · split
      · unfold State.writeOffset
        split
        · exact .inr (.inl ⟨_, rfl⟩)
        · exact .inr (.inr ⟨_, _, rfl⟩)
      · exact .inr (.inl ⟨_, rfl⟩)
      · exact .inr (.inl ⟨_, rfl⟩)
      · exact .inl rfl
    · unfold State.readOffset
      repeat' split
      all_goals first
        | exact .inl rfl
        | exact .inr (.inl ⟨_, rfl⟩)
  have img : (s.imageAccess a).1 = s.imageWrite a.lanes a.addr a.data
      ∨ (s.imageAccess a).1 = (s.imageRead a.lanes a.addr).1 := by
    unfold State.imageAccess
    split
    · exact .inl rfl
    · exact .inr rfl
  have both : (a.window = .registers → (s.carryOut a).1 = (s.registerAccess a).1 ∨ (s.carryOut a).1 = s)
      ∧ (a.window = .image → (s.carryOut a).1 = (s.imageAccess a).1 ∨ (s.carryOut a).1 = s) := by
    unfold State.carryOut
    cases a.lanes <;> cases a.window <;> simp
  cases w : a.window with
  | registers =>
    rcases both.1 w with e | e
    · rw [e]
      rcases reg w with h | h | h
      · exact .inl h
      · exact .inr (.inl ⟨rfl, h⟩)
      · exact .inr (.inr (.inl ⟨rfl, h⟩))
    · exact .inl e
  | image =>
    rcases both.2 w with e | e
    · rw [e]
      rcases img with h | h
      · exact .inr (.inr (.inr (.inl ⟨rfl, h⟩)))
      · exact .inr (.inr (.inr (.inr ⟨rfl, h⟩)))
    · exact .inl e

/-- Everything a command can do. -/
theorem exec_cases {c : Instr} {s t : State} (h : exec c s = .next t) :
    t = s ∨ (∃ p : Port, t = s.setPort p ∧ p.Follows s.port) ∨ (s.inReset = true ∧ ∃ level, t = s.setRxd level)
      ∨ (∃ a, s.inReset = false ∧ t = s.takeAccess a) ∨ (c = .hardwareReset ∧ t = s.assertReset)
      ∨ (s.inReset = true ∧ t = { s with inReset := false, port := Port.reset })
      ∨ (s.Takes c ∧ t = eventEffect c (s.takeDue c)) := by
  have pres : ∀ a, t = s.present a → (∃ p : Port, t = s.setPort p ∧ p.Follows s.port) ∨ ∃ a, s.inReset = false ∧ t = s.takeAccess a := by
    rintro a rfl
    rcases s.present_cases a with ⟨p, e, f⟩ | ⟨r, e⟩
    · exact .inl ⟨p, e, f⟩
    · exact .inr ⟨a, r, e⟩
  have host : ∀ a, t = s.present a → t = s ∨ (∃ p : Port, t = s.setPort p ∧ p.Follows s.port) ∨ (s.inReset = true ∧ ∃ level, t = s.setRxd level)
      ∨ (∃ a, s.inReset = false ∧ t = s.takeAccess a) ∨ (c = .hardwareReset ∧ t = s.assertReset)
      ∨ (s.inReset = true ∧ t = { s with inReset := false, port := Port.reset })
      ∨ (s.Takes c ∧ t = eventEffect c (s.takeDue c)) := by
    intro a e
    rcases pres a e with h | h
    · exact .inr (.inl h)
    · exact .inr (.inr (.inr (.inl h)))
  have ev : ∀ f : State → State, (s.inReset = false → s.Takes c) → eventEffect c = f → t = s.event c f → t = s
      ∨ (∃ p : Port, t = s.setPort p ∧ p.Follows s.port) ∨ (s.inReset = true ∧ ∃ level, t = s.setRxd level)
      ∨ (∃ a, s.inReset = false ∧ t = s.takeAccess a) ∨ (c = .hardwareReset ∧ t = s.assertReset)
      ∨ (s.inReset = true ∧ t = { s with inReset := false, port := Port.reset })
      ∨ (s.Takes c ∧ t = eventEffect c (s.takeDue c)) := by
    intro f w e h
    by_cases hr : s.inReset = true
    · rw [State.event_inReset _ _ _ hr] at h; exact .inl h
    · rw [Bool.not_eq_true] at hr
      rw [State.event_ready _ _ _ hr] at h
      exact .inr (.inr (.inr (.inr (.inr (.inr ⟨w hr, by rw [e]; exact h⟩)))))
  have wf : ∀ f : State → State, ((∀ n bytes, c ≠ .replyStorage n bytes) ∧ c.wellFormed = true) → eventEffect c = f →
      t = s.event c f → _ := fun f w => ev f fun r => s.takes_of c r w.2 w.1
  cases c with
  | run => exact host _ (Host.Outcome.next.inj h).symm
  | stop => exact host _ (Host.Outcome.next.inj h).symm
  | abort => exact host _ (Host.Outcome.next.inj h).symm
  | restart => exact host _ (Host.Outcome.next.inj h).symm
  | creset => exact host _ (Host.Outcome.next.inj h).symm
  | settingsWrite r v => exact host _ (Host.Outcome.next.inj h).symm
  | slotRecordWrite r v => exact host _ (Host.Outcome.next.inj h).symm
  | switch x => exact host _ (Host.Outcome.next.inj h).symm
  | cancel x => exact host _ (Host.Outcome.next.inj h).symm
  | nodeConfigWrite v => exact host _ (Host.Outcome.next.inj h).symm
  | enableRequest v => exact host _ (Host.Outcome.next.inj h).symm
  | disable v => exact host _ (Host.Outcome.next.inj h).symm
  | sliceOffsetWrite r v => exact host _ (Host.Outcome.next.inj h).symm
  | nlenWrite v => exact host _ (Host.Outcome.next.inj h).symm
  | ncntWrite v => exact host _ (Host.Outcome.next.inj h).symm
  | changeSetRemove x v => exact host _ (Host.Outcome.next.inj h).symm
  | publish v => exact host _ (Host.Outcome.next.inj h).symm
  | holdSet v => exact host _ (Host.Outcome.next.inj h).symm
  | holdClear v => exact host _ (Host.Outcome.next.inj h).symm
  | ptestWrite v => exact host _ (Host.Outcome.next.inj h).symm
  | imageWrite l a d => exact host _ (Host.Outcome.next.inj h).symm
  | imageRead l a => exact host _ (Host.Outcome.next.inj h).symm
  | cqput v => exact host _ (Host.Outcome.next.inj h).symm
  | rqtake v => exact host _ (Host.Outcome.next.inj h).symm
  | ipendClear v => exact host _ (Host.Outcome.next.inj h).symm
  | ienWrite v => exact host _ (Host.Outcome.next.inj h).symm
  | flagClear x v => exact host _ (Host.Outcome.next.inj h).symm
  | fccodeWrite v => exact host _ (Host.Outcome.next.inj h).symm
  | registerWrite o v => exact host _ (Host.Outcome.next.inj h).symm
  | byteWrite o b v => exact host _ (Host.Outcome.next.inj h).symm
  | accessFault c =>
    simp only [exec, execAccessFault] at h
    split at h
    · exact .inl (Host.Outcome.next.inj h).symm
    · exact host _ (Host.Outcome.next.inj h).symm
  | strobeRelease =>
    simp only [exec, execStrobeRelease, State.releaseStrobe] at h
    repeat' split at h
    all_goals exact .inr (.inl ⟨_, (Host.Outcome.next.inj h).symm, fun x e => by first | exact .inl e | simp [Port.reset] at e⟩)
  | hardwareReset => exact .inr (.inr (.inr (.inr (.inl ⟨rfl, (Host.Outcome.next.inj h).symm⟩))))
  | resetPinRelease =>
    simp only [exec, execResetPinRelease, State.releaseReset] at h
    split at h
    · next hr => exact .inr (.inr (.inr (.inr (.inr (.inl ⟨hr, (Host.Outcome.next.inj h).symm⟩)))))
    · exact .inl (Host.Outcome.next.inj h).symm
  | waitingAccessTaken => exact wf _ ⟨by simp, rfl⟩ rfl (Host.Outcome.next.inj h).symm
  | activityOnset =>
    simp only [exec, execActivityOnset] at h
    split at h
    · next hr => exact .inr (.inr (.inl ⟨hr, false, (Host.Outcome.next.inj h).symm⟩))
    · next hr =>
      rw [Bool.not_eq_true] at hr
      exact .inr (.inr (.inr (.inr (.inr (.inr ⟨s.takes_of _ hr rfl (by simp), (Host.Outcome.next.inj h).symm⟩)))))
  | lineReturnsTo1 =>
    simp only [exec, execLineReturnsTo1] at h
    split at h
    · next hr => exact .inr (.inr (.inl ⟨hr, true, (Host.Outcome.next.inj h).symm⟩))
    · next hr =>
      rw [Bool.not_eq_true] at hr
      exact .inr (.inr (.inr (.inr (.inr (.inr ⟨s.takes_of _ hr rfl (by simp), (Host.Outcome.next.inj h).symm⟩)))))
  | characterEnd b x => exact wf _ ⟨by simp, rfl⟩ rfl (Host.Outcome.next.inj h).symm
  | characterGap => exact wf _ ⟨by simp, rfl⟩ rfl (Host.Outcome.next.inj h).symm
  | windowClose => exact wf _ ⟨by simp, rfl⟩ rfl (Host.Outcome.next.inj h).symm
  | window2Open => exact wf _ ⟨by simp, rfl⟩ rfl (Host.Outcome.next.inj h).symm
  | frameEnd => exact wf _ ⟨by simp, rfl⟩ rfl (Host.Outcome.next.inj h).symm
  | lReadback x => exact wf _ ⟨by simp, rfl⟩ rfl (Host.Outcome.next.inj h).symm
  | markEnd => exact wf _ ⟨by simp, rfl⟩ rfl (Host.Outcome.next.inj h).symm
  | lineQuiet => exact wf _ ⟨by simp, rfl⟩ rfl (Host.Outcome.next.inj h).symm
  | activityReport => exact wf _ ⟨by simp, rfl⟩ rfl (Host.Outcome.next.inj h).symm
  | linkFault k => exact wf _ ⟨by simp, rfl⟩ rfl (Host.Outcome.next.inj h).symm
  | ackOutcome v => exact wf _ ⟨by simp, rfl⟩ rfl (Host.Outcome.next.inj h).symm
  | abandonNotice => exact wf _ ⟨by simp, rfl⟩ rfl (Host.Outcome.next.inj h).symm
  | resultTimeout => exact wf _ ⟨by simp, rfl⟩ rfl (Host.Outcome.next.inj h).symm
  | lineCopy => exact wf _ ⟨by simp, rfl⟩ rfl (Host.Outcome.next.inj h).symm
  | slotEnd =>
    simp only [exec, execSlotEnd] at h
    split at h
    · cases h
    · exact wf _ ⟨by simp, rfl⟩ rfl (Host.Outcome.next.inj h).symm
  | headSegmentEnd =>
    simp only [exec, execHeadSegmentEnd] at h
    split at h
    · cases h
    · exact wf _ ⟨by simp, rfl⟩ rfl (Host.Outcome.next.inj h).symm
  | nodeOutcome n k i v =>
    simp only [exec, execNodeOutcome] at h
    split at h
    · next w => exact wf _ ⟨by simp, w⟩ rfl (Host.Outcome.next.inj h).symm
    · cases h
  | lateNotice n i =>
    simp only [exec, execLateNotice] at h
    split at h
    · next w => exact wf _ ⟨by simp, w⟩ rfl (Host.Outcome.next.inj h).symm
    · cases h
  | resultTrailer n a b o d =>
    simp only [exec, execResultTrailer] at h
    split at h
    · next w => exact wf _ ⟨by simp, w⟩ rfl (Host.Outcome.next.inj h).symm
    · cases h
  | nodeDownNotice n =>
    simp only [exec, execNodeDownNotice] at h
    split at h
    · next w => exact wf _ ⟨by simp, w⟩ rfl (Host.Outcome.next.inj h).symm
    · cases h
  | faultReport r =>
    simp only [exec, execFaultReport] at h
    split at h
    · next w => exact wf _ ⟨by simp, w⟩ rfl (Host.Outcome.next.inj h).symm
    · cases h
  | replyStorage n bytes =>
    simp only [exec, execReplyStorage] at h
    split at h
    · cases h
    · next w =>
      split at h
      · cases h
      · next b =>
        refine ev _ (fun r => ⟨r, by simpa using w, ?_⟩) rfl (Host.Outcome.next.inj h).symm
        intro n' bytes' e
        cases e
        simpa [r] using b

/-- The expiries that a tick can make due. -/
def isExpiry : Instr → Bool
  | .frameEnd | .markEnd | .windowClose | .window2Open | .characterGap | .lineQuiet | .headSegmentEnd | .slotEnd
  | .lineCopy => true
  | _ => false

theorem State.expire_eq (s : State) (b : Bool) (c : Instr) :
    s.expire b c = { s with due := s.due ++ if b then [c] else [] } := by
  unfold State.expire
  cases b
  · simp
  · rfl

/-- What a tick leaves of the line: the link engine as it is, with a frame being cut or none as before, or the abort mark begun
(R4). -/
def State.LineTicks (s : State) (link : Link) (timers : Timers) : Prop :=
  link = s.link ∧ timers.cut.isSome = s.timers.cut.isSome
    ∨ s.timers.cut.isSome = true ∧ link = (s.enterMark s.link.quietAfterMark).link

/-- The frame timer's part of a tick. -/
theorem State.tickFrame_cases (s : State) :
    ∃ l link timers, s.tickFrame = { s with link := link, timers := timers, due := s.due ++ l }
      ∧ (∀ c ∈ l, isExpiry c = true) ∧ s.LineTicks link timers := by
  unfold State.tickFrame State.LineTicks
  dsimp only
  cases hc : s.timers.cut with
  | some n =>
    dsimp only
    split
    · exact ⟨[], _, (s.enterMark s.link.quietAfterMark).timers, by simp [State.enterMark, State.linkClear], by simp,
        .inr ⟨rfl, rfl⟩⟩
    · exact ⟨[], s.link, _, by simp; rfl, by simp, .inl ⟨rfl, rfl⟩⟩
  | none =>
    dsimp only
    rw [State.expire_eq, State.expire_eq]
    refine ⟨(if (countDown s.timers.frame).2 then [.frameEnd] else []) ++
      (if (countDown s.timers.mark).2 then [.markEnd] else []), s.link,
      { s.timers with frame := (countDown s.timers.frame).1, mark := (countDown s.timers.mark).1 },
      by simp [hc], ?_, .inl ⟨rfl, by simp [hc]⟩⟩
    intro c m
    rcases List.mem_append.1 m with m | m <;> split at m <;> simp at m <;> rw [m] <;> rfl

/-- Everything a tick does: timers count, the abort mark or a line copy may begin, and expiries become due. -/
theorem State.tick_cases (s : State) :
    ∃ l line link timers, s.tick = { s with
        link := link
        timers := timers
        due := s.due ++ l
        image := { s.image with lineInProgress := line } }
      ∧ (∀ c ∈ l, isExpiry c = true) ∧ s.LineTicks link timers ∧ (s.inReset = true → s.tick = s) := by
  by_cases hr : s.inReset = true
  · have e : s.tick = s := by unfold State.tick unlessReset; rw [if_pos hr]
    exact ⟨[], s.image.lineInProgress, s.link, s.timers, by rw [e]; simp, by simp, .inl ⟨rfl, rfl⟩, fun _ => e⟩
  · have e : s.tick = s.tickFrame.tickWindows.tickLine.tickSegment.tickCopies := by
      unfold State.tick unlessReset; rw [if_neg hr]
    rw [e]
    let Q (u : State) : Prop := ∃ l link timers, u = { s with link := link, timers := timers, due := s.due ++ l }
      ∧ (∀ c ∈ l, isExpiry c = true) ∧ s.LineTicks link timers
    have time : ∀ u : State, Q u → ∀ tm : Timers, tm.cut = u.timers.cut → Q { u with timers := tm } := by
      rintro u ⟨l, link, tm', rfl, hl, ht⟩ tm hc
      exact ⟨l, link, tm, rfl, hl, by unfold State.LineTicks at *; rw [hc]; exact ht⟩
    have ex : ∀ u : State, Q u → ∀ (b : Bool) (c : Instr), isExpiry c = true → Q (u.expire b c) := by
      rintro u ⟨l, link, tm, rfl, hl, ht⟩ b c hc
      refine ⟨l ++ if b then [c] else [], link, tm, by rw [State.expire_eq]; simp, ?_, ht⟩
      intro x hx
      rcases List.mem_append.1 hx with m | m
      · exact hl x m
      · cases b <;> simp at m
        rw [m]; exact hc
    have h1 : Q s.tickFrame := s.tickFrame_cases
    generalize s.tickFrame = u1 at *
    have h2 : Q u1.tickWindows := by refine ex _ (ex _ (time u1 h1 _ ?_) _ _ rfl) _ _ rfl; rfl
    generalize u1.tickWindows = u2 at *
    have h3 : Q u2.tickLine := by
      have c0 : Q u2.countIdle := by
        unfold State.countIdle; split
        · refine time u2 h2 _ ?_; rfl
        · exact h2
      refine time _ (ex _ (ex _ c0 _ _ rfl) _ _ rfl) _ ?_; rfl
    generalize u2.tickLine = u3 at *
    have h4 : Q u3.tickSegment := by
      refine ex _ (time u3 h3 _ ?_) _ _ (by unfold State.segmentEvent; split <;> rfl); rfl
    generalize u3.tickSegment = u4 at *
    unfold State.tickCopies
    split
    · obtain ⟨l, link, tm, e, hl, ht⟩ := ex _ (time u4 h4 { u4.timers with lineCopy := (countDown u4.timers.lineCopy).1 }
        rfl) (countDown u4.timers.lineCopy).2 .lineCopy rfl
      exact ⟨l, s.image.lineInProgress, link, tm, e, hl, ht, fun h => absurd h hr⟩
    · obtain ⟨l, link, tm, e, hl, ht⟩ := h4
      exact ⟨l, s.image.lineInProgress, link, tm, e, hl, ht, fun h => absurd h hr⟩
    · next d _ _ _ _ =>
      obtain ⟨l, link, tm, e, hl, ht⟩ := h4
      refine ⟨l, some d, link, { tm with lineCopy := some (Config.lineCopyTicks - 1) }, ?_, hl, ht, fun h => absurd h hr⟩
      rw [e]; rfl
    · next n _ _ _ =>
      obtain ⟨l, link, tm, e, hl, ht⟩ := h4
      refine ⟨l, s.image.lineInProgress, link, { tm with copyDelay := n }, ?_, hl, ht, fun h => absurd h hr⟩
      rw [e]

/-- Everything a step can do. -/
theorem step_cases {s t : State} (h : step s = .next t) :
    (∃ c rest, s.pending = c :: rest ∧ exec c { s with pending := rest } = .next t)
      ∨ (∃ c rest, s.pending = [] ∧ s.due = c :: rest ∧ exec c s = .next t)
      ∨ (s.pending = [] ∧ s.due = [] ∧ t = s.tick) := by
  unfold step at h
  split at h
  · next e => exact .inl ⟨_, _, e, h⟩
  · next e1 e2 => exact .inr (.inl ⟨_, _, e1, e2, h⟩)
  · next e1 e2 => exact .inr (.inr ⟨e1, e2, by simpa using h.symm⟩)

end Sys2Proof.Machine
end

