-- ==== Sys2Proof/Laws/Banks.lean ====
section
/-! SUPPORT. Which operations leave the banks of image memory, and what the host sees of the input side, as they were. -/

namespace Sys2Proof.Machine

open Sys2Proof

/-- The stored bytes of the four banks are the same. -/
def Image.SameBanks (u v : Image) : Prop := v.out0 = u.out0 ∧ v.out1 = u.out1 ∧ v.in0 = u.in0 ∧ v.in1 = u.in1

/-- The input roles and what the input swap publishes are the same (R80, R82). -/
def Image.SameInputs (u v : Image) : Prop :=
  v.inHost = u.inHost ∧ v.hostFresh = u.hostFresh ∧ v.snapCycle = u.snapCycle

/-- The output roles are the same, or have been exchanged once with the catch-up copy begun (R74). -/
def Image.SwapsOnce (u v : Image) : Prop :=
  v.outHost = u.outHost ∧ v.outCopy = u.outCopy ∨ u.outCopy = none ∧ v.outHost = (!u.outHost) ∧ v.outCopy = some 0

/-- All three. -/
def Image.Kept (u v : Image) : Prop := u.SameBanks v ∧ u.SameInputs v ∧ u.SwapsOnce v

theorem Image.SameBanks.refl (u : Image) : u.SameBanks u := ⟨rfl, rfl, rfl, rfl⟩

theorem Image.SameBanks.trans {u v w : Image} (h : u.SameBanks v) (h' : v.SameBanks w) : u.SameBanks w :=
  ⟨h'.1.trans h.1, h'.2.1.trans h.2.1, h'.2.2.1.trans h.2.2.1, h'.2.2.2.trans h.2.2.2⟩

theorem Image.SwapsOnce.trans {u v w : Image} (h : u.SwapsOnce v) (h' : v.SwapsOnce w) : u.SwapsOnce w := by
  unfold Image.SwapsOnce at *
  rcases h with ⟨a, b⟩ | ⟨a, b, c⟩ <;> rcases h' with ⟨x, y⟩ | ⟨x, y, z⟩ <;> simp_all

theorem Image.Kept.refl (u : Image) : u.Kept u := ⟨.refl u, ⟨rfl, rfl, rfl⟩, .inl ⟨rfl, rfl⟩⟩

theorem Image.Kept.of_eq {u v : Image} (h : v = u) : u.Kept v := h ▸ .refl u

theorem Image.Kept.trans {u v w : Image} (h : u.Kept v) (h' : v.Kept w) : u.Kept w :=
  ⟨h.1.trans h'.1, ⟨h'.2.1.1.trans h.2.1.1, h'.2.1.2.1.trans h.2.1.2.1, h'.2.1.2.2.trans h.2.1.2.2⟩,
    h.2.2.trans h'.2.2⟩

theorem Image.SameBanks.canonical {u v : Image} (h : u.SameBanks v) (c : u.Canonical) : v.Canonical := by
  unfold Image.Canonical
  rw [h.1, h.2.1, h.2.2.1, h.2.2.2]
  exact c

/-- With the same bytes and the same role, the output link bank is the same. -/
theorem Image.SameBanks.outLinkBank {u v : Image} (h : u.SameBanks v) (r : v.outHost = u.outHost) :
    v.outLinkBank = u.outLinkBank := by
  unfold Image.outLinkBank
  rw [h.1, h.2.1, r]

/-- With the same bytes and the same role, the input host bank is the same. -/
theorem Image.SameBanks.inHostBank {u v : Image} (h : u.SameBanks v) (r : v.inHost = u.inHost) :
    v.inHostBank = u.inHostBank := by
  unfold Image.inHostBank
  rw [h.2.2.1, h.2.2.2, r]

theorem State.takePendingPublish_image (s : State) : s.image.Kept s.takePendingPublish.image := by
  have h := s.takePendingPublish_banks
  refine ⟨⟨h.1, h.2.1, h.2.2.1, h.2.2.2.1⟩, ⟨h.2.2.2.2.1, h.2.2.2.2.2.2.1, h.2.2.2.2.2.2.2.2.1⟩, ?_⟩
  unfold State.takePendingPublish
  split
  · next c =>
    simp only [Bool.and_eq_true, Option.isNone_iff_eq_none] at c
    exact .inr ⟨c.2, by simp [State.outputSwap], by simp [State.outputSwap]⟩
  · exact .inl ⟨rfl, rfl⟩

theorem State.requestPublish_image (s : State) : s.image.Kept s.requestPublish.image := by
  unfold State.requestPublish
  split
  · exact .refl _
  · dsimp only
    split
    · exact .trans (v := { s.image with publishPending := true }) (.refl _) (State.takePendingPublish_image _)
    · exact .refl _

theorem State.writeIctl_image (s : State) (v : Word) : s.image.Kept (s.writeIctl v).image := by
  unfold State.writeIctl
  dsimp only
  split
  · exact .trans (.refl _) (State.requestPublish_image (s.setImage _))
  · exact .refl _

theorem State.enterStopped_kept (s : State) : s.image.Kept s.enterStopped.image :=
  .trans (.of_eq (by simp)) (State.takePendingPublish_image _)

theorem State.cycleEndSwap_image (s : State) : s.image.SameBanks s.cycleEndSwap.image := by
  unfold State.cycleEndSwap
  split
  · exact .refl _
  · exact .refl _

theorem State.slotStart_image (s : State) (k : SlotIndex) :
    (s.slotStart k).image = { s.image with slices := (s.slotStart k).image.slices } := by
  have e : (s.slotStart k).image = (s.enterSlot k (s.sched.record s.sched.active k)).image := by
    unfold State.slotStart
    dsimp only
    split
    · next e t h =>
      split at h
      · have f := State.selectCommand_frame _ _ _ h
        simpa using f.2.2.2.1
      · cases h
    · simp
  rw [e]
  rfl

theorem State.slotStart_kept (s : State) (k : SlotIndex) : s.image.Kept (s.slotStart k).image := by
  rw [s.slotStart_image k]
  exact .refl _

theorem State.cycleStart_image (s : State) : s.image.Kept s.cycleStart.image := by
  have e : s.cycleStart.image = (State.takePendingPublish { s.takePendingSwitch with
      sched := { s.takePendingSwitch.sched with
        cycleNumber := s.takePendingSwitch.sched.cycleNumber + 1, state := .head } }).image := by
    simp [State.cycleStart]
  rw [e]
  exact .trans (.of_eq (by simp)) (State.takePendingPublish_image _)

theorem State.cycleEnd_image (s : State) : s.image.SameBanks s.cycleEnd.image := by
  have c : s.image.SameBanks s.schedIdle.cycleEndSwap.image := s.schedIdle.cycleEndSwap_image
  unfold State.cycleEnd
  dsimp only
  generalize s.schedIdle.cycleEndSwap = t at c ⊢
  split
  · exact c.trans t.cycleStart_image.1
  · exact c.trans (State.cycleStart_image _).1
  · exact c.trans ((Image.Kept.of_eq (by simp)).trans (State.enterStopped_kept t.directOff)).1
  all_goals simpa using c

theorem State.afterSlot_image (s : State) (k : SlotIndex) : s.image.SameBanks (s.afterSlot k).image := by
  unfold State.afterSlot
  split
  · exact (s.slotStart_kept _).1
  · exact s.cycleEnd_image

theorem State.slotEnd_image (s : State) : s.image.SameBanks s.slotEnd.image := by
  unfold State.slotEnd
  split
  · exact .trans (Image.Kept.of_eq (by simp)).1 (State.afterSlot_image _ _)
  · exact .refl _
  · exact .refl _

theorem State.headEnd_image (s : State) : s.image.Kept s.headEnd.image := by
  unfold State.headEnd
  split
  · exact .trans (.of_eq (by simp)) (State.slotStart_kept _ _)
  · exact .refl _

theorem State.takeLineQuiet_image (s : State) : s.image.Kept s.takeLineQuiet.image := by
  unfold State.takeLineQuiet
  repeat' split
  all_goals first
    | exact .refl _
    | exact .trans (.of_eq (by simp)) (State.cycleStart_image _)

theorem State.takeLinkFault_image (s : State) (k : LinkFaultKind) : s.image.Kept (s.takeLinkFault k).image := by
  unfold State.takeLinkFault
  split
  · exact .of_eq (by simp)
  · exact .trans (.of_eq (by simp)) (State.enterStopped_kept _)
  · exact .of_eq (by simp)
  all_goals exact .refl _

theorem State.takeActivityReport_image (s : State) : s.image.Kept s.takeActivityReport.image := by
  unfold State.takeActivityReport
  dsimp only
  repeat' split
  all_goals exact .of_eq (by simp)

theorem State.writeRcmd_image (s : State) (v : Word) : s.image.Kept (s.writeRcmd v).image := by
  unfold State.writeRcmd
  split
  · exact .of_eq (by simp)
  · unfold State.cmdStop
    split
    all_goals first
      | exact .trans (.of_eq (by simp)) (State.enterStopped_kept _)
      | exact .of_eq (by simp)
  · unfold State.cmdAbort
    split
    all_goals first
      | exact .trans (.of_eq (by simp)) (State.enterStopped_kept _)
      | exact .of_eq (by simp)
  · unfold State.cmdRestart
    split
    all_goals first
      | exact .trans (.of_eq (by simp)) (State.enterStopped_kept _)
      | exact .of_eq (by simp)
  · unfold State.cmdCreset
    dsimp only
    exact .trans (.of_eq (by simp)) (State.takePendingPublish_image _)
  · exact .of_eq (by simp)

theorem State.writeNode_image (s : State) (r : NodeWriteReg) (v : Word) : s.image.Kept (s.writeNode r v).image := by
  unfold State.writeNode
  split
  · exact .of_eq (by simp)
  · split
    · unfold State.writeNcfg
      dsimp only
      split
      · exact .refl _
      · unfold State.takeEnable
        split
        · exact .of_eq (by simp)
        · split
          · exact .of_eq (by simp)
          · simp [State.disableNode, State.dropSlice, Image.Kept, Image.SameBanks, Image.SameInputs, Image.SwapsOnce]
          all_goals exact .of_eq (by simp)
    all_goals exact .of_eq (by simp)

/-- A register write moves no byte of image memory and swaps no input bank. -/
theorem State.writeRegister_image (s : State) (r : WriteReg) (v : Word) : s.image.Kept (s.writeRegister r v).image := by
  unfold State.writeRegister
  split
  case h_1 => exact s.writeRcmd_image v
  case h_11 => exact s.writeNode_image _ v
  case h_13 => exact s.writeIctl_image v
  all_goals
    apply Image.Kept.of_eq
    first
      | simp
      | (unfold State.writeLset State.writeSetting; split <;> simp)
      | (unfold State.writeCset State.writeSetting; split <;> simp)
      | (unfold State.writeTset State.writeSetting; split <;> simp)
      | (unfold State.writeSctl; split <;> simp [State.cancelSwitch])
      | rfl
      | simp [State.writeSrule, State.writeSnodeb, State.writeSlen]

/-- A host write stores only in the output host bank (R76). -/
theorem State.imageWrite_image (s : State) (lanes : Lanes) (addr : BitVec 11) (data : Word) :
    (s.image.Canonical → (s.imageWrite lanes addr data).image.Canonical)
      ∧ (s.imageWrite lanes addr data).image.outLinkBank = s.image.outLinkBank
      ∧ (s.imageWrite lanes addr data).image.inHostBank = s.image.inHostBank
      ∧ (s.imageWrite lanes addr data).image.SameInputs s.image
      ∧ s.image.SwapsOnce (s.imageWrite lanes addr data).image := by
  have all : ∀ (l : List (Nat × Byte)) (u : Image), (u.hostStoreAll l).outLinkBank = u.outLinkBank
      ∧ (u.hostStoreAll l).inHostBank = u.inHostBank ∧ (u.hostStoreAll l).SameInputs u
      ∧ u.SwapsOnce (u.hostStoreAll l) := by
    intro l
    induction l with
    | nil => intro u; exact ⟨rfl, rfl, ⟨rfl, rfl, rfl⟩, .inl ⟨rfl, rfl⟩⟩
    | cons c r ih =>
      obtain ⟨o, b⟩ := c
      intro u
      obtain ⟨h1, h2, h3, h4⟩ := ih (u.hostStore o b)
      have k : (u.hostStore o b).inHostBank = u.inHostBank ∧ (u.hostStore o b).SameInputs u := by
        unfold Image.hostStore Image.setOutHostBank Image.SameInputs
        cases u.outCopy <;> cases u.outHost <;> exact ⟨rfl, rfl, rfl, rfl⟩
      have w : u.SwapsOnce (u.hostStore o b) := .inl (by simp)
      refine ⟨h1.trans (u.hostStore_bank o b).2, h2.trans k.1, ?_⟩
      exact ⟨⟨k.2.1.trans h3.1, k.2.2.1.trans h3.2.1, k.2.2.2.trans h3.2.2⟩, w.trans h4⟩
  have same : s.delayCopies.image = s.image := by simp
  unfold State.imageWrite
  dsimp only
  split
  · rw [same]; exact ⟨fun h => h, rfl, rfl, ⟨rfl, rfl, rfl⟩, .inl ⟨rfl, rfl⟩⟩
  · next o b rest e =>
    split
    · next lt =>
      have a := all ((o, b) :: rest) s.image
      simp only [State.setImage, same]
      refine ⟨fun h => Image.hostStoreAll_canonical h _ ?_, a⟩
      intro c hc
      refine laneBytes_lt (e ▸ hc) ?_
      unfold laneBytes at e
      cases lanes <;> simp at e <;> omega
    · simp [Image.SameInputs, Image.SwapsOnce]

/-- An output line copy keeps the canonical form, stores only in the output host bank and leaves the input side (R77). -/
theorem State.outputLine_image (s : State) (k : BitVec 6) :
    (s.image.Canonical → (s.outputLine k).image.Canonical)
      ∧ ((s.outputLine k).image.outHost = s.image.outHost → (s.outputLine k).image.outLinkBank = s.image.outLinkBank)
      ∧ (s.outputLine k).image.inHostBank = s.image.inHostBank ∧ s.image.SameInputs (s.outputLine k).image := by
  let u := s.image.setOutHostBank
    (copyBytes s.image.outLinkBank s.image.outHostBank (copiedOffsets s.image.outMap k))
  have e : ∃ t : State, t.image.SameBanks u ∧ t.image.SameInputs u ∧ t.image.outHost = s.image.outHost
      ∧ s.outputLine k = t.publishAfterLine k := by
    refine ⟨_, ?_, ?_, ?_, rfl⟩ <;> simp [State.setImage, Image.SameBanks, Image.SameInputs, u]
  obtain ⟨t, b, i, r, e⟩ := e
  rw [e]
  have k2 : t.image.Kept (t.publishAfterLine k).image := by
    unfold State.publishAfterLine
    split
    · exact t.takePendingPublish_image
    · exact .refl _
  have ub : u.outLinkBank = s.image.outLinkBank ∧ u.inHostBank = s.image.inHostBank ∧ u.outHost = s.image.outHost
      ∧ u.SameInputs s.image := by
    simp [u, Image.SameInputs]
  have sb : u.SameBanks (t.publishAfterLine k).image :=
    .trans ⟨b.1.symm, b.2.1.symm, b.2.2.1.symm, b.2.2.2.symm⟩ k2.1
  have k3 := k2.2.1
  have si : s.image.SameInputs (t.publishAfterLine k).image :=
    ⟨k3.1.trans (i.1.symm.trans ub.2.2.2.1.symm), k3.2.1.trans (i.2.1.symm.trans ub.2.2.2.2.1.symm),
      k3.2.2.trans (i.2.2.symm.trans ub.2.2.2.2.2.symm)⟩
  refine ⟨fun h => sb.canonical ?_, fun h => ?_, ?_, si⟩
  · exact h.setOutHostBank (canonical_copyBytes _ h.outHostBank _ fun a m => copiedOffsets_lt m)
  · rw [sb.outLinkBank (h.trans ub.2.2.1.symm), ub.1]
  · rw [sb.inHostBank (si.1.trans ub.2.2.2.1), ub.2.1]

/-- An input line copy keeps the canonical form, stores only in the input link bank and leaves the output side (R84). -/
theorem State.inputLine_image (s : State) (k : BitVec 6) :
    (s.image.Canonical → (s.inputLine k).image.Canonical)
      ∧ (s.inputLine k).image.outLinkBank = s.image.outLinkBank
      ∧ (s.inputLine k).image.inHostBank = s.image.inHostBank ∧ s.image.SameInputs (s.inputLine k).image := by
  let u := s.image.setInLinkBank (copyBytes s.image.inHostBank s.image.inLinkBank (copiedOffsets s.image.inMap k))
  have sb : u.SameBanks (s.inputLine k).image := by
    simp [State.inputLine, State.setImage, Image.SameBanks, u]
  have si : u.SameInputs (s.inputLine k).image ∧ (s.inputLine k).image.outHost = u.outHost := by
    simp [State.inputLine, State.setImage, Image.SameInputs, u]
  have ub : u.outLinkBank = s.image.outLinkBank ∧ u.inHostBank = s.image.inHostBank ∧ u.SameInputs s.image := by
    simp [u, Image.SameInputs]
  refine ⟨fun h => sb.canonical ?_, ?_, ?_, ?_⟩
  · exact h.setInLinkBank (canonical_copyBytes _ h.inLinkBank _ fun a m => copiedOffsets_lt m)
  · rw [sb.outLinkBank si.2, ub.1]
  · rw [sb.inHostBank si.1.1, ub.2.1]
  · exact ⟨si.1.1.trans ub.2.2.1.symm, si.1.2.1.trans ub.2.2.2.1.symm, si.1.2.2.trans ub.2.2.2.2.symm⟩

/-! ### Host accesses and the line copy in progress -/

/-- A run command neither begins nor ends a line copy (R177). -/
theorem State.writeRcmd_lineInProgress (s : State) (v : Word) :
    (s.writeRcmd v).image.lineInProgress = s.image.lineInProgress := by
  unfold State.writeRcmd State.cmdRun State.cmdStop State.cmdAbort State.cmdRestart State.cmdCreset State.enterStopped
  dsimp only
  repeat' split
  all_goals simp

/-- An ICTL write neither begins nor ends a line copy (R177). -/
theorem State.writeIctl_lineInProgress (s : State) (v : Word) :
    (s.writeIctl v).image.lineInProgress = s.image.lineInProgress := by
  unfold State.writeIctl State.requestPublish
  dsimp only
  repeat' split
  all_goals simp

/-- A register write neither begins nor ends a line copy (R177). -/
theorem State.writeRegister_lineInProgress (s : State) (r : WriteReg) (v : Word) :
    (s.writeRegister r v).image.lineInProgress = s.image.lineInProgress := by
  unfold State.writeRegister
  split
  all_goals try simp [State.writeRcmd_lineInProgress, State.writeIctl_lineInProgress]
  · unfold State.writeLset State.writeSetting; split <;> simp
  · unfold State.writeCset State.writeSetting; split <;> simp
  · unfold State.writeTset State.writeSetting; split <;> simp
  · unfold State.writeSctl; split <;> simp [State.cancelSwitch]
  · unfold State.writeSrule State.writeSlotRecord; dsimp only; split <;> simp
  · unfold State.writeSnodeb State.writeSlotRecord; dsimp only; split <;> simp
  · unfold State.writeSlen State.writeSlotRecord; dsimp only; split <;> simp
  · unfold State.writeNode State.writeNcfg State.takeEnable State.takeLimits State.disableNode State.enableNode
      State.dropSlice State.writeSliceOffset State.writeNlen State.writeNcnt
    dsimp only
    repeat' split
    all_goals simp

/-- A host access taken neither begins nor ends a line copy (R177). -/
theorem State.takeAccess_lineInProgress (s : State) (a : Access) :
    (s.takeAccess a).image.lineInProgress = s.image.lineInProgress := by
  unfold State.takeAccess State.carryOut State.registerAccess State.imageAccess State.readOffset State.writeOffset
    State.imageRead State.imageWrite State.refuseAccess
  dsimp only
  repeat' split
  all_goals simp [State.writeRegister_lineInProgress]

end Sys2Proof.Machine
end

