-- ==== Sys2Proof/Tests/Slice0.lean ====
section
/-! SUPPORT. Tests of the model against the worked examples of the spec, the checks of well-formedness, and a witness for
every statement that has hypotheses. -/

namespace Sys2Proof.Machine.Tests

set_option Elab.async false

open Sys2Proof

/-! ### A machine to test on -/

/-- A node entry with its state and slices. -/
def entry (st : NodeState) (outOff : BitVec 10) (outLen : BitVec 7) (inOff : BitVec 10) (inLen : BitVec 7) : NodeEntry :=
  { NodeEntry.reset with state := st, outOff := outOff, outLen := outLen, inOff := inOff, inLen := inLen }

/-- The schedule of section 2.8: CYC(5), PAIR(3,9), CMD/CYC(7) and CMD/SIL in table A. -/
def schedule : Sched :=
  (((Sched.reset.setRecord .a 0 { rule := 1, nodeA := 5, nodeB := 0, length := 616 }).setRecord .a 1
    { rule := 2, nodeA := 3, nodeB := 9, length := 388 }).setRecord .a 2
    { rule := 3, nodeA := 7, nodeB := 0, length := 546 }).setRecord .a 3 { rule := 4, nodeA := 0, nodeB := 0, length := 546 }

/-- The nodes of section 2.8, each with slices of its own: 3, 5 and 9 ONLINE, 7 OFFLINE. -/
def plant : State :=
  ((({ State.reset with sched := schedule }.setNode 3 (entry .online 0x000 4 0x104 2)).setNode 5
    (entry .online 0x040 8 0x100 4)).setNode 7 (entry .offline 0x010 2 0x110 2)).setNode 9 (entry .online 0x020 2 0x120 6)

/-- The machine in another run state. -/
def State.inRun (s : State) (r : RunState) : State := { s with run := { s.run with state := r } }

/-- The machine with the link engine in another state, on an exchange. -/
def State.onLine (s : State) (st : LinkState) (ex : Exchange) : State :=
  { s with link := { s.link with state := st, exchange := ex } }

/-- The machine in a slot of a cycle. -/
def State.inSlot (s : State) (k : SlotIndex) : State :=
  { State.inRun s .running with sched := { s.sched with state := .slot k } }

/-- The machine with outstanding entries, the mark on one of them. -/
def State.withOut (s : State) (l : List OutEntry) (mark : Option Nat) : State :=
  { s with cmd := { s.cmd with outstanding := l, inFlightMark := mark, nextPush := 10 } }

/-- The machine with queue entries. -/
def State.withQueue (s : State) (l : List QueueEntry) : State :=
  { s with cmd := { s.cmd with queue := l, nextPush := 10 } }

/-- The READ of section 10.9 in the outstanding table: tag 30 for node 7, serial 9. -/
def order (st : OutState) : OutEntry :=
  { tag := 30, node := 7, op := .read, param := 0x0120, len := 4, data := Vector.replicate 16 0, serial := 9, push := 3,
    state := st, retries := 2, busy := 0, cyclesLeft := 16 }

/-- A WRITE of two bytes waiting for node 5. -/
def waiting : QueueEntry :=
  { tag := 40, node := 5, op := .write, barrier := false, param := 0x0300, len := 2, data := Vector.replicate 16 0x1234,
    push := 4, doomed := none }

/-- What a settlement holds. -/
def settled (order : Nat) : Settlement := { order := order, cycle := 7, status := .nodeDown, code := 0, data := [] }

/-- A response record. -/
def response : Response := { tag := 1, node := 5, op := .read, status := .done, code := 0, cycle := 1, data := [] }

/-- The machine with response records in the queue. -/
def State.withResponses (s : State) (n : Nat) : State :=
  { s with result := { s.result with responses := List.replicate n response } }

/-- The state of a next outcome. -/
def after (o : Host.Outcome State Fault Refusal) : Option State :=
  match o with
  | .next t => some t
  | _ => none

/-! ### Well-formedness: each check refuses a term that breaks it -/

theorem test_illformed_outcome_of_node_0 : (Instr.nodeOutcome 0 .data 0 .good).wellFormed = false := by decide
theorem test_illformed_ident_in_data_window : (Instr.nodeOutcome 5 .data 0 (.ident ⟨0, 0, 0, 0⟩)).wellFormed = false := by
  decide
theorem test_illformed_plain_good_probe : (Instr.nodeOutcome 5 .probe 0 .good).wellFormed = false := by decide
theorem test_illformed_late_notice : (Instr.lateNotice 0 3).wellFormed = false := by decide
theorem test_illformed_storage_of_node_0 : (Instr.replyStorage 0 []).wellFormed = false := by decide
theorem test_illformed_storage_too_long : (Instr.replyStorage 5 (List.replicate 65 0)).wellFormed = false := by decide
theorem test_illformed_trailer_of_node_0 : (Instr.resultTrailer 0 1 0 0 []).wellFormed = false := by decide
theorem test_illformed_trailer_too_long : (Instr.resultTrailer 5 1 0 0 (List.replicate 33 0)).wellFormed = false := by
  decide
theorem test_illformed_node_down : (Instr.nodeDownNotice 0).wellFormed = false := by decide
theorem test_illformed_node_fault : (Instr.faultReport ⟨.nLost, 0, 0⟩).wellFormed = false := by decide
theorem test_illformed_is_refused : exec (.lateNotice 0 3) State.reset = .refused .illFormed := rfl

/-! ### What the registers read after a hardware reset (sections 10.2 to 10.7) -/

theorem test_reset_settings : State.reset.readRegister .lset = 0x1800 ∧ State.reset.readRegister .cset = 0x0201
    ∧ State.reset.readRegister .tset = 0x0010 ∧ State.reset.readRegister .ident = 0x2141 := by decide +kernel
theorem test_reset_zeros : State.reset.readRegister .rstate = 0 ∧ State.reset.readRegister .cycnum = 0
    ∧ State.reset.readRegister .sstat = 0 ∧ State.reset.readRegister .istat = 0 ∧ State.reset.readRegister .ien = 0 := by
  decide +kernel
theorem test_reset_ncfg : State.reset.readRegister (.node .ncfg) = 0x0310 ∧ State.reset.readRegister .nsel = 1 := by
  decide +kernel
theorem test_reset_ipend : State.reset.readRegister .ipend = 0x0200 ∧ State.reset.interruptAsserted = false := by
  decide +kernel

/-! ### Frames, replies and registers of section 10.9 -/

theorem test_crc_of_nine_digits : crc16 [0x31, 0x32, 0x33, 0x34, 0x35, 0x36, 0x37, 0x38, 0x39] = 0x29B1#16 := by
  decide +kernel
theorem test_order_frame : (orderFrame (order .awaitAck)).take 9 = [0x14, 7, 5, 0, 0x1E, 0x19, 1, 0x20, 4] := by
  decide +kernel
theorem test_cop_word : (Staging.reset.writeCop 0x2704).op = 1 ∧ (Staging.reset.writeCop 0x2704).node = 7
    ∧ (Staging.reset.writeCop 0x2704).len = 4 ∧ (Staging.reset.writeCop 0x2704).barrier = false := by decide +kernel
/-- Section 10.9: the response of tag 30 as the host reads it. -/
theorem test_response_registers :
    let s := { plant with result := ⟨[⟨30, 7, .read, .done, 0, 41, [0x0A, 0x0B, 0x0C, 0x0D]⟩], 58⟩ }
    s.readRegister .rtag = 0x071E ∧ s.readRegister .rstat = 0x0411 ∧ s.readRegister (.rdata 0) = 0x0B0A
      ∧ s.readRegister (.rdata 1) = 0x0D0C ∧ s.readRegister (.rdata 2) = 0 ∧ s.readRegister .rcyc = 41 := by
  decide +kernel
/-- Section 11.4: FCCODE, FCNODE and FCDETAIL of a node lost. -/
theorem test_capture_registers :
    let s := plant.takeReport ⟨.nLost, 2, place (1 : SlotIndex) 0 ||| place (3 : BitVec 4) 8⟩
    s.readRegister .fccode = 0x0201 ∧ s.readRegister .fcnode = 2 ∧ s.readRegister .fcdetail = 0x0301 := by decide +kernel

/-! ### Budgets and slot resolution of section 2.8, image of section 4.7, access of section 9.6 -/

theorem test_minimums : plant.slotMinimum (plant.sched.record .a 0) = 266 ∧ plant.slotMinimum (plant.sched.record .a 1) = 388
    ∧ plant.slotMinimum (plant.sched.record .a 2) = 546 ∧ plant.slotMinimum (plant.sched.record .a 3) = 546 := by
  decide +kernel
/-- Section 2.8: with W = 40 slot 1 fails with reason BUDGET. -/
theorem test_validation_when_w_is_raised :
    { plant with link := { plant.link with window := 40 } }.validate .a = .fail .a 1 .budget := by decide +kernel
theorem test_slot_0_carries_data :
    ((State.inRun plant .running).slotStart 0).link.exchange = .data 5 true
      ∧ ((State.inRun plant .running).slotStart 0).timers.frame = some (140 * 16) := by decide +kernel
theorem test_slot_1_carries_pair : ((State.inRun plant .running).slotStart 1).link.exchange = .pair 3 9
    ∧ ((State.inRun plant .running).slotStart 1).link.frame.length = 14 := by decide +kernel
theorem test_slot_2_carries_probe : ((State.inRun plant .running).slotStart 2).link.exchange = .probe 7 := by
  decide +kernel
theorem test_slot_2_carries_order :
    ((State.withQueue (State.inRun plant .running) [waiting]).slotStart 2).link.exchange = .order 5 40
      ∧ ((State.withQueue (State.inRun plant .running) [waiting]).slotStart 2).sched.pacing = 1 := by decide +kernel
theorem test_slot_3_is_silent : ((State.inRun plant .running).slotStart 3).link.exchange = .silent
    ∧ ((State.inRun plant .running).slotStart 3).link.state = .guarding := by decide +kernel
/-- Section 9.6: the word 1122h written at 044h puts 22 at 044h and 11 at 045h. -/
theorem test_word_write_lanes : (after (exec (.imageWrite .word 0x022 0x1122) plant)).map (fun t =>
    ((t.image.outHostBank.read 0x044).data, (t.image.outHostBank.read 0x045).data)) = some (0x22, 0x11) := by
  decide +kernel
/-- Section 4.7: PUBLISH in STOPPED swaps at once and latches PUBL. -/
theorem test_publish_in_stopped : (after (exec (.publish 0) plant)).map (fun t =>
    (t.image.outHost, t.image.publishPending, t.image.outCopy, t.fault.latches)) = some (true, false, some 0, 4) := by
  decide +kernel
/-- Section 3.6, cycle 9: sizes 8 and 6 against 2 and 2 take the node to MISMATCH. -/
theorem test_ident_mismatch : (after (exec (.nodeOutcome 7 .probe 2 (.ident ⟨1, 1, 8, 6⟩)) plant)).map (fun t =>
    (t.nodeState 7, t.due)) = some (.mismatch, [.faultReport ⟨.nMismatch, 7, 0x0608⟩]) := by decide +kernel
/-- Section 6.9: a put for an OFFLINE node is posted NODE_DOWN at once. -/
theorem test_put_for_offline_node :
    (after (exec (.cqput 0) { plant with cmd := { plant.cmd with staging := Staging.reset.writeCop 0x4702 } })).map (fun t =>
      (t.cmd.putStatus, t.cmd.queue.length, t.result.responses.map (·.status))) = some (.putOk, 0, [.nodeDown]) := by
  decide +kernel
/-- Section 7.10: a link fault in RUNNING enters RECOVERY with the timer started. -/
theorem test_link_fault_in_running : (after (exec (.linkFault .foreign) (State.inRun plant .running))).map (fun t =>
    (t.run.state, t.run.restarts, t.link.state, t.fault.latches)) = some (.recovery, 0, .quietWait, 0x10) := by
  decide +kernel
/-- Section 11.2: a byte write to a register is dropped with H_ACCESS and the even offset. -/
theorem test_byte_write_dropped : (after (exec (.byteWrite 0x04 true 0x2002) plant)).map (fun t =>
    (t.link.window, t.due)) = some (24, [.faultReport ⟨.hAccess, 0, 4⟩]) := by decide +kernel
/-- Rule R4 at 1.25 Mbit/s: an ABORT fifteen ticks into a bit of sixteen leaves the frame on the line, and the mark begins at
the bit boundary and takes 20 bt. -/
theorem test_abort_within_a_bit :
    let s : State := { State.onLine (State.inSlot plant 0) .send .head with
      link := { plant.link with state := .send, exchange := .head, frame := [0x01] }
      timers := { plant.timers with frame := some (16 * 5 + 1) } }
    (after (exec .abort s)).map (fun t => (t.link.state, t.timers.cut, t.tick.link.state, t.tick.timers.mark))
      = some (.send, some 1, .mark, some (20 * 16)) := by decide +kernel
/-- Rules R1, R4: an LSET write between the ABORT and the bit boundary does not act on the frame that is being cut: its mark
takes 20 bt of the rate the frame stands on the line with. -/
theorem test_lset_during_a_cut :
    let s : State := { plant with
      link := { plant.link with state := .send, frame := [0x01] }
      timers := { plant.timers with frame := some (16 * 5 + 1), cut := some 1 } }
    (after (exec (.settingsWrite .lset 0x1803) s)).map (fun t => (t.link.rate, t.transmitData, t.tick.timers.mark))
      = some (3, s.transmitData, some (20 * 16)) := by decide +kernel
/-- Rule R104: the ACK outcome of an ended slot, taken after the next slot start has set the mark anew, reaches the entry of
its own slot, and the later mark stands. -/
theorem test_outcome_of_an_ended_slot :
    let late : OutEntry := { order .awaitAck with push := 4, tag := 31, node := 5 }
    let s : State := State.withOut plant [order .awaitAck, late] (some 4)
    let s : State := { s with cmd := { s.cmd with endedMarks := [some 3] } }
    (after (exec (.ackOutcome .bad) s)).map (fun t =>
        (t.cmd.outstanding.map (·.state), t.cmd.inFlightMark, t.cmd.endedMarks))
      = some ([.retry, .awaitAck], some 4, []) := by decide +kernel
/-- Rule R2: a reception ends as soon as more than 10 bt of idle line have passed since a character. -/
theorem test_character_gap : ∀ n ∈ [10 * 16 - 1, 10 * 16], ({ State.onLine (State.inSlot plant 0) .receive (.data 5 true) with
    timers := { plant.timers with gap := n } }).tick.due = if n = 160 then [.characterGap] else [] := by decide +kernel
theorem test_no_word_spells_a_command : decodeTableWord 16 0x2141 = none ∧ State.reset.withFetchWord 16 1 = State.reset := by
  decide +kernel

/-! ### Witnesses: states and operands that meet the hypotheses of each statement, clause by clause -/

/-- The machine after an ABORT whose mark is still on the line. -/
def marked : State := State.onLine plant .mark .silent

/-- The machine with table A empty, so that it does not validate. -/
def blank : State := { plant with sched := Sched.reset }

/-- The machine with table B a copy of table A. -/
def twoTables : State := { plant with sched := { plant.sched with tableB := plant.sched.tableA } }

/-- The machine with a switch pending in a run. -/
def switching : State :=
  { State.inRun twoTables .running with sched := { twoTables.sched with pendingSwitch := some .b } }

/-- The machine with a node selected. -/
def State.select (s : State) (n : NodeAddr) : State := { s with nodes := { s.nodes with nsel := n } }

/-- The machine with a command staged. -/
def State.stage (s : State) (cop : Word) : State :=
  { s with cmd := { s.cmd with staging := { Staging.reset.writeCop cop with tag := 50 } } }

/-- The machine with catch-up copies at some line. -/
def State.copying (s : State) (o i : Option (BitVec 6)) : State :=
  { s with image := { s.image with outCopy := o, inCopy := i } }

/-- The machine with a byte of bad parity at offset 3 of output bank 0, the output host bank. -/
def badByte : State := { plant with image := { plant.image with out0 := [(3, 0x055)] } }

/-- The machine with a byte of bad parity at offset 40h of the output link bank, in the slice of node 5. -/
def badSlice : State := { State.inRun plant .running with image := { plant.image with out1 := [(0x40, 0x055)] } }

/-- The machine with the slice copies of a slot that names a node. -/
def State.serving (s : State) (n : NodeAddr) : State :=
  { s with image := { s.image with slices := s.copiesOf [n] }, link := { s.link with slices := s.copiesOf [n] } }

/-- The machine held in reset. -/
def held : State := plant.assertReset

/-- An image read as the port latches it. -/
def latched : Access := { window := .image, write := false, lanes := .word, addr := 0x7FF, data := 0 }

/-- The machine with that read waiting. -/
def waitingRead (released : Bool) (second : Option Access) : State :=
  { plant with port := { Port.reset with state := .waiting, first := some latched, firstReleased := released
                                         second := second } }

/-- The machine with both catch-up copies active, and a line copy of one direction in progress. -/
def copyingNow (d : Direction) : State :=
  let s := State.copying plant (some 0) (some 63)
  { s with image := { s.image with lineInProgress := some d } }

/-- The machine with a publish pending. -/
def State.publishing (s : State) : State := { s with image := { s.image with publishPending := true } }

/-- A slot in which a frame is sent, with the ticks it has to go. -/
def State.sending (s : State) (ex : Exchange) (left : Nat) : State :=
  { State.onLine (State.inSlot s 1) .send ex with timers := { s.timers with frame := some left } }

/-- The machine with a frame being cut, so many ticks from the bit boundary. -/
def State.cutting (s : State) (n : Nat) : State :=
  { State.onLine s .send .silent with timers := { s.timers with frame := some (32 + n), cut := some n } }

/-- The outstanding entries that a test names, when they stand in push order, are those a statement lists. -/
theorem outInOrder_filter (s : State) (p : OutEntry → Bool)
    (h : (s.cmd.outstanding.filter p).Pairwise fun a b => a.push < b.push) :
    s.OutInOrder (s.cmd.outstanding.filter p) (fun e => p e = true) := ⟨h, fun _ => List.mem_filter⟩

/-- The same for the entries of the command queue. -/
theorem queueInOrder_filter (s : State) (p : QueueEntry → Bool)
    (h : (s.cmd.queue.filter p).Pairwise fun a b => a.push < b.push) :
    s.QueueInOrder (s.cmd.queue.filter p) (fun q => p q = true) := ⟨h, fun _ => List.mem_filter⟩

/-- Three outstanding entries of node 7, the last HELD already, and one of node 5. -/
def State.crowd (s : State) : State :=
  State.withOut s [order .awaitAck, { order .accepted with push := 4, tag := 31, cyclesLeft := 1 },
    { order (.held (settled 100)) with push := 5, tag := 32 }, { order .retry with push := 6, tag := 33, node := 5 }] (some 3)

/-- A command, an event that is due, and a tick in reset, of a cut above, at and past its boundary, and with the line at 0
and at 1, a line copy in progress, one to come, put back or not, and none. -/
theorem test_witness_StepTakesFrontCommand :
    (plant.pending = [] ∧ plant.due = []) ∧ (plant.raise .hPop 0 0).pending = []
      ∧ (plant.raise .hPop 0 0).due = .faultReport ⟨.hPop, 0, 0⟩ :: []
      ∧ held.inReset = true ∧ plant.inReset = false ∧ plant.timers.cut = none ∧ plant.link.rxd = true
      ∧ (State.cutting plant 2).timers.cut = some 2 ∧ (State.cutting plant 1).timers.cut = some 1
      ∧ (State.setRxd plant false).link.rxd = false ∧ (State.setRxd plant false).timers.cut = none
      ∧ (copyingNow .output).image.lineInProgress = some .output
      ∧ plant.image.lineInProgress = none ∧ plant.image.nextLine = none
      ∧ (State.copying plant (some 0) none).image.nextLine = some (.output, 0) ∧ plant.timers.copyDelay = 0
      ∧ { plant.timers with copyDelay := 2 }.copyDelay = 1 + 1 := by decide +kernel

theorem test_witness_FrameSizesAndCrc : (order .retry).op = .read
    ∧ { order .retry with op := .write, len := 32 }.op ≠ .read ∧ { order .retry with op := .write, len := 32 }.len.toNat ≤ 32
    ∧ { order .retry with op := .reset, len := 0 }.op ≠ .read ∧ { order .retry with op := .reset, len := 0 }.len.toNat ≤ 32
    := by decide

theorem test_witness_SlotMinimums : (SlotRecord.reset).rule = 0 ∧ (schedule.record .a 0).rule = 1
    ∧ (schedule.record .a 1).rule = 2 ∧ (schedule.record .a 2).rule = 3 ∧ (schedule.record .a 3).rule = 4 := by
  decide +kernel

/-- Every verdict is reached: PASS, EMPTY, and a FAIL at slot 0 and at the last slot, for each reason. -/
theorem test_witness_ValidationVerdict :
    let at' (k : SlotIndex) (r : SlotRecord) : State := { plant with sched := Sched.reset.setRecord .b k r }
    plant.validate .a = .pass ∧ plant.validate .b = .fail .b 0 .empty
      ∧ (at' 0 ⟨5, 0, 0, 64⟩).validate .b = .fail .b 0 .rule ∧ (at' 15 ⟨0, 0, 0, 63⟩).validate .b = .fail .b 15 .length
      ∧ (at' 15 ⟨2, 3, 3, 388⟩).validate .b = .fail .b 15 .node ∧ (at' 0 ⟨1, 5, 0, 265⟩).validate .b = .fail .b 0 .budget
      ∧ (at' 15 ⟨0, 0, 0, 64⟩).validate .b = .pass
      ∧ plant.Ready ∧ plant.run.state = .stopped ∧ TableId.b ≠ plant.sched.active ∧ plant.sched.pendingSwitch = none := by
  unfold State.Ready; decide +kernel

theorem test_witness_RunStartsSettling :
    (plant.Ready ∧ plant.run.state = .stopped ∧ plant.validate plant.sched.active = .pass ∧ plant.marking = false)
      ∧ ∀ s ∈ [marked, State.cutting plant 5], s.Ready ∧ s.run.state = .stopped
        ∧ s.validate s.sched.active = .pass ∧ s.marking = true := by
  unfold State.Ready; decide +kernel

theorem test_witness_RunRefused :
    blank.Ready ∧ blank.run.state = .stopped ∧ blank.validate blank.sched.active = .fail .a 0 .empty
      ∧ (State.inRun plant .halted).Ready ∧ (State.inRun plant .halted).run.state ≠ .stopped := by
  unfold State.Ready; decide +kernel

/-- STOP and RESTART are presented in every run state. -/
theorem test_witness_StopByRunState_RestartByRunState :
    ∀ r : RunState, (State.inRun plant r).Ready ∧ (State.inRun plant r).run.state = r := by
  intro r; exact ⟨⟨rfl, fun h => nomatch h⟩, rfl⟩

/-- An ABORT in the middle of a bit, on its boundary, in a frame that is being cut, in the mark, and with no frame; and the
two entries it settles in push order. -/
theorem test_witness_AbortByRunState :
    let s (n : Nat) := State.crowd (State.sending plant (.order 7 30) n)
    (∀ n ∈ [37, 32], (s n).Ready ∧ (s n).run.state.inRun = true ∧ (s n).PushLaw ∧ (s n).link.state = .send
      ∧ (s n).timers.cut = none)
      ∧ (37 % Config.ticksPerBit (s 37).link.rate ≠ 0 ∧ 32 % Config.ticksPerBit (s 32).link.rate = 0)
      ∧ (State.inRun (State.cutting plant 5) .settling).marking = true
      ∧ (State.inRun marked .settling).marking = true ∧ (State.inRun marked .settling).PushLaw
      ∧ (State.inRun plant .settling).link.state ≠ .send ∧ (State.inRun plant .settling).link.state ≠ .mark
      ∧ (State.inRun plant .stopped).run.state.inRun = false
      ∧ ((s 37).OutInOrder ((s 37).cmd.outstanding.filter fun e => e.unsettled) fun e => e.unsettled = true)
      ∧ ((s 37).cmd.outstanding.filter fun e => e.unsettled).map (·.push) = [3, 4, 6] := by
  refine ⟨?_, by decide +kernel, by decide +kernel, by decide +kernel, ?_, by decide +kernel, by decide +kernel,
    by decide +kernel, outInOrder_filter _ _ (by decide +kernel), by decide +kernel⟩
  all_goals unfold State.PushLaw; try unfold State.Ready
  all_goals decide +kernel

theorem test_witness_ControllerReset :
    plant.Ready ∧ plant.node? 7 = some (entry .offline 0x010 2 0x110 2) ∧ plant.node? 31 = some NodeEntry.reset
      ∧ plant.link.state ≠ .send ∧ plant.link.state ≠ .mark ∧ plant.marking = false ∧ plant.image.publishPending = false
      ∧ (∀ n ∈ [37, 32], (State.sending plant .head n).Ready ∧ (State.sending plant .head n).link.state = .send
        ∧ (State.sending plant .head n).timers.cut = none)
      ∧ 37 % Config.ticksPerBit plant.link.rate ≠ 0 ∧ 32 % Config.ticksPerBit plant.link.rate = 0
      ∧ (State.publishing plant).image.publishPending = true
      ∧ (State.publishing plant).image.outCopy = none
      ∧ marked.Ready ∧ marked.marking = true ∧ (State.cutting plant 5).marking = true
      ∧ .markEnd ∈ { marked with due := [.markEnd] }.due := by
  unfold State.Ready; decide +kernel

/-- In STOPPED, with a frame that is being cut there too, and in a run. -/
theorem test_witness_SettingsWrites : plant.Ready ∧ plant.run.state = .stopped ∧ (State.cutting plant 5).Ready
    ∧ (State.cutting plant 5).run.state = .stopped ∧ (State.inRun plant .running).Ready
    ∧ (State.inRun plant .running).run.state ≠ .stopped := by
  unfold State.Ready; decide +kernel

/-- Not locked: table A in STOPPED. Locked: table A in a run, and table B while its switch is pending. -/
theorem test_witness_SlotRecordWrites :
    let toB : State := { switching with sched := { switching.sched with selTable := .b } }
    plant.Ready ∧ ¬ ((plant.sched.selTable = plant.sched.active ∧ plant.run.state ≠ .stopped)
        ∨ plant.sched.pendingSwitch = some plant.sched.selTable)
      ∧ (State.inRun plant .running).Ready ∧ (State.inRun plant .running).sched.selTable = plant.sched.active
      ∧ (State.inRun plant .running).run.state ≠ .stopped
      ∧ toB.Ready ∧ toB.sched.pendingSwitch = some toB.sched.selTable := by
  unfold State.Ready; decide +kernel

theorem test_witness_SwitchAndCancel :
    plant.Ready ∧ TableId.a = plant.sched.active ∧ switching.Ready ∧ switching.sched.pendingSwitch.isSome = true
      ∧ TableId.b ≠ plant.sched.active ∧ plant.sched.pendingSwitch = none ∧ plant.validate .b = .fail .b 0 .empty
      ∧ twoTables.Ready ∧ TableId.b ≠ twoTables.sched.active ∧ twoTables.sched.pendingSwitch = none
      ∧ twoTables.validate .b = .pass ∧ twoTables.run.state = .stopped
      ∧ (State.inRun twoTables .running).validate .b = .pass ∧ (State.inRun twoTables .running).run.state ≠ .stopped
      ∧ (0x0103 : Word).getLsbD 0 = (0x0103 : Word).getLsbD 1 ∧ (0xFFFC : Word).getLsbD 0 = (0xFFFC : Word).getLsbD 1 := by
  unfold State.Ready; decide +kernel

/-- A DISABLED node written with credit 7; an enabled one written with its own credit, with another, and disabled
with either. -/
theorem test_witness_NodeConfigWrites :
    (State.select plant 31).Ready ∧ (State.select plant 31).node? 31 = some NodeEntry.reset
      ∧ NodeEntry.reset.state = .disabled ∧ (0x0F70 : Word).getLsbD 0 = false
      ∧ (State.select plant 7).Ready ∧ (State.select plant 7).node? 7 = some (entry .offline 0x010 2 0x110 2)
      ∧ (0x0311 : Word).getLsbD 0 = true ∧ takenCredit ((0x0311 : Word).extractLsb' 4 3) = 1
      ∧ (0x0321 : Word).getLsbD 0 = true ∧ takenCredit ((0x0321 : Word).extractLsb' 4 3) ≠ 1
      ∧ takenCredit ((0x0300 : Word).extractLsb' 4 3) = 1 ∧ takenCredit ((0x0320 : Word).extractLsb' 4 3) ≠ 1 := by
  unfold State.Ready; decide +kernel

/-- No enabled node but n itself has an output slice, or an input slice, that shares a byte with a range. -/
theorem no_clash {s : State} {n : NodeAddr} {off : BitVec 10} {len : BitVec 7} (p : NodeAddr → Bool) (out : Bool)
    (h : ∀ m, m ≠ n → p m = true → (s.node? m).all (fun f =>
      let o := if out then f.outOff else f.inOff
      let l := if out then f.outLen else f.inLen
      f.state == .disabled || decide (o.toNat + l.toNat ≤ off.toNat) || decide (off.toNat + len.toNat ≤ o.toNat)) = true)
    (m : NodeAddr) (hp : p m = true) : ¬ (m ≠ n ∧ ∃ f, s.node? m = some f ∧ f.state ≠ .disabled ∧ ∃ a,
      inSlice off len a ∧ inSlice (if out then f.outOff else f.inOff) (if out then f.outLen else f.inLen) a) := by
  rintro ⟨hm, f, hf, hd, a, ha, hb⟩
  have := h m hm hp
  rw [hf] at this
  simp [hd, inSlice] at this ha hb
  omega

/-- Node 2 with slices that end at the last byte of their banks and overlap none; with an output slice that runs past it,
and one that overlaps nodes 7, 9 and 5 (7 in the lowest bytes, 5 the lowest address); and the same for the input slice. -/
theorem test_witness_EnableRequests :
    let s (o i : BitVec 10) : State := (State.select plant 2).setNode 2 (entry .disabled o 64 i 64)
    (∀ o i, (s o i).Ready ∧ (s o i).node? 2 = some (entry .disabled o 64 i 64))
    ∧ (0x3C0 + 64 ≤ 1024 ∧ ¬ 0x3C1 + 64 ≤ 1024)
    ∧ (∀ m : NodeAddr, ¬ (m ≠ 2 ∧ ∃ f, (s 0x3C0 0x3C0).node? m = some f ∧ f.state ≠ .disabled ∧ ∃ a,
        inSlice 0x3C0 64 a ∧ inSlice f.outOff f.outLen a))
    ∧ (∀ m : NodeAddr, ¬ (m ≠ 2 ∧ ∃ f, (s 0x3C0 0x3C0).node? m = some f ∧ f.state ≠ .disabled ∧ ∃ a,
        inSlice 0x3C0 64 a ∧ inSlice f.inOff f.inLen a))
    ∧ ((∃ f, (s 0x010 0x300).node? 5 = some f ∧ f.state ≠ .disabled ∧ ∃ a, inSlice 0x010 64 a ∧ inSlice f.outOff f.outLen a)
      ∧ ∀ m : NodeAddr, m.toNat < 5 → ¬ (m ≠ 2 ∧ ∃ f, (s 0x010 0x300).node? m = some f ∧ f.state ≠ .disabled ∧ ∃ a,
        inSlice 0x010 64 a ∧ inSlice f.outOff f.outLen a))
    ∧ ((∃ f, (s 0x3C0 0x0F0).node? 3 = some f ∧ f.state ≠ .disabled ∧ ∃ a, inSlice 0x0F0 64 a ∧ inSlice f.inOff f.inLen a)
      ∧ ∀ m : NodeAddr, m.toNat < 3 → ¬ (m ≠ 2 ∧ ∃ f, (s 0x3C0 0x0F0).node? m = some f ∧ f.state ≠ .disabled ∧ ∃ a,
        inSlice 0x0F0 64 a ∧ inSlice f.inOff f.inLen a)) := by
  refine ⟨fun o i => ⟨⟨rfl, fun h => nomatch h⟩, rfl⟩, by decide,
    fun m => no_clash (fun _ => true) true (by decide +kernel) m rfl,
    fun m => no_clash (fun _ => true) false (by decide +kernel) m rfl,
    ⟨⟨entry .online 0x040 8 0x100 4, by decide +kernel, by decide, 0x40, by simp [inSlice, entry]⟩,
      fun m hm => no_clash (fun j => decide (j.toNat < 5)) true (by decide +kernel) m (by simpa using hm)⟩,
    ⟨⟨entry .online 0x000 4 0x104 2, by decide +kernel, by decide, 0x104, by simp [inSlice, entry]⟩,
      fun m hm => no_clash (fun j => decide (j.toNat < 3)) false (by decide +kernel) m (by simpa using hm)⟩⟩

theorem test_witness_SliceFieldWrites :
    (State.select plant 7).Ready ∧ (entry .offline 0x010 2 0x110 2).state ≠ .disabled
      ∧ (State.select plant 31).node? 31 = some NodeEntry.reset ∧ NodeEntry.reset.state = .disabled
      ∧ 64 < ((0x0041 : Word).extractLsb' 0 7).toNat
      ∧ ((0x4140 : Word).extractLsb' 0 7).toNat ≤ 64 ∧ 64 < ((0x4140 : Word).extractLsb' 8 7).toNat
      ∧ ((0x4040 : Word).extractLsb' 0 7).toNat ≤ 64 ∧ ((0x4040 : Word).extractLsb' 8 7).toNat ≤ 64
      ∧ ((State.select (State.inRun plant .running) 31).run.state ≠ .stopped
          ∧ (State.select (State.inRun plant .running) 31).budgetPasses 31 64 64 = true)
      ∧ let s := (State.inRun plant .running).setNode 5 (entry .disabled 0x040 8 0x100 4)
        (s.node? 5 = some (entry .disabled 0x040 8 0x100 4) ∧ s.budgetPasses 5 64 64 = false) := by
  unfold State.Ready; decide +kernel

/-- Section 3.6: with an input length of 6 slot 0 keeps its minimum; 64 and 64 do not. -/
theorem test_witness_BudgetCheckLooksAtNamedSlots : plant.budgetPasses 5 8 6 = true ∧ plant.budgetPasses 5 64 64 = false
    ∧ (plant.sched.record .a 0).length ≠ 0 ∧ (5 : NodeAddr) ∈ (plant.sched.record .a 0).namedNodes := by decide +kernel

theorem test_witness_CountsAndChangeSetCleared :
    plant.Ready ∧ plant.node? plant.nodes.nsel = some NodeEntry.reset := by
  unfold State.Ready; decide +kernel

theorem test_witness_IctlControls : plant.Ready ∧ (0x0046 : Word).getLsbD 0 = false ∧ (0x0002 : Word).getLsbD 0 = false := by
  unfold State.Ready; decide +kernel

/-- With HOLD as it is, set and clear in the word, and a word with PUBLISH for the other two forms. -/
theorem test_witness_PublishRequests :
    plant.Ready ∧ (0x0040 : Word).getLsbD 1 = (0x0040 : Word).getLsbD 2 ∧ (0x0003 : Word).getLsbD 1 = true
      ∧ (0x0003 : Word).getLsbD 2 = false ∧ (0x0005 : Word).getLsbD 1 = false ∧ (0x0005 : Word).getLsbD 2 = true
      ∧ (0x0003 : Word).getLsbD 0 = true
      ∧ plant.image.publishPending = false ∧ plant.run.state = .stopped ∧ plant.image.outCopy = none
      ∧ (State.inRun plant .running).Ready ∧ (State.inRun plant .running).run.state ≠ .stopped
      ∧ (State.copying plant (some 63) none).Ready ∧ (State.copying plant (some 63) none).image.outCopy.isSome = true
      ∧ { plant with image := { plant.image with publishPending := true } }.Ready
      ∧ { plant with image := { plant.image with publishPending := true } }.image.publishPending = true := by
  unfold State.Ready; decide +kernel

/-- The last word of the output host view, and the first of the input host view. -/
theorem test_witness_ImageWrites : badByte.ImageReady ∧ badByte.MemoryLaw ∧ Lanes.word ≠ .null
    ∧ (0x1FF : BitVec 11).toNat < 512 ∧ 512 ≤ (0x200 : BitVec 11).toNat := by
  unfold State.ImageReady State.Ready State.MemoryLaw; decide +kernel

/-- Offset 3 is bad, offset 2 is good: a word read names offset 3, a low byte read none. A null read and a null write of the
register window. -/
theorem test_witness_ImageReads :
    badByte.ImageReady ∧ Lanes.word ≠ .null ∧ (badByte.image.windowByte 3).parityGood = false
      ∧ (badByte.image.windowByte 2).parityGood = true
      ∧ { badByte with image := { badByte.image with out0 := [(2, 0x055)] } }.ImageReady
      ∧ ({ badByte.image with out0 := [(2, 0x055)] }.windowByte 2).parityGood = false
      ∧ badByte.Ready ∧ (∀ wr : Bool, let c : BusCycle :=
          { rs := true, is := false, rd := true, wr := wr, lanes := .null, addr := 0, data := 0 }
        (c.rs = true ∨ c.is = true) ∧ c.lanes = .null ∧ c.rd = true ∧ c.wr = wr) := by
  unfold State.ImageReady State.Ready; decide +kernel

/-- The first and the last line, in each direction, with and without a bad byte. -/
theorem test_witness_LineCopied :
    let s := State.copying { plant with image := { plant.image with out1 := [(3, 0x055)] } } (some 0) none
    let t := State.copying plant none (some 63)
    s.inReset = false ∧ s.MemoryLaw ∧ s.port.state ≠ .waiting ∧ s.image.publishPending = false
      ∧ s.image.nextLine = some (.output, 0) ∧ s.image.outCopyBad = false ∧ 3 / 16 = (0 : BitVec 6).toNat
      ∧ s.image.outMap.getLsbD 3 = false ∧ (s.image.outLinkBank.read 3).parityGood = false
      ∧ (∀ b, b < 3 → (s.image.outLinkBank.read b).parityGood = true)
      ∧ t.MemoryLaw ∧ t.image.nextLine = some (.input, 63)
      ∧ (∀ a, a < 1024 → (t.image.inHostBank.read a).parityGood = true) := by
  unfold State.MemoryLaw; decide +kernel

/-- Both directions at once, a publish pending, and an access that waits, during a line copy and after it. -/
theorem test_witness_LineCopied_turns_publish_waiting :
    let s := State.copying plant (some 0) none
    (copyingNow .output).image.nextLine = some (.output, 0) ∧ (copyingNow .input).image.nextLine = some (.input, 63)
      ∧ (State.publishing s).image.publishPending = true ∧ (State.publishing s).image.nextLine ≠ some (.output, 63)
      ∧ (State.publishing (State.copying plant (some 63) none)).image.nextLine = some (.output, 63)
      ∧ plant.run.state = .stopped
      ∧ (waitingRead false none).port.state = .waiting ∧ (waitingRead false none).image.lineInProgress = none
      ∧ { (copyingNow .input) with port := (waitingRead false none).port }.image.lineInProgress.isSome = true := by
  decide +kernel

theorem test_witness_ReplyStored :
    (State.serving plant 5).inReset = false ∧ (State.serving plant 5).MemoryLaw ∧ (5 : NodeAddr) ≠ 0
      ∧ [1, 2, 3, (4 : Byte)].length ≤ 64 ∧ (State.serving plant 5).image.sliceOf 3 = none
      ∧ (State.serving plant 5).image.sliceOf 5 = some ⟨5, 0x040, 8, 0x100, 4⟩ ∧ 0x100 + 4 ≤ 1024 := by
  unfold State.MemoryLaw; decide +kernel

/-- BAD for op 0, for a length of 33 and for a READ of 0 bytes; TAG_BUSY; FULL; and a put that passes. -/
theorem test_witness_PutChecked :
    (State.stage plant 0x0702).Ready ∧ ¬ (1 ≤ (State.stage plant 0x0702).cmd.staging.op.toNat)
      ∧ ¬ ((State.stage plant 0x4721).cmd.staging.len.toNat ≤ 32)
      ∧ (State.stage plant 0x2700).cmd.staging.op = 1 ∧ ¬ (1 ≤ (State.stage plant 0x2700).cmd.staging.len.toNat)
      ∧ (State.stage plant 0x2720).cmd.staging.fieldsValid = true ∧ (State.stage plant 0x2720).cmd.queue.length < 16
      ∧ (State.stage plant 0x2720).cmd.outstanding = []
      ∧ (∃ q ∈ (State.withQueue (State.stage plant 0x2720) [{ waiting with tag := 50 }]).cmd.queue, q.tag = 50)
      ∧ 16 ≤ (State.withQueue (State.stage plant 0x2720) (List.replicate 16 waiting)).cmd.queue.length
      ∧ (∀ q ∈ (State.withQueue (State.stage plant 0x2720) (List.replicate 16 waiting)).cmd.queue, q.tag ≠ 50) := by
  unfold State.Ready; decide +kernel

/-- A broadcast WRITE, a WRITE to a live node, and READs of 1 and 32 bytes of a node that is not live, posted and kept. -/
theorem test_witness_PutAccepted :
    let s := State.stage plant 0x2701
    s.Ready ∧ s.PushLaw ∧ Op.ofCode s.cmd.staging.op = some .read ∧ s.cmd.staging.len.toNat ≤ 32
      ∧ 1 ≤ s.cmd.staging.len.toNat ∧ s.cmd.staging.node ≠ 0 ∧ s.cmd.queue = [] ∧ s.cmd.outstanding = []
      ∧ s.isLive s.cmd.staging.node = false ∧ s.result.responses.length < 16 ∧ s.waitingOrders = []
      ∧ 16 ≤ (State.withResponses s 16).result.responses.length
      ∧ (State.stage plant 0x4020).cmd.staging.node = 0 ∧ Op.ofCode (State.stage plant 0x4020).cmd.staging.op = some .write
      ∧ (State.stage plant 0x4500).isLive (State.stage plant 0x4500).cmd.staging.node = true := by
  unfold State.Ready State.PushLaw; decide +kernel

theorem test_witness_ResponseTaken :
    let s := State.withResponses plant 16
    let a := State.withOut s [order (.held (settled 100))] none
    let b := State.withQueue s [{ waiting with doomed := some (settled 100) }]
    plant.Ready ∧ plant.result.responses = [] ∧ s.Ready ∧ s.result.responses = response :: List.replicate 15 response
      ∧ s.waitingOrders = []
      ∧ a.Ready ∧ order (.held (settled 100)) ∈ a.cmd.outstanding ∧ a.waitingOrders.Nodup
      ∧ (∀ o ∈ a.waitingOrders, (settled 100).order ≤ o)
      ∧ b.Ready ∧ { waiting with doomed := some (settled 100) } ∈ b.cmd.queue ∧ b.waitingOrders.Nodup
      ∧ (∀ o ∈ b.waitingOrders, (settled 100).order ≤ o) := by
  unfold State.Ready; decide +kernel

/-- The machine with a lone outstanding entry, the mark on it. -/
def lone (e : OutEntry) : State := State.withOut plant [e] (some e.push)

/-- The machine with the mark of an ended slot on that entry, and the mark that stands on a later one. -/
def loneEnded (e : OutEntry) : State :=
  let s := State.withOut plant [e, { order .awaitAck with push := 9, tag := 39 }] (some 9)
  { s with cmd := { s.cmd with endedMarks := [some e.push, none] } }

/-- The mark of an entry's slot: the in-flight mark, and that of an ended slot. -/
theorem ackReaches_lone (e : OutEntry) :
    (lone e).AckReaches e { (lone e).cmd with inFlightMark := none }
      ∧ (loneEnded e).AckReaches e { (loneEnded e).cmd with endedMarks := [none] } :=
  ⟨.inl ⟨rfl, rfl, rfl⟩, .inr ⟨[none], rfl, rfl⟩⟩

/-- An ACCEPT of a READ and of a RESET, and a thirteenth, fourteenth and fifteenth BUSY. -/
theorem test_witness_AcceptAndBusyTaken : ∀ e ∈ [order .awaitAck, { order .awaitAck with op := .reset },
      { order .awaitAck with busy := 13 }, { order .awaitAck with busy := 14 }],
    ∀ s ∈ [lone e, loneEnded e],
      s.inReset = false ∧ s.PushLaw ∧ e ∈ s.cmd.outstanding ∧ e.state = .awaitAck ∧ ∃ cleared, s.AckReaches e cleared := by
  intro e he s hs
  have h : ∃ cleared, s.AckReaches e cleared := by
    simp only [List.mem_cons, List.not_mem_nil, or_false] at hs
    rcases hs with rfl | rfl
    · exact ⟨_, (ackReaches_lone e).1⟩
    · exact ⟨_, (ackReaches_lone e).2⟩
  refine ⟨?_, ?_, ?_, ?_, h⟩ <;> clear h <;> revert s e <;> (try unfold State.PushLaw) <;> decide +kernel

/-- A REJECT, and a miss with retries left and with none. -/
theorem test_witness_RejectAndMissTaken : ∀ e ∈ [order .awaitAck, { order .awaitAck with retries := 0 }],
    ∀ s ∈ [lone e, loneEnded e],
      s.inReset = false ∧ s.PushLaw ∧ e ∈ s.cmd.outstanding ∧ e.state = .awaitAck ∧ ∃ cleared, s.AckReaches e cleared := by
  intro e he s hs
  have h : ∃ cleared, s.AckReaches e cleared := by
    simp only [List.mem_cons, List.not_mem_nil, or_false] at hs
    rcases hs with rfl | rfl
    · exact ⟨_, (ackReaches_lone e).1⟩
    · exact ⟨_, (ackReaches_lone e).2⟩
  refine ⟨?_, ?_, ?_, ?_, h⟩ <;> clear h <;> revert s e <;> (try unfold State.PushLaw) <;> decide +kernel

theorem test_witness_AbandonedOrderRetries :
    plant.inReset = false ∧ plant.cmd.inFlightMark = none
      ∧ (State.withOut plant [order .accepted] (some 3)).cmd.inFlightMark = some 3
      ∧ (∀ e ∈ (State.withOut plant [order .accepted] (some 3)).cmd.outstanding, e.push = 3 → e.state ≠ .awaitAck)
      ∧ plant.cmd.endedMarks = [] ∧ (loneEnded (order .accepted)).cmd.endedMarks = [some 3, none]
      ∧ (∀ p, some 3 = some p → ∀ e ∈ (loneEnded (order .accepted)).cmd.outstanding, e.push = p → e.state ≠ .awaitAck)
      ∧ order .awaitAck ∈ (lone (order .awaitAck)).cmd.outstanding ∧ (lone (order .awaitAck)).PushLaw
      ∧ (lone (order .awaitAck)).cmd.inFlightMark = some (order .awaitAck).push := by
  unfold State.PushLaw; decide +kernel

theorem test_witness_TrailerSettlesOrIsStray :
    let s := State.withOut plant [order .retry] none
    s.inReset = false ∧ (7 : NodeAddr) ≠ 0 ∧ (List.replicate 32 (0 : Byte)).length ≤ 32
      ∧ (∀ e ∈ s.cmd.outstanding, e.node = 7 → e.tag = 30 → e.serial = 8 → e.unsettled = false)
      ∧ order .retry ∈ s.cmd.outstanding ∧ s.PushLaw ∧ s.TagLaw ∧ (order .retry).node = 7 ∧ (order .retry).tag = 30
      ∧ (order .retry).serial = 9 ∧ (order .retry).unsettled = true := by
  unfold State.PushLaw State.TagLaw; decide +kernel

/-- Three entries of node 7 in the outstanding table, one HELD already, and two in the queue, beside those of node 5. -/
theorem test_witness_NodeDownSettlesItsNode :
    let s := State.withQueue (State.crowd plant) [{ waiting with push := 7 }, { waiting with push := 8, node := 7 },
      { waiting with push := 9, node := 7, doomed := some (settled 101) }]
    s.inReset = false ∧ (7 : NodeAddr) ≠ 0 ∧ s.PushLaw ∧ s.cmd.inFlightMark = some 3
      ∧ (∃ e ∈ s.cmd.outstanding, e.push = 3 ∧ e.node = 7 ∧ e.unsettled = true)
      ∧ s.OutInOrder (s.cmd.outstanding.filter fun e => e.unsettled && e.node == 7) (fun e => e.unsettled = true ∧ e.node = 7)
      ∧ s.QueueInOrder (s.cmd.queue.filter fun q => q.waiting && q.node == 7) (fun q => q.waiting = true ∧ q.node = 7)
      ∧ (s.cmd.outstanding.filter fun e => e.unsettled && e.node == 7).map (·.push) = [3, 4]
      ∧ (s.cmd.queue.filter fun q => q.waiting && q.node == 7).map (·.push) = [8] := by
  refine ⟨rfl, by decide, by unfold State.PushLaw; decide +kernel, rfl, by decide +kernel, ?_, ?_, by decide +kernel,
    by decide +kernel⟩
  · simpa using outInOrder_filter _ (fun e => e.unsettled && e.node == 7) (by decide +kernel)
  · simpa using queueInOrder_filter _ (fun q => q.waiting && q.node == 7) (by decide +kernel)

/-- No entry at its last cycle, a lone one, and two of three, once each has gone down by one. -/
theorem test_witness_ResultTimeoutsTaken :
    let acc (p : Nat) (c : Byte) : OutEntry := { order .accepted with push := p, cyclesLeft := c }
    let s (l : List OutEntry) := State.withOut plant l none
    let counted := s [acc 3 0, acc 4 1, acc 5 0, { order .retry with push := 6, cyclesLeft := 0 }]
    (s [acc 3 2]).inReset = false ∧ (∀ e ∈ (s [acc 3 2]).cmd.outstanding, e.state = .accepted → 2 ≤ e.cyclesLeft.toNat)
      ∧ (s [acc 3 1]).cmd.outstanding = [acc 3 1] ∧ (acc 3 1).cyclesLeft = 1
      ∧ (s [acc 3 1, acc 4 2, acc 5 1]).PushLaw
      ∧ (∀ e ∈ (s [acc 3 1, acc 4 2, acc 5 1]).cmd.outstanding, e.state = .accepted → 1 ≤ e.cyclesLeft.toNat)
      ∧ counted.OutInOrder (counted.cmd.outstanding.filter fun e => e.state == .accepted && e.cyclesLeft == 0)
          (fun e => e.state = .accepted ∧ e.cyclesLeft = 0)
      ∧ (counted.cmd.outstanding.filter fun e => e.state == .accepted && e.cyclesLeft == 0).map (·.push) = [3, 5] := by
  refine ⟨rfl, by decide +kernel, by decide +kernel, by decide, by unfold State.PushLaw; decide +kernel, by decide +kernel,
    ?_, by decide +kernel⟩
  simpa using outInOrder_filter _ (fun e => e.state == .accepted && e.cyclesLeft == 0) (by decide +kernel)

/-- A retry is chosen before a first transmission, a command to a node and a broadcast where none is due, and nothing where
the queue and the table are empty, or where a barrier that was sent is unsettled; a retry where the ACK outcome of the slot
before is still to be taken. -/
theorem test_witness_SelectionKeepsItsConditions :
    let retry : OutEntry := { order .retry with node := 5 }
    let out (s : State) (l : List OutEntry) (b : Option Nat) : State :=
      { s with cmd := { s.cmd with outstanding := l, barrierSent := b } }
    (out (State.withQueue plant [waiting]) [retry] none).chooseRetry = some retry
      ∧ { lone retry with due := [.ackOutcome .bad] }.chooseRetry = some retry
      ∧ { lone retry with due := [.ackOutcome .bad] }.due.countP isAckOutcome = 1
      ∧ (State.withQueue plant [waiting]).chooseRetry = none ∧ (State.withQueue plant [waiting]).chooseFirst = some waiting
      ∧ plant.node? waiting.node = some (entry .online 0x040 8 0x100 4)
      ∧ (State.withQueue plant [{ waiting with node := 0 }]).chooseRetry = none
      ∧ (State.withQueue plant [{ waiting with node := 0 }]).chooseFirst = some { waiting with node := 0 }
      ∧ plant.chooseRetry = none ∧ plant.chooseFirst = none
      ∧ (out (State.withQueue plant [waiting]) [{ order .accepted with node := 9 }] (some 3)).chooseFirst = none
      ∧ (out (State.withQueue plant [waiting]) [{ order .accepted with node := 9 }] none).chooseFirst = some waiting := by
  decide +kernel

theorem test_witness_InterruptSets : plant.Ready ∧ plant.fault.latches &&& 0xFFE0#16 = 0
    ∧ { plant.fault with latches := 0x001F }.latches &&& 0xFFE0#16 = 0 := by
  unfold State.Ready; decide +kernel

/-- A report to an empty capture record, and to one that holds a lower class. -/
theorem test_witness_FlagsAndCaptureRecord :
    plant.Ready ∧ plant.inReset = false ∧ FaultCode.nLost.isNodeClass = true ∧ (31 : NodeAddr) ≠ 0
      ∧ plant.fault.capture = none
      ∧ (plant.takeReport ⟨.nLost, 31, 0⟩).fault.capture = some ⟨.nLost, 31, 0, 0⟩ := by
  unfold State.Ready; decide +kernel

theorem test_witness_PlainRegisterWrites : plant.Ready := by
  unfold State.Ready; decide +kernel

theorem test_witness_WritesThatReachNothing :
    plant.Ready ∧ (State.select plant 0).nodes.nsel = 0 ∧ (State.select plant 0).Ready
      ∧ (∀ o ∈ [0x00, 0x0A, 0x20, 0x24, 0x28, 0x2E, 0x30, 0x34, 0x5E, 0x6A, 0x86, 0x94, 0x9C, (0xFE : BitVec 8)],
        o.getLsbD 0 = false ∧ ¬ (0x02 ≤ o.toNat ∧ o.toNat ≤ 0x08 ∨ 0x0C ≤ o.toNat ∧ o.toNat ≤ 0x1E ∨ o = 0x22 ∨ o = 0x2A
          ∨ o = 0x2C ∨ o = 0x32 ∨ 0x36 ≤ o.toNat ∧ o.toNat ≤ 0x5C ∨ 0x88 ≤ o.toNat ∧ o.toNat ≤ 0x92))
      ∧ 5 < (6 : Word).toNat ∧ 5 < (0xFFFF : Word).toNat := by
  unfold State.Ready; decide +kernel

/-- Offsets 00h and 98h have a read register, 9Ah and FEh have none, and 18h is a node register. A node selected with its
IDENT record empty and with one, a response with and without data, a capture record, and both levels in range. -/
theorem test_witness_RegisterReads :
    let c (a : BitVec 11) : BusCycle :=
      { rs := true, is := true, rd := true, wr := false, lanes := .high, addr := a, data := 0 }
    let known : NodeEntry := { entry .online 0x000 4 0x104 2 with ident := some ⟨0x1234, 1, 4, 2⟩ }
    plant.Ready ∧ (c 0).rs = true ∧ (c 0).rd = true ∧ (c 0).wr = false ∧ (c 0).lanes ≠ .null
      ∧ readRegAt (2 * ((c 0x780).addr.toNat % 128)) = some .ident ∧ readRegAt (2 * ((c 0x4C).addr.toNat % 128)) = some .fccyc
      ∧ 0x9A ≤ 2 * ((c 0x4D).addr.toNat % 128) ∧ 0x9A ≤ 2 * ((c 0x7F).addr.toNat % 128)
      ∧ readRegAt (2 * ((c 0x0C).addr.toNat % 128)) = some (.node .ncfg) ∧ plant.nodes.nsel ≠ 0
      ∧ (State.select plant 0).Ready ∧ (State.select plant 0).nodes.nsel = 0
      ∧ (State.select plant 7).node? 7 = some (entry .offline 0x010 2 0x110 2)
      ∧ ((State.select plant 3).setNode 3 known).node? 3 = some known ∧ known.ident = some ⟨0x1234, 1, 4, 2⟩
      ∧ plant.result.responses = [] ∧ (State.withResponses plant 1).result.responses = [response]
      ∧ response.data.length ≤ 32
      ∧ (State.crowd (State.withResponses plant 16)).cmd.queue.length ≤ 16
      ∧ (State.crowd (State.withResponses plant 16)).cmd.outstanding.length ≤ 8
      ∧ (State.crowd (State.withResponses plant 16)).waitingOrders = [100] ∧ plant.fault.capture = none
      ∧ (plant.takeReport ⟨.nLost, 31, 0⟩).fault.capture = some ⟨.nLost, 31, 0, 0⟩ := by
  unfold State.Ready; decide +kernel

/-- An access presented during a line copy; one that waits, its strobe held and released, with nothing, a second access and
a null access behind it; what is presented then; and the port in TAKEN. -/
theorem test_witness_WaitingAccessAndStrobe :
    let present (lanes : Lanes) : BusCycle :=
      { rs := false, is := true, rd := true, wr := false, lanes := lanes, addr := 0x7FF, data := 0 }
    let nulled : State := { (waitingRead true none) with port := { (waitingRead true none).port with nullHeld := true } }
    plant.inReset = false ∧ plant.port.state ≠ .waiting ∧ Lanes.high ≠ .null
      ∧ (copyingNow .output).image.lineInProgress = some .output ∧ (copyingNow .output).port.state ≠ .waiting
      ∧ (∀ r, (waitingRead r none).port.state = .waiting ∧ (waitingRead r none).image.lineInProgress = none
        ∧ (waitingRead r none).port.second = none ∧ (waitingRead r none).port.nullHeld = false
        ∧ (waitingRead r none).port.first = some latched ∧ (waitingRead r none).port.firstReleased = r)
      ∧ nulled.port.state = .waiting ∧ nulled.port.nullHeld = true ∧ nulled.port.second = none
      ∧ (waitingRead true (some latched)).port.second = some latched
      ∧ (waitingRead true (some latched)).port.state = .waiting
      ∧ latchCycle (present .word) = some latched ∧ latched.lanes ≠ .null
      ∧ (latchCycle (present .null)).map (·.lanes) = some .null ∧ (plant.setPort (Port.taken none)).port.state = .taken := by
  decide +kernel

/-- An image write and an image read, a register write of each lane at the last register address, and one whose address has
bits above the register's. -/
theorem test_witness_WaitingAccessAndStrobe_cycles :
    let image (wr : Bool) : BusCycle :=
      { rs := false, is := true, rd := true, wr := wr, lanes := .word, addr := 0x7FF, data := 5 }
    let reg (l : Lanes) (a : BitVec 11) : BusCycle :=
      { rs := true, is := false, rd := false, wr := true, lanes := l, addr := a, data := 5 }
    plant.inReset = false ∧ plant.ImageReady ∧ (∀ wr, (image wr).rs = false ∧ (image wr).is = true ∧ (image wr).wr = wr)
      ∧ (image false).rd = true
      ∧ (∀ l ∈ [Lanes.word, .low, .high], (reg l 0x7F).rs = true ∧ (reg l 0x7F).wr = true ∧ (reg l 0x7F).lanes = l
        ∧ (reg l 0x7F).addr.toNat < 128 ∧ (waitingRead true none).port.state = .waiting)
      ∧ ¬ (reg .word 0x80).addr.toNat < 128 ∧ plant.port.state ≠ .waiting := by
  unfold State.ImageReady State.Ready; decide +kernel

/-- A waiting read when the pin is asserted, a read presented while it is, and a well-formed event. -/
theorem test_witness_ResetPin :
    (waitingRead false none).port.state = .waiting ∧ (waitingRead false none).port.second = none
      ∧ (waitingRead false none).port.first = some latched ∧ (waitingRead false none).port.firstReleased = false
      ∧ held.inReset = true ∧ plant.inReset = false
      ∧ (latchCycle { rs := false, is := true, rd := true, wr := false, lanes := .word, addr := 0x7FF, data := 0 }).isSome
          = true
      ∧ ∀ c ∈ [.slotEnd, .nodeOutcome 5 .data 0 .silent, .faultReport ⟨.hPop, 0, 0⟩, .characterEnd 0 true],
          isEvent c = true ∧ c.wellFormed = true := by decide +kernel

/-- Every state of the link engine that the statement tells apart, with a character in progress and without, and the line
at 1 and at 0. -/
theorem test_witness_OnsetByLinkState :
    let s (st : LinkState) : State := State.onLine plant st (.data 5 true)
    plant.inReset = false ∧ plant.link.state = .linkOff ∧ (s .window).link.state = .window
      ∧ (s .receive).link.state = .receive ∧ (s .receive).timers.character = none
      ∧ { (s .receive) with timers := { plant.timers with character := some 9 } }.timers.character.isSome = true
      ∧ (s .lateWatch).link.state = .lateWatch ∧ (s .lateWatch).link.lateGiven = false
      ∧ { (s .lateWatch) with link := { (s .lateWatch).link with lateGiven := true } }.link.lateGiven = true
      ∧ (s .quietWait).link.state = .quietWait ∧ (s .guarding).link.state = .guarding
      ∧ plant.link.rxd = true ∧ (State.setRxd plant false).link.rxd = false := by
  decide +kernel

/-- The machine in reception from a node, with the bytes of a reply that have come. -/
def receiving (n : NodeAddr) (ex : Exchange) (bytes : List Byte) : State :=
  let s := State.serving (State.onLine (State.inSlot plant 0) .receive ex) n
  { s with link := { s.link with received := bytes } }

/-- Window 2 of a PAIR slot. -/
def State.inSecond (s : State) : State := { s with link := { s.link with second := true } }

/-- The header of a reply. -/
def header (kind : Byte) (n : NodeAddr) (len : Nat) : List Byte := [kind, n.setWidth 8, BitVec.ofNat 8 len]

/-- What each window expects: an ACK, an INPUT, an INPUT+T, an INPUT in each window of a PAIR slot, and an IDENT. -/
theorem test_witness_RepliesJudged_expects :
    (Link.Expects (receiving 5 (.order 5 40) []).link 0 (header 0x22 5 3 ++ [40, 1, 0])
        [.ackOutcome .accept, .nodeOutcome 5 .order 0 .good])
      ∧ (Link.Expects (receiving 5 (.data 5 false) []).link 0 (header 0x20 5 4 ++ [1, 2, 3, 4])
        [.replyStorage 5 [1, 2, 3, 4], .nodeOutcome 5 .data 0 .good])
      ∧ (Link.Expects (receiving 5 (.data 5 true) []).link 0
          (header 0x21 5 (4 + 3 + 2) ++ [1, 2, 3, 4] ++ [41, 0x19, BitVec.ofNat 8 2] ++ [0x5A, 0xA5])
        [.replyStorage 5 [1, 2, 3, 4], .nodeOutcome 5 .data 0 .good, .resultTrailer 5 41 9 1 [0x5A, 0xA5]])
      ∧ (Link.Expects (receiving 3 (.pair 3 9) []).link 0 (header 0x20 3 2 ++ [1, 2])
        [.replyStorage 3 [1, 2], .nodeOutcome 3 .pair 0 .good])
      ∧ (Link.Expects (State.inSecond (receiving 9 (.pair 3 9) [])).link 0 (header 0x20 9 6 ++ [1, 2, 3, 4, 5, 6])
        [.replyStorage 9 [1, 2, 3, 4, 5, 6], .nodeOutcome 9 .pair 0 .good])
      ∧ (Link.Expects (receiving 7 (.probe 7) []).link 0 (header 0x23 7 5 ++ [0x12, 0x34, 1, 2, 2])
        [.nodeOutcome 7 .probe 0 (.ident ⟨0x1234, 1, 2, 2⟩)]) :=
  ⟨.inl ⟨40, 1, 0, rfl, .inl rfl, rfl, rfl⟩, .inr (.inl ⟨false, [1, 2, 3, 4], rfl, by decide +kernel, rfl, rfl⟩),
    .inr (.inr (.inl ⟨[1, 2, 3, 4], 41, 0x19, [0x5A, 0xA5], rfl, by decide +kernel, by decide, rfl, rfl⟩)),
    .inr (.inr (.inr (.inl ⟨3, 9, [1, 2], rfl, by decide +kernel, rfl, rfl⟩))),
    .inr (.inr (.inr (.inl ⟨3, 9, [1, 2, 3, 4, 5, 6], rfl, by decide +kernel, rfl, rfl⟩))),
    .inr (.inr (.inr (.inr ⟨0x12, 0x34, 1, 2, 2, rfl, rfl, rfl⟩)))⟩

/-- A byte of each kind that differs: the kind, the address, the payload length, the result length, the tag and the code. -/
theorem test_witness_RepliesJudged_differs :
    Link.Differs (receiving 5 (.data 5 false) []).link 0x21
      ∧ Link.Differs (receiving 9 (.pair 3 9) [0x20]).link 9
      ∧ Link.Differs (receiving 7 (.probe 7) [0x23, 7]).link 4
      ∧ Link.Differs (receiving 5 (.data 5 true) (header 0x21 5 9 ++ [1, 2, 3, 4] ++ [41, 1])).link 3
      ∧ Link.Differs (receiving 5 (.order 5 40) (header 0x22 5 3)).link 41
      ∧ Link.Differs (receiving 5 (.order 5 40) (header 0x22 5 3 ++ [40])).link 4 :=
  ⟨.inl ⟨rfl, by decide, by decide⟩, .inr (.inl ⟨rfl, by decide⟩),
    .inr (.inr (.inl ⟨0x23, 7, rfl, by show (4 : Byte) ≠ 5; decide⟩)),
    .inr (.inr (.inr (.inl ⟨true, rfl, by decide +kernel, rfl, .inr (by decide +kernel)⟩))),
    .inr (.inr (.inr (.inr ⟨40, rfl, .inl ⟨rfl, by decide⟩⟩))),
    .inr (.inr (.inr (.inr ⟨40, rfl, .inr ⟨rfl, by decide, by decide, by decide⟩⟩)))⟩

/-- A byte that neither differs nor completes the reply: the kind byte of an IDENT, and the payload of an INPUT+T, whose
length is not yet known. -/
theorem test_witness_RepliesJudged_goes_on :
    let p := (receiving 7 (.probe 7) []).link
    let d := (receiving 5 (.data 5 true) (header 0x21 5 9)).link
    (p.Receives ∧ ¬ p.Differs 0x23 ∧ ¬ p.Completes (p.received ++ [0x23]))
      ∧ d.Receives ∧ ¬ d.Differs 1 ∧ ¬ d.Completes (d.received ++ [1]) := by
  refine ⟨⟨trivial, ?_, fun h => absurd (show 1 = 10 from h) (by decide)⟩, trivial, ?_, fun h => absurd h.1 (by decide +kernel)⟩
  · rintro (⟨-, h⟩ | ⟨h, -⟩ | ⟨k, a, h, -⟩ | ⟨tr, h, -⟩ | ⟨tag, h, -⟩)
    · exact h rfl
    all_goals cases h
  · rintro (⟨h, -⟩ | ⟨h, -⟩ | ⟨k, a, h, -⟩ | ⟨tr, -, h, -⟩ | ⟨tag, h, -⟩)
    all_goals first
      | exact absurd h (by decide +kernel)
      | cases h

/-- The last byte of a reply, with the right CRC and with a wrong one, a reply that is BAD already, and no reception. -/
theorem test_witness_RepliesJudged :
    let body := header 0x22 5 3 ++ [40, 1, 0]
    let s := receiving 5 (.order 5 40) (withCrc body).dropLast
    s.inReset = false ∧ s.link.state = .receive ∧ s.link.badFound = none
      ∧ s.link.received ++ [(withCrc body).getLastD 0] = withCrc body
      ∧ (receiving 5 (.order 5 40) (body ++ [0])).link.received ++ [0] = body ++ [0, 0] ∧ [0, 0] ≠ highFirst (crc16 body)
      ∧ { s.link with badFound := some .crc }.badFound.isSome = true ∧ plant.link.state ≠ .receive := by
  decide +kernel

theorem test_witness_WindowsEnd :
    let s (st : LinkState) : State := State.onLine (State.inSlot plant 1) st (.pair 3 9)
    (s .receive).inReset = false ∧ (s .receive).link.state = .receive ∧ (s .window).link.state = .window
      ∧ (s .window).link.exchange = .pair 3 9 ∧ (s .window).link.second = false ∧ (s .lateWatch).link.state = .lateWatch
      ∧ (s .guarding).link.state = .guarding ∧ (State.inSlot plant 15).sched.state = .slot 15
      ∧ ∀ ex ∈ [.data 31 true, .probe 7, .order 7 30], (State.onLine plant .window ex).link.exchange = ex := by
  decide +kernel

/-- A frame of each kind at its end, a frame that is being cut, a bit sent as 1 and as 0, and the mark with each direction
after it. -/
theorem test_witness_FrameAndMarkEnds :
    let s (ex : Exchange) : State := State.onLine (State.inSlot plant 1) .send ex
    let b := State.withOut (s .broadcast) [{ order .awaitAck with node := 0, op := .write }] (some 3)
    (∀ ex ∈ [.head, .data 5 true, .pair 3 9, .probe 7, .order 7 30, .silent], (s ex).inReset = false
      ∧ (s ex).link.state = .send ∧ (s ex).timers.cut = none ∧ (s ex).link.exchange = ex ∧ ex ≠ .broadcast)
      ∧ b.link.state = .send ∧ b.timers.cut = none ∧ b.link.exchange = .broadcast ∧ b.PushLaw
      ∧ { order .awaitAck with node := 0, op := .write } ∈ b.cmd.outstanding ∧ b.cmd.inFlightMark = some 3
      ∧ (State.cutting plant 5).link.state = .send ∧ (State.cutting plant 5).timers.cut.isSome = true
      ∧ ((State.inRun plant .running).slotStart 0).link.state = .send
      ∧ ((State.inRun plant .running).slotStart 0).transmitData = false ∧ true ≠ false
      ∧ marked.link.state = .mark ∧ marked.link.quietAfterMark = false
      ∧ { marked with link := { marked.link with quietAfterMark := true } }.link.quietAfterMark = true := by
  unfold State.PushLaw; decide +kernel

/-- The first and the last tick of the start bit, of the first and the last data bit, and of the stop bit, in the first and the
last byte of a frame; and the head segment and the highest slot. -/
theorem test_witness_FrameAndMarkEnds_bits :
    let frame := probeFrame 7
    let s (left : Nat) : State := let t := State.sending plant (.probe 7) left
      { t with link := { t.link with frame := frame } }
    (∀ i ∈ [0, 5], ∀ j ∈ [0, 1, 8, 9], ∀ r ∈ [0, 15],
      let left := 10 * 6 * 16 - ((10 * i + j) * 16 + r)
      (s left).link.state = .send ∧ (s left).link.frame[i]?.isSome = true ∧ (s left).timers.frame = some left
        ∧ j < 10 ∧ r < Config.ticksPerBit (s left).link.frameRate
        ∧ 10 * (s left).link.frame.length * Config.ticksPerBit (s left).link.frameRate - left
          = (10 * i + j) * Config.ticksPerBit (s left).link.frameRate + r)
      ∧ marked.link.state = .mark ∧ plant.link.state ≠ .send ∧ plant.link.state ≠ .mark
      ∧ (State.inSlot plant 15).sched.state = .slot 15
      ∧ { plant.sched with state := .head }.state = .head := by
  decide +kernel

/-- The first byte of that frame on the line, 13h: start bit 0, bits 1, 1, 0, 0, 1, 0, 0, 0, stop bit 1 (R3, R8). -/
theorem test_bits_of_a_byte :
    ((List.range 10).map fun j => let t := State.sending plant (.probe 7) (10 * 6 * 16 - j * 16)
      { t with link := { t.link with frame := probeFrame 7 } }.transmitData)
      = [false, true, true, false, false, true, false, false, false, true] := by
  decide +kernel

/-- The output data of node 5, whose output slice is 40h to 47h: the bytes of the output link bank in offset order (R78). -/
theorem test_witness_SlotResolution_output :
    plant.node? 5 = some (entry .online 0x040 8 0x100 4)
      ∧ { plant with image := { plant.image with out1 := [(0x40, 0x0AB), (0x47, 0x1CD), (0x48, 0x0EF)] } }.outputOf 5
        = [0xAB, 0, 0, 0, 0, 0, 0, 0xCD] := by
  decide +kernel

/-- A slot of every rule, with its nodes live, OFFLINE, DISABLED and mixed, a command chosen, and a slice with bad
parity. -/
theorem test_witness_SlotResolution :
    let s := State.inRun plant .running
    let rec' (t : State) (k : SlotIndex) := t.sched.record t.sched.active k
    let dead (t : State) (n : NodeAddr) := t.setNode n (entry .disabled 0 0 0 0)
    (rec' s 4).rule = 0 ∧ s.opportunity (rec' s 4) = false
      ∧ (rec' s 0).rule = 1 ∧ (rec' s 0).nodeA = 5 ∧ s.isLive 5 = true ∧ s.image.firstBadSlice (s.copiesOf [5]) = none
      ∧ (rec' s 2).rule = 3 ∧ s.opportunity (rec' s 2) = true ∧ s.selectCommand.isNone = true ∧ s.nodeState 7 = .offline
      ∧ (dead s 5).nodeState 5 = .disabled
      ∧ ((State.withQueue s [waiting]).selectCommand.map fun x => (x.1.node, x.1.tag)) = some (5, 40)
      ∧ (rec' s 1).rule = 2 ∧ s.isLive 3 = true ∧ s.isLive 9 = true ∧ s.image.firstBadSlice (s.copiesOf [3, 9]) = none
      ∧ (dead s 3).isLive 3 = false ∧ (dead s 3).isLive 9 = true ∧ (dead (dead s 3) 9).isLive 9 = false
      ∧ badSlice.isLive 5 = true ∧ badSlice.image.firstBadSlice (badSlice.copiesOf [5]) = some (5, 0x40) := by
  decide +kernel

/-- A PAIR slot with a byte of bad parity in the slice of either node, both live and one. -/
theorem test_witness_SlotResolution_bad_pairs :
    let bad (a : Nat) : State := { State.inRun plant .running with image := { plant.image with out1 := [(a, 0x055)] } }
    let dead (t : State) (n : NodeAddr) := t.setNode n (entry .disabled 0 0 0 0)
    (bad 0x21).isLive 3 = true ∧ (bad 0x21).isLive 9 = true
      ∧ (bad 0x21).image.firstBadSlice ((bad 0x21).copiesOf [3, 9]) = some (9, 0x21)
      ∧ (bad 0).image.firstBadSlice ((bad 0).copiesOf [3, 9]) = some (3, 0)
      ∧ (dead (bad 0) 9).isLive 3 = true ∧ (dead (bad 0) 9).isLive 9 = false
      ∧ (dead (bad 0) 9).image.firstBadSlice ((dead (bad 0) 9).copiesOf [3]) = some (3, 0)
      ∧ (dead (bad 0x21) 3).isLive 9 = true ∧ (dead (bad 0x21) 3).isLive 3 = false
      ∧ (dead (bad 0x21) 3).image.firstBadSlice ((dead (bad 0x21) 3).copiesOf [9]) = some (9, 0x21) := by
  decide +kernel

theorem test_witness_SlotEndsLeadOn :
    let s := State.inSlot plant 3
    let h : State := { State.inRun plant .running with sched := { plant.sched with state := .head } }
    h.inReset = false ∧ h.sched.state = .head ∧ (h.sched.record .a 0).length ≠ 0 ∧ h.slotBeyondBank 0 = false
      ∧ (State.inSlot plant 0).sched.state = .slot 0 ∧ (State.inSlot plant 0).sched.nextSlot 0 = some 1
      ∧ (State.inSlot plant 0).slotBeyondBank 1 = false
      ∧ s.sched.state = .slot 3 ∧ s.sched.nextSlot 3 = none ∧ s.run.state = .running ∧ s.image.hold = false
      ∧ s.image.inCopy = none ∧ (State.inRun s .resuming).run.state = .resuming
      ∧ (State.inRun s .draining).run.state = .draining ∧ (State.copying s none (some 5)).image.inCopy.isSome = true
      ∧ (∀ k ∈ [0, 3], (State.onLine (State.inSlot plant k) .receive (.order 5 40)).decidedAtSlotEnd k
        = [.ackOutcome .bad, .nodeOutcome 5 .order k (.bad .cutBySlotEnd)])
      ∧ (State.onLine s .window (.order 5 40)).decidedAtSlotEnd 3 = [.ackOutcome .silent, .nodeOutcome 5 .order 3 .silent]
      ∧ (State.publishing { State.inRun s .draining with
          sched := { s.sched with pendingSwitch := some .b } }).publishTakable = true := by
  decide +kernel

/-- The head segment where the first slots of the table are of length 0. -/
theorem test_witness_SlotEndsLeadOn_head :
    let u := Sched.reset.setRecord .a 15 { rule := 1, nodeA := 5, nodeB := 0, length := 616 }
    (u.record u.active 15).length ≠ 0 ∧ (∀ i : SlotIndex, i.toNat < 15 → (u.record u.active i).length = 0)
      ∧ { plant with sched := { u with state := .head } }.slotBeyondBank 15 = false := by
  decide +kernel

theorem test_witness_LineEventsMoveTheRun :
    let q (r : RunState) : State :=
      { State.inRun plant r with link := { plant.link with state := .quietWait, quietRunning := true } }
    let counted (n : BitVec 4) : State := { q .recovery with run := { state := .recovery, restarts := n } }
    (q .settling).inReset = false ∧ (q .settling).link.state = .quietWait ∧ (q .settling).link.quietRunning = true
      ∧ (q .settling).run.state = .settling ∧ (q .recovery).run.state = .recovery
      ∧ (counted 7).run.restarts.toNat < 8 ∧ (counted 8).run.restarts = 8 ∧ (counted 8).PushLaw
      ∧ (counted 8).node? 5 = some (entry .online 0x040 8 0x100 4) ∧ (counted 8).isLive 5 = true
      ∧ (counted 8).node? 7 = some (entry .offline 0x010 2 0x110 2) ∧ (counted 8).isLive 7 = false
      ∧ (q .settling).run.state ≠ .recovery ∧ (State.inSlot plant 0).run.state = .running
      ∧ (State.inSlot plant 0).marking = false ∧ (q .draining).run.state = .draining
      ∧ (q .resuming).run.state = .resuming ∧ (q .resuming).PushLaw ∧ (q .halted).run.state = .halted := by
  unfold State.PushLaw; decide +kernel

/-- A node in every state, with its miss count at the last value below the limit and at the limit. -/
theorem test_witness_NodeOutcomesTaken :
    let lag (c : BitVec 4) : NodeEntry := { entry .lagging 0 0 0 0 with missCount := c }
    let last : NodeEntry := { entry .online 0 0 0 0 with missLimit := 1 }
    plant.inReset = false ∧ (5 : NodeAddr) ≠ 0 ∧ plant.node? 5 = some (entry .online 0x040 8 0x100 4)
      ∧ (entry .online 0x040 8 0x100 4).missCount.toNat + 1 < (entry .online 0x040 8 0x100 4).missLimit.toNat
      ∧ (plant.setNode 5 (lag 1)).node? 5 = some (lag 1) ∧ (lag 1).missCount.toNat + 1 < (lag 1).missLimit.toNat
      ∧ (plant.setNode 5 (lag 2)).node? 5 = some (lag 2) ∧ (lag 2).missLimit.toNat ≤ (lag 2).missCount.toNat + 1
      ∧ (plant.setNode 5 last).node? 5 = some last ∧ last.state = .online ∧ last.missLimit.toNat ≤ last.missCount.toNat + 1
      ∧ (plant.setNode 5 (entry .mismatch 0 0 0 0)).node? 5 = some (entry .mismatch 0 0 0 0)
      ∧ plant.node? 7 = some (entry .offline 0x010 2 0x110 2) ∧ plant.node? 31 = some NodeEntry.reset
      ∧ (entry .online 0x040 8 0x100 4).state ≠ .offline
      ∧ NodeEntry.reset.state = .disabled ∧ WindowKind.pair.admits .silent = true ∧ WindowKind.pair ≠ .probe
      ∧ (⟨1, 1, 2, 2⟩ : IdentRecord).outSize.toNat = (entry .offline 0x010 2 0x110 2).outLen.toNat
      ∧ (⟨1, 1, 2, 3⟩ : IdentRecord).inSize.toNat ≠ (entry .offline 0x010 2 0x110 2).inLen.toNat := by
  decide +kernel

/-! Steps from states that are not the reset state meet the laws' hypotheses. -/

theorem test_witness_StepKeepsMemoryLaw : badByte.MemoryLaw ∧ ∃ t, step badByte = .next t := by
  refine ⟨?_, _, rfl⟩
  unfold State.MemoryLaw; decide +kernel

/-- A full response queue with an item waiting, and an RQTAKE at the front. -/
theorem test_witness_StepKeepsQueueLaws :
    let s : State :=
      { State.withOut (State.withResponses plant 16) [order (.held (settled 100))] none with pending := [.rqtake 0] }
    s.CapacityLaw ∧ s.ResponseLaw ∧ ∃ t, step s = .next t := by
  refine ⟨?_, ?_, _, rfl⟩
  · unfold State.CapacityLaw; decide +kernel
  · unfold State.ResponseLaw; decide +kernel

/-- A command in flight to a live node and one waiting, and the result timeouts of a cycle start at the front. -/
theorem test_witness_StepKeepsTransactionLaws :
    let s : State :=
      { plant with
        cmd := { plant.cmd with queue := [waiting], outstanding := [{ order .accepted with node := 5 }], nextPush := 10 }
        pending := [.resultTimeout] }
    s.PushLaw ∧ s.TagLaw ∧ s.NodeDownLaw ∧ s.CreditLaw ∧ ∃ t, step s = .next t := by
  refine ⟨?_, ?_, ?_, ?_, _, rfl⟩
  · unfold State.PushLaw; decide +kernel
  · unfold State.TagLaw; decide +kernel
  · unfold State.NodeDownLaw; decide +kernel
  · unfold State.CreditLaw; decide +kernel

/-- A full response queue with an item waiting, and an RQTAKE at the front. -/
theorem test_witness_StepKeepsTransactionLaws_settle_order :
    let s : State :=
      { State.withOut (State.withResponses plant 16) [order (.held (settled 100))] none with
        result := { responses := List.replicate 16 response, nextOrder := 101 }, pending := [.rqtake 0] }
    s.PushLaw ∧ s.SettleOrderLaw ∧ ∃ t, step s = .next t := by
  refine ⟨?_, ?_, _, rfl⟩
  · unfold State.PushLaw; decide +kernel
  · unfold State.SettleOrderLaw; decide +kernel

/-- The four nodes of the plant with slices that share no byte, and a miss of node 5 at the front. -/
theorem test_witness_StepKeepsNodeTableLaws :
    let s : State := { plant with pending := [.nodeOutcome 5 .data 0 .silent] }
    s.NodeLaw ∧ s.SliceLaw ∧ ∃ t, step s = .next t := by
  have bounds : ∀ n : NodeAddr, (plant.node? n).all (fun e =>
      decide (1 ≤ e.credit.toNat) && decide (e.credit.toNat ≤ 4) && decide (1 ≤ e.missLimit.toNat)
        && decide (e.outLen.toNat ≤ 64) && decide (e.inLen.toNat ≤ 64) && decide (e.state ≠ .lagging)
        && decide (e.missCount = 0) && decide (e.outOff.toNat + e.outLen.toNat ≤ 1024)
        && decide (e.inOff.toNat + e.inLen.toNat ≤ 1024)) = true := by decide +kernel
  have apart : ∀ n m : NodeAddr, n ≠ m → (plant.node? n).all (fun e => (plant.node? m).all (fun f =>
      !e.state.isEnabled || !f.state.isEnabled
        || ((decide (e.outOff.toNat + e.outLen.toNat ≤ f.outOff.toNat)
            || decide (f.outOff.toNat + f.outLen.toNat ≤ e.outOff.toNat))
          && (decide (e.inOff.toNat + e.inLen.toNat ≤ f.inOff.toNat)
            || decide (f.inOff.toNat + f.inLen.toNat ≤ e.inOff.toNat))))) = true := by decide +kernel
  refine ⟨?_, ⟨?_, ?_⟩, _, rfl⟩
  · intro n e he
    have h := bounds n
    rw [show plant.node? n = some e from he] at h
    simp at h
    unfold NodeEntry.Legal
    simp [h]
  · intro n e he _
    have h := bounds n
    rw [show plant.node? n = some e from he] at h
    simp at h
    simp [h]
  · intro n m e f hnm he hf hen hfn a
    have h := apart n m hnm
    rw [show plant.node? n = some e from he, show plant.node? m = some f from hf] at h
    simp [hen, hfn] at h
    unfold inSlice
    omega

/-- A run with a switch pending, and a STOP at the front. -/
theorem test_witness_StepKeepsRunLaws :
    let s : State := { switching with pending := [.stop] }
    s.StoppedLaw ∧ s.BudgetLaw ∧ s.SettingsLaw ∧ ∃ t, step s = .next t := by
  refine ⟨?_, ?_, ?_, _, rfl⟩
  · unfold State.StoppedLaw; decide +kernel
  · unfold State.BudgetLaw State.TableFits
    refine ⟨by decide +kernel, ?_⟩
    intro t ht
    cases t <;> revert ht <;> decide +kernel
  · unfold State.SettingsLaw; decide +kernel

theorem test_witness_StepKeepsPortAndResetLaws :
    let s : State := { held with pending := [.slotEnd] }
    let t : State := { plant with fault := { plant.fault with latches := 0x001F }, pending := [.publish 1] }
    s.PortLaw ∧ s.ResetLaw ∧ (∃ u, step s = .next u) ∧ t.LatchLaw ∧ ∃ u, step t = .next u := by
  refine ⟨?_, ?_, ⟨_, rfl⟩, ?_, _, rfl⟩
  · intro a ha; cases ha
  · unfold State.ResetLaw; decide +kernel
  · unfold State.LatchLaw; decide +kernel

theorem test_witness_SettingsChangeOnlyInStopped :
    (State.inSlot plant 0).PortLaw ∧ Instr.settingsWrite .lset 0 ≠ .hardwareReset
      ∧ (State.inSlot plant 0).run.state ≠ .stopped ∧ ∃ t, exec (.settingsWrite .lset 0) (State.inSlot plant 0) = .next t :=
  ⟨(fun _ ha => nomatch ha), by decide, by decide, _, rfl⟩

/-- A STOP in RUNNING changes the run state; a write to NSEL there does not, with RUNCHG latched before it. -/
theorem test_witness_RunChangesAreLatched :
    let s : State := { State.inSlot plant 0 with fault := { plant.fault with latches := 0x0010 } }
    (State.inSlot plant 0).PortLaw ∧ (∃ t, exec .stop (State.inSlot plant 0) = .next t
      ∧ t.run.state ≠ (State.inSlot plant 0).run.state)
      ∧ s.PortLaw ∧ ∃ t, exec (.registerWrite 0x16 5) s = .next t ∧ t.run.state = s.run.state
        ∧ t.fault.latches.getLsbD 4 = true :=
  ⟨(fun _ ha => nomatch ha), ⟨_, rfl, by decide +kernel⟩, (fun _ ha => nomatch ha), _, rfl, by decide +kernel,
    by decide +kernel⟩

/-- A last slot end in RUNNING starts a cycle and swaps the input banks; PUBLISH in STOPPED swaps the output banks. -/
theorem test_witness_CycleNumberChangesOnlyAtCycleStart_FacingBanksChangeOnlyAtSwaps :
    Instr.slotEnd ≠ .hardwareReset
      ∧ ((after (exec .slotEnd (State.inSlot plant 3))).map fun t => (t.sched.cycleNumber, t.image.inHost)) = some (1, true)
      ∧ ((after (exec (.publish 0) plant)).map fun t => t.image.outHost) = some true
      ∧ ((after (exec (.holdSet 0) plant)).map fun t => (t.image.outHost, t.image.inHost)) = some (false, false) := by
  decide +kernel

end Sys2Proof.Machine.Tests
end

section
/-! PROOFS. The CRC (R6) bit by bit, and the bytes of the downstream frames (R5, R7 to R10, R182). -/

namespace Sys2Proof.Machine

open Sys2Proof

/-! ### CRC -/

/-- The bits of a byte in the order in which the CRC takes them, most significant first (R6). -/
def bitsOf (b : Byte) : List Bool := (List.range 8).map b.getMsbD

@[simp] theorem length_bitsOf (b : Byte) : (bitsOf b).length = 8 := by simp [bitsOf]

theorem crcByte_eq_foldl (r : Word) (b : Byte) : crcByte r b = (bitsOf b).foldl crcBit r := by
  simp [crcByte, bitsOf, List.foldl_map]

theorem bitsOf_injective : Function.Injective bitsOf := fun a b h =>
  BitVec.eq_of_getMsbD_eq fun i hi => by
    simpa [bitsOf, hi] using congrArg (·[i]?) h

/-- The bits of a field's two bytes, in the order in which the CRC takes them, are the field's own (R6, R182). -/
theorem bitsOf_highFirst (w : Word) :
    bitsOf ((w >>> 8).setWidth 8) ++ bitsOf (w.setWidth 8) = (List.range 16).map w.getMsbD := by
  simp [bitsOf, List.range_succ, BitVec.getMsbD]

/-- A bit that equals the register's top bit leaves a plain shift (R6). -/
theorem crcBit_msb (r : Word) : crcBit r r.msb = r <<< 1 := by
  simp [crcBit]

/-- A bit that differs from the register's top bit brings the generator in, whose lowest bit is 1 (R6). -/
theorem getLsbD_zero_crcBit {r : Word} {b : Bool} (h : b ≠ r.msb) : (crcBit r b).getLsbD 0 = true := by
  have hx : (b ^^ r.msb) = true := by simpa using h
  simp [crcBit, hx]

/-- At most 16 bits leave 0 in the register exactly where they are its topmost bits and the rest of it is 0: the first bit
that differs would leave a 1 that no later bit shifts out (R6). -/
theorem foldl_crcBit_eq_zero (bits : List Bool) (r : Word) (h : bits.length ≤ 16) :
    bits.foldl crcBit r = 0 ↔ bits = (List.range bits.length).map r.getMsbD ∧ r <<< bits.length = 0 := by
  induction bits generalizing r with
  | nil => simp
  | cons b rest ih =>
    have hr : rest.length < 16 := by simpa using h
    have top : ((List.range (b :: rest).length).map r.getMsbD)
        = r.msb :: (List.range rest.length).map (r <<< 1).getMsbD := by
      simp [List.range_succ_eq_map, BitVec.msb, Function.comp_def, BitVec.getMsbD_shiftLeft]
    rw [List.foldl_cons, ih _ hr.le, top, List.cons.injEq, List.length_cons, Nat.add_comm, BitVec.shiftLeft_add]
    by_cases hb : b = r.msb
    · subst hb
      rw [crcBit_msb]
      simp
    · have stays : (crcBit r b <<< rest.length).getLsbD rest.length = true := by
        simp [hr, getLsbD_zero_crcBit hb]
      constructor
      · rintro ⟨-, gone⟩
        simp [gone] at stays
      · rintro ⟨⟨same, -⟩, -⟩
        exact absurd same hb

theorem foldl_crcByte_pair (r : Word) (hi lo : Byte) :
    [hi, lo].foldl crcByte r = (bitsOf hi ++ bitsOf lo).foldl crcBit r := by
  simp [crcByte_eq_foldl]

/-- Two bytes leave 0 in the register exactly where they are the register, most significant byte first (R6, R182). -/
theorem foldl_crcByte_pair_eq_zero (r : Word) (hi lo : Byte) :
    [hi, lo].foldl crcByte r = 0 ↔ [hi, lo] = highFirst r := by
  have len : (bitsOf hi ++ bitsOf lo).length = 16 := by simp
  have out : r <<< 16 = 0 := BitVec.shiftLeft_eq_zero le_rfl
  rw [foldl_crcByte_pair, foldl_crcBit_eq_zero _ _ len.le, len, ← bitsOf_highFirst, and_iff_left out]
  constructor
  · intro same
    obtain ⟨first, second⟩ := List.append_inj same (by simp)
    rw [bitsOf_injective first, bitsOf_injective second, highFirst]
  · intro same
    obtain ⟨rfl, rfl⟩ : hi = (r >>> 8).setWidth 8 ∧ lo = r.setWidth 8 := by simpa [highFirst] using same
    rfl

/-- The CRC over a reply leaves 0 exactly where its last two bytes are the CRC over the bytes before them (R6). -/
theorem crc16_append_eq_zero (bytes : List Byte) (hi lo : Byte) :
    crc16 (bytes ++ [hi, lo]) = 0 ↔ [hi, lo] = highFirst (crc16 bytes) := by
  rw [← foldl_crcByte_pair_eq_zero, crc16, List.foldl_append, ← crc16]

theorem crc16_withCrc (bytes : List Byte) : crc16 (withCrc bytes) = 0 :=
  (crc16_append_eq_zero bytes _ _).2 rfl

/-! ### Downstream frames -/

@[simp] theorem length_withCrc (bytes : List Byte) : (withCrc bytes).length = bytes.length + 2 := by
  simp [withCrc, highFirst]

@[simp] theorem length_bytesOfWords (ws : List Word) : (bytesOfWords ws).length = 2 * ws.length := by
  induction ws with
  | nil => rfl
  | cons w rest ih => simp [bytesOfWords, ih]; omega

/-- Byte k of a data record is the low half of word k / 2 for an even k, and the high half for an odd one (R90). -/
theorem getD_bytesOfWords (ws : List Word) (k : Nat) :
    (bytesOfWords ws).getD k 0 = (ws.getD (k / 2) 0 >>> (8 * (k % 2))).setWidth 8 := by
  induction ws generalizing k with
  | nil => simp [bytesOfWords]
  | cons w rest ih =>
    match k with
    | 0 => simp [bytesOfWords]
    | 1 => simp [bytesOfWords]
    | k + 2 =>
      rw [bytesOfWords, List.getD_cons_succ, List.getD_cons_succ, ih]
      simp

/-- The data bytes of an ORDER that is no READ are as many as its length says, up to the 32 of a record (R10, R90). -/
theorem OutEntry.orderData_spec (e : OutEntry) (op : e.op ≠ .read) (len : e.len.toNat ≤ 32) :
    e.orderData.length = e.len.toNat
      ∧ ∀ k, k < e.len.toNat →
        e.orderData.getD k 0 = (e.data.toList.getD (k / 2) 0 >>> (8 * (k % 2))).setWidth 8 := by
  have data : e.orderData = (bytesOfWords e.data.toList).take e.len.toNat := by
    unfold OutEntry.orderData
    cases h : e.op <;> simp_all
  refine ⟨by simp [data, len], fun k hk => ?_⟩
  rw [data, ← getD_bytesOfWords]
  simp [List.getD_eq_getElem?_getD, hk]

theorem OutEntry.orderData_of_read (e : OutEntry) (op : e.op = .read) : e.orderData = [] := by
  simp [OutEntry.orderData, op]

theorem length_orderFrame (e : OutEntry) : (orderFrame e).length = 11 + e.orderData.length := by
  simp [orderFrame, highFirst]; omega

/-- The op and serial byte of an ORDER (R10). -/
theorem byteOf_op_serial (e : OutEntry) :
    byteOf (e.op.number * 16 + e.serial.toNat) = BitVec.ofNat 8 (e.serial.toNat + 16 * e.op.number) := by
  rw [byteOf, Nat.add_comm, Nat.mul_comm]

/-- Settles O2: the CRC condition by the bits it takes, the frames from their definitions. -/
theorem frameSizesAndCrc : Obligations.FrameSizesAndCrc := by
  unfold Obligations.FrameSizesAndCrc
  refine ⟨crc16_append_eq_zero, by decide +kernel, ⟨?_, ?_, ?_, ?_, ?_⟩, ?_, ?_, ?_, ?_, ?_, ?_⟩
  · intro c n t
    cases t <;> rfl
  · intro n slice tr
    cases tr <;> rfl
  · intro a b sa sb
    rfl
  · intro n
    rfl
  · intro e
    have framed : orderFrame e = withCrc ([0x14#8, addressByte e.node, byteOf (5 + e.orderData.length), 0, e.tag,
        BitVec.ofNat 8 (e.serial.toNat + 16 * e.op.number), (e.param >>> 8).setWidth 8, e.param.setWidth 8,
        e.len.setWidth 8] ++ e.orderData) := by
      rw [← byteOf_op_serial]; rfl
    refine ⟨fun op => ?_, fun op len => ?_⟩
    · rw [framed, e.orderData_of_read op]; rfl
    · obtain ⟨length, bytes⟩ := e.orderData_spec op len
      exact ⟨e.orderData, length, bytes, by rw [framed, length]; rfl⟩
  · intro c n t
    rfl
  · intro n slice tr
    simp [dataFrame]; omega
  · intro a b sa sb
    simp [pairFrame]; omega
  · intro n
    rfl
  · intro e op
    rw [length_orderFrame, e.orderData_of_read op]; rfl
  · intro e op len
    rw [length_orderFrame, (e.orderData_spec op len).1]

end Sys2Proof.Machine
end

section
/-! PROOFS. The events of the line out of reset, and an onset and the return to 1 by the state of the link engine (R2, R13, R22). -/

namespace Sys2Proof.Machine

open Sys2Proof

/-! ### Events out of reset -/

theorem exec_activityOnset {s : State} (h : s.inReset = false) :
    exec .activityOnset s = .next (s.takeDue .activityOnset).onset := by
  simp [exec, execActivityOnset, h]

theorem exec_lineReturnsTo1 {s : State} (h : s.inReset = false) :
    exec .lineReturnsTo1 s = .next (s.takeDue .lineReturnsTo1).lineReturns := by
  simp [exec, execLineReturnsTo1, h]

theorem exec_characterEnd {s : State} (h : s.inReset = false) (b : Byte) (stop : Bool) :
    exec (.characterEnd b stop) s = .next ((s.takeDue (.characterEnd b stop)).characterEnd b stop) := by
  simp [exec, execCharacterEnd, State.event_ready, h]

theorem exec_characterGap {s : State} (h : s.inReset = false) :
    exec .characterGap s = .next (s.takeDue .characterGap).characterGap := by
  simp [exec, execCharacterGap, State.event_ready, h]

theorem exec_windowClose {s : State} (h : s.inReset = false) :
    exec .windowClose s = .next (s.takeDue .windowClose).windowClose := by
  simp [exec, execWindowClose, State.event_ready, h]

theorem exec_window2Open {s : State} (h : s.inReset = false) :
    exec .window2Open s = .next (s.takeDue .window2Open).window2Open := by
  simp [exec, execWindow2Open, State.event_ready, h]

theorem exec_frameEnd {s : State} (h : s.inReset = false) :
    exec .frameEnd s = .next (s.takeDue .frameEnd).frameEnd := by
  simp [exec, execFrameEnd, State.event_ready, h]

theorem exec_lReadback {s : State} (h : s.inReset = false) (level : Bool) :
    exec (.lReadback level) s = .next ((s.takeDue (.lReadback level)).readback level) := by
  simp [exec, execLReadback, State.event_ready, h]

theorem exec_markEnd {s : State} (h : s.inReset = false) :
    exec .markEnd s = .next (s.takeDue .markEnd).markEnd := by
  simp [exec, execMarkEnd, State.event_ready, h]

/-! ### Onsets and the return to 1, by the state of the link engine -/

/-- What a link fault hands on: an abandon notice for an ORDER, the link fault report and the fault report (R21, R113). -/
theorem State.linkFault_eq (s : State) (kind : LinkFaultKind) (node : NodeAddr) :
    s.linkFault kind node = { s with
      link := s.linkOff.link
      timers := { s.linkOff.timers with segment := none }
      sched := { s.sched with state := .idle }
      due := (s.due.filter fun c => !isLineTimer c)
        ++ (if s.link.exchange.isOrder = true ∧ s.cmd.inFlightMark.isSome = true then [.abandonNotice] else [])
        ++ [.linkFault kind, .faultReport ⟨linkFaultCode kind, node, s.faultSlot⟩] } := by
  unfold State.linkFault State.handAbandon
  by_cases o : s.link.exchange.isOrder = true ∧ s.cmd.inFlightMark.isSome = true
  · simp [o, State.linkOff, State.linkClear, State.schedIdle, State.hand, State.raise, State.dropLineTimers]
  · simp [o, State.linkOff, State.linkClear, State.schedIdle, State.hand, State.raise, State.dropLineTimers]

theorem State.onset_unused {s : State} (h : s.link.state = .linkOff ∨ s.link.state = .send ∨ s.link.state = .mark) :
    s.onset = s.setRxd false := by
  rcases h with h | h | h <;> simp [State.onset, h]

theorem State.onset_window {s : State} (h : s.link.state = .window) : s.onset = s.windowOnset.setRxd false := by
  simp [State.onset, h]

theorem State.onset_receive {s : State} (h : s.link.state = .receive) : s.onset = s.receiveOnset.setRxd false := by
  simp [State.onset, h]

theorem State.onset_lateWatch {s : State} (h : s.link.state = .lateWatch) : s.onset = s.lateOnset.setRxd false := by
  simp [State.onset, h]

theorem State.onset_quietWait {s : State} (h : s.link.state = .quietWait) : s.onset = s.quietOnset.setRxd false := by
  simp [State.onset, h]

theorem State.onset_guarding {s : State} (h : s.link.state = .guarding) :
    s.onset = (s.linkFault .foreign (s.link.lastDecided.getD 0)).setRxd false := by
  simp [State.onset, h]

theorem State.receiveOnset_inside {s : State} (h : s.timers.character.isSome = true) : s.receiveOnset = s := by
  simp [State.receiveOnset, h]

theorem State.receiveOnset_between {s : State} (h : s.timers.character = none) : s.receiveOnset = { s with
    timers := { s.timers with character := some (s.bitTimes 10) }
    due := s.due.filter fun c => c != .characterGap } := by
  simp [State.receiveOnset, h]

theorem State.lateOnset_given {s : State} (h : s.link.lateGiven = true) : s.lateOnset = s := by
  simp [State.lateOnset, h]

theorem State.lateOnset_first {s : State} (h : s.link.lateGiven = false) : s.lateOnset = { s with
    link := { s.link with lateGiven := true }
    due := s.due ++ [.lateNotice s.link.windowNode s.slotIndex] } := by
  simp [State.lateOnset, h]; rfl

/-- An onset in QUIET_WAIT, by whether it begins a new burst (R22). -/
theorem State.quietOnset_eq (s : State) : s.quietOnset = { s with
    link := { s.link with burstSeen := true }
    timers := { s.timers with quiet := 0 }
    due := (s.due.filter fun c => c != .lineQuiet) ++
      if s.link.burstSeen = false ∨ 21 * Config.ticksPerBit s.link.rate ≤ 2 * s.timers.idle then [.activityReport]
      else [] } := by
  have burst : s.newBurst = true ↔
      s.link.burstSeen = false ∨ 21 * Config.ticksPerBit s.link.rate ≤ 2 * s.timers.idle := by
    simp [State.newBurst]
  unfold State.quietOnset
  by_cases h : s.newBurst = true
  · simp [h, burst.1 h, State.hand]
  · simp [h, mt burst.2 h]

theorem State.lineReturns_high {s : State} (h : s.link.rxd = true) : s.lineReturns = s := by
  simp [State.lineReturns, h]

/-- The return of a line that was at 0 (R22). -/
theorem State.lineReturns_low {s : State} (h : s.link.rxd = false) : s.lineReturns = { s with
    link := { s.link with rxd := true }
    timers := { s.timers with
      idle := 0, gap := 0, quiet := if s.link.state = .quietWait then 0 else s.timers.quiet } } := by
  unfold State.lineReturns
  cases q : s.link.state <;> simp [h, q, State.setRxd]

/-- Settles O42, by the state of the link engine. -/
theorem onsetByLinkState : Obligations.OnsetByLinkState := by
  unfold Obligations.OnsetByLinkState
  intro s ready
  dsimp only
  rw [exec_activityOnset ready, exec_lineReturnsTo1 ready]
  refine ⟨fun unused => ?_, fun window => ?_, fun receive between => ?_, fun receive inside => ?_, fun late first => ?_,
    fun late given => ?_, fun quiet => ?_, fun guarding => ?_, fun high => ?_, fun low => ?_⟩
  · rw [State.onset_unused (s := s.takeDue _) unused]; rfl
  · rw [State.onset_window (s := s.takeDue _) window]; rfl
  · rw [State.onset_receive (s := s.takeDue _) receive, State.receiveOnset_between (s := s.takeDue _) between]; rfl
  · rw [State.onset_receive (s := s.takeDue _) receive, State.receiveOnset_inside (s := s.takeDue _) inside]; rfl
  · rw [State.onset_lateWatch (s := s.takeDue _) late, State.lateOnset_first (s := s.takeDue _) first]; rfl
  · rw [State.onset_lateWatch (s := s.takeDue _) late, State.lateOnset_given (s := s.takeDue _) given]; rfl
  · rw [State.onset_quietWait (s := s.takeDue _) quiet, State.quietOnset_eq]; rfl
  · rw [State.onset_guarding (s := s.takeDue _) guarding, State.linkFault_eq]
    exact ⟨_, rfl, rfl, rfl, rfl, rfl, rfl⟩
  · rw [State.lineReturns_high (s := s.takeDue _) high]; rfl
  · rw [State.lineReturns_low (s := s.takeDue _) low]; rfl

end Sys2Proof.Machine
end

section
/-! PROOFS. The window in progress, windows decided NONE or BAD, and the opening of window 2 (R14, R16, R18). -/

namespace Sys2Proof.Machine

open Sys2Proof

/-! ### The window in progress -/

theorem State.slotIndex_of_slot {s : State} {k : SlotIndex} (h : s.sched.state = .slot k) : s.slotIndex = k := by
  simp [State.slotIndex, h]

theorem Link.window_of_data {l : Link} {n : NodeAddr} {tr : Bool} (h : l.exchange = .data n tr) :
    l.windowNode = n ∧ l.windowKind = .data := by
  simp [Link.windowNode, Link.windowKind, h]

theorem Link.window_of_probe {l : Link} {n : NodeAddr} (h : l.exchange = .probe n) :
    l.windowNode = n ∧ l.windowKind = .probe := by
  simp [Link.windowNode, Link.windowKind, h]

theorem Link.window_of_order {l : Link} {n : NodeAddr} {tag : Byte} (h : l.exchange = .order n tag) :
    l.windowNode = n ∧ l.windowKind = .order := by
  simp [Link.windowNode, Link.windowKind, h]

theorem Link.window_of_pair {l : Link} {a b : NodeAddr} (h : l.exchange = .pair a b) :
    l.windowNode = (if l.second = true then b else a) ∧ l.windowKind = .pair := by
  simp [Link.windowNode, Link.windowKind, h]

/-! ### Windows decided without a complete reply -/

/-- The ACK outcome that a missed reply hands to the command engine, for an ORDER only (R18). -/
def Exchange.missedAck (ex : Exchange) (v : AckVerdict) : List Instr :=
  match ex with
  | .order _ _ => [.ackOutcome v]
  | .silent | .head | .data _ _ | .pair _ _ | .probe _ | .broadcast => []

theorem State.handMissed_eq (s : State) (v : Verdict) (ack : AckVerdict) :
    s.handMissed v ack = { s with due := s.due ++ s.link.exchange.missedAck ack
      ++ [.nodeOutcome s.link.windowNode s.link.windowKind s.slotIndex v] } := by
  cases ex : s.link.exchange <;> simp [State.handMissed, Exchange.missedAck, ex, State.hand]

/-- A window decided BAD: only the line, its timers and what is due change (R16, R18). -/
theorem State.decideBad_eq (s : State) (c : BadCause) :
    s.decideBad c = { s with
      link := (s.windowDone .guarding).link
      timers := (s.windowDone .guarding).timers
      due := s.due ++ s.link.exchange.missedAck .bad
        ++ [.nodeOutcome s.link.windowNode s.link.windowKind s.slotIndex (.bad (s.link.badFound.getD c))] } := by
  rw [State.decideBad, State.handMissed_eq]; rfl

/-- A window decided NONE: only the line, its timers and what is due change (R14, R18). -/
theorem State.decideNone_eq (s : State) :
    s.decideNone = { s with
      link := (s.windowDone .lateWatch).link
      timers := (s.windowDone .lateWatch).timers
      due := s.due ++ s.link.exchange.missedAck .silent
        ++ [.nodeOutcome s.link.windowNode s.link.windowKind s.slotIndex .silent] } := by
  rw [State.decideNone, State.handMissed_eq]; rfl

theorem State.characterGap_receive {s : State} (h : s.link.state = .receive) : s.characterGap = s.decideBad .gap := by
  simp [State.characterGap, h]

theorem State.windowClose_window {s : State} (h : s.link.state = .window) : s.windowClose = s.decideNone := by
  simp [State.windowClose, h]

/-! ### The opening of window 2 -/

/-- What the opening of window 2 hands on for window 1: its outcome, where none has been decided (R14, R16). -/
def State.firstUndecided (s : State) (a : NodeAddr) : List Instr :=
  if s.link.state = .window then [.nodeOutcome a .pair s.slotIndex .silent]
  else if s.link.state = .receive then
    [.nodeOutcome a .pair s.slotIndex (.bad (s.link.badFound.getD .cutByWindow2))]
  else []

/-- What closing window 1 of a PAIR slot changes (R14, R16). -/
theorem State.closeFirst_eq {s : State} {a b : NodeAddr} (pair : s.link.exchange = .pair a b)
    (first : s.link.second = false) : s.closeFirst = { s with
      link := s.closeFirst.link
      timers := s.closeFirst.timers
      due := s.due ++ s.firstUndecided a } := by
  obtain ⟨node, kind⟩ := Link.window_of_pair pair
  unfold State.closeFirst
  split
  case h_1 window =>
    rw [State.decideNone_eq]
    simp [State.firstUndecided, Exchange.missedAck, pair, node, kind, first, window]
  case h_2 receive =>
    rw [State.decideBad_eq]
    simp [State.firstUndecided, Exchange.missedAck, pair, node, kind, first, receive]
  all_goals simp [State.firstUndecided, *]

@[simp] theorem State.closeFirst_exchange (s : State) : s.closeFirst.link.exchange = s.link.exchange := by
  unfold State.closeFirst
  split <;> simp [State.decideNone_eq, State.decideBad_eq, State.windowDone]

/-- Window 2 opens out of every state of window 1 of a PAIR slot (R14). -/
theorem State.window2Open_pair {s : State} {a b : NodeAddr} (pair : s.link.exchange = .pair a b)
    (first : s.link.second = false)
    (phase : s.link.state = .window ∨ s.link.state = .receive ∨ s.link.state = .lateWatch
      ∨ s.link.state = .guarding) :
    s.window2Open = { s.dropWindowTimers.closeFirst.openWindow true with
      timers := { (s.dropWindowTimers.closeFirst.openWindow true).timers with window2 := none } } := by
  rcases phase with h | h | h | h <;> simp [State.window2Open, pair, first, h]

/-- Settles O44, from the equations of a window decided BAD or NONE. -/
theorem windowsEnd : Obligations.WindowsEnd := by
  unfold Obligations.WindowsEnd
  refine ⟨fun s => ⟨fun k => State.slotIndex_of_slot, fun n tr => Link.window_of_data, fun n => Link.window_of_probe,
    fun n tag => Link.window_of_order, fun a b => Link.window_of_pair⟩, fun s ready => ?_⟩
  intro n kind acks
  have missed (v : AckVerdict) : s.link.exchange.missedAck v = acks v := by
    simp only [acks]
    cases s.link.exchange <;> rfl
  refine ⟨fun receive => ?_, fun window => ?_, fun a b pair first phase => ?_⟩
  · rw [exec_characterGap ready, State.characterGap_receive (s := s.takeDue _) receive, State.decideBad_eq,
      State.takeDue_link, missed]
    exact ⟨_, rfl, rfl, rfl, rfl⟩
  · rw [exec_windowClose ready, State.windowClose_window (s := s.takeDue _) window, State.decideNone_eq,
      State.takeDue_link, missed]
    exact ⟨_, rfl, rfl, rfl, rfl⟩
  · rw [exec_window2Open ready, State.window2Open_pair (s := s.takeDue _) pair first phase,
      State.closeFirst_eq (s := (s.takeDue _).dropWindowTimers) pair first]
    exact ⟨_, rfl, rfl, rfl, rfl, by simp [Link.windowNode, State.openWindow, pair], rfl,
      by simp [State.openWindow, State.bitTimes, State.windowLength]⟩

end Sys2Proof.Machine
end

section
/-! PROOFS. What stands on the line bit by bit, and the ends of a frame and of the abort mark with the readback compare (R1, R3, R4,
R20, R21). -/

namespace Sys2Proof.Machine

open Sys2Proof

/-! ### What stands on the line -/

/-- Transmit data in the frame's bit in progress: bit j of byte i, start bit and stop bit counted (R1, R3). -/
theorem State.transmitData_send {s : State} {i j r left : Nat} {b : Byte} (send : s.link.state = .send)
    (byte : s.link.frame[i]? = some b) (timer : s.timers.frame = some left) (hj : j < 10)
    (hr : r < Config.ticksPerBit s.link.frameRate)
    (time : 10 * s.link.frame.length * Config.ticksPerBit s.link.frameRate - left
      = (10 * i + j) * Config.ticksPerBit s.link.frameRate + r) :
    s.transmitData = if j = 0 then false else if j = 9 then true else b.getLsbD (j - 1) := by
  have bit : ((10 * i + j) * Config.ticksPerBit s.link.frameRate + r) / Config.ticksPerBit s.link.frameRate
      = 10 * i + j := by
    rw [Nat.mul_comm, Nat.mul_add_div (by omega), Nat.div_eq_of_lt hr, Nat.add_zero]
  have place : (10 * i + j) / 10 = i ∧ (10 * i + j) % 10 = j := by omega
  simp only [State.transmitData, send, State.frameTimes, lineTime, timer, Option.getD_some, time, bit, frameBit, place,
    byte]

theorem State.transmitData_mark {s : State} (h : s.link.state = .mark) : s.transmitData = false := by
  simp [State.transmitData, h]

theorem State.transmitData_idle {s : State} (send : s.link.state ≠ .send) (mark : s.link.state ≠ .mark) :
    s.transmitData = true := by
  cases h : s.link.state <;> simp_all [State.transmitData]

theorem State.faultSlot_of_slot {s : State} {k : SlotIndex} (h : s.sched.state = .slot k) :
    s.faultSlot = BitVec.ofNat 16 k.toNat := by
  simp [State.faultSlot, h, place]

/-! ### Frame end -/

/-- The frame has left the line: the receive data is 1 and no frame timer runs (R3). -/
def State.frameSent (s : State) : State :=
  { s with
    link := { s.link with rxd := true, frame := [] }
    timers := { s.timers with idle := 0, gap := 0, frame := none } }

theorem State.frameEnd_send {s : State} (send : s.link.state = .send) (whole : s.timers.cut = none) :
    s.frameEnd = s.frameSent.afterFrame := by
  simp [State.frameEnd, send, whole, State.setRxd, State.frameSent]

theorem State.frameEnd_cut {s : State} (send : s.link.state = .send) (cut : s.timers.cut.isSome = true) :
    s.frameEnd = s := by
  simp [State.frameEnd, send, cut]

/-- An exchange that is no broadcast opens the window of one node, the two windows of a PAIR slot, or none (R13, R14). -/
theorem Exchange.kinds (ex : Exchange) (plain : ex ≠ .broadcast) :
    ((∃ n tr, ex = .data n tr) ∨ (∃ n, ex = .probe n) ∨ (∃ n tag, ex = .order n tag))
      ∨ (∃ a b, ex = .pair a b) ∨ (ex = .head ∨ ex = .silent) := by
  cases ex <;> simp_all

/-- The exchanges whose frame opens a window of one node (R13, R14). -/
theorem State.afterFrame_single {s : State} (h : (∃ n tr, s.link.exchange = .data n tr)
    ∨ (∃ n, s.link.exchange = .probe n) ∨ (∃ n tag, s.link.exchange = .order n tag)) :
    s.afterFrame = s.openWindow false := by
  rcases h with ⟨n, tr, h⟩ | ⟨n, h⟩ | ⟨n, tag, h⟩ <;> simp [State.afterFrame, h]

theorem State.afterFrame_pair {s : State} {a b : NodeAddr} (h : s.link.exchange = .pair a b) :
    s.afterFrame = { s.openWindow false with
      timers := { (s.openWindow false).timers with window2 := some (s.bitTimes (s.window2Offset a)) } } := by
  simp [State.afterFrame, h]

theorem State.afterFrame_silent {s : State} (h : s.link.exchange = .head ∨ s.link.exchange = .silent) :
    s.afterFrame = { s with link := { s.link with state := .guarding } } := by
  rcases h with h | h <;> simp [State.afterFrame, h]

theorem State.afterFrame_broadcast {s : State} (h : s.link.exchange = .broadcast) :
    s.afterFrame = { s.broadcastSent with link := { s.link with state := .guarding } } := by
  simp [State.afterFrame, h]

/-- A settlement reads neither the in-flight mark nor the line (R110). -/
theorem State.settledAs_clearMark (s : State) (e : OutEntry) (st : Status) (c : Byte) (d : List Byte) :
    s.clearMark.settledAs e st c d = (s.settledAs e st c d).clearMark := by
  unfold State.settledAs
  by_cases room : s.result.responses.length < 16 ∧ s.waitingOrders = []
  · rw [if_pos room]
    exact if_pos room
  · rw [if_neg room]
    exact if_neg room

/-- See `State.settledAs_clearMark`. -/
theorem State.settledAs_frameSent (s : State) (e : OutEntry) (st : Status) (c : Byte) (d : List Byte) :
    s.frameSent.settledAs e st c d
      = { s.settledAs e st c d with link := s.frameSent.link, timers := s.frameSent.timers } := by
  unfold State.settledAs
  by_cases room : s.result.responses.length < 16 ∧ s.waitingOrders = []
  · rw [if_pos room]
    exact if_pos room
  · rw [if_neg room]
    exact if_neg room

/-- A broadcast whose entry the in-flight mark names settles SENT with the mark cleared (R103, R104). -/
theorem State.broadcastSent_eq {s : State} {e : OutEntry} (law : s.PushLaw) (mem : e ∈ s.cmd.outstanding)
    (awaits : e.state = .awaitAck) (mark : s.cmd.inFlightMark = some e.push) :
    s.broadcastSent = s.clearMark.settledAs e .sent 0 [] := by
  have unsettled : e.unsettled = true := by simp [OutEntry.unsettled, awaits]
  simp only [State.broadcastSent, State.markedAwaiting_eq law mem awaits mark, State.settleOut_eq _ _ _ law mem unsettled,
    State.settledAs_clearMark]

/-! ### Readback -/

theorem State.readback_cut {s : State} (send : s.link.state = .send) (cut : s.timers.cut.isSome = true) (level : Bool) :
    s.readback level = s := by
  simp [State.readback, send, cut]

theorem State.readback_same {s : State} (send : s.link.state = .send) : s.readback s.transmitData = s := by
  simp [State.readback, send]

theorem State.readback_differs {s : State} {level : Bool} (send : s.link.state = .send) (whole : s.timers.cut = none)
    (differs : level ≠ s.transmitData) :
    s.readback level = (s.linkFault .readback s.link.exchange.address).setRxd level := by
  simp [State.readback, send, whole, differs]

/-! ### End of the abort mark -/

theorem State.markEnd_off {s : State} (mark : s.link.state = .mark) (off : s.link.quietAfterMark = false) :
    s.markEnd = (s.setRxd true).linkOff := by
  simp [State.markEnd, mark, off]

theorem State.markEnd_quiet {s : State} (mark : s.link.state = .mark) (quiet : s.link.quietAfterMark = true) :
    s.markEnd = (s.setRxd true).startQuiet := by
  simp [State.markEnd, mark, quiet]

/-- Settles O45: the bits on the line, then one equation for each of the three events. -/
theorem frameAndMarkEnds : Obligations.FrameAndMarkEnds := by
  unfold Obligations.FrameAndMarkEnds
  refine ⟨fun s => ⟨fun i b left j r send byte timer hj hr time => State.transmitData_send send byte timer hj hr time,
    State.transmitData_mark, State.transmitData_idle, ?_, fun k => State.faultSlot_of_slot, fun head => ?_⟩,
    fun s ready => ?_⟩
  · cases s.link.exchange <;> rfl
  · simp [State.faultSlot, head]
  · refine ⟨fun send whole plain => ?_, fun e send whole broadcast law mem awaits mark => ?_,
      fun send cut => ⟨?_, fun level => ?_⟩, fun send => ?_, fun level send whole differs => ?_, fun mark => ?_⟩
    · rw [exec_frameEnd ready, State.frameEnd_send (s := s.takeDue _) send whole]
      rcases s.link.exchange.kinds plain with single | ⟨a, b, pair⟩ | silent
      · rw [State.afterFrame_single (s := (s.takeDue _).frameSent) single]
        refine ⟨_, rfl, rfl, rfl, rfl, fun _ => ⟨rfl, rfl⟩, fun a b pair => ?_, fun silent => ?_⟩
        · simp [pair] at single
        · rcases silent with h | h <;> simp [h] at single
      · rw [State.afterFrame_pair (s := (s.takeDue _).frameSent) pair]
        refine ⟨_, rfl, rfl, rfl, rfl, fun single => ?_, fun a' b' same => ?_, fun silent => ?_⟩
        · simp [pair] at single
        · obtain ⟨rfl, rfl⟩ : a = a' ∧ b = b' := by simpa [pair] using same
          exact ⟨rfl, rfl, rfl⟩
        · simp [pair] at silent
      · rw [State.afterFrame_silent (s := (s.takeDue _).frameSent) silent]
        refine ⟨_, rfl, rfl, rfl, rfl, fun single => ?_, fun a b pair => ?_, fun _ => rfl⟩
        · rcases silent with h | h <;> simp [h] at single
        · simp [pair] at silent
    · rw [exec_frameEnd ready, State.frameEnd_send (s := s.takeDue _) send whole,
        State.afterFrame_broadcast (s := (s.takeDue _).frameSent) broadcast,
        State.broadcastSent_eq (s := (s.takeDue _).frameSent) law mem awaits mark,
        show (s.takeDue .frameEnd).frameSent.clearMark = (s.takeDue .frameEnd).clearMark.frameSent from rfl,
        State.settledAs_frameSent]
      exact ⟨_, rfl, rfl, rfl⟩
    · rw [exec_frameEnd ready, State.frameEnd_cut (s := s.takeDue _) send cut]; rfl
    · rw [exec_lReadback ready, State.readback_cut (s := s.takeDue _) send cut]; rfl
    · rw [exec_lReadback ready]
      exact congrArg _ (State.readback_same (s := s.takeDue _) send)
    · rw [exec_lReadback ready, State.readback_differs (s := s.takeDue _) send whole differs, State.linkFault_eq]
      exact ⟨_, rfl, rfl, rfl, rfl, rfl, rfl⟩
    · rw [exec_markEnd ready]
      cases direction : s.link.quietAfterMark
      case false =>
        rw [State.markEnd_off (s := s.takeDue _) mark direction]
        exact ⟨_, rfl, rfl, rfl, fun _ => rfl, nofun⟩
      case true =>
        rw [State.markEnd_quiet (s := s.takeDue _) mark direction]
        exact ⟨_, rfl, rfl, rfl, nofun, fun _ => ⟨rfl, rfl, rfl⟩⟩

end Sys2Proof.Machine
end

section
/-! PROOFS. Which byte differs, when a reply is complete, and what a GOOD reply hands on (R11, R12, R15, R16, R18). -/

namespace Sys2Proof.Machine

open Sys2Proof

/-! ### The byte that differs -/

theorem byteAt_append_right (l more : List Byte) (i : Nat) : byteAt (l ++ more) (l.length + i) = byteAt more i := by
  simp [byteAt, List.getElem?_append_right]

theorem head?_eq_some_iff_byteAt {bytes : List Byte} {k : Byte} (h : k ≠ 0) :
    bytes.head? = some k ↔ byteAt bytes 0 = k := by
  cases bytes with
  | nil => simpa [byteAt] using h.symm
  | cons b rest => simp [byteAt]

/-- The check that falls on the byte after those received (R15, R16). -/
theorem Link.fieldsPass_append (l : Link) (got : List Byte) (b : Byte) :
    l.fieldsPass (got ++ [b]) =
      if got.length = 0 then l.kindPasses b
      else if got.length = 1 then b == addressByte l.windowNode
      else if got.length = 2 then l.lengthPasses (byteAt (got ++ [b]) 0) b
      else l.furtherPasses (got ++ [b]) got.length := by
  have last : byteAt (got ++ [b]) got.length = b := byteAt_append_right got [b] 0
  simp only [Link.fieldsPass, List.length_append, List.length_singleton, Nat.add_sub_cancel, last]

/-- Behind the header only the further checks fall (R15). -/
theorem Link.fieldsPass_behind_header {l : Link} {bytes : List Byte} (h : 3 < bytes.length) :
    l.fieldsPass bytes = l.furtherPasses bytes (bytes.length - 1) := by
  unfold Link.fieldsPass
  rw [if_neg (by omega), if_neg (by omega), if_neg (by omega)]

theorem Link.kindPasses_false_iff {l : Link} {b : Byte} (got : l.received = []) :
    l.kindPasses b = false ↔ l.Differs b ∨ ¬ l.Receives := by
  cases ex : l.exchange <;> simp [Link.kindPasses, Link.Differs, Link.Receives, got, ex, kindInput,
    kindInputT, kindIdent, kindAck]

theorem Link.differs_of_one {l : Link} {kind b : Byte} (got : l.received = [kind]) :
    l.Differs b ↔ b ≠ addressByte l.windowNode := by
  cases ex : l.exchange <;> simp [Link.Differs, got, ex, addressByte]

theorem Link.lengthPasses_false_iff {l : Link} {kind addr b : Byte} (got : l.received = [kind, addr]) :
    l.lengthPasses kind b = false ↔ l.Differs b ∨ ¬ l.Receives := by
  have value (n : Nat) (h : n < 256) : ¬ b.toNat = n ↔ ¬ b = BitVec.ofNat 8 n := by
    rw [BitVec.toNat_eq, BitVec.toNat_ofNat, Nat.mod_eq_of_lt h]
  cases ex : l.exchange <;> simp [Link.lengthPasses, Link.Differs, Link.Receives, got, ex, kindInputT, value]

theorem Link.furtherPasses_false_iff {l : Link} {kind addr len b : Byte} {rest : List Byte}
    (got : l.received = kind :: addr :: len :: rest) :
    l.furtherPasses (l.received ++ [b]) l.received.length = false ↔ l.Differs b := by
  have last : byteAt (l.received ++ [b]) l.received.length = b := byteAt_append_right l.received [b] 0
  unfold Link.furtherPasses Link.Differs
  rw [last, got]
  cases ex : l.exchange
  case data n tr =>
    simp only [(Link.window_of_data ex).1, byteAt, kindInputT]
    simp [imp_iff_not_or]
    tauto
  case order n tag =>
    simp only [(Link.window_of_order ex).1]
    cases rest <;> simp [and_assoc]
  all_goals simp

/-- A byte that differs fails its check, and in a slot with a reply window no other byte does (R15, R16). -/
theorem Link.fieldsPass_false_iff (l : Link) (b : Byte) :
    l.fieldsPass (l.received ++ [b]) = false
      ↔ l.Differs b ∨ (l.received.length = 0 ∨ l.received.length = 2) ∧ ¬ l.Receives := by
  rw [Link.fieldsPass_append]
  match got : l.received with
  | [] => simp [l.kindPasses_false_iff got]
  | [kind] => simp [l.differs_of_one got]
  | [kind, addr] => simp [byteAt, l.lengthPasses_false_iff got]
  | kind :: addr :: len :: rest =>
    have further := l.furtherPasses_false_iff (b := b) got
    rw [got] at further
    simp [← further]

theorem Link.fieldsPass_of_not_differs {l : Link} {b : Byte} (receives : l.Receives) (same : ¬ l.Differs b) :
    l.fieldsPass (l.received ++ [b]) = true := by
  rw [← Bool.not_eq_false, l.fieldsPass_false_iff]
  tauto

/-- The reply is complete when it has the length that is known by then (R11, R12). -/
theorem Link.completes_iff (l : Link) (bytes : List Byte) :
    l.Completes bytes ↔ l.replyLength bytes = some bytes.length := by
  unfold Link.Completes Link.replyLength
  cases ex : l.exchange
  case data n tr =>
    have inputT : bytes.head? = some 0x21 ↔ byteAt bytes 0 = kindInputT := head?_eq_some_iff_byteAt (by decide)
    simp only [inputT, beq_iff_eq]
    by_cases kind : byteAt bytes 0 = kindInputT
    · rw [if_pos kind, if_pos kind]
      by_cases known : l.inLen n + 5 < bytes.length <;> simp [known, byteAt, eq_comm]
    · rw [if_neg kind, if_neg kind]
      simp [eq_comm]
  all_goals simp [eq_comm]

/-! ### The judgement of a byte -/

/-- The state with other bytes received of the reply (R15). -/
def State.withReceived (s : State) (bytes : List Byte) : State := { s with link := { s.link with received := bytes } }

/-- The checks read none of the bytes that the link engine holds. -/
theorem Link.fieldsPass_received (l : Link) (got bytes : List Byte) :
    { l with received := got }.fieldsPass bytes = l.fieldsPass bytes := rfl

/-- See `Link.fieldsPass_received`. -/
theorem Link.replyLength_received (l : Link) (got bytes : List Byte) :
    { l with received := got }.replyLength bytes = l.replyLength bytes := rfl

theorem State.judgeByte_differs {s : State} {b : Byte} (fails : s.link.fieldsPass (s.link.received ++ [b]) = false) :
    s.judgeByte b = { s with
      link := { s.link with received := s.link.received ++ [b], badFound := some .field } } := by
  simp [State.judgeByte, Link.fieldsPass_received, fails]

theorem State.judgeByte_goes_on {s : State} {b : Byte} (passes : s.link.fieldsPass (s.link.received ++ [b]) = true)
    (unfinished : ¬ s.link.Completes (s.link.received ++ [b])) :
    s.judgeByte b = s.withReceived (s.link.received ++ [b]) := by
  rw [Link.completes_iff] at unfinished
  simp only [State.judgeByte, Link.fieldsPass_received, Link.replyLength_received, passes, unfinished]
  rfl

theorem State.judgeByte_complete {s : State} {b : Byte} (passes : s.link.fieldsPass (s.link.received ++ [b]) = true)
    (complete : s.link.Completes (s.link.received ++ [b])) :
    s.judgeByte b = if crc16 (s.link.received ++ [b]) = 0
      then (s.withReceived (s.link.received ++ [b])).decideGood (s.link.received ++ [b])
      else (s.withReceived (s.link.received ++ [b])).decideBad .crc := by
  rw [Link.completes_iff] at complete
  simp only [State.judgeByte, Link.fieldsPass_received, Link.replyLength_received, passes, complete]
  rfl

/-! ### The replies that a window expects -/

/-- The bytes of a reply up to the end of its input slice (R11). -/
def replyHead (kind : Byte) (n : NodeAddr) (len : Nat) (slice : List Byte) : List Byte :=
  [kind, n.setWidth 8, BitVec.ofNat 8 len] ++ slice

theorem length_replyHead (kind : Byte) (n : NodeAddr) (len : Nat) (slice : List Byte) :
    (replyHead kind n len slice).length = slice.length + 3 := by
  simp [replyHead]

theorem byteAt_replyHead_zero (kind : Byte) (n : NodeAddr) (len : Nat) (slice rest : List Byte) :
    byteAt (replyHead kind n len slice ++ rest) 0 = kind := rfl

/-- The input slice stands behind the header (R11). -/
theorem bytesFrom_replyHead (kind : Byte) (n : NodeAddr) (len : Nat) (slice rest : List Byte) :
    bytesFrom (replyHead kind n len slice ++ rest) 3 slice.length = slice := by
  simp [bytesFrom, replyHead]

/-- The bytes behind the input slice (R11). -/
theorem byteAt_replyHead (kind : Byte) (n : NodeAddr) (len : Nat) (slice rest : List Byte) (i : Nat) :
    byteAt (replyHead kind n len slice ++ rest) (slice.length + 3 + i) = byteAt rest i := by
  rw [← length_replyHead kind n len slice, byteAt_append_right]

/-- See `byteAt_replyHead`. -/
theorem bytesFrom_replyHead_rest (kind : Byte) (n : NodeAddr) (len : Nat) (slice rest : List Byte) (i m : Nat) :
    bytesFrom (replyHead kind n len slice ++ rest) (slice.length + 3 + i) m = bytesFrom rest i m := by
  rw [← length_replyHead kind n len slice, bytesFrom, bytesFrom, List.drop_length_add_append]

/-- A reply as its window takes it at its last byte: the check on that byte holds, the reply is complete, and as GOOD it hands
on what is given (R15, R18). -/
structure State.TakesReply (s : State) (bytes : List Byte) (handed : List Instr) : Prop where
  passes : s.link.fieldsPass bytes = true
  complete : s.link.Completes bytes
  good : s.decideGood bytes = { s with
    link := (s.windowDone .guarding).link
    timers := (s.windowDone .guarding).timers
    due := s.due ++ handed }

theorem State.takesReply_ack {s : State} {n : NodeAddr} {tag code reason hi lo : Byte}
    (ex : s.link.exchange = .order n tag) :
    s.TakesReply ([0x22, n.setWidth 8, BitVec.ofNat 8 3] ++ [tag, code, reason] ++ [hi, lo])
      [.ackOutcome (if code = 1 then .accept else if code = 2 then .busy else .reject reason),
        .nodeOutcome n .order s.slotIndex .good] where
  passes := by simp [Link.fieldsPass, Link.furtherPasses, ex]
  complete := by simp [Link.Completes, ex]
  good := by simp [State.decideGood, ex, byteAt, ackOf, State.hand, State.windowDone, Link.windowNode]

theorem State.takesReply_ident {s : State} {n : NodeAddr} {h l rev o i hi lo : Byte}
    (ex : s.link.exchange = .probe n) :
    s.TakesReply ([0x23, n.setWidth 8, BitVec.ofNat 8 5] ++ [h, l, rev, o, i] ++ [hi, lo])
      [.nodeOutcome n .probe s.slotIndex (.ident ⟨h.setWidth 16 <<< 8 ||| l.setWidth 16, rev, o, i⟩)] where
  passes := by simp [Link.fieldsPass, Link.furtherPasses, ex]
  complete := by simp [Link.Completes, ex]
  good := by simp [State.decideGood, ex, byteAt, identOf, State.hand, State.windowDone]

theorem State.takesReply_input {s : State} {n : NodeAddr} {tr : Bool} {slice : List Byte} {hi lo : Byte}
    (ex : s.link.exchange = .data n tr) (len : slice.length = s.link.inLen n) :
    s.TakesReply (replyHead 0x20 n slice.length slice ++ [hi, lo])
      [.replyStorage n slice, .nodeOutcome n .data s.slotIndex .good] where
  passes := by simp [Link.fieldsPass, Link.furtherPasses, ex, byteAt_replyHead_zero, length_replyHead, kindInputT]
  complete := by simp [Link.Completes, ex, length_replyHead, ← len]; simp [replyHead]; omega
  good := by
    simp [State.decideGood, ex, byteAt_replyHead_zero, ← len, bytesFrom_replyHead, kindInputT, State.hand,
      State.windowDone]

theorem State.takesReply_pair {s : State} {a b : NodeAddr} {slice : List Byte} {hi lo : Byte}
    (ex : s.link.exchange = .pair a b) (len : slice.length = s.link.inLen s.link.windowNode) :
    s.TakesReply (replyHead 0x20 s.link.windowNode slice.length slice ++ [hi, lo])
      [.replyStorage s.link.windowNode slice, .nodeOutcome s.link.windowNode .pair s.slotIndex .good] where
  passes := by simp [Link.fieldsPass, Link.furtherPasses, ex, length_replyHead]
  complete := by simp [Link.Completes, ex, length_replyHead, ← len]; omega
  good := by
    simp [State.decideGood, ex, ← len, bytesFrom_replyHead, State.hand, State.windowDone]

/-- The bytes of an INPUT+T reply (R11). -/
def inputTBytes (n : NodeAddr) (slice : List Byte) (tag mixed : Byte) (data : List Byte) (hi lo : Byte) : List Byte :=
  replyHead 0x21 n (slice.length + 3 + data.length) slice
    ++ ([tag, mixed, BitVec.ofNat 8 data.length] ++ data ++ [hi, lo])

section
variable (n : NodeAddr) (slice : List Byte) (tag mixed : Byte) (data : List Byte) (hi lo : Byte)

theorem length_inputTBytes : (inputTBytes n slice tag mixed data hi lo).length = slice.length + data.length + 8 := by
  simp [inputTBytes, length_replyHead]; omega

/-- The trailer of an INPUT+T reply by its places: tag, serial and outcome, result length, result data (R11). -/
theorem inputTBytes_trailer (fits : data.length ≤ 32) :
    byteAt (inputTBytes n slice tag mixed data hi lo) (slice.length + 3) = tag
      ∧ byteAt (inputTBytes n slice tag mixed data hi lo) (slice.length + 4) = mixed
      ∧ (byteAt (inputTBytes n slice tag mixed data hi lo) (slice.length + 5)).toNat = data.length
      ∧ bytesFrom (inputTBytes n slice tag mixed data hi lo) (slice.length + 6) data.length = data := by
  have result : (BitVec.ofNat 8 data.length).toNat = data.length := by
    rw [BitVec.toNat_ofNat, Nat.mod_eq_of_lt (by omega)]
  refine ⟨byteAt_replyHead _ _ _ _ _ 0, byteAt_replyHead _ _ _ _ _ 1, ?_, ?_⟩
  · exact (congrArg BitVec.toNat (byteAt_replyHead _ _ _ _ _ 2)).trans result
  · rw [inputTBytes, bytesFrom_replyHead_rest (i := 3)]
    simp [bytesFrom]

end

theorem State.takesReply_inputT {s : State} {n : NodeAddr} {slice data : List Byte} {tag mixed hi lo : Byte}
    (ex : s.link.exchange = .data n true) (len : slice.length = s.link.inLen n) (fits : data.length ≤ 32) :
    s.TakesReply (inputTBytes n slice tag mixed data hi lo)
      [.replyStorage n slice, .nodeOutcome n .data s.slotIndex .good,
        .resultTrailer n tag (mixed.extractLsb' 0 4) (mixed.extractLsb' 4 4) data] := by
  have size := length_inputTBytes n slice tag mixed data hi lo
  have kind : byteAt (inputTBytes n slice tag mixed data hi lo) 0 = kindInputT := rfl
  have first : (inputTBytes n slice tag mixed data hi lo).head? = some 0x21 := rfl
  have input : bytesFrom (inputTBytes n slice tag mixed data hi lo) 3 slice.length = slice := bytesFrom_replyHead ..
  obtain ⟨tagAt, mixedAt, resultAt, dataAt⟩ := inputTBytes_trailer n slice tag mixed data hi lo fits
  refine ⟨?_, ?_, ?_⟩
  · rw [Link.fieldsPass_behind_header (by omega), size]
    simp only [Link.furtherPasses, ex, kind, ← len]
    simp; omega
  · simp only [Link.Completes, ex, first, size, ← len]
    rw [byteAt] at resultAt
    rw [resultAt]
    simp; omega
  · simp [State.decideGood, ex, ← len, kind, input, tagAt, mixedAt, resultAt, dataAt, State.hand, State.windowDone]

/-- Whatever two bytes follow it, a reply that a window expects is complete with them, and as GOOD hands on what is expected
(R15, R18). -/
theorem State.takesReply_of_expects {s : State} {body : List Byte} {handed : List Instr}
    (expects : s.link.Expects s.slotIndex body handed) (hi lo : Byte) : s.TakesReply (body ++ [hi, lo]) handed := by
  rcases expects with ⟨tag, code, reason, ex, -, rfl, rfl⟩ | ⟨tr, slice, ex, len, rfl, rfl⟩
    | ⟨slice, tag, mixed, data, ex, len, fits, rfl, rfl⟩ | ⟨a, b, slice, ex, len, rfl, rfl⟩
    | ⟨h, l, rev, o, i, ex, rfl, rfl⟩
  · exact State.takesReply_ack ex
  · exact State.takesReply_input ex len
  · have reply := State.takesReply_inputT (tag := tag) (mixed := mixed) (hi := hi) (lo := lo) ex len fits
    simpa [inputTBytes, replyHead] using reply
  · exact State.takesReply_pair ex len
  · exact State.takesReply_ident ex

/-- The last byte of a reply that the window expects, with the right CRC: GOOD (R15). -/
theorem State.judgeByte_good {s : State} {b : Byte} {body : List Byte} {handed : List Instr}
    (expects : s.link.Expects s.slotIndex body handed) (whole : s.link.received ++ [b] = withCrc body) :
    s.judgeByte b = { s with
      link := (s.windowDone .guarding).link
      timers := (s.windowDone .guarding).timers
      due := s.due ++ handed } := by
  have reply : (s.withReceived (withCrc body)).TakesReply (withCrc body) handed :=
    State.takesReply_of_expects (s := s.withReceived (withCrc body)) expects _ _
  rw [State.judgeByte_complete (by rw [whole]; exact reply.passes) (by rw [whole]; exact reply.complete), whole,
    if_pos (crc16_withCrc body), reply.good]
  rfl

/-- The last byte of a reply that the window expects, with a wrong CRC: BAD (R16). -/
theorem State.judgeByte_wrong_crc {s : State} {b hi lo : Byte} {body : List Byte} {handed : List Instr}
    (good : s.link.badFound = none) (expects : s.link.Expects s.slotIndex body handed)
    (whole : s.link.received ++ [b] = body ++ [hi, lo]) (wrong : [hi, lo] ≠ highFirst (crc16 body)) :
    s.judgeByte b = { s with
      link := (s.windowDone .guarding).link
      timers := (s.windowDone .guarding).timers
      due := s.due ++ s.link.exchange.missedAck .bad
        ++ [.nodeOutcome s.link.windowNode s.link.windowKind s.slotIndex (.bad .crc)] } := by
  have cause : (s.withReceived (body ++ [hi, lo])).link.badFound.getD .crc = .crc := by simp [State.withReceived, good]
  have reply : (s.withReceived (body ++ [hi, lo])).TakesReply (body ++ [hi, lo]) handed :=
    State.takesReply_of_expects (s := s.withReceived (body ++ [hi, lo])) expects hi lo
  rw [State.judgeByte_complete (by rw [whole]; exact reply.passes) (by rw [whole]; exact reply.complete), whole,
    if_neg (mt (crc16_append_eq_zero body hi lo).1 wrong), State.decideBad_eq, cause]
  rfl

/-! ### The end of a character -/

/-- A character has come to its end with receive data at a level (R2). -/
def State.heard (s : State) (level : Bool) : State :=
  { s with
    link := { s.link with rxd := level }
    timers := { s.timers with character := none, idle := 0, gap := 0 } }

theorem State.characterEnd_other {s : State} (h : s.link.state ≠ .receive) (b : Byte) (stop : Bool) :
    s.characterEnd b stop = s := by
  cases st : s.link.state <;> simp_all [State.characterEnd]

theorem State.characterEnd_bad {s : State} (receive : s.link.state = .receive) (bad : s.link.badFound.isSome = true)
    (b : Byte) (stop : Bool) : s.characterEnd b stop = s.heard stop := by
  simp [State.characterEnd, receive, bad, State.setRxd, State.heard]

theorem State.characterEnd_framing {s : State} (receive : s.link.state = .receive) (good : s.link.badFound = none)
    (b : Byte) : s.characterEnd b false = { s.heard false with
      link := { (s.heard false).link with badFound := some .framing } } := by
  simp [State.characterEnd, receive, good, State.setRxd, State.heard]

theorem State.characterEnd_judged {s : State} (receive : s.link.state = .receive) (good : s.link.badFound = none)
    (b : Byte) : s.characterEnd b true = (s.heard true).judgeByte b := by
  simp [State.characterEnd, receive, good, State.setRxd, State.heard]

theorem exec_characterEnd_judged {s : State} (ready : s.inReset = false) (receive : s.link.state = .receive)
    (good : s.link.badFound = none) (b : Byte) :
    exec (.characterEnd b true) s = .next (((s.takeDue (.characterEnd b true)).heard true).judgeByte b) := by
  rw [exec_characterEnd ready, State.characterEnd_judged (s := s.takeDue _) receive good]

/-- Settles O43: the last byte is judged by its check and by the length of the reply, and a complete reply by its CRC. -/
theorem repliesJudged : Obligations.RepliesJudged := by
  unfold Obligations.RepliesJudged
  intro s b stop ready due bytes k n timers acks
  have missed : s.link.exchange.missedAck .bad = acks := by
    simp only [acks]
    cases s.link.exchange <;> rfl
  refine ⟨fun other => ?_, fun receive bad => ?_, fun receive good => ⟨?_, fun differs => ?_,
    fun receives same going => ?_, fun body handed expects right => ?_, fun body handed hi lo expects whole wrong => ?_⟩⟩
  · rw [exec_characterEnd ready, State.characterEnd_other (s := s.takeDue _) other]; rfl
  · rw [exec_characterEnd ready, State.characterEnd_bad (s := s.takeDue _) receive bad]; rfl
  · rw [exec_characterEnd ready, State.characterEnd_framing (s := s.takeDue _) receive good]; rfl
  · have fails := (s.link.fieldsPass_false_iff b).2 (.inl differs)
    rw [exec_characterEnd_judged ready receive good,
      State.judgeByte_differs (s := (s.takeDue (.characterEnd b true)).heard true) fails]
    rfl
  · rw [exec_characterEnd_judged ready receive good,
      State.judgeByte_goes_on (s := (s.takeDue (.characterEnd b true)).heard true)
        (Link.fieldsPass_of_not_differs receives same) going]
    rfl
  · rw [exec_characterEnd_judged ready receive good,
      State.judgeByte_good (s := (s.takeDue (.characterEnd b true)).heard true) expects right]
    exact ⟨_, rfl, rfl, rfl, rfl, rfl⟩
  · rw [exec_characterEnd_judged ready receive good,
      State.judgeByte_wrong_crc (s := (s.takeDue (.characterEnd b true)).heard true) good expects whole wrong]
    refine ⟨_, rfl, ?_, rfl, rfl⟩
    rw [← missed]
    rfl

end Sys2Proof.Machine
end

section
/-! PROOFS. Writes to the settings registers (R1, R117, R153). -/

namespace Sys2Proof.Machine

open Sys2Proof

/-! ### Writes to the settings registers -/

theorem State.writeSetting_stopped {s : State} (h : s.run.state = .stopped) (offset : Word) (f : State → State) :
    s.writeSetting offset f = f s := by
  simp [State.writeSetting, h]

theorem State.writeSetting_locked {s : State} (h : s.run.state ≠ .stopped) (offset : Word) (f : State → State) :
    s.writeSetting offset f = s.reported .hLocked 0 offset := by
  rw [State.writeSetting, if_neg h]; rfl

/-- A settings write to a port that takes it has the register's effect (R153, R174). -/
theorem exec_settingsWrite {s : State} (h : s.Ready) (reg : SettingReg) (v : Word) :
    exec (.settingsWrite reg v) s = .next (s.writeRegister (settingReg reg) v).written :=
  s.hostWrite_ready (settingReg reg) v h

/-- Settles O11, by what a settings write does in STOPPED and outside it. -/
theorem settingsWrites : Obligations.SettingsWrites := by
  unfold Obligations.SettingsWrites
  intro s v ready
  simp only [exec_settingsWrite ready, settingReg, State.writeRegister, State.writeLset, State.writeCset, State.writeTset]
  refine ⟨fun stopped => ?_, fun running => ?_⟩
  · simp only [State.writeSetting_stopped stopped]
    exact ⟨⟨_, rfl, rfl, rfl, rfl⟩, rfl, rfl⟩
  · simp only [State.writeSetting_locked running]
    exact ⟨rfl, rfl, rfl⟩

end Sys2Proof.Machine
end

section
/-! PROOFS. The step and one tick of the clock, part by part (R2 to R4, R14, R22, R37, R45, R77, R183). -/

namespace Sys2Proof.Machine

open Sys2Proof

/-! ### Timers that count down -/

theorem countDown_eq (o : Option Nat) : countDown o = (tickedTimer o, o.any fun n => decide (n ≤ 1)) := by
  cases o with
  | none => rfl
  | some n => by_cases h : n ≤ 1 <;> simp [countDown, tickedTimer, h]

/-- A timer that runs out makes its event due (R3, R4, R14, R37, R45, R183). -/
theorem State.expire_countDown (s : State) (o : Option Nat) (c : Instr) :
    s.expire (countDown o).2 c = { s with due := s.due ++ ranOut o c } := by
  rw [State.expire_eq, countDown_eq, ranOut]

/-! ### The parts of a tick -/

/-- With no frame being cut, the frame's and the mark's timer come down by one (R3, R4). -/
theorem State.tickFrame_whole {s : State} (whole : s.timers.cut = none) : s.tickFrame = { s with
    timers := { s.timers with frame := tickedTimer s.timers.frame, mark := tickedTimer s.timers.mark }
    due := s.due ++ ranOut s.timers.frame .frameEnd ++ ranOut s.timers.mark .markEnd } := by
  simp only [State.tickFrame, whole, State.expire_countDown]
  simp [countDown_eq]

/-- Before the bit boundary a frame that is being cut goes on (R4). -/
theorem State.tickFrame_cutting {s : State} {n : Nat} (cut : s.timers.cut = some n) (h : 1 < n) : s.tickFrame = { s with
    timers := { s.timers with frame := tickedTimer s.timers.frame, cut := some (n - 1) } } := by
  simp [State.tickFrame, cut, Nat.not_le.2 h, countDown_eq]

/-- At the bit boundary the abort mark begins (R4). -/
theorem State.tickFrame_boundary {s : State} {n : Nat} (cut : s.timers.cut = some n) (h : n ≤ 1) :
    s.tickFrame = s.enterMark s.link.quietAfterMark := by
  simp [State.tickFrame, cut, h]

theorem State.tickWindows_eq (s : State) : s.tickWindows = { s with
    timers := { s.timers with window := tickedTimer s.timers.window, window2 := tickedTimer s.timers.window2 }
    due := s.due ++ ranOut s.timers.window .windowClose ++ ranOut s.timers.window2 .window2Open } := by
  simp only [State.tickWindows, State.expire_countDown]
  simp [countDown_eq]

/-- The timers that count idle line, one tick later (R2, R22). -/
def State.idleTicked (s : State) : Timers :=
  { s.timers with
    idle := if s.link.rxd = true then s.timers.idle + 1 else s.timers.idle
    gap := if s.link.rxd = true then if s.timers.character = none then s.timers.gap + 1 else 0 else s.timers.gap
    quiet := if s.link.rxd = true then s.timers.quiet + if s.link.quietRunning = true then 1 else 0
      else s.timers.quiet }

/-- A gap of more than 10 bt ends a reception at this tick (R2). -/
def State.gapRanOut (s : State) : List Instr :=
  if s.link.state = .receive ∧ s.link.rxd = true ∧ s.timers.character = none
    ∧ s.timers.gap = 10 * Config.ticksPerBit s.link.rate then [.characterGap] else []

/-- 256 bt of idle line end a quiet wait at this tick (R22). -/
def State.quietRanOut (s : State) : List Instr :=
  if s.link.quietRunning = true ∧ s.link.rxd = true ∧ s.timers.quiet + 1 = 256 * Config.ticksPerBit s.link.rate then
    [.lineQuiet] else []

theorem State.countIdle_eq (s : State) : s.countIdle = { s with timers := s.idleTicked } := by
  unfold State.countIdle State.idleTicked
  by_cases high : s.link.rxd = true
  · cases ch : s.timers.character <;> cases s.link.quietRunning <;> simp [high]
  · simp [high]

theorem State.gapEnds_countIdle (s : State) : s.countIdle.gapEnds = true ↔
    s.link.state = .receive ∧ s.link.rxd = true ∧ s.timers.character = none
      ∧ s.timers.gap = 10 * Config.ticksPerBit s.link.rate := by
  rw [State.countIdle_eq, State.gapEnds, State.idleTicked]
  by_cases high : s.link.rxd = true
  · by_cases between : s.timers.character = none
    · simp [high, between, State.bitTimes, Config.characterGap]
    · simp [high, between]
  · simp [high]

theorem State.quietEnds_countIdle (s : State) : s.countIdle.quietEnds = true ↔
    s.link.quietRunning = true ∧ s.link.rxd = true ∧ s.timers.quiet + 1 = 256 * Config.ticksPerBit s.link.rate := by
  rw [State.countIdle_eq, State.quietEnds, State.idleTicked]
  by_cases high : s.link.rxd = true
  · by_cases runs : s.link.quietRunning = true <;> simp [high, runs, State.bitTimes, Config.quietInterval]
  · simp [high]

theorem State.tickLine_eq (s : State) : s.tickLine = { s with
    timers := { s.idleTicked with character := tickedTimer s.timers.character }
    due := s.due ++ s.gapRanOut ++ s.quietRanOut } := by
  simp only [State.tickLine, State.expire_eq, State.gapEnds_countIdle, State.quietEnds_countIdle, State.tickCharacter,
    countDown_eq]
  simp only [State.countIdle_eq]
  rfl

theorem State.tickSegment_eq (s : State) : s.tickSegment = { s with
    timers := { s.timers with segment := tickedTimer s.timers.segment }
    due := s.due ++ ranOut s.timers.segment (if s.sched.state = .head then .headSegmentEnd else .slotEnd) } := by
  have event : s.segmentEvent = if s.sched.state = .head then .headSegmentEnd else .slotEnd := by
    cases h : s.sched.state <;> simp [State.segmentEvent, h]
  simp only [State.tickSegment, State.expire_countDown]
  simp [countDown_eq, ← event]


/-- The line copy in progress runs on (R77, R183). -/
theorem State.tickCopies_runs {s : State} {d : Direction} (h : s.image.lineInProgress = some d) : s.tickCopies = { s with
    timers := { s.timers with lineCopy := tickedTimer s.timers.lineCopy }
    due := s.due ++ ranOut s.timers.lineCopy .lineCopy } := by
  simp only [State.tickCopies, h, State.expire_countDown]
  simp [countDown_eq]

theorem State.tickCopies_none {s : State} (h : s.image.lineInProgress = none) (next : s.image.nextLine = none) :
    s.tickCopies = s := by
  simp [State.tickCopies, h, next]

theorem State.tickCopies_delayed {s : State} {d : Direction} {k : BitVec 6} {n : Nat}
    (h : s.image.lineInProgress = none) (next : s.image.nextLine = some (d, k)) (delay : s.timers.copyDelay = n + 1) :
    s.tickCopies = { s with timers := { s.timers with copyDelay := n } } := by
  simp [State.tickCopies, h, next, delay]

theorem State.tickCopies_begins {s : State} {d : Direction} {k : BitVec 6}
    (h : s.image.lineInProgress = none) (next : s.image.nextLine = some (d, k)) (delay : s.timers.copyDelay = 0) :
    s.tickCopies = s.beginLineCopy d := by
  simp [State.tickCopies, h, next, delay]

/-- Line copies change the line copy in progress, its timer and its delay, and make no event due but its own (R77, R183). -/
theorem State.tickCopies_frame (s : State) :
    s.tickCopies = { s with
      image := { s.image with lineInProgress := s.tickCopies.image.lineInProgress }
      timers := s.tickCopies.timers
      due := s.due ++ if s.image.lineInProgress.isSome = true then ranOut s.timers.lineCopy .lineCopy else [] }
    ∧ s.tickCopies.timers = { s.timers with
      lineCopy := s.tickCopies.timers.lineCopy
      copyDelay := s.tickCopies.timers.copyDelay } := by
  cases h : s.image.lineInProgress with
  | some d =>
    have copying : s.image.lineInProgress.isSome = true := by rw [h]; rfl
    rw [State.tickCopies_runs h, ← h, if_pos copying]
    exact ⟨rfl, rfl⟩
  | none =>
    have idle : ¬ s.image.lineInProgress.isSome = true := by rw [h]; nofun
    rw [← h, if_neg idle, List.append_nil]
    cases next : s.image.nextLine with
    | none => rw [State.tickCopies_none h next]; exact ⟨rfl, rfl⟩
    | some line =>
      cases delay : s.timers.copyDelay with
      | zero => rw [State.tickCopies_begins h next delay]; exact ⟨rfl, rfl⟩
      | succ n => rw [State.tickCopies_delayed h next delay]; exact ⟨rfl, rfl⟩

/-- Line copies change neither the link engine nor the timers of the frame and of the mark. -/
theorem State.tickCopies_line (s : State) :
    s.tickCopies.link = s.link ∧ s.tickCopies.timers.frame = s.timers.frame ∧ s.tickCopies.timers.cut = s.timers.cut
      ∧ s.tickCopies.timers.mark = s.timers.mark := by
  obtain ⟨state, timers⟩ := s.tickCopies_frame
  exact ⟨by rw [state], by rw [timers], by rw [timers], by rw [timers]⟩

/-! ### The tick -/

theorem State.tick_inReset {s : State} (h : s.inReset = true) : s.tick = s := by
  simp [State.tick, unlessReset, h]

/-- What a tick brings after the frame's timer. -/
def State.tickRest (s : State) : State := s.tickWindows.tickLine.tickSegment.tickCopies

theorem State.tick_ready {s : State} (h : s.inReset = false) : s.tick = s.tickFrame.tickRest := by
  simp [State.tick, unlessReset, h, State.tickRest]

/-- The tick without the line copies, with no frame being cut. -/
def State.ticked (s : State) : State :=
  { s with
    timers := { s.idleTicked with
      segment := tickedTimer s.timers.segment
      frame := tickedTimer s.timers.frame
      mark := tickedTimer s.timers.mark
      window := tickedTimer s.timers.window
      window2 := tickedTimer s.timers.window2
      character := tickedTimer s.timers.character }
    due := s.due ++ ranOut s.timers.frame .frameEnd ++ ranOut s.timers.mark .markEnd
      ++ ranOut s.timers.window .windowClose ++ ranOut s.timers.window2 .window2Open ++ s.gapRanOut ++ s.quietRanOut
      ++ ranOut s.timers.segment (if s.sched.state = .head then .headSegmentEnd else .slotEnd) }

theorem State.tick_whole {s : State} (ready : s.inReset = false) (whole : s.timers.cut = none) :
    s.tick = s.ticked.tickCopies := by
  rw [State.tick_ready ready, State.tickFrame_whole whole, State.tickRest, State.tickWindows_eq, State.tickLine_eq,
    State.tickSegment_eq]
  rfl

/-- Behind the frame's timer a tick changes neither the link engine nor the timers of the frame and of the mark (R4). -/
theorem State.tickRest_frame (s : State) :
    s.tickRest.link = s.link ∧ s.tickRest.timers.frame = s.timers.frame ∧ s.tickRest.timers.cut = s.timers.cut
      ∧ s.tickRest.timers.mark = s.timers.mark := by
  rw [State.tickRest, State.tickWindows_eq, State.tickLine_eq, State.tickSegment_eq]
  exact State.tickCopies_line _

/-- Settles O1: a frame being cut by its bit boundary, and every other tick part by part. -/
theorem stepTakesFrontCommand : Obligations.StepTakesFrontCommand := by
  unfold Obligations.StepTakesFrontCommand
  refine ⟨fun c rest s => rfl, fun s idle => ⟨fun c rest due => ?_, fun due => ?_⟩, by decide, fun s => ?_⟩
  · simp only [step, idle, due]
  · simp only [step, idle, due]
  intro t bt
  refine ⟨State.tick_inReset, fun n ready cut => ⟨fun before => ?_, fun boundary => ?_⟩, fun ready whole => ?_⟩
  · obtain ⟨link, frame, cutTimer, -⟩ := State.tickRest_frame s.tickFrame
    rw [State.tickFrame_cutting cut before] at link frame cutTimer
    simp only [t, State.tick_ready ready, State.tickFrame_cutting cut before]
    exact ⟨link, cutTimer, frame⟩
  · obtain ⟨link, frame, cutTimer, mark⟩ := State.tickRest_frame (s.enterMark s.link.quietAfterMark)
    simp only [t, State.tick_ready ready, State.tickFrame_boundary cut boundary, link, frame, cutTimer, mark,
      State.driverEnable, State.transmitData]
    exact ⟨rfl, rfl, rfl, rfl, rfl, rfl, rfl⟩
  · have tick : t = s.ticked.tickCopies := State.tick_whole ready whole
    obtain ⟨state, timers⟩ := s.ticked.tickCopies_frame
    rw [tick]
    refine ⟨state, ?_, fun low => ?_, fun high => ?_, fun d copying => ?_, fun idle last => ?_, fun d k idle next =>
      ⟨fun n delay => ?_, fun delay => ?_⟩⟩
    · rw [timers, ← whole]; rfl
    · rw [timers]
      simp [State.ticked, State.idleTicked, low]
    · rw [timers]
      simp [State.ticked, State.idleTicked, high]
    · rw [State.tickCopies_runs (s := s.ticked) copying]
      exact ⟨copying, rfl, rfl⟩
    · rw [State.tickCopies_none (s := s.ticked) idle last]
      exact ⟨idle, rfl, rfl⟩
    · rw [State.tickCopies_delayed (s := s.ticked) idle next delay]
      exact ⟨idle, rfl, rfl⟩
    · rw [State.tickCopies_begins (s := s.ticked) idle next delay]
      exact ⟨rfl, rfl, delay⟩

end Sys2Proof.Machine
end

section
/-! PROOFS. The cycle number changes only at a cycle start (R44, R48). -/

namespace Sys2Proof.Machine

open Sys2Proof

/-! ### What leaves the cycle number -/

theorem State.writeRcmd_cycleNumber (s : State) (v : Word) :
    (s.writeRcmd v).sched.cycleNumber = s.sched.cycleNumber := by
  unfold State.writeRcmd
  split <;> simp [Sched.controllerReset]

theorem State.writeSetting_cycleNumber (s : State) (offset : Word) {f : State → State}
    (same : (f s).sched.cycleNumber = s.sched.cycleNumber) :
    (s.writeSetting offset f).sched.cycleNumber = s.sched.cycleNumber := by
  unfold State.writeSetting
  split
  · exact same
  · simp

theorem State.writeSctl_cycleNumber (s : State) (v : Word) :
    (s.writeSctl v).sched.cycleNumber = s.sched.cycleNumber := by
  unfold State.writeSctl
  split <;> simp [State.cancelSwitch]

theorem State.writeNode_cycleNumber (s : State) (r : NodeWriteReg) (v : Word) :
    (s.writeNode r v).sched.cycleNumber = s.sched.cycleNumber := by
  unfold State.writeNode
  split
  · simp
  · cases r <;> simp

/-- No register write changes the cycle number: the host starts no cycle (R48). -/
theorem State.writeRegister_cycleNumber (s : State) (r : WriteReg) (v : Word) :
    (s.writeRegister r v).sched.cycleNumber = s.sched.cycleNumber := by
  cases r with
  | rcmd => exact s.writeRcmd_cycleNumber v
  | lset => exact s.writeSetting_cycleNumber _ rfl
  | cset => exact s.writeSetting_cycleNumber _ rfl
  | tset => exact s.writeSetting_cycleNumber _ rfl
  | sctl => exact s.writeSctl_cycleNumber v
  | node r => exact s.writeNode_cycleNumber r v
  | _ => simp [State.writeRegister, State.writeSrule, State.writeSnodeb, State.writeSlen]

theorem State.carryOut_cycleNumber (s : State) (a : Access) :
    (s.carryOut a).1.sched.cycleNumber = s.sched.cycleNumber := by
  rcases s.carryOut_cases a with e | ⟨-, o, e⟩ | ⟨-, r, v, e⟩ | ⟨-, e⟩ | ⟨-, e⟩
  · rw [e]
  · simp [e]
  · rw [e, State.writeRegister_cycleNumber]
  · simp [e]
  · simp [e]

theorem State.takeWaiting_cycleNumber (s : State) : s.takeWaiting.sched.cycleNumber = s.sched.cycleNumber :=
  State.takeWaiting_keeps (fun u => u.sched.cycleNumber = s.sched.cycleNumber) (fun _ _ h => h)
    (fun u a h => (u.carryOut_cycleNumber a).trans h) rfl

/-! ### Cycle starts -/

/-- A cycle has started since the state: the next cycle number, HEAD, and CYC latched (R44). -/
def State.HasStartedCycle (s t : State) : Prop :=
  t.sched.cycleNumber = s.sched.cycleNumber + 1 ∧ t.sched.state = .head ∧ t.fault.latches &&& 0x0001#16 = 0x0001#16

theorem State.cycleStart_hasStarted (s : State) : s.HasStartedCycle s.cycleStart := by
  have starts : s.StartsCycle s.cycleStart :=
    s.cycleStart_starts s rfl ⟨rfl, rfl, rfl, rfl⟩ (fun _ _ => rfl) ⟨rfl, rfl, rfl⟩ rfl
  exact ⟨starts.number, starts.head, latched_self _ _⟩

theorem State.HasStartedCycle.of_same {s u t : State} (started : u.HasStartedCycle t)
    (same : u.sched.cycleNumber = s.sched.cycleNumber) : s.HasStartedCycle t := by
  unfold State.HasStartedCycle at *
  rwa [← same]

/-- A cycle end starts a cycle, or leaves the cycle number where the run has ended or ends (R46, R144). -/
theorem State.cycleEnd_cycleNumber (s : State) :
    s.cycleEnd.sched.cycleNumber = s.sched.cycleNumber ∨ s.HasStartedCycle s.cycleEnd := by
  have same : s.schedIdle.cycleEndSwap.sched.cycleNumber = s.sched.cycleNumber := by simp
  unfold State.cycleEnd
  generalize s.schedIdle.cycleEndSwap = u at same
  cases run : u.run.state with
  | running => exact .inr (by simpa only [run] using u.cycleStart_hasStarted.of_same same)
  | resuming => exact .inr (by simpa only [run] using (u.changeRun .running).cycleStart_hasStarted.of_same same)
  | _ => exact .inl (by simp [run, same])

/-- A slot end that no slot follows ends the cycle (R37, R45, R46). -/
theorem State.slotEnd_cycleNumber (s : State) :
    s.slotEnd.sched.cycleNumber = s.sched.cycleNumber ∨ s.HasStartedCycle s.slotEnd := by
  have same : s.cutSlot.dropLineTimers.sched.cycleNumber = s.sched.cycleNumber := by simp
  unfold State.slotEnd
  split
  · next k =>
    unfold State.afterSlot
    split
    · exact .inl (by simp)
    · exact (State.cycleEnd_cycleNumber _).imp (·.trans same) fun started => started.of_same same
  · exact .inl rfl
  · exact .inl rfl

theorem State.takeLineQuiet_cycleNumber (s : State) :
    s.takeLineQuiet.sched.cycleNumber = s.sched.cycleNumber ∨ s.HasStartedCycle s.takeLineQuiet := by
  unfold State.takeLineQuiet
  split
  · cases s.run.state with
    | settling => exact .inr (s.changeRun .running).cycleStart_hasStarted
    | recovery => exact .inr (s.changeRun .resuming).cycleStart_hasStarted
    | _ => exact .inl rfl
  · exact .inl rfl

/-- Of the events only a slot end and a quiet line start a cycle (R44, R46, R143, R149). -/
theorem eventEffect_cycleNumber (c : Instr) (s : State) :
    (eventEffect c s).sched.cycleNumber = s.sched.cycleNumber
      ∨ s.HasStartedCycle (eventEffect c s) ∧ (c = .slotEnd ∨ c = .lineQuiet) := by
  cases c with
  | slotEnd => exact s.slotEnd_cycleNumber.imp_right fun h => ⟨h, .inl rfl⟩
  | lineQuiet => exact s.takeLineQuiet_cycleNumber.imp_right fun h => ⟨h, .inr rfl⟩
  | waitingAccessTaken => exact .inl s.takeWaiting_cycleNumber
  | _ => exact .inl (by simp [eventEffect])

/-- Settles O59, by what a command can do: an access, a pin and an event but two leave the cycle number. -/
theorem cycleNumberChangesOnlyAtCycleStart : Obligations.CycleNumberChangesOnlyAtCycleStart := by
  unfold Obligations.CycleNumberChangesOnlyAtCycleStart
  refine ⟨fun c s t noReset next => ?_, fun s => ?_, fun s => ⟨_, rfl, rfl⟩, fun s => rfl⟩
  · rcases exec_cases next with rfl | ⟨p, rfl, -⟩ | ⟨-, level, rfl⟩ | ⟨a, -, rfl⟩ | ⟨reset, -⟩ | ⟨-, rfl⟩ | ⟨-, rfl⟩
    · exact .inl rfl
    · exact .inl rfl
    · exact .inl rfl
    · exact .inl (s.carryOut_cycleNumber a)
    · exact absurd reset noReset
    · exact .inl rfl
    · refine (eventEffect_cycleNumber c (s.takeDue c)).imp_right ?_
      rintro ⟨⟨number, head, latched⟩, event⟩
      exact ⟨number, head, latched, event⟩
  · obtain ⟨l, line, link, timers, tick, -⟩ := s.tick_cases
    rw [tick]

end Sys2Proof.Machine
end

section
/-! PROOFS. The register window: which access reaches which register, and what each register reads (R165, R172, R174,
R175, chapter 10). -/

namespace Sys2Proof.Machine

open Sys2Proof

/-! ### Register writes -/

/-- A word write at the offset of a write register, given as a register write, has the register's effect (R174). -/
theorem exec_registerWrite {s : State} (ready : s.Ready) (r : WriteReg) (v : Word) :
    exec (.registerWrite (BitVec.ofNat 8 r.offset) v) s = .next (s.writeRegister r v).written :=
  s.hostWrite_ready r v ready

theorem cdata_offset (k : BitVec 4) : 0x3C + 2 * k.setWidth 8 = BitVec.ofNat 8 (WriteReg.cdata k).offset := by
  apply BitVec.eq_of_toNat_eq
  simp [WriteReg.offset]

/-- Settles O37: a command is the word write to its register, and the other registers store by their definition. -/
theorem plainRegisterWrites : Obligations.PlainRegisterWrites := by
  unfold Obligations.PlainRegisterWrites
  refine ⟨fun s v => ?_, fun s v ready => ⟨?_, ?_, ?_, ?_, ?_, fun k => ?_⟩⟩
  · repeat' apply And.intro
    all_goals rfl
  · exact exec_registerWrite ready .ssel v
  · exact exec_registerWrite ready .nsel v
  · exact exec_registerWrite ready .ctag v
  · exact exec_registerWrite ready .cop v
  · exact exec_registerWrite ready .cparam v
  · rw [cdata_offset]
    exact exec_registerWrite ready (.cdata k) v

/-! ### The read map (section 10.1) -/

theorem readRegAt_readOffsets : ∀ x ∈ readOffsets, readRegAt x.1 = some x.2 := by decide

theorem readRegAt_cdata (k : BitVec 4) : readRegAt (0x3C + 2 * k.toNat) = some (.cdata k) := by
  revert k; decide

theorem readRegAt_rdata (k : BitVec 4) : readRegAt (0x68 + 2 * k.toNat) = some (.rdata k) := by
  revert k; decide

/-- An offset with a read register is in the table of offsets, or that of a data word (section 10.1). -/
theorem readRegAt_some {o : Nat} {r : ReadReg} (h : readRegAt o = some r) : (o, r) ∈ readOffsets
    ∨ ∃ k : BitVec 4, (o, r) = (0x3C + 2 * k.toNat, .cdata k) ∨ (o, r) = (0x68 + 2 * k.toNat, .rdata k) := by
  have single : ∀ x ∈ readMapRun ++ readMapNode ++ readMapImage ++ readMapResult, x ∈ readOffsets := by decide
  have listed : (o, r) ∈ readMapRun ++ readMapNode ++ readMapImage ++ readMapResult ++ readMapData := by
    obtain ⟨before, after, split, -⟩ := List.lookup_eq_some_iff.1 h
    have inMap : (o, r) ∈ readMap := by simp [split]
    simpa [readMap] using inMap
  rcases List.mem_append.1 listed with m | m
  · exact .inl (single _ m)
  · rcases List.mem_append.1 m with m | m
    · obtain ⟨k, -, e⟩ := List.mem_map.1 m
      exact .inr ⟨k, .inl e.symm⟩
    · obtain ⟨k, -, e⟩ := List.mem_map.1 m
      exact .inr ⟨k, .inr e.symm⟩

/-- No register lies at 9Ah or above (section 10.1). -/
theorem readRegAt_above {o : Nat} (h : 0x9A ≤ o) : readRegAt o = none := by
  have below : ∀ x ∈ readOffsets, x.1 < 0x9A := by decide
  cases e : readRegAt o with
  | none => rfl
  | some r =>
    exfalso
    rcases readRegAt_some e with m | ⟨k, m | m⟩
    · exact absurd (below _ m) (by simpa using h)
    · have := k.isLt
      cases m; omega
    · have := k.isLt
      cases m; omega

/-! ### Register reads -/

/-- A word read, or a byte read, of the register window drives what the offset reads, on its lanes (R172, R174). -/
theorem exec_registerRead {s : State} {c : BusCycle} {o : Nat} (ready : s.Ready) (rs : c.rs = true) (rd : c.rd = true)
    (wr : c.wr = false) (lanes : c.lanes ≠ .null) (reached : registerOffset c.addr = o) :
    exec (.accessFault c) s = .next ((s.readOffset o).1.driving (laneValue c.lanes (s.readOffset o).2)) := by
  subst reached
  have latched : latchCycle c
      = some { window := .registers, write := false, lanes := c.lanes, addr := c.addr, data := c.data } := by
    simp [latchCycle, rs, rd, wr]
  simp only [exec, execAccessFault, latched]
  rw [State.present_register s _ ready rfl]
  cases l : c.lanes
  case null => exact absurd l lanes
  all_goals simp [State.takeAccess, State.carryOut, State.registerAccess, State.driving]

/-- A read register reads its value and changes nothing, but for a node register while NSEL holds 0 (R50, R174). -/
theorem State.readOffset_some {s : State} {o : Nat} {r : ReadReg} (h : readRegAt o = some r)
    (node : ∀ x, r = .node x → s.nodes.nsel ≠ 0) : s.readOffset o = (s, s.readRegister r) := by
  cases r with
  | node x =>
    simp only [State.readOffset, h]
    exact if_neg (node x rfl)
  | _ => simp only [State.readOffset, h]

theorem State.readOffset_unselected {s : State} {o : Nat} {x : NodeReg} (h : readRegAt o = some (.node x))
    (none : s.nodes.nsel = 0) : s.readOffset o = (s.reported .hAccess 0 (BitVec.ofNat 16 o), 0) := by
  simp only [State.readOffset, h, State.selected, none, if_true]
  rfl

theorem State.readOffset_none {s : State} {o : Nat} (h : readRegAt o = none) :
    s.readOffset o = (s.reported .hAccess 0 (BitVec.ofNat 16 o), 0) := by
  simp only [State.readOffset, h]
  rfl

@[simp] theorem laneValue_zero (lanes : Lanes) : laneValue lanes 0 = 0 := by cases lanes <;> rfl

/-! ### Fields of a register -/

theorem place_eq_number {w : Nat} (v : BitVec w) (pos : Nat) : place v pos = number v.toNat pos := by
  rw [place, number, BitVec.ofNat_toNat]

theorem placeBit_eq_number (b : Bool) (pos : Nat) : placeBit b pos = number (bit b) pos := rfl

theorem toNat_number {n pos : Nat} (fits : 2 ^ pos * n < 65536) : (number n pos).toNat = 2 ^ pos * n := by
  have small : n < 65536 := (Nat.le_mul_of_pos_left n (Nat.two_pow_pos pos)).trans_lt fits
  rw [number, BitVec.toNat_shiftLeft, BitVec.toNat_ofNat, Nat.mod_eq_of_lt small, Nat.shiftLeft_eq, Nat.mul_comm,
    Nat.mod_eq_of_lt fits]

/-- A field above the fields so far adds its number at its place. -/
theorem toNat_or_number {x : Word} {a n pos : Nat} (lower : x.toNat = a) (below : a < 2 ^ pos)
    (fits : 2 ^ pos * n < 65536) : (x ||| number n pos).toNat = a + 2 ^ pos * n := by
  rw [BitVec.toNat_or, toNat_number fits, lower, Nat.or_comm, ← Nat.two_pow_add_eq_or_of_lt below, Nat.add_comm]

theorem bit_le (b : Bool) : bit b ≤ 1 := by cases b <;> decide

theorem mul_bit (m : Nat) (b : Bool) : m * bit b = if b then m else 0 := by cases b <;> simp [bit]

/-- Two fields of a byte each, the usual layout of a register (chapter 10). -/
theorem toNat_bytes {a b : Nat} (ha : a < 256) (hb : b < 256) : (number a 0 ||| number b 8).toNat = a + 256 * b :=
  toNat_or_number ((toNat_number (by omega)).trans (Nat.one_mul a)) ha (by omega)

theorem toNat_place_bytes {v w : Nat} (a : BitVec v) (b : BitVec w) (hv : v ≤ 8) (hw : w ≤ 8) :
    (place a 0 ||| place b 8).toNat = a.toNat + 256 * b.toNat := by
  rw [place_eq_number, place_eq_number]
  exact toNat_bytes (a.isLt.trans_le (Nat.pow_le_pow_right (by omega) hv))
    (b.isLt.trans_le (Nat.pow_le_pow_right (by omega) hw))

theorem toNat_place_zero {v : Nat} (a : BitVec v) (hv : v ≤ 16) : (place a 0).toNat = a.toNat := by
  have := a.isLt.trans_le (Nat.pow_le_pow_right (by omega) hv)
  rw [place_eq_number, toNat_number (by omega), Nat.pow_zero, Nat.one_mul]

/-! ### What each register reads (sections 10.2 to 10.7) -/

theorem RunState.number_lt (r : RunState) : r.number < 8 := by cases r <;> decide

theorem FailReason.number_lt (r : FailReason) : r.number < 8 := by cases r <;> decide

/-- SSTAT (section 10.3). -/
theorem Sched.sstat_toNat (u : Sched) : u.sstat.toNat = bit u.active.isB + 2 * bit u.pendingSwitch.isSome
    + match u.validation with
      | .unset => 0
      | .pass => 4
      | .fail t k reason => 8 + 16 * bit t.isB + 256 * k.toNat + 4096 * reason.number := by
  have active := bit_le u.active.isB
  have pending := bit_le u.pendingSwitch.isSome
  have low : (placeBit u.active.isB 0 ||| placeBit u.pendingSwitch.isSome 1).toNat
      = bit u.active.isB + 2 * bit u.pendingSwitch.isSome :=
    toNat_or_number ((toNat_number (by omega)).trans (Nat.one_mul _)) (by omega) (by omega)
  unfold Sched.sstat
  cases u.validation with
  | unset => simp [low]
  | pass => exact toNat_or_number low (by omega) (by omega)
  | fail t k reason =>
    have := bit_le t.isB
    have := k.isLt
    have := reason.number_lt
    have fails := toNat_or_number low (n := 2) (pos := 2) (by omega) (by omega)
    have table := toNat_or_number fails (n := bit t.isB) (pos := 4) (by omega) (by omega)
    have slot := toNat_or_number table (n := k.toNat) (pos := 8) (by omega) (by omega)
    have all := toNat_or_number slot (n := reason.number) (pos := 12) (by omega) (by omega)
    simp only [← BitVec.or_assoc, place_eq_number, placeBit_eq_number t.isB] at all ⊢
    rw [all]
    omega

theorem State.readsRun (s : State) : s.ReadsRun where
  ident := rfl
  rstate := by
    have fields : (s.readRegister .rstate).toNat = s.run.state.number + 256 * s.run.restarts.toNat := by
      have := s.run.state.number_lt
      rw [State.readRegister, place_eq_number]
      exact toNat_bytes (by omega) (by omega)
    rw [fields]
    cases s.run.state <;> rfl
  lset := toNat_place_bytes _ _ (by omega) (by omega)
  cset := toNat_place_bytes _ _ (by omega) (by omega)
  tset := toNat_place_zero _ (by omega)
  cycnum := rfl
  sstat := by
    rw [State.readRegister, Sched.sstat_toNat, mul_bit]
    congr 1
    · cases s.sched.active <;> rfl
    · cases s.sched.validation with
      | fail t k reason => cases t <;> cases reason <;> rfl
      | _ => rfl
  ssel := by
    have := bit_le s.sched.selTable.isB
    have := s.sched.selSlot.isLt
    rw [State.readRegister, place_eq_number, placeBit_eq_number, toNat_bytes (by omega) (by omega), mul_bit]
    cases s.sched.selTable <;> rfl
  srule := toNat_place_bytes _ _ (by omega) (by omega)
  snodeb := toNat_place_zero _ (by omega)
  slen := rfl

/-- An entry by the node registers of the selected node (section 10.4). -/
theorem State.readRegister_node {s : State} {e : NodeEntry} (h : s.node? s.nodes.nsel = some e) (r : NodeReg) :
    s.readRegister (.node r) = e.read r := by
  simp only [State.readRegister, h]

theorem NodeState.number_lt (st : NodeState) : st.number < 8 := by cases st <;> decide

/-- The two halves of a set of node addresses bit by bit (section 10.4). -/
theorem NodeSet.getLsbD_half (set : NodeSet) {k : Nat} (h : k < 16) :
    (set.half .reg0).getLsbD k = set.getLsbD k ∧ (set.half .reg1).getLsbD k = set.getLsbD (16 + k) := by
  simp [NodeSet.half, h]

/-- NCFG (section 10.4). -/
theorem NodeEntry.ncfg_toNat (e : NodeEntry) :
    (e.read .ncfg).toNat = bit e.state.isEnabled + 16 * e.credit.toNat + 256 * e.missLimit.toNat := by
  have := bit_le e.state.isEnabled
  have := e.credit.isLt
  have := e.missLimit.isLt
  rw [NodeEntry.read, place_eq_number, place_eq_number, placeBit_eq_number]
  exact toNat_or_number (toNat_or_number ((toNat_number (by omega)).trans (Nat.one_mul _)) (by omega) (by omega))
    (by omega) (by omega)

theorem State.readsNodes (s : State) : s.ReadsNodes where
  nsel := toNat_place_zero _ (by omega)
  none h r := by simp only [State.readRegister, h, State.node?_zero]
  ncfg e h := by
    rw [s.readRegister_node h, NodeEntry.ncfg_toNat]
    cases e.state <;> rfl
  noutoff e h := by
    rw [s.readRegister_node h]
    exact toNat_place_zero _ (by omega)
  ninoff e h := by
    rw [s.readRegister_node h]
    exact toNat_place_zero _ (by omega)
  nlen e h := by
    rw [s.readRegister_node h]
    exact toNat_place_bytes _ _ (by omega) (by omega)
  nstate e h := by
    have := e.state.number_lt
    rw [s.readRegister_node h, NodeEntry.read, place_eq_number, toNat_bytes (by omega) (by omega)]
    cases e.state <;> rfl
  ncnt e h := by
    rw [s.readRegister_node h]
    exact toNat_place_bytes _ _ (by omega) (by omega)
  identEmpty e h empty := by simp only [s.readRegister_node h, NodeEntry.read, empty, and_self]
  ident e r h known := by
    have := r.revision.isLt
    simp only [s.readRegister_node h, NodeEntry.read, known, true_and]
    refine ⟨?_, toNat_place_bytes _ _ (by omega) (by omega)⟩
    exact toNat_or_number (n := 1) (pos := 15) (toNat_place_zero _ (by omega)) (by omega) (by omega)
  changed k h := NodeSet.getLsbD_half _ h

/-- ISTAT (section 10.5). -/
theorem Image.istat_toNat (u : Image) : u.istat.toNat = bit u.outHost + 2 * bit u.inHost + 4 * bit u.publishPending
    + 8 * bit u.outCopy.isSome + 16 * bit u.inCopy.isSome + 32 * bit u.hold + 64 * bit u.ptest := by
  have := bit_le u.outHost
  have := bit_le u.inHost
  have := bit_le u.publishPending
  have := bit_le u.outCopy.isSome
  have := bit_le u.inCopy.isSome
  have := bit_le u.hold
  have := bit_le u.ptest
  have banks : (placeBit u.outHost 0 ||| placeBit u.inHost 1).toNat = bit u.outHost + 2 * bit u.inHost :=
    toNat_or_number ((toNat_number (by omega)).trans (Nat.one_mul _)) (by omega) (by omega)
  have publish := toNat_or_number banks (n := bit u.publishPending) (pos := 2) (by omega) (by omega)
  have outCopy := toNat_or_number publish (n := bit u.outCopy.isSome) (pos := 3) (by omega) (by omega)
  have inCopy := toNat_or_number outCopy (n := bit u.inCopy.isSome) (pos := 4) (by omega) (by omega)
  have hold := toNat_or_number inCopy (n := bit u.hold) (pos := 5) (by omega) (by omega)
  exact toNat_or_number hold (by omega) (by omega)

/-- COP (section 10.6). -/
theorem Staging.cop_toNat (r : Staging) :
    r.cop.toNat = r.len.toNat + 128 * bit r.barrier + 256 * r.node.toNat + 8192 * r.op.toNat := by
  have := r.len.isLt
  have := bit_le r.barrier
  have := r.node.isLt
  have := r.op.isLt
  have barrier : (place r.len 0 ||| placeBit r.barrier 7).toNat = r.len.toNat + 128 * bit r.barrier :=
    toNat_or_number (toNat_place_zero _ (by omega)) (by omega) (by omega)
  rw [Staging.cop, place_eq_number r.node, place_eq_number r.op]
  exact toNat_or_number (toNat_or_number barrier (by omega) (by omega)) (by omega) (by omega)

/-- CQLEVEL, within the capacities of the queue and of the outstanding table (section 10.6). -/
theorem CmdEngine.cqlevel_toNat {u : CmdEngine} (queue : u.queue.length ≤ 16) (out : u.outstanding.length ≤ 8) :
    u.cqlevel.toNat = u.queue.length + 256 * u.outstanding.length
      + 4096 * (u.outstanding.filter fun e => !e.unsettled).length := by
  have := List.length_filter_le (fun e : OutEntry => !e.unsettled) u.outstanding
  exact toNat_or_number (toNat_bytes (by omega) (by omega)) (by omega) (by omega)

theorem PutStatus.number_lt (st : PutStatus) : st.number < 8 := by cases st <;> decide

theorem State.readsImage (s : State) : s.ReadsImage where
  fresh k h := NodeSet.getLsbD_half _ h
  istat := by
    rw [State.readRegister, Image.istat_toNat]
    simp only [mul_bit]
    rfl
  snapcyc := rfl
  ctag := toNat_place_zero _ (by omega)
  cop := by
    rw [State.readRegister, Staging.cop_toNat, mul_bit]
  cparam := rfl
  cdata k := rfl
  cputst := by
    have := s.cmd.putStatus.number_lt
    rw [State.readRegister, toNat_number (by omega)]
    cases s.cmd.putStatus <;> rfl
  cqlevel queue out := by
    rw [State.readRegister, CmdEngine.cqlevel_toNat queue out]
    simp

theorem Status.number_lt (st : Status) : st.number < 16 := by cases st <;> decide

theorem Op.number_lt (op : Op) : op.number < 16 := by cases op <;> decide

/-- RSTAT (section 10.6). -/
theorem Response.rstat_toNat {r : Response} (data : r.data.length ≤ 32) :
    r.rstat.toNat = r.status.number + 16 * r.op.number + 256 * r.data.length := by
  have := r.status.number_lt
  have := r.op.number_lt
  exact toNat_or_number (toNat_or_number ((toNat_number (by omega)).trans (Nat.one_mul _)) (by omega) (by omega))
    (by omega) (by omega)

theorem faultCode_numbers_lt (c : FaultCode) : c.number < 256 ∧ c.classNumber < 256 := by cases c <;> decide

theorem State.readsResults (s : State) : s.ReadsResults where
  empty h := by simp [State.readRegister, State.headField, h]
  head r rest h := by
    simp only [State.readRegister, State.headField, h, true_and]
    refine ⟨toNat_place_bytes _ _ (by omega) (by omega), fun data => ?_, toNat_place_zero _ (by omega),
      fun k => toNat_place_bytes _ _ (by omega) (by omega)⟩
    rw [Response.rstat_toNat data]
    rfl
  rqlevel responses waiting := toNat_bytes (by omega) (by omega)
  ien := rfl
  flags := ⟨rfl, rfl⟩
  noCapture h := by simp [State.readRegister, State.captureField, h]
  capture c h := by
    have := faultCode_numbers_lt c.code
    simp only [State.readRegister, State.captureField, h, and_true]
    exact ⟨toNat_bytes (by omega) (by omega), toNat_place_zero _ (by omega)⟩

/-- Settles O39: the read map by its entries, the fields of each register, and a read by what its offset reads. -/
theorem registerReads : Obligations.RegisterReads := by
  unfold Obligations.RegisterReads
  refine ⟨⟨readRegAt_readOffsets, fun k => ⟨readRegAt_cdata k, readRegAt_rdata k⟩, fun o r => readRegAt_some⟩,
    fun s => ⟨s.readsRun, s.readsNodes, s.readsImage, s.readsResults⟩, fun s c ready rs rd wr lanes => ?_⟩
  have reads := exec_registerRead (o := 2 * (c.addr.toNat % 128)) ready rs rd wr lanes rfl
  have refused : laneValue c.lanes 0 = 0 := laneValue_zero c.lanes
  refine ⟨fun r h node => ?_, fun x h none => ?_, fun above => ?_⟩
  · rw [reads, State.readOffset_some h node]
    cases c.lanes <;> rfl
  · rw [reads, State.readOffset_unselected h none, refused]
  · rw [reads, State.readOffset_none (readRegAt_above above), refused]

end Sys2Proof.Machine
end

section
/-! PROOFS. The schedule tables: minimums (R35), validation (R38, R39), the budget check (R40), the table switch (R41 to
R43) and writes to slot records (R25, R26). -/

namespace Sys2Proof.Machine

open Sys2Proof

/-! ### Minimums -/

theorem dataMinimum_eq (w o i : Nat) : dataMinimum w o i = 10 * (o + i) + w + 122 := by
  simp only [dataMinimum, Config.endGuard]; omega

theorem probeMinimum_eq (w : Nat) : probeMinimum w = w + 172 := by
  simp only [probeMinimum, Config.endGuard]; omega

theorem orderMinimum_eq (w : Nat) : orderMinimum w = w + 522 := by
  simp only [orderMinimum, Config.endGuard, Config.longestOrder]; omega

theorem pairMinimum_eq (w oa ob ia ib : Nat) :
    pairMinimum w oa ob ia ib = 10 * (oa + ob + ia + ib) + 2 * w + 200 := by
  simp only [pairMinimum, Config.endGuard, Config.pairGap]; omega

/-- Settles O3, rule by rule. -/
theorem slotMinimums : Obligations.SlotMinimums := by
  unfold Obligations.SlotMinimums
  intro w o i r
  refine ⟨dataMinimum_eq .., probeMinimum_eq w, orderMinimum_eq w, fun h => ?_, fun h => ?_, fun h => ?_, fun h => ?_,
    fun h => ?_, fun s => rfl⟩
  · simp [slotMinimum, h, Config.shortestSlot]
  · simp [slotMinimum, h, dataMinimum_eq, probeMinimum_eq]
  · simp [slotMinimum, h, pairMinimum_eq]
  · simp [slotMinimum, h, dataMinimum_eq, probeMinimum_eq, orderMinimum_eq]
  · simp [slotMinimum, h, orderMinimum_eq]

/-! ### Validation -/

theorem mem_slotIndices (k : SlotIndex) : k ∈ slotIndices := by revert k; decide

theorem slotIndices_rising : slotIndices.Pairwise fun j k => j.toNat < k.toNat := by decide

/-- What a search through the slots in index order finds: what the lowest slot gives that gives something. -/
theorem findSome?_slotIndices {α : Type} {f : SlotIndex → Option α} {b : α} :
    slotIndices.findSome? f = some b ↔ ∃ k, f k = some b ∧ ∀ j : SlotIndex, j.toNat < k.toNat → f j = none := by
  constructor
  · intro found
    obtain ⟨before, k, after, split, gives, none⟩ := List.findSome?_eq_some_iff.1 found
    refine ⟨k, gives, fun j lower => none j ?_⟩
    have rising := slotIndices_rising
    have mem := mem_slotIndices j
    rw [split, List.pairwise_append, List.pairwise_cons] at rising
    rw [split, List.mem_append, List.mem_cons] at mem
    obtain ⟨-, ⟨above, -⟩, -⟩ := rising
    rcases mem with mem | rfl | mem
    · exact mem
    · exact absurd lower (Nat.lt_irrefl _)
    · exact absurd (above j mem) (Nat.lt_asymm lower)
  · rintro ⟨k, gives, lowest⟩
    obtain ⟨before, after, split⟩ := List.append_of_mem (mem_slotIndices k)
    have rising := slotIndices_rising
    rw [split, List.pairwise_append] at rising
    obtain ⟨-, -, below⟩ := rising
    exact List.findSome?_eq_some_iff.2 ⟨before, k, after, split, gives,
      fun j mem => lowest j (below j mem k List.mem_cons_self)⟩

/-- The nodes that a slot's rule names are there, and those of a PAIR are two (R38). -/
def SlotRecord.NodesOk (r : SlotRecord) : Prop :=
  (r.rule = 1 ∨ r.rule = 3 → r.nodeA ≠ 0) ∧ (r.rule = 2 → r.nodeA ≠ 0 ∧ r.nodeB ≠ 0 ∧ r.nodeA ≠ r.nodeB)

theorem SlotRecord.nodesValid_iff (r : SlotRecord) : r.nodesValid = true ↔ r.NodesOk := by
  unfold SlotRecord.nodesValid SlotRecord.NodesOk
  have codes : ∀ c : BitVec 3, c = 0 ∨ c = 1 ∨ c = 2 ∨ c = 3 ∨ c = 4 ∨ c = 5 ∨ c = 6 ∨ c = 7 := by decide
  rcases codes r.rule with rule | rule | rule | rule | rule | rule | rule | rule <;> simp [rule, and_assoc]

/-- What a non-zero slot is to meet (R38). -/
def State.SlotPasses (s : State) (r : SlotRecord) : Prop :=
  r.rule.toNat ≤ 4 ∧ 64 ≤ r.length.toNat ∧ r.NodesOk ∧ s.slotMinimum r ≤ r.length.toNat

/-- The first check that a non-zero slot fails (R38). -/
def State.SlotFails (s : State) (r : SlotRecord) : FailReason → Prop
  | .rule => ¬ r.rule.toNat ≤ 4
  | .length => r.rule.toNat ≤ 4 ∧ ¬ 64 ≤ r.length.toNat
  | .node => r.rule.toNat ≤ 4 ∧ 64 ≤ r.length.toNat ∧ ¬ r.NodesOk
  | .budget => r.rule.toNat ≤ 4 ∧ 64 ≤ r.length.toNat ∧ r.NodesOk ∧ ¬ s.slotMinimum r ≤ r.length.toNat
  | .empty => False

theorem State.checkSlot_eq_none {s : State} {r : SlotRecord} : s.checkSlot r = none ↔ s.SlotPasses r := by
  unfold State.checkSlot State.SlotPasses Config.shortestSlot
  rw [← r.nodesValid_iff]
  split_ifs <;> simp_all

theorem State.checkSlot_eq_some {s : State} {r : SlotRecord} {reason : FailReason} :
    s.checkSlot r = some reason ↔ s.SlotFails r reason := by
  unfold State.checkSlot State.SlotFails Config.shortestSlot
  rw [← r.nodesValid_iff]
  cases reason <;> split_ifs <;> simp_all

/-- The failure of a slot, if it is a non-zero one that fails (R38). -/
def State.slotFailure? (s : State) (t : TableId) (k : SlotIndex) : Option (SlotIndex × FailReason) :=
  if (s.sched.record t k).length = 0 then none else (s.checkSlot (s.sched.record t k)).map fun reason => (k, reason)

theorem State.slotFailure?_eq_none {s : State} {t : TableId} {k : SlotIndex} : s.slotFailure? t k = none ↔
    (s.sched.record t k).length = 0 ∨ s.SlotPasses (s.sched.record t k) := by
  rw [← State.checkSlot_eq_none, State.slotFailure?]
  split_ifs with zero
  · simp [zero]
  · rw [Option.map_eq_none_iff]
    exact (or_iff_right zero).symm

theorem State.slotFailure?_eq_some {s : State} {t : TableId} {j k : SlotIndex} {reason : FailReason} :
    s.slotFailure? t j = some (k, reason) ↔
      j = k ∧ (s.sched.record t k).length ≠ 0 ∧ s.SlotFails (s.sched.record t k) reason := by
  rw [← State.checkSlot_eq_some, State.slotFailure?]
  split_ifs with zero
  · refine ⟨nofun, ?_⟩
    rintro ⟨rfl, nonzero, -⟩
    exact absurd zero nonzero
  · rw [Option.map_eq_some_iff]
    constructor
    · rintro ⟨_, fails, ⟨⟩⟩
      exact ⟨rfl, zero, fails⟩
    · rintro ⟨rfl, -, fails⟩
      exact ⟨reason, fails, rfl⟩

theorem State.firstFailure_eq (s : State) (t : TableId) (ks : List SlotIndex) :
    s.firstFailure t ks = ks.findSome? (s.slotFailure? t) := by
  induction ks with
  | nil => rfl
  | cons k rest ih =>
    rw [State.firstFailure, List.findSome?_cons, ih, State.slotFailure?]
    split_ifs with zero
    · rfl
    · cases s.checkSlot (s.sched.record t k) <;> rfl

/-- The lowest slot that fails, and the first check it fails (R38). -/
theorem State.firstFailure_eq_some {s : State} {t : TableId} {k : SlotIndex} {reason : FailReason} :
    s.firstFailure t slotIndices = some (k, reason) ↔
      (s.sched.record t k).length ≠ 0 ∧ s.SlotFails (s.sched.record t k) reason
        ∧ ∀ j : SlotIndex, j.toNat < k.toNat → (s.sched.record t j).length = 0 ∨ s.SlotPasses (s.sched.record t j) := by
  simp only [State.firstFailure_eq, findSome?_slotIndices, State.slotFailure?_eq_some, State.slotFailure?_eq_none]
  constructor
  · rintro ⟨_, ⟨rfl, zero, fails⟩, lowest⟩
    exact ⟨zero, fails, lowest⟩
  · rintro ⟨zero, fails, lowest⟩
    exact ⟨k, ⟨rfl, zero, fails⟩, lowest⟩

theorem State.firstFailure_eq_none {s : State} {t : TableId} : s.firstFailure t slotIndices = none ↔
    ∀ k, (s.sched.record t k).length = 0 ∨ s.SlotPasses (s.sched.record t k) := by
  simp only [State.firstFailure_eq, List.findSome?_eq_none_iff, mem_slotIndices, true_imp_iff,
    State.slotFailure?_eq_none]

/-- The three verdicts by the first failure found (R38). -/
theorem State.validate_of_failure {s : State} {t : TableId} {k : SlotIndex} {reason : FailReason}
    (found : s.firstFailure t slotIndices = some (k, reason)) : s.validate t = .fail t k reason := by
  simp only [State.validate, found]

theorem State.validate_of_passes {s : State} {t : TableId} (found : s.firstFailure t slotIndices = none) :
    s.validate t = if ∀ k, (s.sched.record t k).length = 0 then .fail t 0 .empty else .pass := by
  simp only [State.validate, found]
  simp [mem_slotIndices]

theorem State.validate_eq_pass {s : State} {t : TableId} : s.validate t = .pass ↔
    (∃ k, (s.sched.record t k).length ≠ 0)
      ∧ ∀ k, (s.sched.record t k).length ≠ 0 → s.SlotPasses (s.sched.record t k) := by
  simp only [← not_forall, ne_eq, ← or_iff_not_imp_left, ← State.firstFailure_eq_none]
  cases found : s.firstFailure t slotIndices with
  | none => simp [State.validate_of_passes found]
  | some f => simp [State.validate_of_failure found]

/-- The reason EMPTY is that of no slot (R38). -/
theorem State.validate_eq_empty {s : State} {t : TableId} :
    s.validate t = .fail t 0 .empty ↔ ∀ k, (s.sched.record t k).length = 0 := by
  cases found : s.firstFailure t slotIndices with
  | none => simp [State.validate_of_passes found]
  | some f =>
    obtain ⟨k, reason⟩ := f
    obtain ⟨nonzero, fails, -⟩ := State.firstFailure_eq_some.1 found
    rw [State.validate_of_failure found]
    refine iff_of_false ?_ fun zero => nonzero (zero k)
    rintro ⟨⟩
    exact fails

theorem State.validate_eq_fail {s : State} {t : TableId} {k : SlotIndex} {reason : FailReason} (h : reason ≠ .empty) :
    s.validate t = .fail t k reason ↔ s.firstFailure t slotIndices = some (k, reason) := by
  cases found : s.firstFailure t slotIndices with
  | none =>
    rw [State.validate_of_passes found]
    refine iff_of_false ?_ nofun
    split_ifs
    · rintro ⟨⟩
      exact h rfl
    · nofun
  | some f => simp [State.validate_of_failure found, Prod.ext_iff]

/-- RUN in STOPPED records the verdict on the active table (R39, R142). -/
theorem State.cmdRun_validation {s : State} (stopped : s.run.state = .stopped) :
    s.cmdRun.sched.validation = s.validate s.sched.active := by
  unfold State.cmdRun
  simp only [stopped]
  cases s.validate s.sched.active <;> simp [State.startRun]

/-! ### The table switch -/

theorem State.writeSctl_switch (s : State) (t : TableId) : s.writeSctl (sctlWord 1 t) = s.requestSwitch t := by
  cases t <;> rfl

theorem State.writeSctl_cancel (s : State) (t : TableId) : s.writeSctl (sctlWord 2 t) = s.cancelSwitch := by
  cases t <;> rfl

theorem exec_switch {s : State} (ready : s.Ready) (t : TableId) :
    exec (.switch t) s = .next (s.requestSwitch t).written := by
  rw [← State.writeSctl_switch]
  exact s.hostWrite_ready .sctl _ ready

theorem exec_cancel {s : State} (ready : s.Ready) (t : TableId) :
    exec (.cancel t) s = .next s.cancelSwitch.written := by
  rw [← s.writeSctl_cancel t]
  exact s.hostWrite_ready .sctl _ ready

theorem State.requestSwitch_refused {s : State} {t : TableId}
    (h : t = s.sched.active ∨ s.sched.pendingSwitch.isSome = true) :
    s.requestSwitch t = s.reported .hLocked 0 0x000C#16 := by
  rw [State.requestSwitch, if_pos h]
  rfl

section Judged

variable {s : State} {t : TableId} (other : t ≠ s.sched.active) (free : s.sched.pendingSwitch = none)
include other free

/-- A switch to the other table, with none pending, goes by the verdict on that table (R41). -/
theorem State.requestSwitch_judged : s.requestSwitch t = match s.validate t with
    | .pass =>
      if s.run.state = .stopped then (s.recordValidation .pass).takeSwitch t
      else { s with sched := { s.sched with validation := .pass, pendingSwitch := some t } }
    | .unset => s.recordValidation .unset
    | .fail u k reason => s.recordValidation (.fail u k reason) := by
  rw [State.requestSwitch, if_neg (by simp [other, free])]
  cases s.validate t <;> rfl

theorem State.requestSwitch_validation : (s.requestSwitch t).sched.validation = s.validate t := by
  rw [State.requestSwitch_judged other free]
  cases s.validate t with
  | pass => dsimp only; split_ifs <;> rfl
  | _ => simp

end Judged

/-- Settles O4: the verdicts by the lowest slot that fails, and the verdict recorded by RUN and SWITCH. -/
theorem validationVerdict : Obligations.ValidationVerdict := by
  unfold Obligations.ValidationVerdict
  intro s t
  refine ⟨State.validate_eq_pass, State.validate_eq_empty, fun k reason nonempty => ?_, fun ready stopped => ?_,
    fun ready other free => ?_⟩
  · exact (State.validate_eq_fail nonempty).trans State.firstFailure_eq_some
  · refine ⟨s.cmdRun.written, s.hostWrite_ready .rcmd 1 ready, State.cmdRun_validation stopped, ?_, ?_⟩ <;> simp
  · refine ⟨_, exec_switch ready t, State.requestSwitch_validation other free, ?_, ?_⟩ <;> simp

/-- SSTAT shows a pending switch (R39). -/
theorem Sched.sstat_pending (u : Sched) : u.sstat.getLsbD 1 = u.pendingSwitch.isSome := by
  have second : u.sstat.toNat / 2 % 2 = bit u.pendingSwitch.isSome := by
    have := bit_le u.active.isB
    have := bit_le u.pendingSwitch.isSome
    rw [u.sstat_toNat]
    cases u.validation <;> dsimp only <;> omega
  rw [BitVec.getLsbD, Nat.testBit_eq_decide_div_mod_eq, Nat.pow_one, second]
  cases u.pendingSwitch <;> rfl

theorem State.writeSctl_neither {v : Word} (h : v.getLsbD 0 = v.getLsbD 1) (s : State) : s.writeSctl v = s := by
  have low : ∀ x : BitVec 2, x.getLsbD 0 = x.getLsbD 1 → x = 0 ∨ x = 3 := by decide
  unfold State.writeSctl
  rcases low (v.extractLsb' 0 2) (by simpa using h) with e | e <;> rw [e] <;> rfl

/-- Settles O13, by the verdict on the table and the run state. -/
theorem switchAndCancel : Obligations.SwitchAndCancel := by
  unfold Obligations.SwitchAndCancel
  intro s t ready
  simp only [exec_switch ready, exec_cancel ready]
  refine ⟨fun refused => ?_, fun other free => ⟨fun u k reason fails => ?_, fun passes stopped => ?_,
    fun passes running => ?_⟩, rfl, fun v neither => ?_⟩
  · rw [State.requestSwitch_refused refused]
  · rw [State.requestSwitch_judged other free, fails]
    rfl
  · rw [State.requestSwitch_judged other free, passes]
    simp only [stopped, if_true]
    rfl
  · rw [State.requestSwitch_judged other free, passes]
    simp only [if_neg running]
    refine ⟨_, rfl, rfl, Sched.sstat_pending _, ?_⟩
    simp [State.tableLocked]
  · refine (exec_registerWrite ready .sctl v).trans ?_
    rw [State.writeRegister, State.writeSctl_neither neither]

/-! ### Slot records -/

theorem State.tableLocked_iff {s : State} {t : TableId} : s.tableLocked t = true ↔
    (t = s.sched.active ∧ s.run.state ≠ .stopped) ∨ s.sched.pendingSwitch = some t := by
  simp [State.tableLocked]

theorem State.writeSlotRecord_locked {s : State} (h : s.tableLocked s.sched.selTable = true) (offset : Word)
    (f : SlotRecord → SlotRecord) : s.writeSlotRecord offset f = s.reported .hLocked 0 offset := by
  rw [State.writeSlotRecord, if_pos h]
  rfl

theorem State.writeSlotRecord_unlocked {s : State} (h : s.tableLocked s.sched.selTable = false) (offset : Word)
    (f : SlotRecord → SlotRecord) : s.writeSlotRecord offset f = { s with
      sched := s.sched.setRecord s.sched.selTable s.sched.selSlot <|
        f <| s.sched.record s.sched.selTable s.sched.selSlot } := by
  simp [State.writeSlotRecord, h]

theorem exec_slotRecordWrite {s : State} (ready : s.Ready) (r : SlotReg) (v : Word) :
    exec (.slotRecordWrite r v) s = .next (s.writeRegister (slotReg r) v).written :=
  s.hostWrite_ready (slotReg r) v ready

/-- The word addresses of the registers of a slot record, which are no node registers (section 10.1). -/
theorem slotRecordReads : ∀ x ∈ [((0x08 : BitVec 11), ReadReg.srule), (0x09, ReadReg.snodeb), (0x0A, ReadReg.slen)],
    readRegAt (registerOffset x.1) = some x.2 ∧ ∀ n, x.2 ≠ .node n := by
  simp only [List.forall_mem_cons]
  refine ⟨⟨by decide, ?_⟩, ⟨by decide, ?_⟩, ⟨by decide, ?_⟩, nofun⟩ <;> rintro n ⟨⟩

/-- Settles O12, by the lock of the addressed record. -/
theorem slotRecordWrites : Obligations.SlotRecordWrites := by
  unfold Obligations.SlotRecordWrites
  intro s v ready
  simp only [exec_slotRecordWrite ready, slotReg, State.writeRegister, State.writeSrule, State.writeSnodeb,
    State.writeSlen]
  refine ⟨fun free => ?_, fun locked => ?_, fun x listed => ?_⟩
  · have unlocked : s.tableLocked s.sched.selTable = false := by
      rwa [← State.tableLocked_iff, Bool.not_eq_true] at free
    have stores (offset f) := congrArg (fun u => (.next u.written : Host.Outcome State Fault Refusal))
      (State.writeSlotRecord_unlocked unlocked offset f)
    exact ⟨stores _ _, stores _ _, stores _ _⟩
  · simp only [State.writeSlotRecord_locked (State.tableLocked_iff.2 locked)]
    exact ⟨rfl, rfl, rfl⟩
  · obtain ⟨register, plain⟩ := slotRecordReads x listed
    rw [exec_registerRead ready rfl rfl rfl (by simp) rfl,
      State.readOffset_some register fun n node => absurd node (plain n)]
    rfl

/-! ### Budget check -/

theorem Sched.mem_budgetTables {u : Sched} {t : TableId} :
    t ∈ u.budgetTables ↔ t = u.active ∨ u.pendingSwitch = some t := by
  unfold Sched.budgetTables
  cases u.pendingSwitch <;> simp [eq_comm]

/-- What the budget check asks of a slot: nothing, where its length is 0 or it does not name the node (R40). -/
theorem SlotRecord.budget_iff (r : SlotRecord) (n : NodeAddr) (least : Nat) :
    (decide (r.length = 0) || !r.namedNodes.contains n || decide (least ≤ r.length.toNat)) = true
      ↔ (r.length ≠ 0 → n ∈ r.namedNodes → least ≤ r.length.toNat) := by
  by_cases zero : r.length = 0
  · simp [zero]
  · by_cases named : n ∈ r.namedNodes <;> simp_all

/-- Settles O17, by the tables and slots that the check goes through. -/
theorem budgetCheckLooksAtNamedSlots : Obligations.BudgetCheckLooksAtNamedSlots := by
  unfold Obligations.BudgetCheckLooksAtNamedSlots
  intro s n o i
  simp only [State.budgetPasses, List.all_eq_true, Sched.mem_budgetTables, mem_slotIndices, true_imp_iff,
    SlotRecord.budget_iff]

end Sys2Proof.Machine
end

section
/-! PROOFS. What a slot start resolves to (R27 to R36, R56, R78, R87). -/

namespace Sys2Proof.Machine

open Sys2Proof

/-! ### The bytes of an output slice (R78, R87) -/

theorem Image.badOffset_eq (u : Image) (c : SliceCopy) : u.badOffset c = ((List.range c.outLen.toNat).find? fun i =>
    !(u.outLinkBank.read (c.outOff.toNat + i)).parityGood).map fun i => c.outOff.toNat + i := by
  rw [Image.badOffset, List.find?_map]
  rfl

theorem Image.badOffset_eq_none {u : Image} {c : SliceCopy} : u.badOffset c = none ↔
    ∀ a, c.outOff.toNat ≤ a → a < c.outOff.toNat + c.outLen.toNat → (u.outLinkBank.read a).parityGood = true := by
  rw [Image.badOffset_eq, Option.map_eq_none_iff, List.find?_range_eq_none]
  simp only [Bool.not_not]
  refine ⟨fun good a above below => ?_, fun good i below => good _ (by omega) (by omega)⟩
  have := good (a - c.outOff.toNat) (by omega)
  rwa [Nat.add_sub_cancel' above] at this

theorem Image.badOffset_eq_some {u : Image} {c : SliceCopy} {a : Nat} : u.badOffset c = some a ↔
    (c.outOff.toNat ≤ a ∧ a < c.outOff.toNat + c.outLen.toNat) ∧ (u.outLinkBank.read a).parityGood = false
      ∧ ∀ b, c.outOff.toNat ≤ b → b < a → (u.outLinkBank.read b).parityGood = true := by
  rw [Image.badOffset_eq, Option.map_eq_some_iff]
  simp only [List.find?_range_eq_some, List.mem_range, Bool.not_not, Bool.not_eq_true']
  constructor
  · rintro ⟨i, ⟨bad, below, first⟩, rfl⟩
    refine ⟨⟨by omega, by omega⟩, bad, fun b above lower => ?_⟩
    have := first (b - c.outOff.toNat) (by omega)
    rwa [Nat.add_sub_cancel' above] at this
  · rintro ⟨⟨above, below⟩, bad, first⟩
    refine ⟨a - c.outOff.toNat, ⟨?_, by omega, fun j lower => first _ (by omega) (by omega)⟩, by omega⟩
    rwa [Nat.add_sub_cancel' above]

theorem State.sliceGood_iff {s : State} {n : NodeAddr} {e : NodeEntry} (h : s.node? n = some e) :
    s.SliceGood n ↔ s.image.badOffset (e.sliceCopy n) = none := by
  simp only [State.SliceGood, h, Option.some.injEq, Image.badOffset_eq_none]
  exact ⟨fun good a => good e a rfl, fun good f a same => same ▸ good a⟩

theorem State.sliceBad_iff {s : State} {n : NodeAddr} {e : NodeEntry} {a : Nat} (h : s.node? n = some e) :
    s.SliceBad n a ↔ s.image.badOffset (e.sliceCopy n) = some a := by
  simp only [State.SliceBad, h, Option.some.injEq, exists_eq_left', Image.badOffset_eq_some]
  rfl

theorem Image.firstBadSlice_single (u : Image) (c : SliceCopy) :
    u.firstBadSlice [c] = (u.badOffset c).map fun a => (c.node, a) := by
  unfold Image.firstBadSlice
  cases u.badOffset c <;> rfl

/-- The slice that comes first in the payload is looked at first (R87). -/
theorem Image.firstBadSlice_pair (u : Image) (c d : SliceCopy) : u.firstBadSlice [c, d]
    = ((u.badOffset c).map fun a => (c.node, a)).or ((u.badOffset d).map fun a => (d.node, a)) := by
  rw [← u.firstBadSlice_single d, Image.firstBadSlice]
  cases u.badOffset c <;> rfl

theorem State.copiesOf_single {s : State} {n : NodeAddr} {e : NodeEntry} (h : s.node? n = some e) :
    s.copiesOf [n] = [e.sliceCopy n] := by
  simp [State.copiesOf, h]

theorem State.copiesOf_pair {s : State} {x y : NodeAddr} {e f : NodeEntry} (hx : s.node? x = some e)
    (hy : s.node? y = some f) : s.copiesOf [x, y] = [e.sliceCopy x, f.sliceCopy y] := by
  simp [State.copiesOf, hx, hy]

/-- The output data of a node are the data bytes of its output slice (R78). -/
theorem State.outputOf_sliceBytes {s : State} {n : NodeAddr} {e : NodeEntry} (h : s.node? n = some e) :
    s.SliceBytes e (s.outputOf n) := by
  have bytes : s.outputOf n = (List.range e.outLen.toNat).map fun i =>
      (s.image.outLinkBank.read (e.outOff.toNat + i)).setWidth 8 := by
    simp [State.outputOf, State.copiesOf_single h, Image.sliceData, Image.outSlice, NodeEntry.sliceCopy,
      Function.comp_def, ImageByte.data]
  rw [State.SliceBytes, bytes]
  refine ⟨by simp, fun i hi => ?_⟩
  simp [List.getD_eq_getElem?_getD, hi]

theorem State.firstBadSlice_one {s : State} {n : NodeAddr} (h : n ≠ 0) :
    (s.image.firstBadSlice (s.copiesOf [n]) = none ↔ s.SliceGood n)
      ∧ ∀ m a, s.image.firstBadSlice (s.copiesOf [n]) = some (m, a) ↔ m = n ∧ s.SliceBad n a := by
  obtain ⟨e, he⟩ := Option.isSome_iff_exists.1 (State.node?_isSome.2 h)
  have node : (e.sliceCopy n).node = n := rfl
  rw [State.copiesOf_single he, Image.firstBadSlice_single, State.sliceGood_iff he, node]
  simp only [State.sliceBad_iff he]
  cases s.image.badOffset (e.sliceCopy n) <;> simp [eq_comm]

theorem State.firstBadSlice_two {s : State} {x y : NodeAddr} (hx : x ≠ 0) (hy : y ≠ 0) :
    (s.image.firstBadSlice (s.copiesOf [x, y]) = none ↔ s.SliceGood x ∧ s.SliceGood y)
      ∧ ∀ m a, s.image.firstBadSlice (s.copiesOf [x, y]) = some (m, a) ↔
        m = x ∧ s.SliceBad x a ∨ s.SliceGood x ∧ m = y ∧ s.SliceBad y a := by
  obtain ⟨e, he⟩ := Option.isSome_iff_exists.1 (State.node?_isSome.2 hx)
  obtain ⟨f, hf⟩ := Option.isSome_iff_exists.1 (State.node?_isSome.2 hy)
  have nodes : (e.sliceCopy x).node = x ∧ (f.sliceCopy y).node = y := ⟨rfl, rfl⟩
  rw [State.copiesOf_pair he hf, Image.firstBadSlice_pair, State.sliceGood_iff he, State.sliceGood_iff hf, nodes.1,
    nodes.2]
  simp only [State.sliceBad_iff he, State.sliceBad_iff hf]
  cases s.image.badOffset (e.sliceCopy x) <;> cases s.image.badOffset (f.sliceCopy y) <;> simp [eq_comm]

/-! ### The slot entered (R37, R56) -/

/-- The slice copies of nodes hold that of each named node with an entry, and no other (R56). -/
theorem State.find?_copiesOf (s : State) (ns : List NodeAddr) (n : NodeAddr) :
    (s.copiesOf ns).find? (fun c => c.node == n) = if n ∈ ns then (s.node? n).map (·.sliceCopy n) else none := by
  induction ns with
  | nil => rfl
  | cons m rest ih =>
    have tail : s.copiesOf (m :: rest) = ((s.node? m).map (·.sliceCopy m)).toList ++ s.copiesOf rest := by
      cases h : s.node? m <;> simp [State.copiesOf, h]
    rw [tail, List.find?_append, ih]
    by_cases same : m = n
    · subst same
      cases h : s.node? m <;> simp [NodeEntry.sliceCopy]
    · have other : ((s.node? m).map (·.sliceCopy m)).toList.find? (fun c => c.node == n) = none := by
        cases s.node? m <;> simp [NodeEntry.sliceCopy, same]
      simp [other, Ne.symm same]

/-- The slot is entered: it is in progress and timed, and the slice copies of its nodes are handed on; the line has still
to be taken (R37, R56). -/
structure State.HasEnteredSlot (s u : State) (k : SlotIndex) : Prop where
  slot : u.sched.state = .slot k
  number : u.sched.cycleNumber = s.sched.cycleNumber
  timed : u.timers.segment = some (s.bitTimes (s.sched.record s.sched.active k).length.toNat)
  rate : u.link.rate = s.link.rate
  handed : u.image.slices = s.copiesOf (s.sched.record s.sched.active k).namedNodes
    ∧ u.link.slices = s.copiesOf (s.sched.record s.sched.active k).namedNodes

theorem State.enterSlot_hasEntered (s : State) {k : SlotIndex} {r : SlotRecord}
    (record : s.sched.record s.sched.active k = r) : s.HasEnteredSlot (s.enterSlot k r) k := by
  subst record
  exact ⟨rfl, rfl, rfl, rfl, rfl, rfl⟩

theorem State.HasEnteredSlot.of_same {s u v : State} {k : SlotIndex} (entered : s.HasEnteredSlot u k)
    (state : v.sched.state = u.sched.state) (number : v.sched.cycleNumber = u.sched.cycleNumber)
    (link : v.link = u.link) (image : v.image = u.image) (timers : v.timers = u.timers) : s.HasEnteredSlot v k where
  slot := state.trans entered.slot
  number := number.trans entered.number
  timed := timers ▸ entered.timed
  rate := link ▸ entered.rate
  handed := by rw [link, image]; exact entered.handed

/-- What the slices handed on are to the link engine and to the image unit (R56). -/
theorem State.HasEnteredSlot.slices {s u : State} {k : SlotIndex} (entered : s.HasEnteredSlot u k) (n : NodeAddr) :
    (n ∈ (s.sched.record s.sched.active k).namedNodes → ∀ e, s.node? n = some e →
      u.image.sliceOf n = some { node := n, outOff := e.outOff, outLen := e.outLen, inOff := e.inOff, inLen := e.inLen }
        ∧ u.link.inLen n = e.inLen.toNat)
    ∧ (n ∉ (s.sched.record s.sched.active k).namedNodes → u.image.sliceOf n = none ∧ u.link.inLen n = 0) := by
  obtain ⟨image, link⟩ := entered.handed
  rw [Image.sliceOf, Link.inLen, image, link, State.find?_copiesOf]
  refine ⟨fun named e h => ?_, fun unnamed => ?_⟩
  · rw [if_pos named, h]
    exact ⟨rfl, rfl⟩
  · rw [if_neg unnamed]
    exact ⟨rfl, rfl⟩

/-- A frame begun in a slot that is entered starts the slot with it (R27). -/
theorem State.HasEnteredSlot.startFrame {s u : State} {k : SlotIndex} (entered : s.HasEnteredSlot u k) (ex : Exchange)
    {frame : List Byte} (carries : frame ≠ []) : s.StartsSlot (u.startFrame ex frame) k ex frame where
  slot := entered.slot
  timed := entered.timed
  handed := entered.slices
  carried := ⟨rfl, rfl⟩
  line := by
    rw [if_neg carries]
    refine ⟨rfl, ?_, entered.rate⟩
    rw [State.startFrame_timers_frame, State.bitTimes, entered.rate, lineTime]
  number := entered.number

/-- Silence in a slot that is entered starts it with no frame (R27). -/
theorem State.HasEnteredSlot.startSilent {s u : State} {k : SlotIndex} (entered : s.HasEnteredSlot u k) :
    s.StartsSlot u.startSilent k .silent [] where
  slot := entered.slot
  timed := entered.timed
  handed := entered.slices
  carried := ⟨rfl, rfl⟩
  line := ⟨rfl, rfl⟩
  number := entered.number

/-- A state with the same line, copies and slot in progress has the slot started too. -/
theorem State.StartsSlot.of_same {s t t' : State} {k : SlotIndex} {ex : Exchange} {frame : List Byte}
    (starts : s.StartsSlot t k ex frame) (state : t'.sched.state = t.sched.state)
    (number : t'.sched.cycleNumber = t.sched.cycleNumber) (link : t'.link = t.link) (image : t'.image = t.image)
    (timers : t'.timers = t.timers) : s.StartsSlot t' k ex frame where
  slot := state.trans starts.slot
  timed := timers ▸ starts.timed
  handed := by rw [link, image]; exact starts.handed
  carried := link ▸ starts.carried
  line := by rw [link, timers]; exact starts.line
  number := number.trans starts.number

/-! ### The command chosen (R34, R97) -/

theorem State.opportunity_iff {s : State} {r : SlotRecord} : s.opportunity r = true ↔
    (r.rule = 3 ∨ r.rule = 4) ∧ s.sched.pacing = 0 ∧ (s.run.state = .running ∨ s.run.state = .resuming) := by
  simp [State.opportunity, SlotRecord.isCommandSlot, and_assoc]

theorem State.setNode_nodes {s u : State} (same : u.nodes = s.nodes) (n : NodeAddr) (e : NodeEntry) :
    (u.setNode n e).nodes = (s.setNode n e).nodes := by
  unfold State.setNode
  split <;> simp [same]

theorem State.advanceSerial_nodes {s u : State} (same : u.nodes = s.nodes) (n : NodeAddr) :
    (u.advanceSerial n).nodes = (s.advanceSerial n).nodes := by
  unfold State.advanceSerial
  rw [State.node?_congr (congrArg NodeTable.entries same)]
  cases s.node? n with
  | none => exact same
  | some e => exact State.setNode_nodes same n _

/-- What a first transmission leaves in the command engine and the node table does not depend on the slot (R100). -/
theorem State.sendFirst_enterSlot (s : State) (k : SlotIndex) (r : SlotRecord) (q : QueueEntry) :
    ((s.enterSlot k r).sendFirst q).cmd = (s.sendFirst q).cmd
      ∧ ((s.enterSlot k r).sendFirst q).nodes = (s.sendFirst q).nodes := by
  have nodes := State.advanceSerial_nodes (s := s.freeQueue q.push) (u := (s.enterSlot k r).freeQueue q.push) rfl q.node
  refine ⟨?_, nodes⟩
  simp only [State.sendFirst, State.marksLeft, State.advanceSerial_frame]
  rfl

/-- The choice of a command looks at no slot: entering one changes neither the command chosen nor what its sending leaves
in the command engine and the node table (R97, R100, R101). -/
theorem State.selectCommand_enterSlot (s : State) (k : SlotIndex) (r : SlotRecord) :
    (s.selectCommand = none → (s.enterSlot k r).selectCommand = none)
    ∧ ∀ e u, s.selectCommand = some (e, u) →
      ∃ v, (s.enterSlot k r).selectCommand = some (e, v) ∧ v.cmd = u.cmd ∧ v.nodes = u.nodes := by
  have sameRetry : (s.enterSlot k r).chooseRetry = s.chooseRetry := rfl
  have sameFirst : (s.enterSlot k r).chooseFirst = s.chooseFirst := rfl
  unfold State.selectCommand
  rw [sameRetry, sameFirst]
  cases s.chooseRetry with
  | some e =>
    refine ⟨nofun, ?_⟩
    rintro _ _ ⟨⟩
    exact ⟨_, rfl, rfl, rfl⟩
  | none =>
    cases s.chooseFirst with
    | some q =>
      refine ⟨nofun, ?_⟩
      rintro _ _ ⟨⟩
      have sameEntry : (s.enterSlot k r).firstEntry q = s.firstEntry q := rfl
      refine ⟨(s.enterSlot k r).sendFirst q, ?_, s.sendFirst_enterSlot k r q⟩
      dsimp only
      rw [sameEntry]
    | none =>
      refine ⟨fun _ => rfl, ?_⟩
      rintro _ _ ⟨⟩

/-! ### The slot start -/

/-- A command opportunity is that of the record, whatever slot is in progress (R34). -/
theorem State.enterSlot_opportunity (s : State) (k : SlotIndex) (r q : SlotRecord) :
    (s.enterSlot k r).opportunity q = s.opportunity q := rfl

/-- The pacing counter goes down by one, not below 0 (R33). -/
theorem State.decreasePacing_sched (s : State) : s.decreasePacing.sched
    = { s.sched with pacing := if s.sched.pacing = 0 then 0 else s.sched.pacing - 1 } := by
  unfold State.decreasePacing
  split_ifs with zero
  · rw [← zero]
  · rfl

section Started

variable {s : State} {k : SlotIndex} {r : SlotRecord} (record : s.sched.record s.sched.active k = r)
include record

/-- A slot start with a command to send carries its ORDER, and sets the pacing counter to G (R30, R33). -/
theorem State.slotStart_order {e : OutEntry} {u : State} (chance : s.opportunity r = true)
    (chosen : s.selectCommand = some (e, u)) :
    s.StartsSlot (s.slotStart k) k e.exchange (orderFrame e) ∧ (s.slotStart k).sched.pacing = s.sched.pacingSetting
      ∧ (s.slotStart k).cmd = u.cmd ∧ (s.slotStart k).nodes = u.nodes := by
  obtain ⟨-, sends⟩ := s.selectCommand_enterSlot k r
  obtain ⟨v, sent, cmd, nodes⟩ := sends e u chosen
  have start : s.slotStart k = (v.setPacing v.sched.pacingSetting).startFrame e.exchange (orderFrame e) := by
    simp only [State.slotStart, record, State.enterSlot_opportunity, chance, if_true, sent]
  obtain ⟨-, link, sched, image, -, -, -, timers, -⟩ := State.selectCommand_frame _ _ _ sent
  have entered : s.HasEnteredSlot (v.setPacing v.sched.pacingSetting) k :=
    (s.enterSlot_hasEntered record).of_same (by rw [State.setPacing_sched, sched]) (by rw [State.setPacing_sched, sched])
      link image timers
  have carries : orderFrame e ≠ [] := List.ne_nil_of_length_pos (by rw [length_orderFrame]; omega)
  rw [start]
  refine ⟨entered.startFrame e.exchange carries, ?_, cmd, nodes⟩
  show v.sched.pacingSetting = _
  rw [sched]
  rfl

/-- A slot start without a command to send resolves without one, and the pacing counter goes down (R30, R33). -/
theorem State.slotStart_cyclic (unchosen : (if s.opportunity r = true then s.selectCommand else none) = none) :
    s.slotStart k = ((s.enterSlot k r).resolveCyclic r).decreasePacing := by
  obtain ⟨chooses, -⟩ := s.selectCommand_enterSlot k r
  have entered : (if s.opportunity r = true then (s.enterSlot k r).selectCommand else none) = none := by
    split_ifs at unchosen ⊢
    · exact chooses unchosen
    · rfl
  simp only [State.slotStart, record, State.enterSlot_opportunity, entered]

variable (unchosen : (if s.opportunity r = true then s.selectCommand else none) = none)
include unchosen

/-- The slot that begins with a frame. -/
theorem State.slotStart_frame_of {ex : Exchange} {frame : List Byte}
    (resolves : (s.enterSlot k r).resolveCyclic r = (s.enterSlot k r).startFrame ex frame) (carries : frame ≠ []) :
    s.StartsSlot (s.slotStart k) k ex frame ∧ (s.slotStart k).due = s.due := by
  rw [State.slotStart_cyclic record unchosen, resolves]
  have starts := (s.enterSlot_hasEntered record).startFrame ex carries
  refine ⟨starts.of_same ?_ ?_ ?_ ?_ ?_, ?_⟩ <;> simp [State.decreasePacing_sched]

/-- The slot that is silent. -/
theorem State.slotStart_silent_of
    (resolves : (s.enterSlot k r).resolveCyclic r = (s.enterSlot k r).startSilent) :
    s.StartsSlot (s.slotStart k) k .silent [] ∧ (s.slotStart k).due = s.due := by
  rw [State.slotStart_cyclic record unchosen, resolves]
  have starts := (s.enterSlot_hasEntered record).startSilent
  refine ⟨starts.of_same ?_ ?_ ?_ ?_ ?_, ?_⟩ <;> simp [State.decreasePacing_sched]

/-- The slot that a byte with bad parity silences (R87). -/
theorem State.slotStart_raise_of {n : NodeAddr} {a : Nat} (resolves : (s.enterSlot k r).resolveCyclic r
      = (s.enterSlot k r).startSilent.raise .mLinkrd n (BitVec.ofNat 16 a)) :
    s.StartsSlot (s.slotStart k) k .silent []
      ∧ (s.slotStart k).due = s.due ++ [.faultReport ⟨.mLinkrd, n, BitVec.ofNat 16 a⟩] := by
  rw [State.slotStart_cyclic record unchosen, resolves]
  have starts := (s.enterSlot_hasEntered record).startSilent
  refine ⟨starts.of_same ?_ ?_ ?_ ?_ ?_, ?_⟩ <;> simp [State.decreasePacing_sched]

end Started

/-! ### Resolution (R27 to R32) -/

theorem Image.firstBadSlice_congr {u v : Image} (same : v.outLinkBank = u.outLinkBank) (cs : List SliceCopy) :
    v.firstBadSlice cs = u.firstBadSlice cs := by
  induction cs with
  | nil => rfl
  | cons c rest ih =>
    have offset : v.badOffset c = u.badOffset c := by rw [Image.badOffset, same]; rfl
    rw [Image.firstBadSlice, Image.firstBadSlice, ih, offset]

theorem State.startBuilt_good {s : State} {copies : List SliceCopy} (good : s.image.firstBadSlice copies = none)
    (ex : Exchange) (frame : List Byte) : s.startBuilt copies ex frame = s.startFrame ex frame := by
  rw [State.startBuilt, good]

theorem State.startBuilt_bad {s : State} {copies : List SliceCopy} {n : NodeAddr} {a : Nat}
    (bad : s.image.firstBadSlice copies = some (n, a)) (ex : Exchange) (frame : List Byte) :
    s.startBuilt copies ex frame = s.startSilent.raise .mLinkrd n (BitVec.ofNat 16 a) := by
  rw [State.startBuilt, bad]

theorem State.resolveCyclic_plain {r : SlotRecord} (rule : r.rule = 0 ∨ r.rule = 4) (s : State) :
    s.resolveCyclic r = s.startSilent := by
  rcases rule with rule | rule <;> simp [State.resolveCyclic, rule]

theorem State.resolveCyclic_cyc {r : SlotRecord} (rule : r.rule = 1 ∨ r.rule = 3) (s : State) :
    s.resolveCyclic r = s.resolveCyc r := by
  rcases rule with rule | rule <;> simp [State.resolveCyclic, rule]

theorem State.resolveCyclic_pair {r : SlotRecord} (rule : r.rule = 2) (s : State) :
    s.resolveCyclic r = s.resolvePair r := by
  simp [State.resolveCyclic, rule]

/-- A CYC slot serves a live node with DATA and an OFFLINE one with PROBE (R28). -/
theorem State.resolveCyc_eq (s : State) (r : SlotRecord) : s.resolveCyc r =
    if s.isLive r.nodeA = true then s.sendData r.nodeA (s.trailerPermitted r)
    else if s.nodeState r.nodeA = .offline then s.startFrame (.probe r.nodeA) (probeFrame r.nodeA)
    else s.startSilent := by
  rw [State.resolveCyc, State.isLive]
  cases s.nodeState r.nodeA <;> rfl

theorem State.resolveCyc_live {s : State} {r : SlotRecord} (live : s.isLive r.nodeA = true) :
    s.resolveCyc r = s.sendData r.nodeA (s.trailerPermitted r) := by
  rw [State.resolveCyc_eq, if_pos live]

theorem State.resolveCyc_offline {s : State} {r : SlotRecord} (offline : s.nodeState r.nodeA = .offline) :
    s.resolveCyc r = s.startFrame (.probe r.nodeA) (probeFrame r.nodeA) := by
  simp [State.resolveCyc_eq, State.isLive, NodeState.isLive, offline]

theorem State.resolveCyc_unserved {s : State} {r : SlotRecord}
    (unserved : s.nodeState r.nodeA = .disabled ∨ s.nodeState r.nodeA = .mismatch) :
    s.resolveCyc r = s.startSilent := by
  rcases unserved with state | state <;> simp [State.resolveCyc_eq, State.isLive, NodeState.isLive, state]

/-- A PAIR slot serves the live ones of its nodes (R29). -/
theorem State.resolvePair_eq (s : State) (r : SlotRecord) : s.resolvePair r =
    if s.isLive r.nodeA = true then
      if s.isLive r.nodeB = true then s.sendPair r.nodeA r.nodeB else s.sendData r.nodeA false
    else if s.isLive r.nodeB = true then s.sendData r.nodeB false else s.startSilent := by
  rw [State.resolvePair]
  cases s.isLive r.nodeA <;> cases s.isLive r.nodeB <;> rfl

theorem State.resolvePair_both {s : State} {r : SlotRecord} (a : s.isLive r.nodeA = true)
    (b : s.isLive r.nodeB = true) : s.resolvePair r = s.sendPair r.nodeA r.nodeB := by
  simp [State.resolvePair_eq, a, b]

theorem State.resolvePair_first {s : State} {r : SlotRecord} (a : s.isLive r.nodeA = true)
    (b : s.isLive r.nodeB = false) : s.resolvePair r = s.sendData r.nodeA false := by
  simp [State.resolvePair_eq, a, b]

theorem State.resolvePair_second {s : State} {r : SlotRecord} (a : s.isLive r.nodeA = false)
    (b : s.isLive r.nodeB = true) : s.resolvePair r = s.sendData r.nodeB false := by
  simp [State.resolvePair_eq, a, b]

theorem State.resolvePair_neither {s : State} {r : SlotRecord} (a : s.isLive r.nodeA = false)
    (b : s.isLive r.nodeB = false) : s.resolvePair r = s.startSilent := by
  simp [State.resolvePair_eq, a, b]

theorem withCrc_ne_nil (bytes : List Byte) : withCrc bytes ≠ [] :=
  List.ne_nil_of_length_pos (by rw [length_withCrc]; omega)

/-- Entering a slot leaves the output slices as they are (R56, R78). -/
theorem State.enterSlot_firstBadSlice (s : State) (k : SlotIndex) (r : SlotRecord) (cs : List SliceCopy) :
    (s.enterSlot k r).image.firstBadSlice cs = s.image.firstBadSlice cs :=
  Image.firstBadSlice_congr (u := s.image) (v := (s.enterSlot k r).image) rfl cs

section Resolved

variable {s : State} {k : SlotIndex} {r : SlotRecord} (record : s.sched.record s.sched.active k = r)
  (unchosen : (if s.opportunity r = true then s.selectCommand else none) = none)
include record unchosen

/-- A slot whose frame carries good output slices begins with it (R32, R78). -/
theorem State.slotStart_built {ns : List NodeAddr} {ex : Exchange} {frame : List Byte}
    (resolves : (s.enterSlot k r).resolveCyclic r = (s.enterSlot k r).startBuilt (s.copiesOf ns) ex frame)
    (carries : frame ≠ []) (good : s.image.firstBadSlice (s.copiesOf ns) = none) :
    s.StartsSlot (s.slotStart k) k ex frame ∧ (s.slotStart k).due = s.due :=
  State.slotStart_frame_of record unchosen
    (resolves.trans (State.startBuilt_good ((s.enterSlot_firstBadSlice k r _).trans good) ex frame)) carries

/-- A slot with a bad byte in an output slice of its frame is silent (R87). -/
theorem State.slotStart_built_bad {ns : List NodeAddr} {ex : Exchange} {frame : List Byte} {n : NodeAddr} {a : Nat}
    (resolves : (s.enterSlot k r).resolveCyclic r = (s.enterSlot k r).startBuilt (s.copiesOf ns) ex frame)
    (bad : s.image.firstBadSlice (s.copiesOf ns) = some (n, a)) : s.StartsSlot (s.slotStart k) k .silent []
      ∧ (s.slotStart k).due = s.due ++ [.faultReport ⟨.mLinkrd, n, BitVec.ofNat 16 a⟩] :=
  State.slotStart_raise_of record unchosen
    (resolves.trans (State.startBuilt_bad ((s.enterSlot_firstBadSlice k r _).trans bad) ex frame))

/-- What a slot start without an ORDER leaves (R33). -/
theorem State.slotStart_cyclic_frame :
    (s.slotStart k).sched.pacing = (if s.sched.pacing = 0 then 0 else s.sched.pacing - 1)
      ∧ (s.slotStart k).nodes = s.nodes ∧ (s.slotStart k).cmd = s.cmd ∧ (s.slotStart k).result = s.result := by
  rw [State.slotStart_cyclic record unchosen]
  simp [State.decreasePacing_sched]

end Resolved

/-- Settles O46: a slot start with an ORDER, and without one by the rule, the states of the nodes and the parity of
their slices. -/
theorem slotResolution : Obligations.SlotResolution := by
  unfold Obligations.SlotResolution
  intro s k r t order permitted good
  refine ⟨fun n e => State.outputOf_sliceBytes, fun n => State.firstBadSlice_one, fun x y => State.firstBadSlice_two,
    State.opportunity_iff, fun e u chosen => ?_, fun unchosen => ?_⟩
  · obtain ⟨chance, chosen⟩ : s.opportunity r = true ∧ s.selectCommand = some (e, u) := by
      simpa [order] using chosen
    exact State.slotStart_order rfl chance chosen
  have silent := State.slotStart_silent_of (s := s) (k := k) rfl unchosen
  obtain ⟨pacing, nodes, cmd, result⟩ := State.slotStart_cyclic_frame (s := s) (k := k) rfl unchosen
  refine ⟨pacing, nodes, cmd, result, fun rule => silent (State.resolveCyclic_plain rule _), fun rule _ => ?_,
    fun rule => ?_⟩
  · have resolves := (s.enterSlot k r).resolveCyclic_cyc rule
    refine ⟨fun live fine => ?_, fun offline => ?_, fun unserved => ?_, fun n a live bad => ?_⟩
    · exact State.slotStart_built rfl unchosen (resolves.trans (State.resolveCyc_live live)) (withCrc_ne_nil _) fine
    · exact State.slotStart_frame_of rfl unchosen (resolves.trans (State.resolveCyc_offline offline)) (withCrc_ne_nil _)
    · exact silent (resolves.trans (State.resolveCyc_unserved unserved))
    · exact State.slotStart_built_bad rfl unchosen (resolves.trans (State.resolveCyc_live live)) bad
  · have resolves := (s.enterSlot k r).resolveCyclic_pair rule
    refine ⟨fun a b fine => ?_, fun n o a b bad => ?_, fun x y n o pair live dead bad => ?_, fun a b fine => ?_,
      fun a b fine => ?_, fun a b => ?_⟩
    · exact State.slotStart_built rfl unchosen (resolves.trans (State.resolvePair_both a b)) (withCrc_ne_nil _) fine
    · exact State.slotStart_built_bad rfl unchosen (resolves.trans (State.resolvePair_both a b)) bad
    · rcases pair with pair | pair <;> cases pair
      · exact State.slotStart_built_bad rfl unchosen (resolves.trans (State.resolvePair_first live dead)) bad
      · exact State.slotStart_built_bad rfl unchosen (resolves.trans (State.resolvePair_second dead live)) bad
    · exact State.slotStart_built rfl unchosen (resolves.trans (State.resolvePair_first a b)) (withCrc_ne_nil _) fine
    · exact State.slotStart_built rfl unchosen (resolves.trans (State.resolvePair_second a b)) (withCrc_ne_nil _) fine
    · exact silent (resolves.trans (State.resolvePair_neither a b))

end Sys2Proof.Machine
end

section
/-! PROOFS. Every step keeps the node entries in their ranges and the slices of enabled nodes apart (R49, R52, R61). -/

namespace Sys2Proof.Machine

open Sys2Proof

/-! ### Entries that follow one another -/

/-- An entry that may take the place of another without a check: it is legal if the other was, and it is enabled only with
the other's slices (R49, R52). -/
structure NodeEntry.Succeeds (f e : NodeEntry) : Prop where
  legal : e.Legal → f.Legal
  slices : f.state.isEnabled = true → e.state.isEnabled = true
    ∧ f.outOff = e.outOff ∧ f.outLen = e.outLen ∧ f.inOff = e.inOff ∧ f.inLen = e.inLen

theorem NodeEntry.Succeeds.refl (e : NodeEntry) : e.Succeeds e := ⟨id, fun h => ⟨h, rfl, rfl, rfl, rfl⟩⟩

theorem NodeEntry.Succeeds.trans {e f g : NodeEntry} (hg : g.Succeeds f) (hf : f.Succeeds e) : g.Succeeds e where
  legal := hg.legal ∘ hf.legal
  slices enabled := by
    obtain ⟨enabled, h1, h2, h3, h4⟩ := hg.slices enabled
    rw [h1, h2, h3, h4]
    exact hf.slices enabled

/-- A node that leaves LAGGING or keeps out of it does so with its miss count at 0 (R61). -/
theorem NodeEntry.succeeds_moved {e : NodeEntry} {st : NodeState} (notLagging : st ≠ .lagging)
    (enabled : st.isEnabled = true → e.state.isEnabled = true) (ident : Option IdentRecord) :
    NodeEntry.Succeeds { e with state := st, missCount := 0, ident := ident } e where
  legal := fun ⟨credit, limit, out, inp, _, _⟩ => ⟨credit, limit, out, inp, fun h => absurd h notLagging, fun _ => rfl⟩
  slices h := ⟨enabled h, rfl, rfl, rfl, rfl⟩

/-- A miss below the limit: the miss count cannot wrap (R61). -/
theorem NodeEntry.succeeds_missed {e : NodeEntry} (live : e.state.isLive = true)
    (below : e.missCount.toNat + 1 < e.missLimit.toNat) :
    NodeEntry.Succeeds { e with state := .lagging, missCount := e.missCount + 1 } e where
  legal := by
    rintro ⟨credit, limit, out, inp, _, _⟩
    have counted : 1 ≤ (e.missCount + 1).toNat := by bv_omega
    exact ⟨credit, limit, out, inp, fun _ => counted, fun h => absurd rfl h⟩
  slices _ := ⟨by revert live; cases e.state <;> simp [NodeState.isLive, NodeState.isEnabled], rfl, rfl, rfl, rfl⟩

/-- The bad-reply count, the late count and the serial counter have every value their widths hold (R49). -/
theorem NodeEntry.succeeds_counted (e : NodeEntry) (bad late : Byte) (serial : BitVec 4) :
    NodeEntry.Succeeds { e with badCount := bad, lateCount := late, serial := serial } e :=
  ⟨id, fun h => ⟨h, rfl, rfl, rfl, rfl⟩⟩

theorem takenMissLimit_range (m : BitVec 4) : 1 ≤ (takenMissLimit m).toNat := by
  revert m; decide

theorem takenCredit_range (c : BitVec 3) : 1 ≤ (takenCredit c).toNat ∧ (takenCredit c).toNat ≤ 4 := by
  revert c; decide

/-- A miss limit is stored as it is taken, and a credit too (R51). -/
theorem NodeEntry.succeeds_limited {e : NodeEntry} {c : BitVec 3} (m : BitVec 4)
    (credit : e.Legal → 1 ≤ c.toNat ∧ c.toNat ≤ 4) :
    NodeEntry.Succeeds { e with missLimit := takenMissLimit m, credit := c } e where
  legal legal := by
    obtain ⟨_, _, out, inp, lagging, others⟩ := id legal
    exact ⟨credit legal, takenMissLimit_range m, out, inp, lagging, others⟩
  slices h := ⟨h, rfl, rfl, rfl, rfl⟩

theorem NodeEntry.succeeds_of_disabled {e f : NodeEntry} (disabled : f.state.isEnabled = false)
    (legal : e.Legal → f.Legal) : f.Succeeds e :=
  ⟨legal, fun h => absurd h (by simp [disabled])⟩

theorem NodeEntry.succeeds_controllerReset (e : NodeEntry) : e.controllerReset.Succeeds e := by
  have moved := NodeEntry.succeeds_moved (e := e) (st := if e.state.isEnabled then .offline else .disabled)
    (by split <;> simp) (by cases e.state.isEnabled <;> simp [NodeState.isEnabled]) none
  exact (NodeEntry.succeeds_counted _ 0 0 0).trans moved

theorem NodeEntry.reset_succeeds (e : NodeEntry) : NodeEntry.reset.Succeeds e :=
  NodeEntry.succeeds_of_disabled rfl fun _ => by simp [NodeEntry.Legal, NodeEntry.reset]

/-! ### Tables that follow one another -/

/-- Every entry of the later table may take the place of the earlier one. -/
def State.NodesSucceed (s t : State) : Prop := ∀ n f, t.node? n = some f → ∃ e, s.node? n = some e ∧ f.Succeeds e

/-- The laws of the node table: the ranges of the entries, and the slices (R49, R52, R61). -/
def State.NodeTableLaw (s : State) : Prop := s.NodeLaw ∧ s.SliceLaw

theorem State.NodesSucceed.law {s t : State} (h : s.NodesSucceed t) (law : s.NodeTableLaw) : t.NodeTableLaw := by
  obtain ⟨legal, inBank, apart⟩ := law
  refine ⟨fun n f hf => ?_, fun n f hf enabled => ?_, fun n m f g ne hf hg enabled enabled' a => ?_⟩
  · obtain ⟨e, he, succ⟩ := h n f hf
    exact succ.legal (legal n e he)
  · obtain ⟨e, he, succ⟩ := h n f hf
    obtain ⟨enabled, h1, h2, h3, h4⟩ := succ.slices enabled
    rw [h1, h2, h3, h4]
    exact inBank n e he enabled
  · obtain ⟨e, he, succ⟩ := h n f hf
    obtain ⟨e', he', succ'⟩ := h m g hg
    obtain ⟨enabled, h1, h2, h3, h4⟩ := succ.slices enabled
    obtain ⟨enabled', h1', h2', h3', h4'⟩ := succ'.slices enabled'
    rw [h1, h2, h3, h4, h1', h2', h3', h4']
    exact apart n m e e' ne he he' enabled enabled' a

theorem State.NodesSucceed.of_entries {s t : State} (same : t.nodes.entries = s.nodes.entries) : s.NodesSucceed t :=
  fun n f hf => ⟨f, (State.node?_congr same n).symm.trans hf, .refl f⟩

theorem State.NodesSucceed.of_nodes {s t : State} (same : t.nodes = s.nodes) : s.NodesSucceed t :=
  .of_entries (congrArg NodeTable.entries same)

theorem State.NodesSucceed.trans {s t u : State} (h : s.NodesSucceed t) (h' : t.NodesSucceed u) : s.NodesSucceed u := by
  intro n g hg
  obtain ⟨f, hf, succ'⟩ := h' n g hg
  obtain ⟨e, he, succ⟩ := h n f hf
  exact ⟨e, he, succ'.trans succ⟩

/-- What joins the change set, hands an event on or drops a slice copy leaves the entries. -/
theorem State.NodesSucceed.same {s t u : State} (h : s.NodesSucceed t) (same : u.nodes.entries = t.nodes.entries) :
    s.NodesSucceed u := h.trans (.of_entries same)

theorem State.nodesSucceed_setNode {s : State} {n : NodeAddr} {e f : NodeEntry} (h : s.node? n = some e)
    (succ : f.Succeeds e) : s.NodesSucceed (s.setNode n f) := by
  intro m g hg
  by_cases hm : m = n
  · subst hm
    rw [State.node?_setNode s f (State.node?_ne_zero h)] at hg
    cases hg
    exact ⟨e, h, succ⟩
  · rw [State.node?_setNode_ne s f hm] at hg
    exact ⟨g, hg, .refl g⟩

/-- One change to every entry of the table. -/
theorem State.nodesSucceed_map {s t : State} {f : NodeEntry → NodeEntry} (mapped : t.nodes.entries = s.nodes.entries.map f)
    (succ : ∀ e, (f e).Succeeds e) : s.NodesSucceed t := by
  intro n g hg
  unfold State.node? at hg ⊢
  split at hg
  · cases hg
  · next hn =>
    cases hg
    refine ⟨_, if_neg hn, ?_⟩
    simpa [mapped, Vector.get] using succ _

/-! ### Outcomes and the run -/

theorem State.goodReply_nodes {s : State} {n : NodeAddr} {e : NodeEntry} (h : s.node? n = some e) :
    s.NodesSucceed (s.goodReply n e) := by
  unfold State.goodReply
  split
  · next online =>
    have succ := NodeEntry.succeeds_moved (e := e) (st := e.state) (by simp [online]) id e.ident
    exact State.nodesSucceed_setNode h succ
  · next lagging =>
    have succ := NodeEntry.succeeds_moved (e := e) (st := .online) (by simp) (by simp [lagging, NodeState.isEnabled])
      e.ident
    exact (State.nodesSucceed_setNode h succ).same rfl
  all_goals exact .of_nodes rfl

/-- A live node that goes to OFFLINE with miss count 0 (R62, R68). -/
theorem NodeEntry.succeeds_downed {e : NodeEntry} (live : e.state.isLive = true) :
    NodeEntry.Succeeds { e with state := .offline, missCount := 0 } e := by
  refine NodeEntry.succeeds_moved (by simp) ?_ e.ident
  revert live
  cases e.state <;> simp [NodeState.isLive, NodeState.isEnabled]

theorem State.miss_nodes {s : State} {n : NodeAddr} {e : NodeEntry} (h : s.node? n = some e) (k : SlotIndex) :
    s.NodesSucceed (s.miss n e k) := by
  unfold State.miss
  split
  · exact .of_nodes rfl
  · next live =>
    have live : e.state.isLive = true := by simpa using live
    split
    · exact (State.nodesSucceed_setNode h (NodeEntry.succeeds_downed live)).same rfl
    · next below =>
      have missed := State.nodesSucceed_setNode h (NodeEntry.succeeds_missed live (by omega))
      dsimp only
      split
      · exact missed.same rfl
      · exact missed

theorem State.countBad_nodes (s : State) (n : NodeAddr) (k : SlotIndex) (c : BadCause) :
    s.NodesSucceed (s.countBad n k c) := by
  unfold State.countBad
  split
  · exact .of_nodes rfl
  · next e h => exact (State.nodesSucceed_setNode h (NodeEntry.succeeds_counted e _ _ _)).same rfl

theorem State.identReceived_nodes {s : State} {n : NodeAddr} {e : NodeEntry} (h : s.node? n = some e) (r : IdentRecord) :
    s.NodesSucceed (s.identReceived n e r) := by
  have moved (st : NodeState) (offline : e.state = .offline) (notLagging : st ≠ .lagging) :=
    State.nodesSucceed_setNode h (NodeEntry.succeeds_moved notLagging (by simp [offline, NodeState.isEnabled]) (some r))
  unfold State.identReceived
  split
  · exact .of_nodes rfl
  · next offline =>
    rw [not_not] at offline
    split
    · exact (moved .online offline (by simp)).same rfl
    · exact (moved .mismatch offline (by simp)).same rfl

theorem State.takeOutcome_nodes (s : State) (n : NodeAddr) (kind : WindowKind) (k : SlotIndex) (v : Verdict) :
    s.NodesSucceed (s.takeOutcome n kind k v) := by
  unfold State.takeOutcome
  split
  · exact .of_nodes rfl
  · next e h =>
    split
    · exact .of_nodes rfl
    · split
      · exact State.identReceived_nodes h _
      · exact s.countBad_nodes n k _
      · exact .of_nodes rfl
      · exact State.goodReply_nodes h
      · exact State.miss_nodes h k
      · exact (State.miss_nodes h k).trans (State.countBad_nodes _ n k _)

theorem State.takeLate_nodes (s : State) (n : NodeAddr) (k : SlotIndex) : s.NodesSucceed (s.takeLate n k) := by
  unfold State.takeLate
  split
  · exact .of_nodes rfl
  · next e h =>
    split
    · exact .of_nodes rfl
    · exact (State.nodesSucceed_setNode h (NodeEntry.succeeds_counted e _ _ _)).same rfl

theorem State.haltNode_nodes (s : State) (n : NodeAddr) : s.NodesSucceed (s.haltNode n) := by
  unfold State.haltNode
  split
  · exact .of_nodes rfl
  · next e h =>
    split
    · next live => exact (State.nodesSucceed_setNode h (NodeEntry.succeeds_downed live)).same rfl
    · exact .of_nodes rfl

theorem State.haltNodes_nodes (s : State) (ns : List NodeAddr) : s.NodesSucceed (s.haltNodes ns) := by
  induction ns generalizing s with
  | nil => exact .of_nodes rfl
  | cons n rest ih => exact (s.haltNode_nodes n).trans (ih _)

theorem State.enterHalted_nodes (s : State) (code : FaultCode) (detail : Word) :
    s.NodesSucceed (s.enterHalted code detail) := by
  have aborted : s.NodesSucceed s.haltRun.abortTransactions := .of_nodes (by simp)
  exact (aborted.trans (State.haltNodes_nodes _ nodeAddresses)).same (by simp [State.enterHalted])

theorem State.takeActivityReport_nodes (s : State) : s.NodesSucceed s.takeActivityReport := by
  unfold State.takeActivityReport
  split
  · dsimp only
    have counted : s.NodesSucceed (s.setRestarts (s.run.restarts + 1)) := .of_nodes rfl
    split
    · exact counted.trans (State.enterHalted_nodes _ _ _)
    · exact counted
  all_goals exact .of_nodes rfl

theorem State.takeLinkFault_nodes (s : State) (kind : LinkFaultKind) : s.NodesSucceed (s.takeLinkFault kind) := by
  unfold State.takeLinkFault
  split
  · exact .of_nodes (by simp)
  · exact .of_nodes (by simp)
  · exact s.enterHalted_nodes _ _
  all_goals exact .of_nodes rfl

/-! ### Slot starts -/

/-- A first transmission advances the serial counter of its node, and changes no other field of an entry (R100, R102). -/
theorem State.sendFirst_nodes (s : State) (q : QueueEntry) : s.NodesSucceed (s.sendFirst q) := by
  have freed : s.NodesSucceed (s.freeQueue q.push) := .of_nodes rfl
  have advanced : (s.freeQueue q.push).NodesSucceed ((s.freeQueue q.push).advanceSerial q.node) := by
    unfold State.advanceSerial
    split
    · exact .of_nodes rfl
    · next e h => exact State.nodesSucceed_setNode h (NodeEntry.succeeds_counted e _ _ _)
  exact (freed.trans advanced).same rfl

theorem State.selectCommand_nodes {s t : State} {e : OutEntry} (h : s.selectCommand = some (e, t)) : s.NodesSucceed t := by
  unfold State.selectCommand at h
  split at h
  · cases h
    exact .of_nodes (by simp)
  · split at h
    · cases h
      exact s.sendFirst_nodes _
    · cases h

theorem State.slotStart_nodes (s : State) (k : SlotIndex) : s.NodesSucceed (s.slotStart k) := by
  unfold State.slotStart
  dsimp only
  split
  · next e t h =>
    split at h
    · exact ((State.NodesSucceed.of_nodes rfl).trans (State.selectCommand_nodes h)).same (by simp)
    · cases h
  · exact .of_nodes (by simp)

theorem State.slotEnd_nodes (s : State) : s.NodesSucceed s.slotEnd := by
  have cut : s.NodesSucceed s.cutSlot.dropLineTimers := .of_nodes (by simp)
  unfold State.slotEnd State.afterSlot
  split
  · split
    · exact cut.trans (State.slotStart_nodes _ _)
    · exact cut.same (by simp)
  all_goals exact .of_nodes rfl

theorem State.headEnd_nodes (s : State) : s.NodesSucceed s.headEnd := by
  unfold State.headEnd
  split
  · exact (State.NodesSucceed.of_nodes rfl).trans (s.dropLineTimers.slotStart_nodes _)
  · exact .of_nodes rfl

/-! ### Register writes -/

/-- An entry stored keeps the laws when it is legal, and its slices lie in the bank and apart from those of every enabled
node. -/
theorem State.setNode_law {s : State} {n : NodeAddr} {f : NodeEntry} (law : s.NodeTableLaw) (hn : n ≠ 0) (legal : f.Legal)
    (inBank : f.outOff.toNat + f.outLen.toNat ≤ 1024 ∧ f.inOff.toNat + f.inLen.toNat ≤ 1024)
    (free : ∀ m g, m ≠ n → s.node? m = some g → g.state.isEnabled = true → ∀ a,
      ¬ (inSlice f.outOff f.outLen a ∧ inSlice g.outOff g.outLen a)
        ∧ ¬ (inSlice f.inOff f.inLen a ∧ inSlice g.inOff g.inLen a)) :
    (s.setNode n f).NodeTableLaw := by
  have stored : ∀ m g, (s.setNode n f).node? m = some g → m = n ∧ g = f ∨ m ≠ n ∧ s.node? m = some g := by
    intro m g hg
    by_cases hm : m = n
    · subst hm
      rw [State.node?_setNode s f hn] at hg
      exact .inl ⟨rfl, (Option.some.inj hg).symm⟩
    · rw [State.node?_setNode_ne s f hm] at hg
      exact .inr ⟨hm, hg⟩
  obtain ⟨legals, inBanks, apart⟩ := law
  refine ⟨fun m g hg => ?_, fun m g hg enabled => ?_, fun m j g g' ne hg hg' enabled enabled' a => ?_⟩
  · obtain ⟨-, rfl⟩ | ⟨-, old⟩ := stored m g hg
    · exact legal
    · exact legals m g old
  · obtain ⟨-, rfl⟩ | ⟨-, old⟩ := stored m g hg
    · exact inBank
    · exact inBanks m g old enabled
  · obtain ⟨rfl, rfl⟩ | ⟨hm, old⟩ := stored m g hg <;> obtain ⟨rfl, rfl⟩ | ⟨hj, old'⟩ := stored j g' hg'
    · exact absurd rfl ne
    · exact free j g' hj old' enabled' a
    · obtain ⟨out, inp⟩ := free m g hm old enabled a
      exact ⟨out ∘ And.symm, inp ∘ And.symm⟩
    · exact apart m j g g' ne old old' enabled enabled' a

/-- An enable request that passes its checks puts the slices of the node apart from those of every enabled node (R52). -/
theorem State.enableNode_law {s : State} {n : NodeAddr} {e : NodeEntry} (h : s.node? n = some e) (law : s.NodeTableLaw) :
    (s.enableNode n e).NodeTableLaw := by
  unfold State.enableNode
  split
  · exact (State.NodesSucceed.of_nodes rfl).law law
  · next passed =>
    obtain ⟨inBank, free⟩ := State.enableFault_none.1 passed
    obtain ⟨credit, limit, out, inp, -, -⟩ := law.1 n e h
    have stored := State.setNode_law (f := { e with state := .offline, missCount := 0 }) law (State.node?_ne_zero h)
      ⟨credit, limit, out, inp, by simp, fun _ => rfl⟩ inBank free
    exact (State.NodesSucceed.of_entries rfl).law stored

theorem State.disableNode_nodes {s : State} {n : NodeAddr} {e : NodeEntry} (h : s.node? n = some e) :
    s.NodesSucceed (s.disableNode n e) :=
  (State.nodesSucceed_setNode h (NodeEntry.succeeds_moved (st := .disabled) (by simp) (by simp [NodeState.isEnabled])
    e.ident)).same rfl

theorem State.takeEnable_law {s : State} (law : s.NodeTableLaw) (n : NodeAddr) (enable : Bool) :
    (s.takeEnable n enable).NodeTableLaw := by
  unfold State.takeEnable
  split
  · exact law
  · next e h =>
    split
    · exact State.enableNode_law h law
    · exact (State.disableNode_nodes h).law law
    all_goals exact law

theorem State.takeLimits_nodes {s : State} {n : NodeAddr} {e : NodeEntry} (h : s.node? n = some e) (v : Word) :
    s.NodesSucceed (s.takeLimits n e v) := by
  have kept := State.nodesSucceed_setNode h (NodeEntry.succeeds_limited (v.extractLsb' 8 4) fun legal => legal.1)
  unfold State.takeLimits
  dsimp only
  split
  · exact kept
  · split
    · exact kept.same rfl
    · exact State.nodesSucceed_setNode h (NodeEntry.succeeds_limited _ fun _ => takenCredit_range _)

theorem State.writeNcfg_law {s : State} (law : s.NodeTableLaw) (v : Word) : (s.writeNcfg v).NodeTableLaw := by
  unfold State.writeNcfg
  dsimp only
  split
  · exact law
  · next e h => exact State.takeEnable_law ((State.takeLimits_nodes h v).law law) _ _

theorem State.writeSliceOffset_nodes (s : State) (offset : Word) (f : NodeEntry → NodeEntry)
    (legal : ∀ e, e.Legal → (f e).Legal) (state : ∀ e, (f e).state = e.state) :
    s.NodesSucceed (s.writeSliceOffset offset f) := by
  unfold State.writeSliceOffset
  dsimp only
  split
  · exact .of_nodes rfl
  · next e h =>
    split
    · exact .of_nodes rfl
    · next disabled =>
      refine State.nodesSucceed_setNode h (NodeEntry.succeeds_of_disabled ?_ (legal e))
      simpa [state] using disabled

theorem State.writeNlen_nodes (s : State) (v : Word) : s.NodesSucceed (s.writeNlen v) := by
  unfold State.writeNlen
  dsimp only
  split
  · exact .of_nodes rfl
  · next e h =>
    split
    · exact .of_nodes rfl
    · next disabled =>
      split
      · exact .of_nodes rfl
      · next lengths =>
        rw [not_or, not_lt, not_lt] at lengths
        split
        · exact .of_nodes rfl
        · exact State.nodesSucceed_setNode h (NodeEntry.succeeds_of_disabled (by simpa using disabled)
            fun ⟨credit, limit, _, _, lagging, others⟩ => ⟨credit, limit, lengths.1, lengths.2, lagging, others⟩)

theorem State.writeNcnt_nodes (s : State) : s.NodesSucceed s.writeNcnt := by
  unfold State.writeNcnt
  dsimp only
  split
  · exact .of_nodes rfl
  · next e h => exact State.nodesSucceed_setNode h (NodeEntry.succeeds_counted e _ _ _)

theorem State.writeNode_law {s : State} (law : s.NodeTableLaw) (r : NodeWriteReg) (v : Word) :
    (s.writeNode r v).NodeTableLaw := by
  unfold State.writeNode
  split
  · exact (State.NodesSucceed.of_nodes (by simp)).law law
  · cases r with
    | ncfg => exact State.writeNcfg_law law v
    | noutoff =>
      refine (s.writeSliceOffset_nodes _ _ ?_ ?_).law law
      · exact fun _ legal => legal
      · exact fun _ => rfl
    | ninoff =>
      refine (s.writeSliceOffset_nodes _ _ ?_ ?_).law law
      · exact fun _ legal => legal
      · exact fun _ => rfl
    | nlen => exact (s.writeNlen_nodes v).law law
    | ncnt => exact s.writeNcnt_nodes.law law

theorem State.writeRcmd_nodes (s : State) (v : Word) : s.NodesSucceed (s.writeRcmd v) := by
  unfold State.writeRcmd
  split
  · exact .of_nodes (by simp)
  · exact .of_nodes (by simp)
  · exact .of_nodes (by simp)
  · exact .of_nodes (by simp)
  · exact State.nodesSucceed_map (by simp [NodeTable.controllerReset]) NodeEntry.succeeds_controllerReset
  · exact .of_nodes rfl

theorem State.writeSetting_nodes (s : State) (offset : Word) {f : State → State} (same : (f s).nodes = s.nodes) :
    (s.writeSetting offset f).nodes = s.nodes := by
  unfold State.writeSetting
  split
  · exact same
  · simp

theorem State.writeSctl_nodes (s : State) (v : Word) : (s.writeSctl v).nodes = s.nodes := by
  unfold State.writeSctl
  split <;> simp

theorem State.writeRegister_law {s : State} (law : s.NodeTableLaw) (r : WriteReg) (v : Word) :
    (s.writeRegister r v).NodeTableLaw := by
  cases r with
  | rcmd => exact (s.writeRcmd_nodes v).law law
  | node r => exact State.writeNode_law law r v
  | lset => exact (State.NodesSucceed.of_nodes (s.writeSetting_nodes _ rfl)).law law
  | cset => exact (State.NodesSucceed.of_nodes (s.writeSetting_nodes _ rfl)).law law
  | tset => exact (State.NodesSucceed.of_nodes (s.writeSetting_nodes _ rfl)).law law
  | sctl => exact (State.NodesSucceed.of_nodes (s.writeSctl_nodes v)).law law
  | _ =>
    refine (State.NodesSucceed.of_entries ?_).law law
    simp [State.writeRegister, State.writeSrule, State.writeSnodeb, State.writeSlen]

theorem State.carryOut_law {s : State} (law : s.NodeTableLaw) (a : Access) : (s.carryOut a).1.NodeTableLaw := by
  rcases s.carryOut_cases a with e | ⟨-, o, e⟩ | ⟨-, r, v, e⟩ | ⟨-, e⟩ | ⟨-, e⟩ <;> rw [e]
  · exact law
  · exact (State.NodesSucceed.of_nodes (by simp)).law law
  · exact State.writeRegister_law law r v
  · exact (State.NodesSucceed.of_nodes (by simp)).law law
  · exact (State.NodesSucceed.of_nodes (by simp)).law law

/-! ### Steps -/

theorem eventEffect_law {s : State} (law : s.NodeTableLaw) (c : Instr) : (eventEffect c s).NodeTableLaw := by
  cases c with
  | waitingAccessTaken =>
    exact State.takeWaiting_keeps State.NodeTableLaw (fun _ _ h => (State.NodesSucceed.of_nodes rfl).law h)
      (fun _ a h => State.carryOut_law h a) law
  | slotEnd => exact s.slotEnd_nodes.law law
  | headSegmentEnd => exact s.headEnd_nodes.law law
  | activityReport => exact s.takeActivityReport_nodes.law law
  | linkFault kind => exact (s.takeLinkFault_nodes kind).law law
  | nodeOutcome n kind k v => exact (s.takeOutcome_nodes n kind k v).law law
  | lateNotice n k => exact (s.takeLate_nodes n k).law law
  | _ => exact (State.NodesSucceed.of_nodes (by simp [eventEffect])).law law

theorem State.assertReset_nodes (s : State) : s.NodesSucceed s.assertReset :=
  State.nodesSucceed_map (f := fun _ => NodeEntry.reset) (by ext; simp [State.assertReset, State.reset, NodeTable.reset])
    NodeEntry.reset_succeeds

theorem exec_nodeTableLaw {c : Instr} {s t : State} (law : s.NodeTableLaw) (h : exec c s = .next t) : t.NodeTableLaw := by
  rcases exec_cases h with rfl | ⟨p, rfl, -⟩ | ⟨-, level, rfl⟩ | ⟨a, -, rfl⟩ | ⟨-, rfl⟩ | ⟨-, rfl⟩ | ⟨-, rfl⟩
  · exact law
  · exact (State.NodesSucceed.of_nodes rfl).law law
  · exact (State.NodesSucceed.of_nodes rfl).law law
  · exact (State.NodesSucceed.of_nodes rfl).law (State.carryOut_law law a)
  · exact s.assertReset_nodes.law law
  · exact (State.NodesSucceed.of_nodes rfl).law law
  · have taken : (s.takeDue c).NodeTableLaw := (State.NodesSucceed.of_nodes rfl).law law
    exact eventEffect_law taken c

/-- Settles O54: every change of the node table but an enable keeps the laws entry by entry, and an enable by its checks. -/
theorem stepKeepsNodeTableLaws : Obligations.StepKeepsNodeTableLaws := by
  unfold Obligations.StepKeepsNodeTableLaws
  intro s t legal slices next
  have law : s.NodeTableLaw := ⟨legal, slices⟩
  rcases step_cases next with ⟨c, rest, -, run⟩ | ⟨c, rest, -, -, run⟩ | ⟨-, -, rfl⟩
  · have fetched : State.NodeTableLaw { s with pending := rest } := (State.NodesSucceed.of_nodes rfl).law law
    exact exec_nodeTableLaw fetched run
  · exact exec_nodeTableLaw law run
  · obtain ⟨l, line, link, timers, tick, -⟩ := s.tick_cases
    exact (State.NodesSucceed.of_nodes (by rw [tick])).law law

end Sys2Proof.Machine
end

section
/-! PROOFS. Writes to the node registers and to the change set (R51 to R55, R66, R68). -/

namespace Sys2Proof.Machine

open Sys2Proof

/-! ### The selected entry -/

theorem State.setNode_eq {n : NodeAddr} (hn : n ≠ 0) (s : State) (e : NodeEntry) : s.setNode n e
    = { s with nodes := { s.nodes with entries := s.nodes.entries.set (nodeIndex n) e (nodeIndex n).isLt } } :=
  if_neg hn

/-- A report handed does not touch the entries. -/
theorem State.raise_setNode (s : State) (code : FaultCode) (n m : NodeAddr) (d : Word) (e : NodeEntry) :
    (s.raise code n d).setNode m e = (s.setNode m e).raise code n d := by
  unfold State.setNode
  split <;> rfl

section
variable {s : State} {e : NodeEntry} (ready : s.Ready) (h : s.node? s.nodes.nsel = some e)
include ready h

/-- A word write to a node register while NSEL names a node has the register's effect on its entry (R50, R174). -/
theorem State.hostWrite_node (r : NodeWriteReg) (v : Word) {t : State} (effect : s.selected ≠ 0 → s.writeNode r v = t) :
    s.hostWrite (.node r) v = .next t.written := by
  rw [s.hostWrite_ready (.node r) v ready, ← effect (State.node?_ne_zero h)]
  rfl

theorem exec_nodeConfigWrite (v : Word) : exec (.nodeConfigWrite v) s = .next (s.writeNcfg v).written :=
  State.hostWrite_node ready h .ncfg v fun selected => if_neg selected

theorem exec_nlenWrite (v : Word) : exec (.nlenWrite v) s = .next (s.writeNlen v).written :=
  State.hostWrite_node ready h .nlen v fun selected => if_neg selected

theorem exec_ncntWrite (v : Word) : exec (.ncntWrite v) s = .next s.writeNcnt.written :=
  State.hostWrite_node ready h .ncnt v fun selected => if_neg selected

theorem exec_noutoffWrite (v : Word) : exec (.sliceOffsetWrite .noutoff v) s
    = .next (s.writeSliceOffset 0x1A fun e => { e with outOff := v.extractLsb' 0 10 }).written :=
  State.hostWrite_node ready h .noutoff v fun selected => if_neg selected

theorem exec_ninoffWrite (v : Word) : exec (.sliceOffsetWrite .ninoff v) s
    = .next (s.writeSliceOffset 0x1C fun e => { e with inOff := v.extractLsb' 0 10 }).written :=
  State.hostWrite_node ready h .ninoff v fun selected => if_neg selected

end

/-! ### NCFG -/

theorem State.writeNcfg_eq {s : State} {e : NodeEntry} (h : s.node? s.nodes.nsel = some e) (v : Word) :
    s.writeNcfg v = (s.takeLimits s.nodes.nsel e v).takeEnable s.nodes.nsel (v.getLsbD 0) := by
  simp only [State.writeNcfg, State.selected, h]

/-- The entry with the miss limit of a write (R51, part 1). -/
def NodeEntry.limited (e : NodeEntry) (v : Word) : NodeEntry := { e with missLimit := takenMissLimit (v.extractLsb' 8 4) }

/-- The credit of a write, as it is taken (R51). -/
def writtenCredit (v : Word) : BitVec 3 := takenCredit (v.extractLsb' 4 3)

/-- The entry with the miss limit and the credit of a write (R51, parts 1 and 2). -/
def NodeEntry.configured (e : NodeEntry) (v : Word) : NodeEntry := { e.limited v with credit := writtenCredit v }

section
variable (s : State) {n : NodeAddr} {e : NodeEntry} {v : Word}

/-- While the node is DISABLED the limit and the credit are stored (R51). -/
theorem State.takeLimits_disabled (disabled : e.state = .disabled) :
    s.takeLimits n e v = s.setNode n (e.configured v) := by
  by_cases same : writtenCredit v = e.credit
  · refine (if_pos same).trans ?_
    rw [NodeEntry.configured, same]
    rfl
  · refine (if_neg same).trans (if_neg ?_)
    simp [disabled, NodeState.isEnabled]

/-- The same credit again: the limit alone is stored, in every state (R51). -/
theorem State.takeLimits_same (same : writtenCredit v = e.credit) : s.takeLimits n e v = s.setNode n (e.limited v) :=
  if_pos same

/-- Another credit is refused while the node is enabled, and the limit is stored all the same (R51). -/
theorem State.takeLimits_locked (enabled : e.state ≠ .disabled) (other : writtenCredit v ≠ e.credit) :
    s.takeLimits n e v = (s.setNode n (e.limited v)).raise .hLocked n 0x18 := by
  refine (if_neg other).trans (if_pos ?_)
  exact NodeState.isEnabled_iff.2 enabled

end

/-- The entry the limits leave is the one the enable part finds (R51). -/
theorem State.node?_takeLimits_enabled {s : State} {n : NodeAddr} {e : NodeEntry} (hn : n ≠ 0)
    (enabled : e.state ≠ .disabled) (v : Word) : (s.takeLimits n e v).node? n = some (e.limited v) := by
  by_cases same : writtenCredit v = e.credit
  · rw [s.takeLimits_same same, State.node?_setNode _ _ hn]
  · rw [s.takeLimits_locked enabled same, State.node?_raise, State.node?_setNode _ _ hn]

section
variable {s : State} {n : NodeAddr} {e : NodeEntry} (h : s.node? n = some e)
include h

/-- An enable of a node that is enabled, or a disable of one that is not, changes nothing (R51). -/
theorem State.takeEnable_kept {enable : Bool} (same : e.state.isEnabled = enable) : s.takeEnable n enable = s := by
  subst same
  simp only [State.takeEnable, h]
  cases e.state.isEnabled <;> rfl

theorem State.takeEnable_disable (enabled : e.state ≠ .disabled) : s.takeEnable n false = s.disableNode n e := by
  simp only [State.takeEnable, h, NodeState.isEnabled_iff.2 enabled]

theorem State.takeEnable_enable (disabled : e.state = .disabled) : s.takeEnable n true = s.enableNode n e := by
  simp only [State.takeEnable, h, disabled, NodeState.isEnabled]

end

/-- The two words that differ in the enable bit alone (R51). -/
theorem extractLsb'_enableCleared (v : Word) : (v &&& 0xFFFE#16).extractLsb' 8 4 = v.extractLsb' 8 4
    ∧ (v &&& 0xFFFE#16).extractLsb' 4 3 = v.extractLsb' 4 3 := by
  rw [BitVec.extractLsb'_and, BitVec.extractLsb'_and]
  exact ⟨BitVec.and_allOnes, BitVec.and_allOnes⟩

theorem extractLsb'_enableSet (v : Word) : (v ||| 0x0001#16).extractLsb' 8 4 = v.extractLsb' 8 4
    ∧ (v ||| 0x0001#16).extractLsb' 4 3 = v.extractLsb' 4 3 := by
  rw [BitVec.extractLsb'_or, BitVec.extractLsb'_or]
  exact ⟨BitVec.or_zero, BitVec.or_zero⟩

theorem State.takeLimits_congr {v w : Word} (s : State) (n : NodeAddr) (e : NodeEntry)
    (fields : w.extractLsb' 8 4 = v.extractLsb' 8 4 ∧ w.extractLsb' 4 3 = v.extractLsb' 4 3) :
    s.takeLimits n e w = s.takeLimits n e v := by
  simp only [State.takeLimits, fields]

/-- A DISABLE is an NCFG write with enable 0, and with the limit and the credit of its word (R51, R53). -/
theorem exec_disable {s : State} {e : NodeEntry} (ready : s.Ready) (h : s.node? s.nodes.nsel = some e)
    (enabled : e.state ≠ .disabled) (v : Word) : exec (.disable v) s
      = .next ((s.takeLimits s.nodes.nsel e v).disableNode s.nodes.nsel (e.limited v)).written := by
  have cleared : (v &&& 0xFFFE#16).getLsbD 0 = false := by simp
  have found := State.node?_takeLimits_enabled (s := s) (State.node?_ne_zero h) enabled v
  refine (exec_nodeConfigWrite ready h _).trans ?_
  rw [State.writeNcfg_eq h, State.takeLimits_congr _ _ _ (extractLsb'_enableCleared v), cleared,
    State.takeEnable_disable found enabled]

/-- What a disable of an enabled node leaves, with the refusal of another credit before it (R51, R53, R62, R79). -/
theorem State.disableNode_takeLimits {s : State} {n : NodeAddr} {e : NodeEntry} (hn : n ≠ 0) (enabled : e.state ≠ .disabled)
    (v : Word) : (s.takeLimits n e v).disableNode n (e.limited v)
      = { (s.setNode n { e.limited v with state := .disabled, missCount := 0 }).joinChangeSet n with
          image := { s.image with slices := s.image.slices.filter fun x => x.node != n }
          due := s.due ++ (if writtenCredit v = e.credit then [] else [.faultReport ⟨.hLocked, n, 0x0018⟩])
            ++ [.nodeDownNotice n] } := by
  by_cases same : writtenCredit v = e.credit
  · rw [s.takeLimits_same same, State.disableNode, State.setNode_setNode, if_pos same, List.append_nil, State.setNode_eq hn]
    rfl
  · rw [s.takeLimits_locked enabled same, State.disableNode, State.raise_setNode, State.setNode_setNode, if_neg same,
      State.setNode_eq hn]
    rfl

/-- Settles O14: the limits by the state and the credit, then the enable part on the entry they leave. -/
theorem nodeConfigWrites : Obligations.NodeConfigWrites := by
  unfold Obligations.NodeConfigWrites
  intro s v e ready h
  have hn := State.node?_ne_zero h
  have isEnabled : e.state ≠ .disabled → e.state.isEnabled = true := NodeState.isEnabled_iff.2
  refine ⟨fun disabled bit => ?_, fun enabled bit same => ?_, fun enabled bit other => ?_, fun enabled => ?_⟩
  · have found : (s.setNode s.nodes.nsel (e.configured v)).node? s.nodes.nsel = some (e.configured v) :=
      State.node?_setNode _ _ hn
    have kept : (e.configured v).state.isEnabled = false := congrArg NodeState.isEnabled disabled
    rw [exec_nodeConfigWrite ready h, State.writeNcfg_eq h, bit, s.takeLimits_disabled disabled,
      State.takeEnable_kept found kept]
    rfl
  · have found := State.node?_takeLimits_enabled (s := s) hn enabled v
    rw [exec_nodeConfigWrite ready h, State.writeNcfg_eq h, bit, State.takeEnable_kept found (isEnabled enabled),
      s.takeLimits_same same]
    rfl
  · have found := State.node?_takeLimits_enabled (s := s) hn enabled v
    rw [exec_nodeConfigWrite ready h, State.writeNcfg_eq h, bit, State.takeEnable_kept found (isEnabled enabled),
      s.takeLimits_locked enabled other]
    rfl
  · rw [exec_disable ready h enabled, State.disableNode_takeLimits hn enabled]
    rfl

/-! ### Enable requests -/

section
variable {s : State} {n : NodeAddr} {e : NodeEntry}

/-- The checks look at the other nodes' entries, and at the slices of this one (R52). -/
theorem State.enableFault_setNode (f : NodeEntry) : (s.setNode n f).enableFault n e = s.enableFault n e := by
  have same : ∀ clash, (s.setNode n f).overlapping n clash = s.overlapping n clash := by
    intro clash
    unfold State.overlapping
    congr 1
    funext m
    by_cases hm : m = n
    · simp [hm]
    · rw [State.node?_setNode_ne s f hm]
  unfold State.enableFault
  simp only [same]

theorem State.enableNode_refused {d : Word} (fault : s.enableFault n e = some d) :
    s.enableNode n e = s.raise .hBudget n d := by
  simp only [State.enableNode, fault]

theorem State.enableNode_taken (passed : s.enableFault n e = none) :
    s.enableNode n e = (s.setNode n { e with state := .offline, missCount := 0 }).joinChangeSet n := by
  simp only [State.enableNode, passed]

theorem sliceBeyond_eq_false {off : BitVec 10} {len : BitVec 7} (fits : off.toNat + len.toNat ≤ 1024) :
    sliceBeyond off len = false := by
  rw [← Bool.not_eq_true, sliceBeyond_iff, not_lt]
  exact fits

/-- Node m is enabled, is not node n, and has a slice that shares a byte with one given (R52). -/
def State.Clashes (s : State) (n : NodeAddr) (off : BitVec 10) (len : BitVec 7) (slice : NodeEntry → BitVec 10 × BitVec 7)
    (m : NodeAddr) : Prop :=
  m ≠ n ∧ ∃ f, s.node? m = some f ∧ f.state ≠ .disabled ∧ ∃ a, inSlice off len a ∧ inSlice (slice f).1 (slice f).2 a

variable {off : BitVec 10} {len : BitVec 7} {slice : NodeEntry → BitVec 10 × BitVec 7}

theorem State.overlapping_eq_none (free : ∀ m, ¬ s.Clashes n off len slice m) :
    (s.overlapping n fun m => slicesOverlap off len (slice m).1 (slice m).2) = none := by
  rw [State.overlapping_none]
  intro m f hm hf enabled
  rw [← Bool.not_eq_true, slicesOverlap_iff]
  exact fun shared => free m ⟨hm, f, hf, NodeState.isEnabled_iff.1 enabled, shared⟩

theorem State.overlapping_eq_some {m : NodeAddr} (clash : s.Clashes n off len slice m)
    (lowest : ∀ j, j.toNat < m.toNat → ¬ s.Clashes n off len slice j) :
    (s.overlapping n fun m => slicesOverlap off len (slice m).1 (slice m).2) = some m := by
  obtain ⟨hm, f, hf, enabled, shared⟩ := clash
  refine State.overlapping_some f hm hf (NodeState.isEnabled_iff.2 enabled) (slicesOverlap_iff.2 shared) ?_
  intro j g below hj hg enabled
  rw [← Bool.not_eq_true, slicesOverlap_iff]
  exact fun shared => lowest j below ⟨hj, g, hg, NodeState.isEnabled_iff.1 enabled, shared⟩

end

/-- The detail of an overlap, by the lowest node (R158). -/
theorem budgetDetail_overlap (m : NodeAddr) : budgetDetail 2 false m = 0x0200#16 ||| m.setWidth 16
    ∧ budgetDetail 2 true m = 0x0280#16 ||| m.setWidth 16 := by
  revert m; decide

/-- An enable request is an NCFG write with enable 1: on a DISABLED node it stores the limit and the credit, and makes the
checks on the entry they leave (R51, R52). -/
theorem exec_enableRequest {s : State} {e : NodeEntry} (ready : s.Ready) (h : s.node? s.nodes.nsel = some e)
    (disabled : e.state = .disabled) (v : Word) : exec (.enableRequest v) s = .next
      ((s.setNode s.nodes.nsel (e.configured v)).enableNode s.nodes.nsel (e.configured v)).written := by
  have enables : (v ||| 0x0001#16).getLsbD 0 = true := by simp
  have found : (s.setNode s.nodes.nsel (e.configured v)).node? s.nodes.nsel = some (e.configured v) :=
    State.node?_setNode _ _ (State.node?_ne_zero h)
  refine (exec_nodeConfigWrite ready h _).trans ?_
  rw [State.writeNcfg_eq h, State.takeLimits_congr _ _ _ (extractLsb'_enableSet v), enables, s.takeLimits_disabled disabled,
    State.takeEnable_enable found disabled]

/-- Settles O15: the checks of the enable request in their order, each by the slices it compares. -/
theorem enableRequests : Obligations.EnableRequests := by
  unfold Obligations.EnableRequests
  intro s v e ready h disabled n limit c credit e' outFits inFits outClash inClash refused
  have exec_eq := exec_enableRequest ready h disabled v
  have fault_eq : (s.setNode n (e.configured v)).enableFault n (e.configured v) = s.enableFault n e :=
    State.enableFault_setNode _
  have refuse : ∀ d, s.enableFault n e = some d → refused d := by
    intro d fault
    refine exec_eq.trans ?_
    rw [State.enableNode_refused (fault_eq.trans fault)]
    rfl
  have outFree := State.overlapping_eq_none (s := s) (n := n) (off := e.outOff) (len := e.outLen)
    (slice := fun f => (f.outOff, f.outLen))
  have inFree := State.overlapping_eq_none (s := s) (n := n) (off := e.inOff) (len := e.inLen)
    (slice := fun f => (f.inOff, f.inLen))
  refine ⟨fun out inp free => ?_, fun beyond => ?_, fun m out clash lowest => ?_, fun out free beyond => ?_,
    fun m out free inp clash lowest => ?_⟩
  · have passed : s.enableFault n e = none := by
      simp only [State.enableFault, sliceBeyond_eq_false out, sliceBeyond_eq_false inp, outFree fun m => (free m).1,
        inFree fun m => (free m).2, Bool.false_eq_true, if_false]
    rw [exec_eq, State.enableNode_taken (fault_eq.trans passed), State.setNode_setNode]
    rfl
  · refine refuse _ ?_
    rw [State.enableFault, if_pos (sliceBeyond_iff.2 (not_le.1 beyond))]
    rfl
  · refine refuse _ ?_
    have found := State.overlapping_eq_some (slice := fun f => (f.outOff, f.outLen)) clash lowest
    simp only [State.enableFault, sliceBeyond_eq_false out, found, Bool.false_eq_true, if_false, budgetDetail_overlap]
  · refine refuse _ ?_
    simp only [State.enableFault, sliceBeyond_eq_false out, outFree free, sliceBeyond_iff.2 (not_le.1 beyond),
      Bool.false_eq_true, if_false, if_true]
    rfl
  · refine refuse _ ?_
    have found := State.overlapping_eq_some (slice := fun f => (f.inOff, f.inLen)) clash lowest
    simp only [State.enableFault, sliceBeyond_eq_false out, sliceBeyond_eq_false inp, outFree free, found,
      Bool.false_eq_true, if_false, budgetDetail_overlap]

/-! ### Slice fields -/

section
variable {s : State} {e : NodeEntry} (h : s.node? s.nodes.nsel = some e)
include h

/-- The slice offsets of an enabled node are locked (R54). -/
theorem State.writeSliceOffset_locked (enabled : e.state ≠ .disabled) (offset : Word) (f : NodeEntry → NodeEntry) :
    s.writeSliceOffset offset f = s.raise .hLocked s.nodes.nsel offset := by
  simp only [State.writeSliceOffset, State.selected, h, NodeState.isEnabled_iff.2 enabled, if_true]

theorem State.writeSliceOffset_disabled (disabled : e.state = .disabled) (offset : Word) (f : NodeEntry → NodeEntry) :
    s.writeSliceOffset offset f = s.setNode s.nodes.nsel (f e) := by
  simp only [State.writeSliceOffset, State.selected, h, disabled, NodeState.isEnabled, Bool.false_eq_true, if_false]

theorem State.writeNlen_locked (enabled : e.state ≠ .disabled) (v : Word) :
    s.writeNlen v = s.raise .hLocked s.nodes.nsel 0x1E := by
  simp only [State.writeNlen, State.selected, h, NodeState.isEnabled_iff.2 enabled, if_true]

variable (disabled : e.state = .disabled) {v : Word}
include disabled

/-- A length above 64 is refused with the direction, OUTPUT before INPUT (R54, R158). -/
theorem State.writeNlen_long (long : 64 < (v.extractLsb' 0 7).toNat ∨ 64 < (v.extractLsb' 8 7).toNat) :
    s.writeNlen v
      = s.raise .hBudget s.nodes.nsel (budgetDetail 3 (decide ((v.extractLsb' 0 7).toNat ≤ 64)) 0) := by
  simp only [State.writeNlen, State.selected, h, disabled, NodeState.isEnabled, Bool.false_eq_true, if_false, long, if_true]

/-- Outside STOPPED the budget check comes last (R40, R54). -/
theorem State.writeNlen_checked (out : (v.extractLsb' 0 7).toNat ≤ 64) (inp : (v.extractLsb' 8 7).toNat ≤ 64) :
    s.writeNlen v = if s.run.state ≠ .stopped
        ∧ s.budgetPasses s.nodes.nsel (v.extractLsb' 0 7).toNat (v.extractLsb' 8 7).toNat = false then
      s.raise .hBudget s.nodes.nsel (budgetDetail 4 false 0)
    else s.setNode s.nodes.nsel { e with outLen := v.extractLsb' 0 7, inLen := v.extractLsb' 8 7 } := by
  simp only [State.writeNlen, State.selected, h, disabled, NodeState.isEnabled, Bool.false_eq_true, if_false,
    not_or.2 ⟨not_lt.2 out, not_lt.2 inp⟩]

end

/-- Settles O16: an enabled node refuses each of the three, and for a DISABLED one the checks of NLEN come in order. -/
theorem sliceFieldWrites : Obligations.SliceFieldWrites := by
  unfold Obligations.SliceFieldWrites
  intro s v e ready h n o i
  refine ⟨fun enabled => ⟨?_, ?_, ?_⟩, fun disabled => ⟨?_, ?_, fun long => ?_, fun out long => ?_,
    fun out inp runs fails => ?_, fun out inp passes => ?_⟩⟩
  · rw [exec_noutoffWrite ready h, State.writeSliceOffset_locked h enabled]
    rfl
  · rw [exec_ninoffWrite ready h, State.writeSliceOffset_locked h enabled]
    rfl
  · rw [exec_nlenWrite ready h, State.writeNlen_locked h enabled]
    rfl
  · rw [exec_noutoffWrite ready h, State.writeSliceOffset_disabled h disabled]
  · rw [exec_ninoffWrite ready h, State.writeSliceOffset_disabled h disabled]
  · rw [exec_nlenWrite ready h, State.writeNlen_long h disabled (.inl long), decide_eq_false (not_le.2 long)]
    rfl
  · rw [exec_nlenWrite ready h, State.writeNlen_long h disabled (.inr long), decide_eq_true out]
    rfl
  · rw [exec_nlenWrite ready h, State.writeNlen_checked h disabled out inp, if_pos ⟨runs, fails⟩]
    rfl
  · rw [exec_nlenWrite ready h, State.writeNlen_checked h disabled out inp, if_neg]
    rintro ⟨runs, fails⟩
    exact passes.elim runs fun passes => Bool.false_ne_true (fails.symm.trans passes)

/-! ### Counts and the change set -/

/-- The members that CHG0 or CHG1 leaves (R68). -/
theorem Half.getLsbD_removed (half : Half) (v : Word) (set : NodeSet) {k : Nat} (hk : k < 32) :
    (set &&& ~~~(half.spread v)).getLsbD k = true ↔ set.getLsbD k = true ∧
      ¬ (match half with
        | .reg0 => k < 16 ∧ v.getLsbD k = true
        | .reg1 => 16 ≤ k ∧ v.getLsbD (k - 16) = true) := by
  cases half with
  | reg0 =>
    by_cases low : k < 16
    · simp [Half.spread, hk, low]
    · simp [Half.spread, hk, low, BitVec.getLsbD_of_ge v k (by omega)]
  | reg1 =>
    by_cases low : k < 16
    · simp [Half.spread, hk, low]
    · simp [Half.spread, hk, low, not_lt.1 low]

/-- Settles O18: NCNT at the selected entry, and the change set bit by bit. -/
theorem countsAndChangeSetCleared : Obligations.CountsAndChangeSetCleared := by
  unfold Obligations.CountsAndChangeSetCleared
  refine fun s v ready => ⟨fun e h => ?_, fun half => ?_⟩
  · rw [exec_ncntWrite ready h]
    simp only [State.writeNcnt, State.selected, h]
  · exact ⟨_, s.hostWrite_ready (.chg half) v ready, rfl, fun k hk => Half.getLsbD_removed half v _ hk⟩

end Sys2Proof.Machine
end

section
/-! PROOFS. Writes that reach no register, and run commands that are none (R50, R140, R165, R175). -/

namespace Sys2Proof.Machine

open Sys2Proof

/-- A refused access is reported with its offset (R158). -/
theorem State.refuseAccess_toNat (s : State) (o : BitVec 8) :
    s.refuseAccess o.toNat = s.reported .hAccess 0 (o.setWidth 16) := by
  rw [State.refuseAccess, BitVec.ofNat_toNat]
  rfl

/-- The offset of an even address is the one presented (R172). -/
theorem evenOffset {o : BitVec 8} (even : o.getLsbD 0 = false) : o.toNat - o.toNat % 2 = o.toNat := by
  have : o.toNat % 2 = 0 := by simpa [BitVec.getLsbD, Nat.testBit_zero] using even
  omega

/-- The even offsets that hold a write register (section 10.1). -/
abbrev HoldsWriteRegister (o : BitVec 8) : Prop :=
  0x02 ≤ o.toNat ∧ o.toNat ≤ 0x08 ∨ 0x0C ≤ o.toNat ∧ o.toNat ≤ 0x1E ∨ o = 0x22 ∨ o = 0x2A ∨ o = 0x2C ∨ o = 0x32
    ∨ 0x36 ≤ o.toNat ∧ o.toNat ≤ 0x5C ∨ 0x88 ≤ o.toNat ∧ o.toNat ≤ 0x92

theorem WriteReg.holds_offset {o : BitVec 8} (r : WriteReg) (h : r.offset = o.toNat) : HoldsWriteRegister o := by
  simp only [HoldsWriteRegister, ← BitVec.toNat_inj, ← h]
  cases r with
  | cdata k =>
    have := k.isLt
    simp only [WriteReg.offset]
    omega
  | node n => cases n <;> simp [WriteReg.offset]
  | chg half => cases half <;> simp [WriteReg.offset]
  | fflag half => cases half <;> simp [WriteReg.offset]
  | _ => simp [WriteReg.offset]

/-- A word write to a read-only or unassigned even offset (R165). -/
theorem exec_registerWrite_unmapped {s : State} (ready : s.Ready) (v : Word) {o : BitVec 8} (even : o.getLsbD 0 = false)
    (unmapped : ¬ HoldsWriteRegister o) :
    exec (.registerWrite o v) s = .next (s.reported .hAccess 0 (o.setWidth 16)).written := by
  have none : writeRegAt o.toNat = none := by
    simpa [writeRegAt] using fun r _ is => unmapped (WriteReg.holds_offset r is)
  refine congrArg Host.Outcome.next ((s.present_writeAt o v ready).trans ?_)
  rw [evenOffset even, State.writeOffset, none]
  exact congrArg State.written (s.refuseAccess_toNat o)

/-- A word write to a node register while NSEL holds 0 (R50). -/
theorem exec_registerWrite_unselected {s : State} (ready : s.Ready) (unselected : s.nodes.nsel = 0) (r : NodeWriteReg)
    (v : Word) : exec (.registerWrite (BitVec.ofNat 8 (WriteReg.node r).offset) v) s
      = .next (s.refuseAccess (WriteReg.node r).offset).written := by
  have refused : s.writeNode r v = s.refuseAccess (WriteReg.node r).offset := if_pos unselected
  exact (exec_registerWrite ready (.node r) v).trans (congrArg (fun t : State => Host.Outcome.next t.written) refused)

/-- A word written to RCMD that is no run command (R140). -/
theorem State.writeRcmd_none {v : Word} (h : v = 0 ∨ 5 < v.toNat) (s : State) : s.writeRcmd v = s.raise .hAccess 0 v := by
  have other : ∀ k, 1 ≤ k → k ≤ 5 → v.toNat ≠ k := by
    intro k low high is
    rcases h with rfl | h
    · exact absurd is (by simp; omega)
    · omega
  unfold State.writeRcmd
  split
  · next is => exact absurd is (other 1 (by omega) (by omega))
  · next is => exact absurd is (other 2 (by omega) (by omega))
  · next is => exact absurd is (other 3 (by omega) (by omega))
  · next is => exact absurd is (other 4 (by omega) (by omega))
  · next is => exact absurd is (other 5 (by omega) (by omega))
  · rfl

/-- Settles O38: offsets without a write register, node registers with NSEL 0, byte writes, and words that are no run
command. -/
theorem writesThatReachNothing : Obligations.WritesThatReachNothing := by
  unfold Obligations.WritesThatReachNothing
  intro s v ready
  refine ⟨fun o => exec_registerWrite_unmapped ready v, fun unselected o member => ?_, fun o high even => ?_, fun h => ?_⟩
  · have readOnly : ∀ o : BitVec 8, o ∈ [0x20, 0x24, 0x26, 0x28] →
        exec (.registerWrite o v) s = .next (s.reported .hAccess 0 (o.setWidth 16)).written := by
      intro o member
      have unmapped : o.getLsbD 0 = false ∧ ¬ HoldsWriteRegister o := by revert o; decide
      exact exec_registerWrite_unmapped ready v unmapped.1 unmapped.2
    have refused := exec_registerWrite_unselected ready unselected (v := v)
    simp only [List.mem_cons, List.not_mem_nil, or_false] at member
    rcases member with rfl | rfl | rfl | rfl | rfl | rfl | rfl | rfl | rfl
    · exact refused .ncfg
    · exact refused .noutoff
    · exact refused .ninoff
    · exact refused .nlen
    · exact readOnly _ (by simp)
    · exact refused .ncnt
    · exact readOnly _ (by simp)
    · exact readOnly _ (by simp)
    · exact readOnly _ (by simp)
  · refine congrArg Host.Outcome.next ((s.present_byteWrite o v _ ready ?_).trans ?_)
    · cases high <;> simp
    · rw [evenOffset even, State.refuseAccess_toNat]
  · refine (exec_registerWrite ready .rcmd v).trans ?_
    rw [State.writeRegister, State.writeRcmd_none h]
    rfl

end Sys2Proof.Machine
end

section
/-! PROOFS. Window outcomes and LATE notices at the node table (R57 to R65). -/

namespace Sys2Proof.Machine

open Sys2Proof

/-! ### An entry stored behind other changes -/

theorem State.joinChangeSet_setNode (s : State) (n m : NodeAddr) (e : NodeEntry) :
    (s.joinChangeSet m).setNode n e = (s.setNode n e).joinChangeSet m := by
  unfold State.setNode
  split <;> rfl

/-- Several events handed in one step, in their order. -/
def State.handAll (s : State) (l : List Instr) : State := { s with due := s.due ++ l }

theorem State.node?_handAll (s : State) (l : List Instr) (n : NodeAddr) : (s.handAll l).node? n = s.node? n :=
  State.node?_congr rfl n

theorem State.handAll_setNode (s : State) (n : NodeAddr) (e : NodeEntry) (l : List Instr) :
    (s.handAll l).setNode n e = (s.setNode n e).handAll l := by
  unfold State.setNode
  split <;> rfl

theorem State.hand_hand (s : State) (a b : Instr) : (s.hand a).hand b = s.handAll [a, b] := by
  simp [State.hand, State.handAll]

theorem State.handAll_reported (s : State) (l : List Instr) (code : FaultCode) (n : NodeAddr) (d : Word) :
    (s.handAll l).reported code n d = s.handAll (l ++ [.faultReport ⟨code, n, d⟩]) := by
  simp [State.reported, State.handAll]

/-! ### Outcomes by kind and verdict -/

/-- Every verdict but an IDENT fits a window that is no PROBE window (R57). -/
theorem WindowKind.admits_reply {kind : WindowKind} (reply : kind ≠ .probe) {v : Verdict} (plain : ∀ r, v ≠ .ident r) :
    kind.admits v = true := by
  cases v with
  | ident r => exact absurd rfl (plain r)
  | _ => cases kind with
    | probe => exact absurd rfl reply
    | _ => rfl

theorem exec_nodeOutcome {s : State} (ready : s.inReset = false) {n : NodeAddr} (hn : n ≠ 0) {kind : WindowKind}
    (k : SlotIndex) {v : Verdict} (fits : kind.admits v = true) : exec (.nodeOutcome n kind k v) s
      = .next ((s.takeDue (.nodeOutcome n kind k v)).takeOutcome n kind k v) := by
  have fits : (Instr.nodeOutcome n kind k v).wellFormed = true := by simpa [Instr.wellFormed, fits] using hn
  exact (if_pos fits).trans (congrArg Host.Outcome.next (State.event_ready s _ _ ready))

theorem exec_lateNotice {s : State} (ready : s.inReset = false) {n : NodeAddr} (hn : n ≠ 0) (k : SlotIndex) :
    exec (.lateNotice n k) s = .next ((s.takeDue (.lateNotice n k)).takeLate n k) := by
  have fits : (Instr.lateNotice n k).wellFormed = true := by simpa [Instr.wellFormed] using hn
  exact (if_pos fits).trans (congrArg Host.Outcome.next (State.event_ready s _ _ ready))

theorem saturate_eq (c : Byte) : saturate c = if c = 0xFF then 0xFF else c + 1 := by
  unfold saturate
  by_cases full : c = 0xFF#8
  · exact (if_pos full).trans (full.trans (if_pos full).symm)
  · exact (if_neg full).trans (if_neg full).symm

section
variable {s : State} {n : NodeAddr} {e : NodeEntry} (h : s.node? n = some e) (k : SlotIndex)
include h

theorem State.takeOutcome_disabled (disabled : e.state = .disabled) (kind : WindowKind) (v : Verdict) :
    s.takeOutcome n kind k v = s := by
  simp only [State.takeOutcome, h, disabled, if_true]

/-- A PROBE window that closes silent, and one with a reply that is no IDENT, count nothing (R58). -/
theorem State.takeOutcome_probe_silent : s.takeOutcome n .probe k .silent = s := by
  simp only [State.takeOutcome, h]
  split <;> rfl

theorem State.countBad_eq (c : BadCause) : s.countBad n k c
    = (s.setNode n { e with badCount := if e.badCount = 0xFF then 0xFF else e.badCount + 1 }).reported .nBad n
        (place k 0 ||| BitVec.ofNat 16 (badNumber c) <<< 8) := by
  simp only [State.countBad, h, saturate_eq]
  rfl

theorem State.takeLate_disabled (disabled : e.state = .disabled) : s.takeLate n k = s := by
  simp only [State.takeLate, h, disabled, if_true]

theorem State.takeLate_enabled (enabled : e.state ≠ .disabled) : s.takeLate n k
    = (s.setNode n { e with lateCount := if e.lateCount = 0xFF then 0xFF else e.lateCount + 1 }).reported .nLate n
        (place k 0) := by
  simp only [State.takeLate, h, enabled, if_false, saturate_eq]
  rfl

variable (enabled : e.state ≠ .disabled)
include enabled

theorem State.takeOutcome_ident (kind : WindowKind) (r : IdentRecord) :
    s.takeOutcome n kind k (.ident r) = s.identReceived n e r := by
  simp only [State.takeOutcome, h, enabled, if_false]

theorem State.takeOutcome_probe_bad (c : BadCause) : s.takeOutcome n .probe k (.bad c) = s.countBad n k c := by
  simp only [State.takeOutcome, h, enabled, if_false]

variable {kind : WindowKind} (reply : kind ≠ .probe)
include reply

/-- In a window that is no PROBE window GOOD is a reply (R57, R60). -/
theorem State.takeOutcome_good : s.takeOutcome n kind k .good = s.goodReply n e := by
  cases kind with
  | probe => exact absurd rfl reply
  | _ => simp only [State.takeOutcome, h, enabled, if_false]

/-- In a window that is no PROBE window NONE is a miss (R57, R61). -/
theorem State.takeOutcome_silent : s.takeOutcome n kind k .silent = s.miss n e k := by
  cases kind with
  | probe => exact absurd rfl reply
  | _ => simp only [State.takeOutcome, h, enabled, if_false]

/-- In a window that is no PROBE window BAD is a miss, and counted (R57, R61, R64). -/
theorem State.takeOutcome_bad (c : BadCause) : s.takeOutcome n kind k (.bad c) = (s.miss n e k).countBad n k c := by
  cases kind with
  | probe => exact absurd rfl reply
  | _ => simp only [State.takeOutcome, h, enabled, if_false]

end

/-! ### Replies and misses by the state of the node -/

section
variable {s : State} {n : NodeAddr} {e : NodeEntry}

theorem State.goodReply_online (online : e.state = .online) : s.goodReply n e = s.setNode n { e with missCount := 0 } := by
  simp only [State.goodReply, online]

theorem State.goodReply_lagging (lagging : e.state = .lagging) :
    s.goodReply n e = (s.setNode n { e with state := .online, missCount := 0 }).joinChangeSet n := by
  simp only [State.goodReply, lagging]

variable (k : SlotIndex)

/-- A reply or a miss counts for a live node only (R63). -/
theorem State.reply_ignored (dead : e.state = .offline ∨ e.state = .mismatch) :
    s.goodReply n e = s ∧ s.miss n e k = s := by
  rcases dead with dead | dead <;> simp [State.goodReply, State.miss, dead, NodeState.isLive]

theorem State.miss_online (online : e.state = .online) (below : e.missCount.toNat + 1 < e.missLimit.toNat) :
    s.miss n e k = (s.setNode n { e with state := .lagging, missCount := e.missCount + 1 }).joinChangeSet n := by
  simp [State.miss, online, NodeState.isLive, not_le.2 below]

theorem State.miss_lagging (lagging : e.state = .lagging) (below : e.missCount.toNat + 1 < e.missLimit.toNat) :
    s.miss n e k = s.setNode n { e with missCount := e.missCount + 1 } := by
  simp [State.miss, lagging, NodeState.isLive, not_le.2 below]

/-- The miss that reaches the limit: N_LOST and the node-down notice are handed (R61, R62). -/
theorem State.miss_limit (live : e.state = .online ∨ e.state = .lagging)
    (reached : e.missLimit.toNat ≤ e.missCount.toNat + 1) : s.miss n e k
      = ((s.setNode n { e with state := .offline, missCount := 0 }).joinChangeSet n).handAll
          [.faultReport ⟨.nLost, n, place k 0 ||| place e.missLimit 8⟩, .nodeDownNotice n] := by
  have live : e.state.isLive = true := by rcases live with live | live <;> simp [live, NodeState.isLive]
  simp only [State.miss, live, Bool.not_true, Bool.false_eq_true, if_false, reached, if_true]
  exact State.hand_hand (State.joinChangeSet _ n) _ _

end

/-! ### IDENT replies -/

section
variable {s : State} {n : NodeAddr} {e : NodeEntry} {r : IdentRecord}

theorem NodeEntry.identMatches_iff :
    e.identMatches r = true ↔ r.outSize.toNat = e.outLen.toNat ∧ r.inSize.toNat = e.inLen.toNat := by
  simp [NodeEntry.identMatches]

theorem State.identReceived_ignored (other : e.state ≠ .offline) : s.identReceived n e r = s := if_pos other

theorem State.identReceived_matches (offline : e.state = .offline) (out : r.outSize.toNat = e.outLen.toNat)
    (inp : r.inSize.toNat = e.inLen.toNat) : s.identReceived n e r
      = (s.setNode n { e with state := .online, missCount := 0, ident := some r }).joinChangeSet n := by
  simp [State.identReceived, offline, NodeEntry.identMatches_iff.2 ⟨out, inp⟩]

theorem State.identReceived_differs (offline : e.state = .offline)
    (differs : r.outSize.toNat ≠ e.outLen.toNat ∨ r.inSize.toNat ≠ e.inLen.toNat) : s.identReceived n e r
      = ((s.setNode n { e with state := .mismatch, missCount := 0, ident := some r }).joinChangeSet n).reported .nMismatch n
          (place r.outSize 0 ||| place r.inSize 8) := by
  have differs : ¬ e.identMatches r = true := by
    rw [NodeEntry.identMatches_iff, not_and_or]
    exact differs
  simp only [State.identReceived, offline, ne_eq, not_true_eq_false, if_false, differs]
  rfl

end

/-- Settles O49: the outcome by the window's kind and the verdict, then the reply, the miss or the IDENT by the state of
the node. -/
theorem nodeOutcomesTaken : Obligations.NodeOutcomesTaken := by
  unfold Obligations.NodeOutcomesTaken
  intro s n k e ready hn h base reply
  have found (c : Instr) : (s.takeDue c).node? n = some e := (s.node?_takeDue c n).trans h
  have taken {kind : WindowKind} (window : reply kind) {v : Verdict} (plain : ∀ r, v ≠ .ident r) :=
    exec_nodeOutcome ready hn k (WindowKind.admits_reply window plain)
  have probed {v : Verdict} (fits : WindowKind.probe.admits v = true) := exec_nodeOutcome ready hn k fits
  have online (h : e.state = .online) : e.state ≠ .disabled := by simp [h]
  have lagging (h : e.state = .lagging) : e.state ≠ .disabled := by simp [h]
  have live (h : e.state = .online ∨ e.state = .lagging) : e.state ≠ .disabled := h.elim online lagging
  have dead (h : e.state = .offline ∨ e.state = .mismatch) : e.state ≠ .disabled := by rcases h with h | h <;> simp [h]
  refine ⟨?disabled, ?goodLagging, ?goodOnline, ?missOnline, ?missLagging, ?missLimit, ?badLagging, ?badOnline, ?badLimit,
    ?badDead, ?identOther, ?probeSilent, ?probeBad, ?identMatches, ?identDiffers, ?ignored, ?lateDisabled, ?late⟩
  case disabled =>
    intro kind v disabled fits
    rw [exec_nodeOutcome ready hn k fits, State.takeOutcome_disabled (found _) k disabled]
    rfl
  case goodLagging =>
    intro kind window st
    rw [taken window (by simp), State.takeOutcome_good (found _) k (lagging st) window, State.goodReply_lagging st]
    rfl
  case goodOnline =>
    intro kind window st
    rw [taken window (by simp), State.takeOutcome_good (found _) k (online st) window, State.goodReply_online st]
    rfl
  case missOnline =>
    intro kind window st below
    rw [taken window (by simp), State.takeOutcome_silent (found _) k (online st) window, State.miss_online k st below]
    rfl
  case missLagging =>
    intro kind window st below
    rw [taken window (by simp), State.takeOutcome_silent (found _) k (lagging st) window, State.miss_lagging k st below]
    rfl
  case missLimit =>
    intro kind window st reached
    rw [taken window (by simp), State.takeOutcome_silent (found _) k (live st) window, State.miss_limit k st reached,
      State.setNode_eq hn, State.setNode_eq hn]
    rfl
  case badLagging =>
    intro kind c window st below
    rw [taken window (by simp), State.takeOutcome_bad (found _) k (lagging st) window, State.miss_lagging k st below,
      State.countBad_eq (State.node?_setNode _ _ hn), State.setNode_setNode]
    rfl
  case badOnline =>
    intro kind c window st below
    rw [taken window (by simp), State.takeOutcome_bad (found _) k (online st) window, State.miss_online k st below,
      State.countBad_eq ((State.node?_joinChangeSet _ n n).trans (State.node?_setNode _ _ hn)),
      State.joinChangeSet_setNode, State.setNode_setNode]
    rfl
  case badLimit =>
    intro kind c window st reached
    have stored : ∀ u : State, ∀ f l, (((u.setNode n f).joinChangeSet n).handAll l).node? n = some f := by
      intro u f l
      rw [State.node?_handAll, State.node?_joinChangeSet, State.node?_setNode u f hn]
    rw [taken window (by simp), State.takeOutcome_bad (found _) k (live st) window, State.miss_limit k st reached,
      State.countBad_eq (stored ..), State.handAll_setNode, State.joinChangeSet_setNode, State.setNode_setNode,
      State.handAll_reported, State.setNode_eq hn, State.setNode_eq hn]
    rfl
  case badDead =>
    intro kind c window st
    rw [taken window (by simp), State.takeOutcome_bad (found _) k (dead st) window, (State.reply_ignored k st).2,
      State.countBad_eq (found _)]
    rfl
  case identOther =>
    intro r other
    rw [probed rfl]
    by_cases disabled : e.state = .disabled
    · rw [State.takeOutcome_disabled (found _) k disabled]
      rfl
    · rw [State.takeOutcome_ident (found _) k disabled, State.identReceived_ignored other]
      rfl
  case probeSilent =>
    rw [probed rfl, State.takeOutcome_probe_silent (found _)]
    rfl
  case probeBad =>
    intro c enabled
    rw [probed rfl, State.takeOutcome_probe_bad (found _) k enabled, State.countBad_eq (found _)]
    rfl
  case identMatches =>
    intro r offline out inp
    rw [probed rfl, State.takeOutcome_ident (found _) k (dead (.inl offline)),
      State.identReceived_matches offline out inp]
    rfl
  case identDiffers =>
    intro r offline differs
    rw [probed rfl, State.takeOutcome_ident (found _) k (dead (.inl offline)),
      State.identReceived_differs offline differs]
    rfl
  case ignored =>
    intro kind v window st plain
    obtain ⟨good, missed⟩ := State.reply_ignored (s := s.takeDue (.nodeOutcome n kind k v)) (n := n) k st
    rcases plain with rfl | rfl
    · rw [taken window (by simp), State.takeOutcome_good (found _) k (dead st) window, good]
      rfl
    · rw [taken window (by simp), State.takeOutcome_silent (found _) k (dead st) window, missed]
      rfl
  case lateDisabled =>
    intro disabled
    rw [exec_lateNotice ready hn, State.takeLate_disabled (found _) k disabled]
    rfl
  case late =>
    intro enabled
    rw [exec_lateNotice ready hn, State.takeLate_enabled (found _) k enabled]
    rfl

end Sys2Proof.Machine
end

section
/-! PROOFS. The controller reset block by block (R4, R69, R75, R119, R137, R152, R170). -/

namespace Sys2Proof.Machine

open Sys2Proof

/-! ### The node table -/

theorem NodeEntry.controllerReset_eq (e : NodeEntry) : e.controllerReset = { e with
    state := if e.state = .disabled then .disabled else .offline
    missCount := 0
    badCount := 0
    lateCount := 0
    ident := none
    serial := 0 } := by
  unfold NodeEntry.controllerReset
  cases e.state <;> rfl

theorem State.node?_controllerReset {s t : State} (reset : t.nodes = s.nodes.controllerReset) {n : NodeAddr} {e : NodeEntry}
    (h : s.node? n = some e) : t.node? n = some e.controllerReset := by
  have hn := State.node?_ne_zero h
  simp only [State.node?, hn, if_false, Option.some.injEq] at h ⊢
  simp [reset, NodeTable.controllerReset, ← h, Vector.get]

/-! ### The line and the image -/

/-- A frame and the level that stands on the line for it are those of the link engine and of the frame timer. -/
theorem State.transmitData_congr {s t : State} (link : t.link = s.link) (frame : t.timers.frame = s.timers.frame) :
    t.transmitData = s.transmitData := by
  simp only [State.transmitData, State.frameTimes, link, frame]

/-- The bit in progress stands on the line unchanged while the frame is being cut (R4). -/
theorem State.beginCut_transmitData {s : State} (send : s.link.state = .send) :
    s.beginCut.transmitData = s.transmitData := by
  simp only [State.transmitData, State.frameTimes, send, State.beginCut_link_state, State.beginCut_link_frame,
    State.beginCut_link_frameRate, State.beginCut_timers_frame]

/-- Cut, the link engine has no quiet wait, no reception and no window, unless a mark was begun before (R4, R13). -/
theorem State.cutLine_clears {s : State} (unmarked : s.marking = false) : s.cutLine.link.quietRunning = false
    ∧ s.cutLine.link.received = [] ∧ s.cutLine.timers.window = none ∧ s.cutLine.timers.window2 = none := by
  unfold State.cutLine State.startMark State.directOff
  rw [unmarked]
  split
  · split
    · exact ⟨rfl, rfl, rfl, rfl⟩
    · exact ⟨rfl, rfl, rfl, rfl⟩
  · exact ⟨rfl, rfl, rfl, rfl⟩

/-- Whether a pending publish is taken, and what it leaves of the image, is the image unit's matter alone (R75). -/
theorem State.takePendingPublish_image_congr {s u : State} (same : u.image = s.image) :
    u.takePendingPublish.image = s.takePendingPublish.image := by
  unfold State.takePendingPublish State.outputSwap
  rw [same]
  split
  · simp
  · exact same

/-- What a controller reset leaves outside the blocks' registers: the line cut, the cycle's timer off, the events that
outlive it, and a pending publish taken (R4, R75, R152). -/
theorem State.cmdCreset_rest (s : State) : s.cmdCreset.link = s.cutLine.link
    ∧ s.cmdCreset.timers = { s.cutLine.timers with segment := none } ∧ s.cmdCreset.due = s.due.filter outlivesCreset
    ∧ s.cmdCreset.image = s.takePendingPublish.image := by
  refine ⟨?_, ?_, ?_, State.takePendingPublish_image_congr ?_⟩ <;> simp [State.cmdCreset]

/-- Inside a bit, the bit goes on to its boundary, where the abort mark begins (R4). -/
theorem State.cmdCreset_inside {s : State} (send : s.link.state = .send) (whole : s.timers.cut = none)
    (left : s.restOfBit ≠ 0) : s.cmdCreset.link.state = .send ∧ s.cmdCreset.timers.cut = some s.restOfBit
      ∧ s.cmdCreset.transmitData = s.transmitData := by
  obtain ⟨link, timers, -, -⟩ := s.cmdCreset_rest
  rw [s.cutLine_send send whole, s.startMark_line.2 left] at link timers
  have same : s.cmdCreset.transmitData = s.beginCut.transmitData := State.transmitData_congr link (by rw [timers])
  exact ⟨by rw [link, State.beginCut_link_state], by rw [timers, State.beginCut_timers_cut],
    same.trans (State.beginCut_transmitData send)⟩

/-- On a bit boundary the abort mark begins in the event itself (R4, log entry 6). -/
theorem State.cmdCreset_boundary {s : State} (send : s.link.state = .send) (whole : s.timers.cut = none)
    (left : s.restOfBit = 0) : s.cmdCreset.link.state = .mark
      ∧ s.cmdCreset.timers.mark = some (20 * Config.ticksPerBit s.link.frameRate) := by
  obtain ⟨link, timers, -, -⟩ := s.cmdCreset_rest
  rw [s.cutLine_send send whole, s.startMark_line.1 left] at link timers
  exact ⟨by rw [link, State.enterMark_link_state], by rw [timers, State.enterMark_timers_mark]; rfl⟩

/-- After a controller reset only CQLOW is pending: the queue is empty (R167, R170). -/
theorem State.cmdCreset_pendingSet (s : State) : s.cmdCreset.pendingSet = 0x0200#16 := by
  simp [State.pendingSet, State.levels, FaultUnit.reset, ResultUnit.reset, CmdEngine.controllerReset,
    NodeTable.controllerReset, placeBit, bit]

/-- Settles O10: the registers of each block, the line by what cuts it, and the image by the pending publish. -/
theorem controllerReset : Obligations.ControllerReset := by
  unfold Obligations.ControllerReset
  intro s ready
  obtain ⟨link, timers, due, image⟩ := s.cmdCreset_rest
  refine ⟨s.cmdCreset.written, s.hostWrite_ready .rcmd 5 ready, rfl, ?run, ?sched, ?cmd, ?result, ?fault, ?changeSet, ?nsel,
    ?entries, ?rate, ?window, ?sending, ?marking, ?off, ?unused, ?cleared, ?segment, s.cmdCreset_pendingSet, ?notices,
    ?reports, ?markEnd, ?kept, ?published⟩
  case entries =>
    intro n e h
    rw [← NodeEntry.controllerReset_eq]
    exact State.node?_controllerReset (by simp) h
  case sending =>
    exact fun send whole => ⟨State.cmdCreset_inside send whole, State.cmdCreset_boundary send whole⟩
  case marking =>
    intro marking
    rw [s.cutLine_marking marking] at link timers
    exact ⟨link, timers⟩
  case off =>
    intro send mark
    rw [s.cutLine_off send mark] at link
    exact congrArg Link.state link
  case unused => exact s.cutLine_line.of_same link (by simp [timers])
  case cleared =>
    intro unmarked
    obtain ⟨quiet, received, window, window2⟩ := State.cutLine_clears unmarked
    simp [link, timers, quiet, received, window, window2]
  case segment => exact congrArg Timers.segment timers
  case notices => simp [due, outlivesCreset]
  case reports => simp [due, outlivesCreset]
  case markEnd => simp [due, outlivesCreset]
  case kept =>
    intro none
    rw [s.takePendingPublish_kept none] at image
    exact image
  case published =>
    intro pending copying
    rw [s.takePendingPublish_taken pending copying] at image
    simp [image, State.outputSwap]
  all_goals simp [Sched.controllerReset, CmdEngine.controllerReset, ResultUnit.reset, RunControl.reset, FaultUnit.reset,
    NodeTable.controllerReset]

end Sys2Proof.Machine
end

section
/-! PROOFS. The banks that face away change only at swaps (R78, R80, R83). -/

namespace Sys2Proof.Machine

open Sys2Proof

/-! ### What an image unit keeps between swaps -/

/-- The output link bank is the same unless the output roles have been exchanged, and the input host bank, the host-side fresh
set and the snapshot cycle number unless the input roles have been (R78, R80, R83). -/
def Image.KeepsFacing (u v : Image) : Prop :=
  (v.outHost = u.outHost → v.outLinkBank = u.outLinkBank)
    ∧ (v.inHost = u.inHost → v.inHostBank = u.inHostBank ∧ v.hostFresh = u.hostFresh ∧ v.snapCycle = u.snapCycle)

/-- What the host's accesses keep of the image: the output roles are exchanged once at most, so that the output link bank is
the same if they are, and the input side is the same. Unlike `Image.KeepsFacing` it holds of one access after another. -/
def Image.Accessed (u v : Image) : Prop :=
  u.SwapsOnce v ∧ (v.outHost = u.outHost → v.outLinkBank = u.outLinkBank) ∧ v.inHostBank = u.inHostBank ∧ u.SameInputs v

theorem Image.Accessed.refl (u : Image) : u.Accessed u := ⟨.inl ⟨rfl, rfl⟩, fun _ => rfl, rfl, ⟨rfl, rfl, rfl⟩⟩

theorem Image.Accessed.trans {u v w : Image} (h : u.Accessed v) (h' : v.Accessed w) : u.Accessed w := by
  obtain ⟨once, link, host, roles, fresh, snap⟩ := h
  obtain ⟨once', link', host', roles', fresh', snap'⟩ := h'
  refine ⟨once.trans once', fun same => ?_, host'.trans host, roles'.trans roles, fresh'.trans fresh, snap'.trans snap⟩
  have still : v.outHost = u.outHost := by
    rcases once with ⟨kept, -⟩ | ⟨-, swapped, copying⟩
    · exact kept
    · rcases once' with ⟨kept, -⟩ | ⟨idle, -⟩
      · exact kept.symm.trans same
      · rw [copying] at idle; cases idle
  rw [link' (same.trans still.symm), link still]

theorem Image.Accessed.keepsFacing {u v : Image} (h : u.Accessed v) : u.KeepsFacing v :=
  ⟨h.2.1, fun _ => ⟨h.2.2.1, h.2.2.2.2.1, h.2.2.2.2.2⟩⟩

theorem Image.Kept.accessed {u v : Image} (h : u.Kept v) : u.Accessed v :=
  ⟨h.2.2, h.1.outLinkBank, h.1.inHostBank h.2.1.1, h.2.1⟩

theorem Image.Kept.keepsFacing {u v : Image} (h : u.Kept v) : u.KeepsFacing v := h.accessed.keepsFacing

/-! ### Accesses -/

theorem State.carryOut_accessed (s : State) (a : Access) : s.image.Accessed (s.carryOut a).1.image := by
  rcases s.carryOut_cases a with e | ⟨-, o, e⟩ | ⟨-, r, v, e⟩ | ⟨-, e⟩ | ⟨-, e⟩
  · rw [e]; exact .refl _
  · rw [e]; exact (Image.Kept.of_eq (by simp)).accessed
  · rw [e]; exact (s.writeRegister_image r v).accessed
  · rw [e]
    obtain ⟨-, link, host, ⟨roles, fresh, snap⟩, once⟩ := s.imageWrite_image a.lanes a.addr a.data
    exact ⟨once, fun _ => link, host, roles.symm, fresh.symm, snap.symm⟩
  · rw [e]; exact (Image.Kept.of_eq (by simp)).accessed

theorem State.takeWaiting_accessed (s : State) : s.image.Accessed s.takeWaiting.image :=
  State.takeWaiting_keeps (fun u => s.image.Accessed u.image) (fun _ _ h => h) (fun u a h => h.trans (u.carryOut_accessed a))
    (.refl _)

/-! ### The cycle end -/

/-- The input roles are exchanged, or nothing of the input side that the host sees has changed. -/
def Image.SwapsInputs (u v : Image) : Prop := v.inHost = (!u.inHost) ∨ u.SameInputs v

theorem Image.SwapsInputs.of_kept {u v w : Image} (h : u.SwapsInputs v) (k : v.Kept w) : u.SwapsInputs w := by
  obtain ⟨-, ⟨roles, fresh, snap⟩, -⟩ := k
  rcases h with swapped | ⟨roles', fresh', snap'⟩
  · exact .inl (roles.trans swapped)
  · exact .inr ⟨roles.trans roles', fresh.trans fresh', snap.trans snap'⟩

theorem Image.SameBanks.keepsFacing {u v : Image} (h : u.SameBanks v) (inputs : u.SwapsInputs v) : u.KeepsFacing v := by
  refine ⟨h.outLinkBank, fun same => ?_⟩
  rcases inputs with swapped | ⟨-, fresh, snap⟩
  · rw [same] at swapped
    exact absurd swapped (by simp)
  · exact ⟨h.inHostBank same, fresh, snap⟩

theorem State.cycleEndSwap_swapsInputs (s : State) : s.image.SwapsInputs s.cycleEndSwap.image := by
  unfold State.cycleEndSwap
  split
  · exact .inl rfl
  · exact .inr ⟨rfl, rfl, rfl⟩

theorem State.cycleEnd_swapsInputs (s : State) : s.image.SwapsInputs s.cycleEnd.image := by
  have swap : s.image.SwapsInputs s.schedIdle.cycleEndSwap.image := s.schedIdle.cycleEndSwap_swapsInputs
  unfold State.cycleEnd
  generalize s.schedIdle.cycleEndSwap = u at swap
  cases run : u.run.state with
  | running => simpa only [run] using swap.of_kept u.cycleStart_image
  | resuming => simpa only [run] using swap.of_kept (u.changeRun .running).cycleStart_image
  | draining =>
    have stopped : u.image.Kept u.directOff.enterStopped.image := by
      simpa using u.directOff.enterStopped_kept
    simpa only [run] using swap.of_kept stopped
  | _ => simpa [run] using swap

theorem State.slotEnd_swapsInputs (s : State) : s.image.SwapsInputs s.slotEnd.image := by
  have cut : s.cutSlot.dropLineTimers.image = s.image := by simp
  unfold State.slotEnd State.afterSlot
  split
  · split
    · rw [← cut]; exact .inr (State.slotStart_kept _ _).2.1
    · rw [← cut]; exact State.cycleEnd_swapsInputs _
  · exact .inr ⟨rfl, rfl, rfl⟩
  · exact .inr ⟨rfl, rfl, rfl⟩

/-! ### Replies stored and lines copied -/

theorem Image.linkStore_inHostBank (u : Image) (o : Nat) (bytes : List Byte) :
    (u.linkStore o bytes).inHostBank = u.inHostBank := by
  induction bytes generalizing u o with
  | nil => rfl
  | cons b rest ih =>
    unfold Image.linkStore
    dsimp only
    rw [ih]
    split
    · exact (u.setInLinkBank_banks _).2.1
    · exact (u.setInLinkBank_banks _).2.1

/-- A reply is stored in the input link bank, which faces the line (R79, R80). -/
theorem State.storeReply_keepsFacing (s : State) (n : NodeAddr) (bytes : List Byte) :
    s.image.KeepsFacing (s.storeReply n bytes).image := by
  unfold State.storeReply
  split
  · exact (Image.Kept.refl _).keepsFacing
  · next c _ =>
    refine ⟨fun _ => ?_, fun _ => ⟨s.image.linkStore_inHostBank c.inOff.toNat bytes, ?_, ?_⟩⟩
    · simp [Image.outLinkBank]
    · simp
    · simp

theorem State.copyLine_keepsFacing (s : State) : s.image.KeepsFacing s.copyLine.image := by
  unfold State.copyLine
  dsimp only
  split
  · exact (Image.Kept.refl _).keepsFacing
  · next k _ =>
    obtain ⟨-, link, host, -, fresh, snap⟩ := State.outputLine_image
      { s with image := { s.image with lineInProgress := none }, timers := { s.timers with lineCopy := none } } k
    exact ⟨link, fun _ => ⟨host, fresh, snap⟩⟩
  · next k _ =>
    obtain ⟨-, link, host, -, fresh, snap⟩ := State.inputLine_image
      { s with image := { s.image with lineInProgress := none }, timers := { s.timers with lineCopy := none } } k
    exact ⟨fun _ => link, fun _ => ⟨host, fresh, snap⟩⟩

theorem State.lineCopy_keepsFacing (s : State) : s.image.KeepsFacing s.lineCopy.image := by
  rcases s.lineCopy_cases with e | e | e
  · rw [e]; exact (Image.Kept.refl _).keepsFacing
  · rw [e]; exact s.copyLine_keepsFacing
  · rw [e]; exact s.copyLine_keepsFacing

/-! ### Every command -/

/-- Of the events those of the image unit, of the cycle and of the run reach the image, and each keeps what faces away. -/
theorem eventEffect_keepsFacing (c : Instr) (s : State) : s.image.KeepsFacing (eventEffect c s).image := by
  cases c with
  | waitingAccessTaken => exact s.takeWaiting_accessed.keepsFacing
  | slotEnd => exact s.slotEnd_image.keepsFacing s.slotEnd_swapsInputs
  | headSegmentEnd => exact s.headEnd_image.keepsFacing
  | lineQuiet => exact s.takeLineQuiet_image.keepsFacing
  | linkFault kind => exact (s.takeLinkFault_image kind).keepsFacing
  | replyStorage n bytes => exact s.storeReply_keepsFacing n bytes
  | lineCopy => exact s.lineCopy_keepsFacing
  | _ => exact (Image.Kept.of_eq (by simp [eventEffect])).keepsFacing

/-- Settles O60, by what a command can do and by what a tick does. -/
theorem facingBanksChangeOnlyAtSwaps : Obligations.FacingBanksChangeOnlyAtSwaps := by
  unfold Obligations.FacingBanksChangeOnlyAtSwaps
  refine ⟨fun c s t noReset next => ?_, fun s => ?_⟩
  · have untouched : ∀ u : State, u.image = s.image → s.image.KeepsFacing u.image :=
      fun u e => (Image.Kept.of_eq e).keepsFacing
    rcases exec_cases next with rfl | ⟨p, rfl, -⟩ | ⟨-, level, rfl⟩ | ⟨a, -, rfl⟩ | ⟨reset, -⟩ | ⟨-, rfl⟩ | ⟨-, rfl⟩
    · exact untouched _ rfl
    · exact untouched _ rfl
    · exact untouched _ rfl
    · exact (s.carryOut_accessed a).keepsFacing
    · exact absurd reset noReset
    · exact untouched _ rfl
    · exact eventEffect_keepsFacing c (s.takeDue c)
  · obtain ⟨l, line, link, timers, tick, -⟩ := s.tick_cases
    rw [tick]
    exact ⟨rfl, rfl, fun _ => rfl, fun _ => ⟨rfl, rfl, rfl⟩⟩

end Sys2Proof.Machine
end

section
/-! PROOFS. Writes to ICTL: the controls and the publish request (R72 to R74, R81, R85). -/

namespace Sys2Proof.Machine

open Sys2Proof

/-! ### The controls -/

/-- The state with PTEST and HOLD as an ICTL word leaves them (R72, R81, R85). -/
def State.withControls (s : State) (v : Word) : State :=
  s.setImage { s.image with
    ptest := v.getLsbD 6
    hold := if v.getLsbD 1 = v.getLsbD 2 then s.image.hold else v.getLsbD 1 }

/-- An ICTL write stores its controls, and requests a publish where PUBLISH is 1 (R72). -/
theorem State.writeIctl_eq (s : State) (v : Word) :
    s.writeIctl v = if v.getLsbD 0 then (s.withControls v).requestPublish else s.withControls v := by
  unfold State.writeIctl State.withControls
  cases v.getLsbD 1 <;> cases v.getLsbD 2 <;> rfl

/-- Only the three control fields of an ICTL word matter to the controls. -/
theorem State.withControls_congr {s : State} {v w : Word} (hold : w.getLsbD 1 = v.getLsbD 1) (clear : w.getLsbD 2 = v.getLsbD 2)
    (ptest : w.getLsbD 6 = v.getLsbD 6) : s.withControls w = s.withControls v := by
  unfold State.withControls
  rw [hold, clear, ptest]

theorem holdSet_bits (v : Word) : ((v ||| 0x0002#16) &&& 0xFFFB#16).getLsbD 0 = v.getLsbD 0
    ∧ ((v ||| 0x0002#16) &&& 0xFFFB#16).getLsbD 1 = true ∧ ((v ||| 0x0002#16) &&& 0xFFFB#16).getLsbD 2 = false
    ∧ ((v ||| 0x0002#16) &&& 0xFFFB#16).getLsbD 6 = v.getLsbD 6 := by
  simp

theorem holdClear_bits (v : Word) : ((v ||| 0x0004#16) &&& 0xFFFD#16).getLsbD 0 = v.getLsbD 0
    ∧ ((v ||| 0x0004#16) &&& 0xFFFD#16).getLsbD 1 = false ∧ ((v ||| 0x0004#16) &&& 0xFFFD#16).getLsbD 2 = true
    ∧ ((v ||| 0x0004#16) &&& 0xFFFD#16).getLsbD 6 = v.getLsbD 6 := by
  simp

/-- A write to ICTL without a publish request, by a port that is ready. -/
theorem State.hostWrite_ictl_controls {s : State} {v : Word} (ready : s.Ready) (request : v.getLsbD 0 = false) :
    s.hostWrite .ictl v = .next (s.withControls v).written := by
  rw [s.hostWrite_ready .ictl v ready]
  simp only [State.writeRegister, State.writeIctl_eq, request, Bool.false_eq_true, if_false]

/-- Settles O19, by the fields that each of the three words holds. -/
theorem ictlControls : Obligations.IctlControls := by
  unfold Obligations.IctlControls
  intro s v ready request
  obtain ⟨publish, set, clear, ptest⟩ := holdSet_bits v
  obtain ⟨publish', set', clear', ptest'⟩ := holdClear_bits v
  refine ⟨?_, ?_, ?_⟩
  · refine (State.hostWrite_ictl_controls ready (publish.trans request)).trans ?_
    simp only [State.withControls, set, clear, ptest]
    rfl
  · refine (State.hostWrite_ictl_controls ready (publish'.trans request)).trans ?_
    simp only [State.withControls, set', clear', ptest']
    rfl
  · exact State.hostWrite_ictl_controls ready request

/-! ### Publish requests -/

/-- A request while one is pending adds nothing (R73). -/
theorem State.requestPublish_pending {s : State} (pending : s.image.publishPending = true) : s.requestPublish = s := by
  simp [State.requestPublish, pending]

/-- Outside STOPPED, or while the output catch-up copy runs, the request pends (R73). -/
theorem State.requestPublish_pends {s : State} (pending : s.image.publishPending = false)
    (busy : s.run.state ≠ .stopped ∨ s.image.outCopy.isSome = true) :
    s.requestPublish = s.setImage { s.image with publishPending := true } := by
  simp only [State.requestPublish, pending, Bool.false_eq_true, if_false]
  split
  · next stopped => exact State.takePendingPublish_kept _ (.inr (busy.resolve_left (· stopped)))
  · rfl

/-- In STOPPED with no output catch-up copy the request is taken at once (R73, R74). -/
theorem State.requestPublish_swaps {s : State} (pending : s.image.publishPending = false) (stopped : s.run.state = .stopped)
    (idle : s.image.outCopy = none) : s.requestPublish = s.outputSwap := by
  simp only [State.requestPublish, pending, State.setImage_run, stopped, Bool.false_eq_true, if_false, if_true]
  exact State.takePendingPublish_taken _ rfl idle

theorem or_one_of_getLsbD {v : Word} (request : v.getLsbD 0 = true) : v ||| 0x0001#16 = v := by
  have masked : v &&& 0x0001#16 = 0x0001#16 := by
    ext i h
    cases i with
    | zero => simpa using request
    | succ i => simp
  rw [← masked]
  ext i h
  simp only [BitVec.getElem_or, BitVec.getElem_and]
  cases v[i] <;> simp

/-- PUBLISH is a write to ICTL with a publish request, by a port that is ready (R72, R73). -/
theorem execPublish_ready {s : State} (v : Word) (ready : s.Ready) :
    exec (.publish v) s = .next (s.withControls v).requestPublish.written := by
  have request : (v ||| 0x0001#16).getLsbD 0 = true := by simp
  refine (s.hostWrite_ready .ictl _ ready).trans ?_
  simp only [State.writeRegister, State.writeIctl_eq, request, if_true]
  rw [State.withControls_congr (v := v)] <;> simp

/-- Settles O20: a request pends already, pends now, or is taken at once. -/
theorem publishRequests : Obligations.PublishRequests := by
  unfold Obligations.PublishRequests
  intro s v ready
  refine ⟨fun pending => ?_, fun pending busy => ?_, fun request => ?_, fun pending stopped idle => ?_⟩
  · rw [execPublish_ready v ready, State.requestPublish_pending (by exact pending)]
    rfl
  · rw [execPublish_ready v ready, State.requestPublish_pends (by exact pending) (by exact busy)]
    rfl
  · have same : ∀ w : Word, w.getLsbD 0 = true → exec (.ptestWrite w) s = exec (.publish w) s := by
      intro w h
      refine congrArg (s.hostWrite .ictl) ?_
      exact (or_one_of_getLsbD h).symm
    exact ⟨same _ ((holdSet_bits v).1.trans request), same _ ((holdClear_bits v).1.trans request), same v request⟩
  · rw [execPublish_ready v ready, State.requestPublish_swaps (by exact pending) (by exact stopped) (by exact idle)]
    rfl

end Sys2Proof.Machine
end

section
/-! PROOFS. Host accesses to the image window: views, stores, reads and null accesses (R70, R71, R76, R85, R86, R172, R176,
R183). -/

namespace Sys2Proof.Machine

open Sys2Proof

/-! ### Accesses taken -/

/-- A null access of either window waits for nothing and reaches no block: a read drives 0 (R172). -/
theorem State.present_null {s : State} {a : Access} (ready : s.Ready) (null : a.lanes = .null) :
    s.present a = s.setPort (Port.taken a.nothing) := by
  obtain ⟨out, free⟩ := ready
  have waits : s.mustWait a = false := by simp [State.mustWait, null]
  have taken : s.takeAccess a = s.setPort (Port.taken a.nothing) := by simp [State.takeAccess, State.carryOut, null]
  unfold State.present
  rw [out]
  cases p : s.port.state with
  | waiting => exact absurd p free
  | idle => simp [waits, taken]
  | taken => simp [waits, taken]

theorem Access.toImage_carryOut {s : State} {lanes : Lanes} (write : Bool) (addr : BitVec 11) (data : Word)
    (nonNull : lanes ≠ .null) :
    s.carryOut (Access.toImage write lanes addr data) = s.imageAccess (Access.toImage write lanes addr data) := by
  cases lanes with
  | null => exact absurd rfl nonNull
  | _ => rfl

/-- A host image write of some byte is taken by the image unit (R176). -/
theorem execImageWrite_ready {s : State} {lanes : Lanes} (addr : BitVec 11) (data : Word) (ready : s.ImageReady)
    (nonNull : lanes ≠ .null) : exec (.imageWrite lanes addr data) s = .next (s.imageWrite lanes addr data).written := by
  refine congrArg Host.Outcome.next ((s.present_image _ ready).trans ?_)
  rw [State.takeAccess, Access.toImage_carryOut true addr data nonNull]
  rfl

/-- A host image read of some byte is taken by the image unit, and its value driven (R171, R176). -/
theorem execImageRead_ready {s : State} {lanes : Lanes} (addr : BitVec 11) (ready : s.ImageReady) (nonNull : lanes ≠ .null) :
    exec (.imageRead lanes addr) s = .next ((s.imageRead lanes addr).1.driving (s.imageRead lanes addr).2) := by
  refine congrArg Host.Outcome.next ((s.present_image _ ready).trans ?_)
  rw [State.takeAccess, Access.toImage_carryOut false addr 0 nonNull]
  rfl

theorem execImageRead_null {s : State} (addr : BitVec 11) (ready : s.Ready) :
    exec (.imageRead .null addr) s = .next (s.driving 0) :=
  congrArg Host.Outcome.next (State.present_null ready rfl)

theorem execImageWrite_null {s : State} (addr : BitVec 11) (data : Word) (ready : s.Ready) :
    exec (.imageWrite .null addr data) s = .next s.written :=
  congrArg Host.Outcome.next (State.present_null ready rfl)

theorem execAccessFault_null {s : State} {c : BusCycle} (ready : s.Ready) (selected : c.rs = true ∨ c.is = true)
    (strobed : c.rd = true ∨ c.wr = true) (null : c.lanes = .null) :
    exec (.accessFault c) s = .next (s.setPort (Port.taken (if c.wr then none else some 0))) := by
  have latched : ((c.rs || c.is) && (c.rd || c.wr)) = true := by simp [selected, strobed]
  simp only [exec, execAccessFault, latchCycle, latched, if_true]
  exact congrArg Host.Outcome.next (State.present_null ready null)

/-- An access that has had its time puts back the next line copy while a catch-up copy runs (R183). -/
theorem State.delayCopies_eq (s : State) : s.delayCopies = { s with timers := s.copyDelayed } := by
  unfold State.delayCopies State.copyDelayed
  by_cases copying : s.image.outCopy.isSome = true ∨ s.image.inCopy.isSome = true
  · simp only [Bool.or_eq_true, if_pos copying]
    rfl
  · simp only [Bool.or_eq_true, if_neg copying]
    rfl

/-! ### Stores through the output host view -/

theorem Image.hostStore_eq (u : Image) (o : Nat) (b : Byte) :
    ∃ m0 m1 map, u.hostStore o b = { u with out0 := m0, out1 := m1, outMap := map }
      ∧ if u.outHost then m0 = u.out0 else m1 = u.out1 := by
  unfold Image.hostStore Image.setOutHostBank
  cases u.outHost <;> cases u.outCopy.isSome <;> exact ⟨_, _, _, rfl, rfl⟩

/-- Bytes stored by the host change the output host bank and the output map, and nothing else (R76). -/
theorem Image.hostStoreAll_eq (u : Image) (l : List (Nat × Byte)) :
    ∃ m0 m1 map, u.hostStoreAll l = { u with out0 := m0, out1 := m1, outMap := map }
      ∧ if u.outHost then m0 = u.out0 else m1 = u.out1 := by
  induction l generalizing u with
  | nil => exact ⟨u.out0, u.out1, u.outMap, rfl, by split <;> rfl⟩
  | cons c rest ih =>
    obtain ⟨m0, m1, map, first, kept⟩ := u.hostStore_eq c.1 c.2
    obtain ⟨n0, n1, map', others, kept'⟩ := ih (u.hostStore c.1 c.2)
    rw [first] at others kept'
    refine ⟨n0, n1, map', by rw [Image.hostStoreAll, first]; exact others, ?_⟩
    cases h : u.outHost <;> simp_all

theorem Image.hostStore_read {u : Image} (law : u.Canonical) (o : Nat) (b : Byte) (a : Nat) :
    (u.hostStore o b).outHostBank.read a = if a = o then ImageByte.of b u.ptest else u.outHostBank.read a := by
  rw [(u.hostStore_bank o b).1, Memory.read_write law.outHostBank]

theorem Image.hostStore_mapped (u : Image) (o : Nat) (b : Byte) {a : Nat} (inside : a < 1024) :
    (u.hostStore o b).outMap.getLsbD a = true ↔ u.outMap.getLsbD a = true ∨ u.outCopy.isSome = true ∧ a = o := by
  rw [u.hostStore_map o b]
  cases u.outCopy.isSome with
  | false => simp
  | true =>
    rw [if_pos rfl, getLsbD_mapInsert _ _ _ inside]
    simp

/-- What the bytes of a host write leave in the output host bank and in the map (R71, R76, R85). -/
theorem Image.hostStoreAll_laneBytes {u : Image} (law : u.Canonical) {addr : BitVec 11} (inside : addr.toNat < 512)
    (lanes : Lanes) (data : Word) (nonNull : lanes ≠ .null) (a : Nat) :
    (u.hostStoreAll (laneBytes lanes addr data)).outHostBank.read a =
        (if a = 2 * addr.toNat ∧ lanes ≠ .high then ImageByte.of (data.setWidth 8) u.ptest
        else if a = 2 * addr.toNat + 1 ∧ lanes ≠ .low then ImageByte.of ((data >>> 8).setWidth 8) u.ptest
        else u.outHostBank.read a)
      ∧ (a < 1024 → ((u.hostStoreAll (laneBytes lanes addr data)).outMap.getLsbD a ↔ u.outMap.getLsbD a = true ∨
          u.outCopy.isSome = true ∧
            (a = 2 * addr.toNat ∧ lanes ≠ .high ∨ a = 2 * addr.toNat + 1 ∧ lanes ≠ .low))) := by
  cases lanes with
  | null => exact absurd rfl nonNull
  | low =>
    refine ⟨?_, fun ha => ?_⟩
    · simp [laneBytes, Image.hostStoreAll, Image.hostStore_read law]
    · simp [laneBytes, Image.hostStoreAll, Image.hostStore_mapped _ _ _ ha]
  | high =>
    refine ⟨?_, fun ha => ?_⟩
    · simp [laneBytes, Image.hostStoreAll, Image.hostStore_read law]
    · simp [laneBytes, Image.hostStoreAll, Image.hostStore_mapped _ _ _ ha]
  | word =>
    have first := Image.hostStore_canonical law (o := 2 * addr.toNat) (by omega) (data.setWidth 8)
    refine ⟨?_, fun ha => ?_⟩
    · simp only [laneBytes, Image.hostStoreAll, Image.hostStore_read first, Image.hostStore_read law, Image.hostStore_frame]
      by_cases low : a = 2 * addr.toNat
      · simp [low]
      · simp [low]
    · simp only [laneBytes, Image.hostStoreAll, Image.hostStore_mapped _ _ _ ha, Image.hostStore_frame]
      simp [and_or_left, or_assoc]

/-- A write through a view that is not the output host view stores nothing and raises H_IMAGE (R71). -/
theorem State.imageWrite_readOnly {s : State} {lanes : Lanes} {addr : BitVec 11} (outside : 512 ≤ addr.toNat) (data : Word)
    (nonNull : lanes ≠ .null) : s.imageWrite lanes addr data = { s with
      timers := s.copyDelayed
      due := s.due ++ [.faultReport
        ⟨.hImage, 0, BitVec.ofNat 16 (2 * addr.toNat + if lanes = .high then 1 else 0)⟩] } := by
  unfold State.imageWrite
  rw [s.delayCopies_eq]
  cases lanes with
  | null => exact absurd rfl nonNull
  | low => simp only [laneBytes]; rw [if_neg (by omega)]; rfl
  | high => simp only [laneBytes]; rw [if_neg (by omega)]; rfl
  | word => simp only [laneBytes]; rw [if_neg (by omega)]; rfl

/-- A write through the output host view stores its bytes (R71, R76). -/
theorem State.imageWrite_stored {s : State} {lanes : Lanes} {addr : BitVec 11} (inside : addr.toNat < 512) (data : Word)
    (nonNull : lanes ≠ .null) : s.imageWrite lanes addr data =
      { s with timers := s.copyDelayed, image := s.image.hostStoreAll (laneBytes lanes addr data) } := by
  unfold State.imageWrite
  rw [s.delayCopies_eq]
  cases lanes with
  | null => exact absurd rfl nonNull
  | low => simp only [laneBytes]; rw [if_pos (by omega)]; rfl
  | high => simp only [laneBytes]; rw [if_pos (by omega)]; rfl
  | word => simp only [laneBytes]; rw [if_pos (by omega)]; rfl

/-- Settles O21: a null write, a write through a read-only view, and one through the output host view. -/
theorem imageWrites : Obligations.ImageWrites := by
  unfold Obligations.ImageWrites
  intro s lanes addr data ready law
  by_cases null : lanes = .null
  · subst null
    refine ⟨_, execImageWrite_null addr data ready.1, rfl, by split <;> rfl, fun _ => ⟨rfl, rfl⟩, ?_, ?_⟩
    · exact fun nonNull => absurd rfl nonNull
    · exact fun nonNull => absurd rfl nonNull
  · rcases Nat.lt_or_ge addr.toNat 512 with inside | outside
    · obtain ⟨m0, m1, map, stored, kept⟩ := s.image.hostStoreAll_eq (laneBytes lanes addr data)
      have reads := Image.hostStoreAll_laneBytes (State.memoryLaw_iff.1 law) inside lanes data null
      refine ⟨_, execImageWrite_ready addr data ready null, ?_, ?_, fun h => absurd h null,
        fun _ outside => absurd inside (by omega), fun _ _ => ?_⟩
      · rw [State.imageWrite_stored inside data null, stored, if_neg null]
        rfl
      · rw [State.imageWrite_stored inside data null, stored]
        exact kept
      · rw [State.imageWrite_stored inside data null]
        exact ⟨rfl, reads⟩
    · refine ⟨_, execImageWrite_ready addr data ready null, ?_, ?_, fun h => absurd h null,
        fun _ _ => ?_, fun _ inside => absurd inside (by omega)⟩
      · rw [State.imageWrite_readOnly outside data null, if_neg null]
        rfl
      · rw [State.imageWrite_readOnly outside data null]
        split <;> rfl
      · rw [State.imageWrite_readOnly outside data null]
        exact ⟨rfl, rfl⟩

/-! ### Reads -/

/-- The four views of the window (R71). -/
theorem Image.windowByte_views (u : Image) {a : Nat} (inside : a < 1024) :
    u.windowByte a = u.outHostBank.read a ∧ u.windowByte (1024 + a) = u.inHostBank.read a
      ∧ u.windowByte (2048 + a) = u.outLinkBank.read a ∧ u.windowByte (3072 + a) = u.inLinkBank.read a := by
  have view1 : (1024 + a) / 1024 = 1 ∧ (1024 + a) % 1024 = a := by omega
  have view2 : (2048 + a) / 1024 = 2 ∧ (2048 + a) % 1024 = a := by omega
  have view3 : (3072 + a) / 1024 = 3 ∧ (3072 + a) % 1024 = a := by omega
  simp only [Image.windowByte, view1, view2, view3, Nat.div_eq_of_lt inside, Nat.mod_eq_of_lt inside, and_self]

/-- The lowest byte with bad parity that a read reaches: the low one, or else the high one (R86). -/
theorem Image.badRead_eq (u : Image) {lanes : Lanes} (addr : BitVec 11) (nonNull : lanes ≠ .null) :
    u.badRead lanes addr =
      if lanes ≠ .high ∧ (u.windowByte (2 * addr.toNat)).parityGood = false then some (2 * addr.toNat)
      else if lanes ≠ .low ∧ (u.windowByte (2 * addr.toNat + 1)).parityGood = false then some (2 * addr.toNat + 1)
      else none := by
  cases lanes with
  | null => exact absurd rfl nonNull
  | low => cases h : (u.windowByte (2 * addr.toNat)).parityGood <;> simp [Image.badRead, laneBytes, h]
  | high => cases h : (u.windowByte (2 * addr.toNat + 1)).parityGood <;> simp [Image.badRead, laneBytes, h]
  | word =>
    cases h : (u.windowByte (2 * addr.toNat)).parityGood <;>
      cases h' : (u.windowByte (2 * addr.toNat + 1)).parityGood <;> simp [Image.badRead, laneBytes, h, h']

/-- A read takes its time, drives the bytes as they are stored, and raises M_HOSTRD for its bad byte (R86, R183). -/
theorem State.imageRead_eq (s : State) (lanes : Lanes) (addr : BitVec 11) :
    s.imageRead lanes addr = ({ s with
      timers := s.copyDelayed
      due := s.due ++ (s.image.badRead lanes addr).toList.map fun o =>
        .faultReport ⟨.mHostrd, 0, BitVec.ofNat 16 o⟩ }, s.image.readValue lanes addr) := by
  unfold State.imageRead
  rw [s.delayCopies_eq]
  dsimp only
  cases s.image.badRead lanes addr with
  | none => simp
  | some o => rfl

/-- Settles O22: the banks and views, null accesses, and a read by the parity of the bytes it reaches. -/
theorem imageReads : Obligations.ImageReads := by
  unfold Obligations.ImageReads
  refine ⟨fun u => ⟨rfl, rfl, rfl, rfl⟩, fun u a inside => u.windowByte_views inside, fun s ready => ?_,
    fun s lanes addr ready nonNull => ?_⟩
  · refine ⟨fun addr => execImageRead_null addr ready, fun addr data => execImageWrite_null addr data ready,
      fun c selected null => ⟨fun read noWrite => ?_, fun write => ?_⟩⟩
    · rw [execAccessFault_null ready selected (.inl read) null, noWrite]
      rfl
    · rw [execAccessFault_null ready selected (.inr write) null, write]
      rfl
  · have bad := s.image.badRead_eq addr nonNull
    have read := execImageRead_ready addr ready nonNull
    rw [s.imageRead_eq lanes addr] at read
    refine ⟨_, read, rfl, ?_, fun noHigh badLow => ?_, fun noLow badHigh goodLow => ?_, fun goodLow goodHigh => ?_⟩
    · cases lanes <;> rfl
    · rw [if_pos ⟨noHigh, badLow⟩] at bad
      simp [State.driving, bad]
    · rw [if_neg (fun ⟨noHigh, badLow⟩ => by simp [noHigh, badLow] at goodLow), if_pos ⟨noLow, badHigh⟩] at bad
      simp [State.driving, bad]
    · rw [if_neg (fun ⟨noHigh, badLow⟩ => by simp [noHigh, badLow] at goodLow),
        if_neg (fun ⟨noLow, badHigh⟩ => by simp [noLow, badHigh] at goodHigh)] at bad
      simp [State.driving, bad]

end Sys2Proof.Machine
end

section
/-! PROOFS. Reply storage in the input link bank (R79, R80). -/

namespace Sys2Proof.Machine

open Sys2Proof

/-- A stored reply changes the input link bank and the input map, and nothing else (R79). -/
theorem Image.linkStore_eq (u : Image) (o : Nat) (bytes : List Byte) :
    ∃ m0 m1 map, u.linkStore o bytes = { u with in0 := m0, in1 := m1, inMap := map } := by
  induction bytes generalizing u o with
  | nil => exact ⟨u.in0, u.in1, u.inMap, rfl⟩
  | cons b rest ih =>
    have stored : ∀ v m0 m1 map, v = { u with in0 := m0, in1 := m1, inMap := map } →
        ∃ m0 m1 map, v.linkStore (o + 1) rest = { u with in0 := m0, in1 := m1, inMap := map } := by
      rintro v m0 m1 map rfl
      exact ih { u with in0 := m0, in1 := m1, inMap := map } (o + 1)
    unfold Image.linkStore Image.setInLinkBank
    dsimp only
    split
    · split
      · exact stored _ _ _ _ rfl
      · exact stored _ _ _ _ rfl
    · split
      · exact stored _ _ _ _ rfl
      · exact stored _ _ _ _ rfl

/-- Reply storage out of reset and inside the bank is taken by the image unit (R79). -/
theorem execReplyStorage_ready {s : State} {n : NodeAddr} {bytes : List Byte} (out : s.inReset = false) (node : n ≠ 0)
    (size : bytes.length ≤ 64) (inside : s.storageBeyondBank n bytes = false) :
    exec (.replyStorage n bytes) s = .next ((s.takeDue (.replyStorage n bytes)).storeReply n bytes) := by
  have fits : (Instr.replyStorage n bytes).wellFormed = true := by
    simp only [Instr.wellFormed, Bool.and_eq_true, bne_iff_ne, decide_eq_true_eq]
    exact ⟨node, size⟩
  simp only [exec, execReplyStorage, fits, out, inside, s.event_ready _ _ out]
  rfl

/-- Settles O24: without a slice copy nothing is stored, and with one the reply's bytes are. -/
theorem replyStored : Obligations.ReplyStored := by
  unfold Obligations.ReplyStored
  intro s n bytes out law node size
  refine ⟨fun dropped => ?_, fun c copy fits => ?_⟩
  · rw [execReplyStorage_ready out node size (by simp [State.storageBeyondBank, dropped])]
    have same : (s.takeDue (.replyStorage n bytes)).image.sliceOf n = none := dropped
    simp only [State.storeReply, same]
    rfl
  · have inside : s.storageBeyondBank n bytes = false := by
      simp only [State.storageBeyondBank, copy, decide_eq_false_iff_not]
      exact Nat.not_lt.2 fits
    have same : (s.takeDue (.replyStorage n bytes)).image.sliceOf n = some c := copy
    have stored : (s.takeDue (.replyStorage n bytes)).storeReply n bytes = (s.takeDue (.replyStorage n bytes)).setImage
        { s.image.linkStore c.inOff.toNat bytes with
          linkFresh := NodeSet.insert (s.image.linkStore c.inOff.toNat bytes).linkFresh n } := by
      simp only [State.storeReply, same]
      rfl
    obtain ⟨m0, m1, map, changed⟩ := s.image.linkStore_eq c.inOff.toNat bytes
    obtain ⟨host, link, mapped⟩ := s.image.linkStore_bank (State.memoryLaw_iff.1 law) c.inOff.toNat bytes fits
    refine ⟨_, execReplyStorage_ready out node size inside, ?_, ?_, fun a => ?_, fun a ha => ?_⟩
    · rw [stored, changed]
      rfl
    · rw [stored]
      exact host
    · rw [stored]
      exact link a
    · rw [stored]
      exact mapped a ha

end Sys2Proof.Machine
end

section
/-! PROOFS. The state after a hardware reset meets the laws of every run (R49, R89, R118, R137, R139, R166). -/

namespace Sys2Proof.Machine

open Sys2Proof

/-- After a hardware reset every node's entry is the reset entry (R49). -/
theorem State.reset_node? {n : NodeAddr} {e : NodeEntry} (h : State.reset.node? n = some e) : e = NodeEntry.reset := by
  have hn := State.node?_ne_zero h
  simp only [State.node?, hn, if_false, Option.some.injEq] at h
  simp [← h, State.reset, NodeTable.reset, Vector.get]

theorem NodeEntry.legal_reset : NodeEntry.reset.Legal := by
  unfold NodeEntry.Legal
  decide

/-- After a hardware reset no item waits to be posted (R118, R137). -/
theorem State.reset_waitingOrders : State.reset.waitingOrders = [] := rfl

theorem State.reset_nodeLaw : State.reset.NodeLaw := by
  intro n e h
  rw [State.reset_node? h]
  exact NodeEntry.legal_reset

/-- After a hardware reset no node is enabled, so that no slice is served (R49, R52). -/
theorem State.reset_sliceLaw : State.reset.SliceLaw := by
  refine ⟨fun n e h enabled => ?_, fun n m e f _ h _ enabled => ?_⟩
  · rw [State.reset_node? h] at enabled
    cases enabled
  · rw [State.reset_node? h] at enabled
    cases enabled

theorem State.reset_stoppedLaw : State.reset.StoppedLaw :=
  fun _ => ⟨rfl, .inl ⟨rfl, rfl⟩, rfl, fun pending => by cases pending⟩

theorem State.reset_budgetLaw : State.reset.BudgetLaw :=
  ⟨fun inRun => (by cases inRun), fun t pending => (by cases pending)⟩

/-- Settles O50, law by law: the tables and queues are empty, and nothing runs, waits or is pending. -/
theorem resetMeetsEveryLaw : Obligations.ResetMeetsEveryLaw := by
  unfold Obligations.ResetMeetsEveryLaw
  refine ⟨?memory, ?capacity, ?response, ?push, ?tag, ?nodeDown, ?credit, State.reset_nodeLaw, State.reset_sliceLaw,
    State.reset_stoppedLaw, State.reset_budgetLaw, ?settings, ?port, ?inReset, ?settleOrder, ?latch⟩
  case memory =>
    exact ⟨Memory.canonical_nil, Memory.canonical_nil, Memory.canonical_nil, Memory.canonical_nil⟩
  case capacity => exact ⟨Nat.zero_le _, Nat.zero_le _, Nat.zero_le _⟩
  case response => exact ⟨Nat.zero_le _, fun waiting => absurd State.reset_waitingOrders waiting⟩
  case push => exact ⟨List.nodup_nil, fun p mem => absurd mem List.not_mem_nil⟩
  case tag => exact List.nodup_nil
  case nodeDown =>
    exact ⟨fun e mem => absurd mem List.not_mem_nil, fun q mem => absurd mem List.not_mem_nil⟩
  case credit => exact fun n _ _ => Nat.zero_le _
  case settings => exact ⟨by decide, by decide⟩
  case port => exact fun a latched => by cases latched
  case inReset => exact fun held => by cases held
  case settleOrder => exact ⟨List.nodup_nil, fun o mem => absurd mem List.not_mem_nil⟩
  case latch => exact rfl

end Sys2Proof.Machine
end

section
/-! PROOFS. One line copy of a catch-up copy (R75, R77, R84, R85, R88, R177, R183). -/

namespace Sys2Proof.Machine

open Sys2Proof

/-! ### The bytes of a line -/

/-- What a line copy leaves in the bank it stores in: the bytes of the line that are not in the map come from the other
bank (R77, R84). -/
theorem read_lineCopied (src : Memory) {dst : Memory} (law : Memory.Canonical dst) (map : BitVec 1024) (k : BitVec 6)
    (a : Nat) :
    (copyBytes src dst (copiedOffsets map k)).read a =
      if a / 16 = k.toNat ∧ map.getLsbD a = false then src.read a else dst.read a := by
  rw [read_copyBytes src law _ (fun _ => copiedOffsets_lt)]
  simp only [mem_copiedOffsets]

/-- A line is copied in rising order of offset. -/
theorem copiedOffsets_rising (map : BitVec 1024) (k : BitVec 6) : (copiedOffsets map k).Pairwise (· < ·) := by
  refine List.Pairwise.filter _ (List.pairwise_map.2 ?_)
  exact List.pairwise_lt_range.imp fun h => Nat.add_lt_add_left h _

/-- A line without a bad byte to move raises nothing (R88). -/
theorem firstBadCopied_none {src : Memory} {map : BitVec 1024} {k : BitVec 6}
    (good : ∀ a, a / 16 = k.toNat → map.getLsbD a = false → (src.read a).parityGood = true) :
    firstBadCopied src (copiedOffsets map k) = none := by
  refine List.find?_eq_none.2 fun a mem => ?_
  obtain ⟨line, moved⟩ := mem_copiedOffsets.1 mem
  simp [good a line moved]

/-- The byte a line copy reports is the lowest bad one that it moves (R88). -/
theorem firstBadCopied_some {src : Memory} {map : BitVec 1024} {k : BitVec 6} {a : Nat} (line : a / 16 = k.toNat)
    (moved : map.getLsbD a = false) (bad : (src.read a).parityGood = false)
    (lowest : ∀ b, b < a → b / 16 = k.toNat → map.getLsbD b = false → (src.read b).parityGood = true) :
    firstBadCopied src (copiedOffsets map k) = some a := by
  have mem : a ∈ copiedOffsets map k := mem_copiedOffsets.2 ⟨line, moved⟩
  unfold firstBadCopied
  cases found : (copiedOffsets map k).find? fun a => !(src.read a).parityGood with
  | none =>
    have := List.find?_eq_none.1 found a mem
    simp [bad] at this
  | some b =>
    obtain ⟨badFound, before, after, split, good⟩ := List.find?_eq_some_iff_append.1 found
    have rising := copiedOffsets_rising map k
    rw [split] at mem rising
    rcases List.mem_append.1 mem with inFront | behind
    · have := good a inFront
      simp [bad] at this
    · rcases List.mem_cons.1 behind with same | behind
      · rw [same]
      · have below : b < a := (List.pairwise_cons.1 (List.pairwise_append.1 rising).2.1).1 a behind
        have inLine : b ∈ copiedOffsets map k := split ▸ List.mem_append_right _ List.mem_cons_self
        obtain ⟨line', moved'⟩ := mem_copiedOffsets.1 inLine
        simp [lowest b below line' moved'] at badFound

/-! ### One line -/

/-- The M_COPY report of a line copy: none if this copy has raised it already (R88). -/
def copyReports (seen : Bool) (bad : Option Nat) : List Instr :=
  if seen then [] else bad.toList.map fun a => .faultReport ⟨.mCopy, 0, BitVec.ofNat 16 a⟩

theorem State.raiseCopyFault_eq (s : State) (seen : Bool) (bad : Option Nat) :
    s.raiseCopyFault seen bad = { s with due := s.due ++ copyReports seen bad } := by
  unfold State.raiseCopyFault copyReports
  cases seen <;> cases bad <;> simp [State.raise, State.hand]

theorem copyReports_none {seen : Bool} {src : Memory} {map : BitVec 1024} {k : BitVec 6} (h : seen = true
    ∨ ∀ a, a / 16 = k.toNat → map.getLsbD a = false → (src.read a).parityGood = true) :
    copyReports seen (firstBadCopied src (copiedOffsets map k)) = [] := by
  rcases h with raised | good
  · rw [raised]
    rfl
  · rw [firstBadCopied_none good]
    cases seen <;> rfl

theorem Image.setOutHostBank_eq (u : Image) (m : Memory) : u.setOutHostBank m
    = { u with out0 := if u.outHost then u.out0 else m, out1 := if u.outHost then m else u.out1 } := by
  unfold Image.setOutHostBank
  split <;> rfl

theorem Image.setInLinkBank_eq (u : Image) (m : Memory) : u.setInLinkBank m
    = { u with in0 := if u.inHost then m else u.in0, in1 := if u.inHost then u.in1 else m } := by
  unfold Image.setInLinkBank
  split <;> rfl

/-- The bytes of the output host bank after a line of the output catch-up copy (R77). -/
def Image.outLineCopied (u : Image) (k : BitVec 6) : Memory :=
  copyBytes u.outLinkBank u.outHostBank (copiedOffsets u.outMap k)

/-- The bytes of the input link bank after a line of the input catch-up copy (R84). -/
def Image.inLineCopied (u : Image) (k : BitVec 6) : Memory :=
  copyBytes u.inHostBank u.inLinkBank (copiedOffsets u.inMap k)

/-- The first bad byte that a line of the output catch-up copy moves (R88). -/
def Image.outLineBad (u : Image) (k : BitVec 6) : Option Nat := firstBadCopied u.outLinkBank (copiedOffsets u.outMap k)

/-- The first bad byte that a line of the input catch-up copy moves (R88). -/
def Image.inLineBad (u : Image) (k : BitVec 6) : Option Nat := firstBadCopied u.inHostBank (copiedOffsets u.inMap k)

/-- A line of the output catch-up copy before a pending publish has its chance (R77, R88, R183). -/
def State.outputMoved (s : State) (k : BitVec 6) : State := { s with
  image := { s.image with
    out0 := if s.image.outHost then s.image.out0 else s.image.outLineCopied k
    out1 := if s.image.outHost then s.image.outLineCopied k else s.image.out1
    outCopy := if k = 63 then none else some (k + 1)
    outCopyBad := s.image.outCopyBad || (s.image.outLineBad k).isSome
    copyTurn := if s.image.inCopy.isSome then .input else .output }
  due := s.due ++ copyReports s.image.outCopyBad (s.image.outLineBad k) }

/-- A line of the input catch-up copy (R84, R88, R183). -/
def State.inputMoved (s : State) (k : BitVec 6) : State := { s with
  image := { s.image with
    in0 := if s.image.inHost then s.image.inLineCopied k else s.image.in0
    in1 := if s.image.inHost then s.image.in1 else s.image.inLineCopied k
    inCopy := if k = 63 then none else some (k + 1)
    inCopyBad := s.image.inCopyBad || (s.image.inLineBad k).isSome
    copyTurn := if s.image.outCopy.isSome then .output else .input }
  due := s.due ++ copyReports s.image.inCopyBad (s.image.inLineBad k) }

theorem State.outputLine_eq (s : State) (k : BitVec 6) : s.outputLine k = (s.outputMoved k).publishAfterLine k := by
  unfold State.outputLine
  simp only [State.raiseCopyFault_eq, Image.setOutHostBank_eq]
  rfl

theorem State.inputLine_eq (s : State) (k : BitVec 6) : s.inputLine k = s.inputMoved k := by
  unfold State.inputLine
  simp only [State.raiseCopyFault_eq, Image.setInLinkBank_eq]
  rfl

/-- After a line that is not the last, outside STOPPED or with no publish pending, none is taken (R75). -/
theorem State.publishAfterLine_kept {s : State} {k : BitVec 6}
    (h : s.image.publishPending = false ∨ k ≠ 63 ∨ s.run.state ≠ .stopped) : s.publishAfterLine k = s := by
  unfold State.publishAfterLine
  split
  · next last => exact s.takePendingPublish_kept (.inl (h.resolve_right fun other => other.elim (· last.1) (· last.2)))
  · rfl

theorem State.outputMoved_outLinkBank (s : State) (k : BitVec 6) :
    (s.outputMoved k).image.outLinkBank = s.image.outLinkBank := by
  by_cases role : s.image.outHost = true
  · simp [State.outputMoved, Image.outLinkBank, role]
  · simp [State.outputMoved, Image.outLinkBank, role]

theorem State.outputMoved_read {s : State} (law : s.MemoryLaw) (k : BitVec 6) (a : Nat) :
    (s.outputMoved k).image.outHostBank.read a =
      if a / 16 = k.toNat ∧ s.image.outMap.getLsbD a = false then s.image.outLinkBank.read a
      else s.image.outHostBank.read a := by
  have bank : (s.outputMoved k).image.outHostBank = s.image.outLineCopied k := by
    simp only [State.outputMoved]
    unfold Image.outHostBank
    dsimp only
    split <;> rfl
  rw [bank]
  exact read_lineCopied _ (State.memoryLaw_iff.1 law).outHostBank _ _ _

theorem State.inputMoved_inHostBank (s : State) (k : BitVec 6) :
    (s.inputMoved k).image.inHostBank = s.image.inHostBank := by
  by_cases role : s.image.inHost = true
  · simp [State.inputMoved, Image.inHostBank, role]
  · simp [State.inputMoved, Image.inHostBank, role]

theorem State.inputMoved_read {s : State} (law : s.MemoryLaw) (k : BitVec 6) (a : Nat) :
    (s.inputMoved k).image.inLinkBank.read a =
      if a / 16 = k.toNat ∧ s.image.inMap.getLsbD a = false then s.image.inHostBank.read a
      else s.image.inLinkBank.read a := by
  have bank : (s.inputMoved k).image.inLinkBank = s.image.inLineCopied k := by
    simp only [State.inputMoved]
    unfold Image.inLinkBank
    dsimp only
    split <;> rfl
  rw [bank]
  exact read_lineCopied _ (State.memoryLaw_iff.1 law).inLinkBank _ _ _

/-! ### The line copied -/

/-- While both copies run, the direction in progress, or else the one whose turn it is, has the next line (R183). -/
theorem Image.nextLine_iff (u : Image) (k : BitVec 6) :
    (u.nextLine = some (.output, k) ↔
        u.outCopy = some k ∧ (u.inCopy = none ∨ u.lineInProgress.getD u.copyTurn = .output))
      ∧ (u.nextLine = some (.input, k) ↔
        u.inCopy = some k ∧ (u.outCopy = none ∨ u.lineInProgress.getD u.copyTurn = .input)) := by
  unfold Image.nextLine
  cases u.outCopy with
  | none => cases u.inCopy <;> simp
  | some i =>
    cases u.inCopy with
    | none => simp
    | some j => cases u.lineInProgress.getD u.copyTurn <;> simp

/-- The line copy in progress is done (R177). -/
def State.lineDone (s : State) : State := { s with
  image := { s.image with lineInProgress := none }
  timers := { s.timers with lineCopy := none } }

theorem State.copyLine_none {s : State} (next : s.image.nextLine = none) : s.copyLine = s.lineDone := by
  simp only [State.copyLine, next]
  rfl

theorem State.copyLine_output {s : State} {k : BitVec 6} (next : s.image.nextLine = some (.output, k)) :
    s.copyLine = (s.lineDone.outputMoved k).publishAfterLine k := by
  rw [← State.outputLine_eq]
  simp only [State.copyLine, next]
  rfl

theorem State.copyLine_input {s : State} {k : BitVec 6} (next : s.image.nextLine = some (.input, k)) :
    s.copyLine = s.lineDone.inputMoved k := by
  rw [← State.inputLine_eq]
  simp only [State.copyLine, next]
  rfl

theorem State.takePendingPublish_setPort (s : State) (p : Port) :
    (s.setPort p).takePendingPublish = s.takePendingPublish.setPort p :=
  (apply_ite (State.setPort · p) _ s.outputSwap s).symm

theorem State.publishAfterLine_setPort (s : State) (p : Port) (k : BitVec 6) :
    (s.setPort p).publishAfterLine k = (s.publishAfterLine k).setPort p := by
  unfold State.publishAfterLine
  rw [s.takePendingPublish_setPort p]
  exact (apply_ite (State.setPort · p) _ s.takePendingPublish s).symm

/-- What the port holds does not matter to a line copy. -/
theorem State.copyLine_setPort (s : State) (p : Port) : (s.setPort p).copyLine = s.copyLine.setPort p := by
  cases next : s.image.nextLine with
  | none => rw [State.copyLine_none (s := s.setPort p) next, State.copyLine_none next]; rfl
  | some line =>
    obtain ⟨_ | _, k⟩ := line
    · rw [State.copyLine_output (s := s.setPort p) next, State.copyLine_output next]
      exact (s.lineDone.outputMoved k).publishAfterLine_setPort p k
    · rw [State.copyLine_input (s := s.setPort p) next, State.copyLine_input next]; rfl

/-- A line copy with no access waiting (R77, R84). -/
theorem execLineCopy_free {s : State} (out : s.inReset = false) (free : s.port.state ≠ .waiting) :
    exec .lineCopy s = .next (s.takeDue .lineCopy).copyLine := by
  have first : (s.takeDue .lineCopy).accessFirst = false := by simp [State.accessFirst, free]
  simp only [exec, execLineCopy, s.event_ready _ _ out, State.lineCopy, first, Bool.false_eq_true, if_false,
    State.copyLine_frame, State.takeDue_port]
  cases port : s.port.state with
  | waiting => exact absurd port free
  | _ => rfl

/-- An access that waits and is due is taken before another line is copied (R177). -/
theorem execLineCopy_accessFirst {s : State} (out : s.inReset = false) (waiting : s.port.state = .waiting)
    (idle : s.image.lineInProgress = none) : exec .lineCopy s = .next { s with due := s.due.erase .lineCopy } := by
  have first : (s.takeDue .lineCopy).accessFirst = true := by simp [State.accessFirst, State.takeDue, waiting, idle]
  simp only [exec, execLineCopy, s.event_ready _ _ out, State.lineCopy, first, if_true]
  rfl

/-- The end of the line copy that an access waits for makes the access due (R177). -/
theorem execLineCopy_waiting {s : State} (out : s.inReset = false) (waiting : s.port.state = .waiting)
    (copying : s.image.lineInProgress.isSome = true) :
    exec .lineCopy s = .next ((s.takeDue .lineCopy).copyLine.hand .waitingAccessTaken) := by
  have first : (s.takeDue .lineCopy).accessFirst = false := by
    cases line : s.image.lineInProgress with
    | none => rw [line] at copying; cases copying
    | some d => simp [State.accessFirst, State.takeDue, line]
  simp only [exec, execLineCopy, s.event_ready _ _ out, State.lineCopy, first, Bool.false_eq_true, if_false,
    State.copyLine_frame, State.takeDue_port, waiting]

/-- The line copy is the same with another access in the port, and makes the one that waits due (R177). -/
theorem execLineCopy_behind {s : State} (out : s.inReset = false) (waiting : s.port.state = .waiting)
    (copying : s.image.lineInProgress.isSome = true) :
    ∃ u, exec .lineCopy { s with port := Port.reset } = .next u
      ∧ exec .lineCopy s = .next { u with port := s.port, due := u.due ++ [.waitingAccessTaken] } := by
  refine ⟨_, execLineCopy_free (s := s.setPort Port.reset) out (by simp [Port.reset]), ?_⟩
  have port : (s.takeDue .lineCopy).copyLine.port = s.port := by simp
  have moved : ((s.setPort Port.reset).takeDue .lineCopy).copyLine = (s.takeDue .lineCopy).copyLine.setPort Port.reset :=
    (s.takeDue .lineCopy).copyLine_setPort Port.reset
  rw [execLineCopy_waiting out waiting copying, moved, ← port]
  rfl

/-- A publish that pends, or none, beside the line copied. -/
def State.withPublish (s : State) (pending : Bool) : State := s.setImage { s.image with publishPending := pending }

/-- With no publish pending, a line copy ends with its bytes (R77, R84). -/
theorem State.copyLine_output_unpublished {s : State} {k : BitVec 6} (next : s.image.nextLine = some (.output, k))
    (pending : s.image.publishPending = false) : s.copyLine = s.lineDone.outputMoved k := by
  rw [State.copyLine_output next]
  exact State.publishAfterLine_kept (.inl pending)

/-- A publish that pends stays pending at every line copy but one (R75). -/
theorem State.copyLine_publishKept {s : State} (pending : s.image.publishPending = true)
    (kept : s.image.nextLine ≠ some (.output, 63) ∨ s.run.state ≠ .stopped) :
    s.copyLine = (s.withPublish false).copyLine.withPublish true := by
  have unmoved : s = s.withPublish true := by
    unfold State.withPublish State.setImage
    rw [← pending]
  cases next : s.image.nextLine with
  | none =>
    rw [State.copyLine_none next, State.copyLine_none (s := s.withPublish false) next]
    conv_lhs => rw [unmoved]
    rfl
  | some line =>
    obtain ⟨_ | _, k⟩ := line
    · have stays : k ≠ 63 ∨ s.run.state ≠ .stopped := kept.imp_left fun other last => other (by rw [next, last])
      rw [State.copyLine_output next, State.copyLine_output_unpublished (s := s.withPublish false) next rfl,
        State.publishAfterLine_kept (.inr (by exact stays))]
      conv_lhs => rw [unmoved]
      rfl
    · rw [State.copyLine_input next, State.copyLine_input (s := s.withPublish false) next]
      conv_lhs => rw [unmoved]
      rfl

/-- In STOPPED the last line of the output catch-up copy takes a publish that pends (R74, R75). -/
theorem State.copyLine_publishTaken {s : State} (pending : s.image.publishPending = true)
    (next : s.image.nextLine = some (.output, 63)) (stopped : s.run.state = .stopped) :
    s.copyLine = (s.withPublish false).copyLine.outputSwap := by
  rw [State.copyLine_output next, State.copyLine_output_unpublished (s := s.withPublish false) next rfl]
  unfold State.publishAfterLine
  rw [if_pos (by exact ⟨rfl, stopped⟩), State.takePendingPublish_taken _ (by exact pending) rfl]
  rfl

/-- Settles O23: whose line is next, an access that waits, a publish that pends, and the bytes of a line by direction. -/
theorem lineCopied : Obligations.LineCopied := by
  unfold Obligations.LineCopied
  refine ⟨fun u k => u.nextLine_iff k,
    fun s out waiting => ⟨execLineCopy_accessFirst out waiting, execLineCopy_behind out waiting⟩,
    fun s out free pending => ?_, fun s k out law free pending => ⟨fun next => ?_, fun next => ?_⟩⟩
  · refine ⟨_, execLineCopy_free (s := s.withPublish false) out free, fun kept => ?_, fun next stopped => ?_⟩
    · rw [execLineCopy_free out free, State.copyLine_publishKept (by exact pending) (by exact kept)]
      rfl
    · rw [execLineCopy_free out free, State.copyLine_publishTaken (by exact pending) (by exact next) (by exact stopped)]
      rfl
  · have moved : exec .lineCopy s = .next ((s.takeDue .lineCopy).lineDone.outputMoved k) :=
      (execLineCopy_free out free).trans (congrArg _ (State.copyLine_output_unpublished (by exact next) (by exact pending)))
    refine ⟨_, moved, rfl, State.outputMoved_outLinkBank _ k, State.outputMoved_read law k, fun good => ?_,
      fun a unseen line unmapped bad lowest => ?_⟩
    · exact (congrArg _ (copyReports_none good)).trans (List.append_nil _)
    · have found : s.image.outLineBad k = some a := firstBadCopied_some line unmapped bad lowest
      refine ⟨?_, congrArg (s.due.erase .lineCopy ++ ·) ?_⟩
      · show (s.image.outCopyBad || (s.image.outLineBad k).isSome) = true
        simp [found]
      · show copyReports s.image.outCopyBad (s.image.outLineBad k) = _
        rw [found, unseen]
        rfl
  · have moved : exec .lineCopy s = .next ((s.takeDue .lineCopy).lineDone.inputMoved k) :=
      (execLineCopy_free out free).trans (congrArg _ (State.copyLine_input (by exact next)))
    refine ⟨_, moved, rfl, State.inputMoved_inHostBank _ k, State.inputMoved_read law k, fun good => ?_,
      fun a unseen line unmapped bad lowest => ?_⟩
    · exact (congrArg _ (copyReports_none good)).trans (List.append_nil _)
    · have found : s.image.inLineBad k = some a := firstBadCopied_some line unmapped bad lowest
      refine ⟨?_, congrArg (s.due.erase .lineCopy ++ ·) ?_⟩
      · show (s.image.inCopyBad || (s.image.inLineBad k).isSome) = true
        simp [found]
      · show copyReports s.image.inCopyBad (s.image.inLineBad k) = _
        rw [found, unseen]
        rfl

end Sys2Proof.Machine
end

section
/-! PROOFS. Where the head segment and each slot lead, and the cycle end (R16, R18, R37, R42, R45, R46, R75, R82, R144). -/

namespace Sys2Proof.Machine

open Sys2Proof

/-! ### The slots that follow -/

/-- What a search through the slots in index order finds: the lowest slot that passes. -/
theorem find?_slotIndices {p : SlotIndex → Bool} {k : SlotIndex} : slotIndices.find? p = some k ↔
    p k = true ∧ ∀ j : SlotIndex, j.toNat < k.toNat → p j = false := by
  rw [← List.findSome?_guard, findSome?_slotIndices]
  simp [Option.guard_eq_some_iff, Option.guard_eq_none_iff]

/-- A slot end leads to the next higher slot of the active table whose length is not 0 (R45). -/
theorem Sched.nextSlot_iff (u : Sched) (j k : SlotIndex) : u.nextSlot j = some k ↔
    j.toNat < k.toNat ∧ (u.record u.active k).length ≠ 0
      ∧ ∀ i : SlotIndex, j.toNat < i.toNat → i.toNat < k.toNat → (u.record u.active i).length = 0 := by
  rw [Sched.nextSlot, Sched.nonZeroSlots, List.find?_filter, find?_slotIndices]
  simp only [bne_iff_ne, decide_eq_true_eq, decide_eq_false_iff_not]
  constructor
  · rintro ⟨⟨used, later⟩, lowest⟩
    exact ⟨later, used, fun i above below => by_contra fun used' => lowest i below ⟨used', above⟩⟩
  · rintro ⟨later, used, lowest⟩
    exact ⟨⟨used, later⟩, fun i below passes => passes.1 (lowest i passes.2 below)⟩

/-- The head segment leads to the lowest slot of the active table whose length is not 0 (R45). -/
theorem Sched.firstSlot {u : Sched} {k : SlotIndex} (used : (u.record u.active k).length ≠ 0)
    (lowest : ∀ i : SlotIndex, i.toNat < k.toNat → (u.record u.active i).length = 0) : u.nonZeroSlots.head? = some k := by
  rw [Sched.nonZeroSlots, List.head?_filter, find?_slotIndices]
  exact ⟨by simpa using used, fun i below => by simp [lowest i below]⟩

/-! ### The slot cut at its end -/

/-- A state that differs from another in its line, its timers and its events due only, and sends at the same rate: what a slot
end leaves before it leads on. -/
structure State.SlotCut (s v : State) : Prop where
  sched : v.sched = s.sched
  image : v.image = s.image
  run : v.run = s.run
  fault : v.fault = s.fault
  transactions : v.nodes = s.nodes ∧ v.cmd = s.cmd ∧ v.result = s.result
  rate : v.link.rate = s.link.rate

theorem State.slotCut_cutSlot (s : State) : s.SlotCut (s.takeDue .slotEnd).cutSlot.dropLineTimers := by
  constructor <;> simp

/-- A reply in reception is decided BAD at the slot end (R16, R18, R37). -/
theorem State.decidedAtSlotEnd_receive {s : State} {k : SlotIndex} (receive : s.link.state = .receive) :
    s.decidedAtSlotEnd k = s.link.exchange.missedAck .bad ++ [.nodeOutcome s.link.windowNode s.link.windowKind k
      (.bad (s.link.badFound.getD .cutBySlotEnd))] := by
  unfold State.decidedAtSlotEnd
  rw [receive]
  cases s.link.exchange <;> rfl

/-- An open window is decided NONE at the slot end (R14, R18, R37). -/
theorem State.decidedAtSlotEnd_window {s : State} {k : SlotIndex} (window : s.link.state = .window) :
    s.decidedAtSlotEnd k = s.link.exchange.missedAck .silent
      ++ [.nodeOutcome s.link.windowNode s.link.windowKind k .silent] := by
  unfold State.decidedAtSlotEnd
  rw [window]
  cases s.link.exchange <;> rfl

/-- With no window open and no reply in reception a slot end decides nothing. -/
theorem State.decidedAtSlotEnd_none {s : State} {k : SlotIndex} (receive : s.link.state ≠ .receive)
    (window : s.link.state ≠ .window) : s.decidedAtSlotEnd k = [] ∧ s.cutSlot = s := by
  unfold State.decidedAtSlotEnd State.cutSlot
  cases phase : s.link.state with
  | receive => exact absurd phase receive
  | window => exact absurd phase window
  | _ => exact ⟨rfl, rfl⟩

/-- What the slot end decides, it hands on, and nothing but the line and its timers changes besides (R16, R18, R37). -/
theorem State.cutSlot_eq {s : State} {k : SlotIndex} (slot : s.sched.state = .slot k) : s.cutSlot = { s with
    link := s.cutSlot.link
    timers := s.cutSlot.timers
    due := s.due ++ s.decidedAtSlotEnd k } := by
  have index : s.slotIndex = k := State.slotIndex_of_slot slot
  by_cases receive : s.link.state = .receive
  · have cut : s.cutSlot = s.decideBad .cutBySlotEnd := by simp only [State.cutSlot, receive]
    rw [cut, State.decideBad_eq, State.decidedAtSlotEnd_receive receive, index, List.append_assoc]
  · by_cases window : s.link.state = .window
    · have cut : s.cutSlot = s.decideNone := by simp only [State.cutSlot, window]
      rw [cut, State.decideNone_eq, State.decidedAtSlotEnd_window window, index, List.append_assoc]
    · obtain ⟨none, uncut⟩ := State.decidedAtSlotEnd_none (k := k) receive window
      rw [uncut, none, List.append_nil]

theorem Exchange.mem_missedAck {ex : Exchange} {v : AckVerdict} {c : Instr} (h : c ∈ ex.missedAck v) : c = .ackOutcome v := by
  cases ex with
  | order n tag => exact List.mem_singleton.1 h
  | _ => exact absurd h List.not_mem_nil

/-- What a slot end decides is taken by the node table and the command engine: it times nothing and reports no fault of the
link. -/
theorem State.decidedAtSlotEnd_kind {s : State} {k : SlotIndex} {c : Instr} (decided : c ∈ s.decidedAtSlotEnd k) :
    isLineTimer c = false ∧ isRunReport c = false := by
  have outcome : ∀ {v i n kind w}, c ∈ s.link.exchange.missedAck v ++ [.nodeOutcome n kind i w] →
      isLineTimer c = false ∧ isRunReport c = false := by
    intro v i n kind w mem
    rcases List.mem_append.1 mem with ack | window
    · rw [Exchange.mem_missedAck ack]
      exact ⟨rfl, rfl⟩
    · rw [List.mem_singleton.1 window]
      exact ⟨rfl, rfl⟩
  by_cases receive : s.link.state = .receive
  · exact outcome (State.decidedAtSlotEnd_receive receive ▸ decided)
  · by_cases window : s.link.state = .window
    · exact outcome (State.decidedAtSlotEnd_window window ▸ decided)
    · rw [(State.decidedAtSlotEnd_none receive window).1] at decided
      exact absurd decided List.not_mem_nil

/-! ### The cycle end -/

/-- The cycle end makes the input swap: HOLD is 0 and no input catch-up copy runs (R82). -/
def State.inputsTakable (s : State) : Bool := !s.image.hold && s.image.inCopy.isNone

theorem State.cycleEndSwap_eq (s : State) : s.cycleEndSwap = if s.inputsTakable then s.inputSwap else s := rfl

theorem State.inputsTakable_iff {s : State} : s.inputsTakable = true ↔ s.image.hold = false ∧ s.image.inCopy = none := by
  simp [State.inputsTakable]

theorem State.inputsTakable_eq_false {s : State} :
    s.inputsTakable = false ↔ s.image.hold = true ∨ s.image.inCopy.isSome = true := by
  cases hold : s.image.hold <;> cases copy : s.image.inCopy <;> simp [State.inputsTakable, hold, copy]

/-- The input swap leaves the output side (R82). -/
theorem State.cycleEndSwap_outputs (s : State) :
    s.cycleEndSwap.image.publishPending = s.image.publishPending ∧ s.cycleEndSwap.image.outCopy = s.image.outCopy
      ∧ s.cycleEndSwap.image.outHost = s.image.outHost ∧ s.cycleEndSwap.image.outMap = s.image.outMap := by
  unfold State.cycleEndSwap
  split
  · exact ⟨rfl, rfl, rfl, rfl⟩
  · exact ⟨rfl, rfl, rfl, rfl⟩

/-- The input swap latches SNAP, and nothing else (R82). -/
theorem State.cycleEndSwap_bit (s : State) (k : Nat) :
    s.cycleEndSwap.fault.latches.getLsbD k = (s.fault.latches.getLsbD k || k == 3 && s.inputsTakable) := by
  have bit := causeBit 3 (by omega) s.inputsTakable k
  rw [← bit, ← BitVec.getLsbD_or, State.cycleEndSwap_eq]
  cases s.inputsTakable
  · simp
  · rfl

/-- The swap of the cycle end goes by the image unit, the cycle number and the fault unit alone. -/
theorem State.cycleEndSwap_congr {s v : State} (image : v.image = s.image)
    (number : v.sched.cycleNumber = s.sched.cycleNumber) (fault : v.fault = s.fault) :
    v.cycleEndSwap.image = s.cycleEndSwap.image ∧ v.cycleEndSwap.fault = s.cycleEndSwap.fault := by
  unfold State.cycleEndSwap
  rw [image]
  split
  · simp [State.inputSwap, State.latch, image, number, fault]
  · exact ⟨image, fault⟩

/-- A cycle end by the run state (R46, R144). -/
theorem State.cycleEnd_cases (s : State) :
    s.run.state = .running ∧ s.cycleEnd = s.schedIdle.cycleEndSwap.cycleStart
      ∨ s.run.state = .resuming ∧ s.cycleEnd = (s.schedIdle.cycleEndSwap.changeRun .running).cycleStart
      ∨ s.run.state = .draining ∧ s.cycleEnd = s.schedIdle.cycleEndSwap.directOff.enterStopped
      ∨ (s.run.state ≠ .running ∧ s.run.state ≠ .resuming ∧ s.run.state ≠ .draining)
        ∧ s.cycleEnd = s.schedIdle.cycleEndSwap.directOff := by
  have same : s.schedIdle.cycleEndSwap.run = s.run := by simp
  unfold State.cycleEnd
  generalize s.schedIdle.cycleEndSwap = u at same
  rw [← same]
  cases run : u.run.state <;> simp [run]

theorem State.cycleStart_due (s : State) : s.cycleStart.due = s.due ++ [.resultTimeout] := by
  simp [State.cycleStart]

theorem State.cycleStart_image_eq (s : State) : s.cycleStart.image = s.takePendingPublish.image := by
  have same : s.cycleStart.image = (State.takePendingPublish { s.takePendingSwitch with
      sched := { s.takePendingSwitch.sched with
        cycleNumber := s.takePendingSwitch.sched.cycleNumber + 1, state := .head } }).image := by
    simp [State.cycleStart]
  exact same.trans (State.takePendingPublish_image_congr (by simp))

theorem State.enterStopped_image_eq (s : State) : s.enterStopped.image = s.takePendingPublish.image :=
  State.takePendingPublish_image_congr (by simp)

/-- Of the image a cycle end changes what the input swap changes, and what a pending publish changes (R75, R82). -/
theorem State.cycleEnd_image_eq (s : State) : s.cycleEnd.image = s.cycleEndSwap.image
    ∨ s.cycleEnd.image = s.cycleEndSwap.takePendingPublish.image := by
  have swap : s.schedIdle.cycleEndSwap.image = s.cycleEndSwap.image :=
    (State.cycleEndSwap_congr (s := s) (v := s.schedIdle) rfl rfl rfl).1
  rcases s.cycleEnd_cases with ⟨-, e⟩ | ⟨-, e⟩ | ⟨-, e⟩ | ⟨-, e⟩
  · rw [e, State.cycleStart_image_eq]
    exact .inr (State.takePendingPublish_image_congr swap)
  · rw [e, State.cycleStart_image_eq]
    exact .inr (State.takePendingPublish_image_congr swap)
  · rw [e, State.enterStopped_image_eq]
    exact .inr (State.takePendingPublish_image_congr (by simpa using swap))
  · rw [e]
    exact .inl (by simpa using swap)

/-- The input side of an image unit is the same (R79, R82, R84). -/
def Image.SameInputSide (u v : Image) : Prop :=
  v.inHost = u.inHost ∧ v.hostFresh = u.hostFresh ∧ v.linkFresh = u.linkFresh ∧ v.snapCycle = u.snapCycle
    ∧ v.inCopy = u.inCopy ∧ v.inMap = u.inMap

theorem State.takePendingPublish_sameInputSide (s : State) : s.image.SameInputSide s.takePendingPublish.image := by
  unfold State.takePendingPublish
  split
  · exact ⟨rfl, rfl, rfl, rfl, rfl, rfl⟩
  · exact ⟨rfl, rfl, rfl, rfl, rfl, rfl⟩

/-- The input side after a cycle end is as the swap leaves it (R82). -/
theorem State.cycleEnd_sameInputSide (s : State) : s.cycleEndSwap.image.SameInputSide s.cycleEnd.image := by
  rcases s.cycleEnd_image_eq with e | e
  · rw [e]
    exact ⟨rfl, rfl, rfl, rfl, rfl, rfl⟩
  · rw [e]
    exact s.cycleEndSwap.takePendingPublish_sameInputSide

/-- A cycle end latches SNAP at the input swap, and only there (R82). -/
theorem State.cycleEnd_snap (s : State) :
    s.cycleEnd.fault.latches.getLsbD 3 = (s.fault.latches.getLsbD 3 || s.inputsTakable) := by
  have swap : s.schedIdle.cycleEndSwap.fault.latches.getLsbD 3 = (s.fault.latches.getLsbD 3 || s.inputsTakable) :=
    (State.cycleEndSwap_bit _ 3).trans (by simp [State.inputsTakable])
  rw [← swap]
  rcases s.cycleEnd_cases with ⟨-, e⟩ | ⟨-, e⟩ | ⟨-, e⟩ | ⟨-, e⟩
  · rw [e, State.cycleStart_latches]
    simp
  · rw [e, State.cycleStart_latches]
    simp
  · obtain ⟨u, swapped⟩ : ∃ u, u = s.schedIdle.cycleEndSwap := ⟨_, rfl⟩
    have stopped : u.EntersStopped u.directOff.enterStopped :=
      u.enterStopped_enters u.directOff (by simp) (by simp) (by simp) (by simp) u.directOff_line
    rw [e, ← swapped, stopped.latched 3]
    simp
  · rw [e]
    simp

theorem latched_of_getLsbD {x : Word} {i : Nat} (small : i < 16) (h : x.getLsbD i = true) :
    x &&& BitVec.ofNat 16 (2 ^ i) = BitVec.ofNat 16 (2 ^ i) := by
  refine BitVec.eq_of_getLsbD_eq fun k _ => ?_
  have bit := causeBit i small true k
  simp only [if_true, Bool.and_true] at bit
  rw [BitVec.getLsbD_and, bit]
  by_cases same : k = i
  · simp [same, h]
  · simp [same]

/-- The state at the input swap of a cycle end, with the line and the timers that the slot end leaves. -/
theorem State.SlotCut.swapped {s v : State} (cut : s.SlotCut v) :
    s.cycleEndSwap.schedIdle.SlotCut v.schedIdle.cycleEndSwap := by
  obtain ⟨image, fault⟩ := State.cycleEndSwap_congr (s := s) (v := v.schedIdle) cut.image
    (by simp [cut.sched]) cut.fault
  obtain ⟨nodes, cmd, result⟩ := cut.transactions
  exact ⟨by simp [cut.sched], image, by simp [cut.run], fault, by simp [nodes, cmd, result], by simp [cut.rate]⟩

/-- A cycle start at the cycle end, whatever the run state is then (R44, R82). -/
theorem State.SlotCut.startsCycle {s u : State} (cut : s.cycleEndSwap.schedIdle.SlotCut u) {v : State}
    (same : v.sched = u.sched ∧ v.image = u.image ∧ v.nodes = u.nodes ∧ v.cmd = u.cmd ∧ v.result = u.result
      ∧ v.link = u.link)
    (latches : ∀ k, k < 3 → v.fault.latches.getLsbD k = u.fault.latches.getLsbD k) : s.StartsCycle v.cycleStart := by
  obtain ⟨sched, image, nodes, cmd, result, link⟩ := same
  obtain ⟨nodes', cmd', result'⟩ := cut.transactions
  refine State.cycleStart_starts s v ?_ ?_ (fun k small => ?_) ?_ ?_
  · rw [sched, cut.sched]
    simp
  · rw [image, cut.image]
    exact s.cycleEndSwap_outputs
  · rw [latches k small, cut.fault]
    exact (s.cycleEndSwap_bit k).trans (by simp [show k ≠ 3 by omega])
  · rw [nodes, cmd, result, nodes', cmd', result']
    simp
  · rw [link, cut.rate]
    simp

/-- The cycle end in RUNNING starts a cycle (R144). -/
theorem State.SlotCut.cycleEnd_running {s v : State} (cut : s.SlotCut v) (running : s.run.state = .running) :
    s.StartsCycle v.cycleEnd ∧ v.cycleEnd.run = s.run ∧ v.cycleEnd.due = v.due ++ [.resultTimeout] := by
  have ends : v.cycleEnd = v.schedIdle.cycleEndSwap.cycleStart := by
    rcases v.cycleEnd_cases with ⟨-, e⟩ | ⟨run, -⟩ | ⟨run, -⟩ | ⟨⟨run, -⟩, -⟩
    · exact e
    · simp [cut.run, running] at run
    · simp [cut.run, running] at run
    · simp [cut.run, running] at run
  rw [ends]
  refine ⟨cut.swapped.startsCycle ⟨rfl, rfl, rfl, rfl, rfl, rfl⟩ fun _ _ => rfl, by simp [cut.run], ?_⟩
  rw [State.cycleStart_due]
  simp

/-- The cycle end in RESUMING enters RUNNING and starts a cycle (R144, R154). -/
theorem State.SlotCut.cycleEnd_resuming {s v : State} (cut : s.SlotCut v) (resuming : s.run.state = .resuming) :
    s.StartsCycle v.cycleEnd ∧ v.cycleEnd.run = { s.run with state := .running }
      ∧ v.cycleEnd.fault.latches &&& 0x0010#16 = 0x0010#16 ∧ v.cycleEnd.due = v.due ++ [.resultTimeout] := by
  have ends : v.cycleEnd = (v.schedIdle.cycleEndSwap.changeRun .running).cycleStart := by
    rcases v.cycleEnd_cases with ⟨run, -⟩ | ⟨-, e⟩ | ⟨run, -⟩ | ⟨⟨-, run, -⟩, -⟩
    · simp [cut.run, resuming] at run
    · exact e
    · simp [cut.run, resuming] at run
    · simp [cut.run, resuming] at run
  have latches (k : Nat) : (v.schedIdle.cycleEndSwap.changeRun .running).fault.latches.getLsbD k
      = (v.schedIdle.cycleEndSwap.fault.latches.getLsbD k || k == 4) := by
    have bit := causeBit 4 (by omega) true k
    rw [State.changeRun_fault_latches, BitVec.getLsbD_or]
    exact congrArg _ (by simpa using bit)
  rw [ends]
  refine ⟨cut.swapped.startsCycle ⟨rfl, rfl, rfl, rfl, rfl, rfl⟩ fun k small => ?_, by simp [cut.run], ?_, ?_⟩
  · rw [latches]
    simp [show k ≠ 4 by omega]
  · refine latched_of_getLsbD (i := 4) (by omega) ?_
    rw [State.cycleStart_latches, latches]
    simp
  · rw [State.cycleStart_due]
    simp

/-- The cycle end in DRAINING enters STOPPED (R42, R75, R144). -/
theorem State.SlotCut.cycleEnd_draining {s v : State} (cut : s.SlotCut v) (draining : s.run.state = .draining) :
    s.cycleEndSwap.EntersStopped v.cycleEnd ∧ v.cycleEnd.sched.cycleNumber = s.sched.cycleNumber
      ∧ v.cycleEnd.cmd = s.cmd ∧ v.cycleEnd.nodes = s.nodes ∧ v.cycleEnd.result = s.result
      ∧ v.cycleEnd.due = (v.due.filter fun c => !isLineTimer c).filter fun c => !isRunReport c := by
  have ends : v.cycleEnd = v.schedIdle.cycleEndSwap.directOff.enterStopped := by
    rcases v.cycleEnd_cases with ⟨run, -⟩ | ⟨run, -⟩ | ⟨-, e⟩ | ⟨⟨-, -, run⟩, -⟩
    · simp [cut.run, draining] at run
    · simp [cut.run, draining] at run
    · exact e
    · simp [cut.run, draining] at run
  have swapped := cut.swapped
  obtain ⟨nodes, cmd, result⟩ := cut.transactions
  rw [ends]
  refine ⟨?_, by simp [cut.sched], by simp [cmd], by simp [nodes], by simp [result], ?_⟩
  · exact State.enterStopped_enters _ _ (by simp [cut.sched]) (by simpa using swapped.image) (by simp [cut.run])
      (by simpa using swapped.fault) (State.directOff_line _)
  · obtain ⟨-, -, -, due, -⟩ := v.schedIdle.cycleEndSwap.directOff.enterStopped_spec
    rw [due]
    simp

/-- Whatever the run state is, what is due at a cycle end stays due, but for expiries and reports of the run (R155, R156). -/
theorem State.cycleEnd_keepsDue {s : State} {c : Instr} (due : c ∈ s.due) (timer : isLineTimer c = false)
    (report : isRunReport c = false) : c ∈ s.cycleEnd.due := by
  rcases s.cycleEnd_cases with ⟨-, e⟩ | ⟨-, e⟩ | ⟨-, e⟩ | ⟨-, e⟩
  · rw [e, State.cycleStart_due]
    simp [due]
  · rw [e, State.cycleStart_due]
    simp [due]
  · obtain ⟨-, -, -, kept, -⟩ := s.schedIdle.cycleEndSwap.directOff.enterStopped_spec
    rw [e, kept]
    simp [due, timer, report]
  · rw [e]
    simpa using due

/-- The cycle end with the input swap (R82). -/
theorem State.SlotCut.cycleEnd_swapped {s v : State} (cut : s.SlotCut v) (takable : s.inputsTakable = true) :
    v.cycleEnd.image.inHost = (!s.image.inHost) ∧ v.cycleEnd.image.hostFresh = s.image.linkFresh
      ∧ v.cycleEnd.image.linkFresh = 0 ∧ v.cycleEnd.image.snapCycle = s.sched.cycleNumber
      ∧ v.cycleEnd.image.inCopy = some 0 ∧ v.cycleEnd.image.inMap = 0
      ∧ v.cycleEnd.fault.latches &&& 0x0008#16 = 0x0008#16 := by
  obtain ⟨inHost, hostFresh, linkFresh, snapCycle, inCopy, inMap⟩ := v.cycleEnd_sameInputSide
  have same : v.inputsTakable = s.inputsTakable := by simp [State.inputsTakable, cut.image]
  have swap : v.cycleEndSwap = v.inputSwap := by rw [v.cycleEndSwap_eq, same, if_pos takable]
  rw [swap] at inHost hostFresh linkFresh snapCycle inCopy inMap
  refine ⟨?_, ?_, linkFresh, ?_, inCopy, inMap, latched_of_getLsbD (i := 3) (by omega) ?_⟩
  · rw [inHost, ← cut.image]
    rfl
  · rw [hostFresh, ← cut.image]
    rfl
  · rw [snapCycle, ← cut.sched]
    rfl
  · rw [v.cycleEnd_snap, same, takable, Bool.or_true]

/-- The cycle end without the input swap makes none of its changes (R82). -/
theorem State.SlotCut.cycleEnd_unswapped {s v : State} (cut : s.SlotCut v) (kept : s.inputsTakable = false) :
    v.cycleEnd.image.inHost = s.image.inHost ∧ v.cycleEnd.image.hostFresh = s.image.hostFresh
      ∧ v.cycleEnd.image.linkFresh = s.image.linkFresh ∧ v.cycleEnd.image.snapCycle = s.image.snapCycle
      ∧ v.cycleEnd.image.inCopy = s.image.inCopy ∧ v.cycleEnd.image.inMap = s.image.inMap
      ∧ v.cycleEnd.fault.latches.getLsbD 3 = s.fault.latches.getLsbD 3 := by
  have inputs := v.cycleEnd_sameInputSide
  have same : v.inputsTakable = s.inputsTakable := by simp [State.inputsTakable, cut.image]
  have swap : v.cycleEndSwap = v := by rw [v.cycleEndSwap_eq, same, kept]; rfl
  rw [swap, cut.image] at inputs
  obtain ⟨inHost, hostFresh, linkFresh, snapCycle, inCopy, inMap⟩ := inputs
  refine ⟨inHost, hostFresh, linkFresh, snapCycle, inCopy, inMap, ?_⟩
  rw [v.cycleEnd_snap, same, kept, cut.fault, Bool.or_false]

/-! ### Head segment ends and slot ends -/

/-- The head segment's end starts its slot (R45). -/
theorem execHeadSegmentEnd_leads {s : State} {k : SlotIndex} (out : s.inReset = false) (head : s.sched.state = .head)
    (first : s.sched.nonZeroSlots.head? = some k) (inside : s.slotBeyondBank k = false) :
    exec .headSegmentEnd s = .next ((s.takeDue .headSegmentEnd).dropLineTimers.slotStart k) := by
  have start : s.startBeyondBank = false := by simp [State.startBeyondBank, State.slotToStart, head, first, inside]
  simp only [exec, execHeadSegmentEnd, start, Bool.and_false, Bool.false_eq_true, if_false, s.event_ready _ _ out,
    State.headEnd, State.takeDue_sched, head, first]

/-- A slot end decides its window, and leads on (R37, R45, R46). -/
theorem execSlotEnd_leads {s : State} {j : SlotIndex} (out : s.inReset = false) (slot : s.sched.state = .slot j)
    (inside : ∀ k, s.sched.nextSlot j = some k → s.slotBeyondBank k = false) :
    exec .slotEnd s = .next ((s.takeDue .slotEnd).cutSlot.dropLineTimers.afterSlot j) := by
  have start : s.startBeyondBank = false := by
    unfold State.startBeyondBank State.slotToStart
    rw [slot]
    cases next : s.sched.nextSlot j with
    | none => simp [next]
    | some k => simp [next, inside k next]
  simp only [exec, execSlotEnd, start, Bool.and_false, Bool.false_eq_true, if_false, s.event_ready _ _ out,
    State.slotEnd, State.takeDue_sched, slot]

/-- The events due after a slot end has decided its window. -/
theorem State.slotCut_due {s : State} {j : SlotIndex} (slot : s.sched.state = .slot j) :
    (s.takeDue .slotEnd).cutSlot.dropLineTimers = { s with
      link := (s.takeDue .slotEnd).cutSlot.dropLineTimers.link
      timers := (s.takeDue .slotEnd).cutSlot.dropLineTimers.timers
      due := (s.due.erase .slotEnd ++ s.decidedAtSlotEnd j).filter fun c => !isLineTimer c } := by
  rw [State.cutSlot_eq (s := s.takeDue .slotEnd) slot]
  rfl

/-- Settles O47: the slot that follows the head segment, the slot that follows a slot, and the cycle end by the run state and
by the input swap. -/
theorem slotEndsLeadOn : Obligations.SlotEndsLeadOn := by
  unfold Obligations.SlotEndsLeadOn
  refine ⟨fun u j k => u.nextSlot_iff j k, fun s out => ?_⟩
  intro length rest swapped
  have cut := s.slotCut_cutSlot
  refine ⟨fun k head used lowest inside => ?_, fun j k slot next inside => ?_, fun j slot last => ?_⟩
  · exact execHeadSegmentEnd_leads out head (Sched.firstSlot used lowest) inside
  · have leads := execSlotEnd_leads out slot fun k' next' => by
      rw [next] at next'
      cases next'
      exact inside
    refine ⟨leads.trans ?_, State.slotCut_due slot, by simp, by simp⟩
    simp only [State.afterSlot, cut.sched, next]
  · have leads := execSlotEnd_leads out slot fun k' next' => by
      rw [last] at next'
      cases next'
    have swap : swapped = s.cycleEndSwap := by
      rw [s.cycleEndSwap_eq]
      simp only [swapped, State.inputsTakable_iff]
      rfl
    have due : (s.takeDue .slotEnd).cutSlot.dropLineTimers.due = rest j := congrArg State.due (State.slotCut_due slot)
    simp only [State.afterSlot, cut.sched, last] at leads
    generalize (s.takeDue .slotEnd).cutSlot.dropLineTimers = v at cut leads due
    refine ⟨_, leads, fun running => ?_, fun resuming => ?_, fun draining => ?_, fun noHold idle => ?_, fun kept => ?_,
      ?_, fun c decided => ?_⟩
    · rw [← due]
      exact cut.cycleEnd_running running
    · rw [← due]
      exact cut.cycleEnd_resuming resuming
    · have timed : (v.due.filter fun c => !isLineTimer c) = v.due := by
        rw [due]
        simp only [rest, List.filter_filter, Bool.and_self]
      obtain ⟨stopped, number, cmd, nodes, result, left⟩ := cut.cycleEnd_draining draining
      rw [timed, due] at left
      rw [swap]
      exact ⟨stopped, number, cmd, nodes, result, left⟩
    · exact cut.cycleEnd_swapped (State.inputsTakable_iff.2 ⟨noHold, idle⟩)
    · exact cut.cycleEnd_unswapped (State.inputsTakable_eq_false.2 kept)
    · rw [← cut.image]
      exact v.cycleEnd_image
    · obtain ⟨timer, report⟩ := State.decidedAtSlotEnd_kind decided
      exact State.cycleEnd_keepsDue (by rw [due]; simp [rest, decided, timer]) timer report

end Sys2Proof.Machine
end

section
/-! PROOFS. Which node-down notices are still to be taken: nothing but the node table hands one, and nothing but the command
engine and a reset takes one off (R53, R62, R68, R111). -/

namespace Sys2Proof.Machine

open Sys2Proof

/-! ### Lists of events -/

@[simp] theorem isLineTimer_notice (n : NodeAddr) : isLineTimer (.nodeDownNotice n) = false := rfl
@[simp] theorem isWindowTimer_notice (n : NodeAddr) : isWindowTimer (.nodeDownNotice n) = false := rfl
@[simp] theorem isRunReport_notice (n : NodeAddr) : isRunReport (.nodeDownNotice n) = false := rfl

/-- Taking another event off leaves a notice due. -/
theorem mem_takeDue_notice {c : Instr} {n : NodeAddr} (h : c ≠ .nodeDownNotice n) (s : State) :
    Instr.nodeDownNotice n ∈ (s.takeDue c).due ↔ Instr.nodeDownNotice n ∈ s.due :=
  List.mem_erase_of_ne (Ne.symm h)

/-! ### The schedule and the image unit -/

@[simp] theorem State.recordValidation_noticed (s : State) (n : NodeAddr) (v : Validation) :
    Instr.nodeDownNotice n ∈ (s.recordValidation v).due ↔ Instr.nodeDownNotice n ∈ s.due := by
  unfold State.recordValidation
  split <;> simp

@[simp] theorem State.requestSwitch_noticed (s : State) (n : NodeAddr) (t : TableId) :
    Instr.nodeDownNotice n ∈ (s.requestSwitch t).due ↔ Instr.nodeDownNotice n ∈ s.due := by
  unfold State.requestSwitch
  dsimp only
  repeat' split
  all_goals simp

@[simp] theorem State.writeSlotRecord_noticed (s : State) (n : NodeAddr) (offset : Word) (f : SlotRecord → SlotRecord) :
    Instr.nodeDownNotice n ∈ (s.writeSlotRecord offset f).due ↔ Instr.nodeDownNotice n ∈ s.due := by
  unfold State.writeSlotRecord
  dsimp only
  split <;> simp

@[simp] theorem State.imageWrite_noticed (s : State) (n : NodeAddr) (lanes : Lanes) (addr : BitVec 11) (data : Word) :
    Instr.nodeDownNotice n ∈ (s.imageWrite lanes addr data).due ↔ Instr.nodeDownNotice n ∈ s.due := by
  unfold State.imageWrite
  dsimp only
  repeat' split
  all_goals simp

@[simp] theorem State.imageRead_noticed (s : State) (n : NodeAddr) (lanes : Lanes) (addr : BitVec 11) :
    Instr.nodeDownNotice n ∈ (s.imageRead lanes addr).1.due ↔ Instr.nodeDownNotice n ∈ s.due := by
  unfold State.imageRead
  dsimp only
  split <;> simp

@[simp] theorem State.raiseCopyFault_noticed (s : State) (n : NodeAddr) (seen : Bool) (bad : Option Nat) :
    Instr.nodeDownNotice n ∈ (s.raiseCopyFault seen bad).due ↔ Instr.nodeDownNotice n ∈ s.due := by
  unfold State.raiseCopyFault
  split <;> simp

@[simp] theorem State.publishAfterLine_noticed (s : State) (n : NodeAddr) (k : BitVec 6) :
    Instr.nodeDownNotice n ∈ (s.publishAfterLine k).due ↔ Instr.nodeDownNotice n ∈ s.due := by
  unfold State.publishAfterLine
  split <;> simp

@[simp] theorem State.copyLine_noticed (s : State) (n : NodeAddr) :
    Instr.nodeDownNotice n ∈ s.copyLine.due ↔ Instr.nodeDownNotice n ∈ s.due := by
  unfold State.copyLine
  dsimp only
  split <;> simp [State.outputLine, State.inputLine]

@[simp] theorem State.lineCopy_noticed (s : State) (n : NodeAddr) :
    Instr.nodeDownNotice n ∈ s.lineCopy.due ↔ Instr.nodeDownNotice n ∈ s.due := by
  rcases s.lineCopy_cases with e | e | e <;> rw [e] <;> simp

/-! ### The run and the slots -/

@[simp] theorem State.enterStopped_noticed (s : State) (n : NodeAddr) :
    Instr.nodeDownNotice n ∈ s.enterStopped.due ↔ Instr.nodeDownNotice n ∈ s.due := by
  simp [State.enterStopped]

@[simp] theorem State.haltRun_noticed (s : State) (n : NodeAddr) :
    Instr.nodeDownNotice n ∈ s.haltRun.due ↔ Instr.nodeDownNotice n ∈ s.due := by
  simp [State.haltRun]

@[simp] theorem State.startBuilt_noticed (s : State) (n : NodeAddr) (copies : List SliceCopy) (ex : Exchange) (frame : List Byte) :
    Instr.nodeDownNotice n ∈ (s.startBuilt copies ex frame).due ↔ Instr.nodeDownNotice n ∈ s.due := by
  unfold State.startBuilt
  split <;> simp

@[simp] theorem State.resolveCyclic_noticed (s : State) (n : NodeAddr) (r : SlotRecord) :
    Instr.nodeDownNotice n ∈ (s.resolveCyclic r).due ↔ Instr.nodeDownNotice n ∈ s.due := by
  unfold State.resolveCyclic State.resolveCyc State.resolvePair State.sendData State.sendPair
  repeat' split
  all_goals simp

@[simp] theorem State.cycleStart_noticed (s : State) (n : NodeAddr) :
    Instr.nodeDownNotice n ∈ s.cycleStart.due ↔ Instr.nodeDownNotice n ∈ s.due := by
  simp [State.cycleStart_due]

@[simp] theorem State.cycleEnd_noticed (s : State) (n : NodeAddr) :
    Instr.nodeDownNotice n ∈ s.cycleEnd.due ↔ Instr.nodeDownNotice n ∈ s.due := by
  unfold State.cycleEnd
  dsimp only
  split <;> simp

/-! ### The line -/

@[simp] theorem State.linkFault_noticed (s : State) (n : NodeAddr) (kind : LinkFaultKind) (node : NodeAddr) :
    Instr.nodeDownNotice n ∈ (s.linkFault kind node).due ↔ Instr.nodeDownNotice n ∈ s.due := by
  unfold State.linkFault State.handAbandon
  dsimp only
  split <;> simp

@[simp] theorem State.handMissed_noticed (s : State) (n : NodeAddr) (v : Verdict) (ack : AckVerdict) :
    Instr.nodeDownNotice n ∈ (s.handMissed v ack).due ↔ Instr.nodeDownNotice n ∈ s.due := by
  unfold State.handMissed
  dsimp only
  split <;> simp

@[simp] theorem State.decideBad_noticed (s : State) (n : NodeAddr) (c : BadCause) :
    Instr.nodeDownNotice n ∈ (s.decideBad c).due ↔ Instr.nodeDownNotice n ∈ s.due := by
  simp [State.decideBad]

@[simp] theorem State.decideNone_noticed (s : State) (n : NodeAddr) :
    Instr.nodeDownNotice n ∈ s.decideNone.due ↔ Instr.nodeDownNotice n ∈ s.due := by
  simp [State.decideNone]

@[simp] theorem State.decideGood_noticed (s : State) (n : NodeAddr) (bytes : List Byte) :
    Instr.nodeDownNotice n ∈ (s.decideGood bytes).due ↔ Instr.nodeDownNotice n ∈ s.due := by
  unfold State.decideGood
  dsimp only
  repeat' split
  all_goals simp

@[simp] theorem State.judgeByte_noticed (s : State) (n : NodeAddr) (b : Byte) :
    Instr.nodeDownNotice n ∈ (s.judgeByte b).due ↔ Instr.nodeDownNotice n ∈ s.due := by
  unfold State.judgeByte
  dsimp only
  repeat' split
  all_goals simp

@[simp] theorem State.onset_noticed (s : State) (n : NodeAddr) :
    Instr.nodeDownNotice n ∈ s.onset.due ↔ Instr.nodeDownNotice n ∈ s.due := by
  unfold State.onset State.quietOnset State.windowOnset State.receiveOnset State.lateOnset
  dsimp only
  repeat' split
  all_goals simp

@[simp] theorem State.characterEnd_noticed (s : State) (n : NodeAddr) (b : Byte) (stop : Bool) :
    Instr.nodeDownNotice n ∈ (s.characterEnd b stop).due ↔ Instr.nodeDownNotice n ∈ s.due := by
  unfold State.characterEnd
  dsimp only
  repeat' split
  all_goals simp

@[simp] theorem State.characterGap_noticed (s : State) (n : NodeAddr) :
    Instr.nodeDownNotice n ∈ s.characterGap.due ↔ Instr.nodeDownNotice n ∈ s.due := by
  unfold State.characterGap
  split <;> simp

@[simp] theorem State.windowClose_noticed (s : State) (n : NodeAddr) :
    Instr.nodeDownNotice n ∈ s.windowClose.due ↔ Instr.nodeDownNotice n ∈ s.due := by
  unfold State.windowClose
  split <;> simp

@[simp] theorem State.closeFirst_noticed (s : State) (n : NodeAddr) :
    Instr.nodeDownNotice n ∈ s.closeFirst.due ↔ Instr.nodeDownNotice n ∈ s.due := by
  unfold State.closeFirst
  split <;> simp

@[simp] theorem State.window2Open_noticed (s : State) (n : NodeAddr) :
    Instr.nodeDownNotice n ∈ s.window2Open.due ↔ Instr.nodeDownNotice n ∈ s.due := by
  unfold State.window2Open
  dsimp only
  split <;> simp

@[simp] theorem State.readback_noticed (s : State) (n : NodeAddr) (level : Bool) :
    Instr.nodeDownNotice n ∈ (s.readback level).due ↔ Instr.nodeDownNotice n ∈ s.due := by
  unfold State.readback
  repeat' split
  all_goals simp

@[simp] theorem State.cutSlot_noticed (s : State) (n : NodeAddr) :
    Instr.nodeDownNotice n ∈ s.cutSlot.due ↔ Instr.nodeDownNotice n ∈ s.due := by
  unfold State.cutSlot
  split <;> simp

/-! ### Host accesses and the run commands -/

@[simp] theorem State.cmdRun_noticed (s : State) (n : NodeAddr) :
    Instr.nodeDownNotice n ∈ s.cmdRun.due ↔ Instr.nodeDownNotice n ∈ s.due := by
  unfold State.cmdRun State.startRun State.refuseRun
  dsimp only
  repeat' split
  all_goals simp

@[simp] theorem State.cmdStop_noticed (s : State) (n : NodeAddr) :
    Instr.nodeDownNotice n ∈ s.cmdStop.due ↔ Instr.nodeDownNotice n ∈ s.due := by
  unfold State.cmdStop
  split <;> simp

@[simp] theorem State.cmdRestart_noticed (s : State) (n : NodeAddr) :
    Instr.nodeDownNotice n ∈ s.cmdRestart.due ↔ Instr.nodeDownNotice n ∈ s.due := by
  unfold State.cmdRestart State.refuseRun
  split <;> simp

@[simp] theorem State.takeLineQuiet_noticed (s : State) (n : NodeAddr) :
    Instr.nodeDownNotice n ∈ s.takeLineQuiet.due ↔ Instr.nodeDownNotice n ∈ s.due := by
  unfold State.takeLineQuiet
  repeat' split
  all_goals simp

@[simp] theorem State.refuseAccess_noticed (s : State) (n : NodeAddr) (o : Nat) :
    Instr.nodeDownNotice n ∈ (s.refuseAccess o).due ↔ Instr.nodeDownNotice n ∈ s.due := by
  simp [State.refuseAccess]

@[simp] theorem State.writeSetting_noticed (s : State) (n : NodeAddr) (offset : Word) {f : State → State} (h : (f s).due = s.due) :
    Instr.nodeDownNotice n ∈ (s.writeSetting offset f).due ↔ Instr.nodeDownNotice n ∈ s.due := by
  unfold State.writeSetting
  split <;> simp [h]

end Sys2Proof.Machine
end

section
/-! PROOFS. What the laws of the command engine and the result unit rest on: the keys of the entries, the settle orders that
wait, the live nodes, the credits and the node-down notices; and the relation between two states that keeps all of them
(R91 to R93, R95 to R97, R111, R120, R129, R130, R134). -/

namespace Sys2Proof.Machine

open Sys2Proof

/-! ### The laws by keys -/

/-- The keys of all transactions, in the command queue and in the outstanding table. -/
def State.keys (s : State) : List (Byte × NodeAddr × Nat) :=
  s.cmd.queue.map QueueEntry.key ++ s.cmd.outstanding.map OutEntry.key

theorem State.pushLaw_iff {s : State} :
    s.PushLaw ↔ (s.keys.map (·.2.2)).Nodup ∧ ∀ k ∈ s.keys, k.2.2 < s.cmd.nextPush := by
  have pushes : s.keys.map (·.2.2) = s.cmd.queue.map (·.push) ++ s.cmd.outstanding.map (·.push) := by
    simp [State.keys, Function.comp_def, QueueEntry.key, OutEntry.key]
  unfold State.PushLaw
  rw [← pushes, List.forall_mem_map]

theorem State.tagLaw_iff {s : State} : s.TagLaw ↔ (s.keys.map (·.1)).Nodup := by
  have tags : s.keys.map (·.1) = s.cmd.queue.map (·.tag) ++ s.cmd.outstanding.map (·.tag) := by
    simp [State.keys, Function.comp_def, QueueEntry.key, OutEntry.key]
  unfold State.TagLaw
  rw [tags]

/-- The in-flight count of a node, by the keys of the unsettled entries (R96). -/
theorem State.inFlight_eq (s : State) (n : NodeAddr) : s.inFlight n = s.unsettledKeys.countP fun k => k.2.1 == n := by
  rw [State.unsettledKeys, List.countP_map, List.countP_filter, State.inFlight, List.countP_eq_length_filter]
  exact congrArg List.length (List.filter_congr fun e _ => Bool.and_comm ..)

theorem State.nodeDownLaw_iff {s : State} : s.NodeDownLaw ↔ ∀ k ∈ s.unsettledKeys ++ s.waitingKeys, k.2.1 ≠ 0 →
    s.isLive k.2.1 = true ∨ Instr.nodeDownNotice k.2.1 ∈ s.due := by
  simp only [State.NodeDownLaw, State.unsettledKeys, State.waitingKeys, List.forall_mem_append, List.forall_mem_map,
    List.mem_filter, and_imp]
  rfl

/-- Keys that all stood in the tables before keep the push order (R92). -/
theorem State.pushLaw_of_keys {s t : State} (law : s.PushLaw) (keys : t.keys.Subperm s.keys)
    (next : t.cmd.nextPush = s.cmd.nextPush) : t.PushLaw := by
  obtain ⟨nodup, below⟩ := State.pushLaw_iff.1 law
  obtain ⟨l, same, sub⟩ := keys
  refine State.pushLaw_iff.2 ⟨(same.map _).nodup_iff.1 (nodup.sublist (sub.map _)), fun k hk => ?_⟩
  rw [next]
  exact below k (sub.subset (same.symm.subset hk))

/-- Keys that all stood in the tables before keep the tag law (R91). -/
theorem State.tagLaw_of_keys {s t : State} (law : s.TagLaw) (keys : t.keys.Subperm s.keys) : t.TagLaw := by
  obtain ⟨l, same, sub⟩ := keys
  exact State.tagLaw_iff.2 ((same.map _).nodup_iff.1 ((State.tagLaw_iff.1 law).sublist (sub.map _)))

/-! ### The tables served -/

/-- How everything but a put, a first transmission and a reset serves the tables: entries leave or wait to be posted, none
comes, none becomes unsettled or WAITING again, and the response queue and the settle orders keep their laws. -/
structure State.TablesServed (s t : State) : Prop where
  out : (t.cmd.outstanding.map OutEntry.key).Sublist (s.cmd.outstanding.map OutEntry.key)
  queue : (t.cmd.queue.map QueueEntry.key).Sublist (s.cmd.queue.map QueueEntry.key)
  next : t.cmd.nextPush = s.cmd.nextPush
  response : s.ResponseLaw → t.ResponseLaw
  unsettled : s.PushLaw → t.unsettledKeys.Sublist s.unsettledKeys
  waiting : t.waitingKeys.Sublist s.waitingKeys
  order : s.PushLaw → s.SettleOrderLaw → t.SettleOrderLaw

theorem State.TablesServed.keys {s t : State} (h : s.TablesServed t) : t.keys.Sublist s.keys := h.queue.append h.out

theorem State.TablesServed.pushLaw {s t : State} (h : s.TablesServed t) (law : s.PushLaw) : t.PushLaw :=
  State.pushLaw_of_keys law h.keys.subperm h.next

theorem State.TablesServed.trans {s t u : State} (h : s.TablesServed t) (h' : t.TablesServed u) : s.TablesServed u where
  out := h'.out.trans h.out
  queue := h'.queue.trans h.queue
  next := h'.next.trans h.next
  response := h'.response ∘ h.response
  unsettled law := (h'.unsettled (h.pushLaw law)).trans (h.unsettled law)
  waiting := h'.waiting.trans h.waiting
  order law := h'.order (h.pushLaw law) ∘ h.order law

/-- Settle orders that all waited before keep their law (R120, R129). -/
theorem State.settleOrderLaw_of_sublist {s t : State} (law : s.SettleOrderLaw)
    (sub : t.waitingOrders.Sublist s.waitingOrders) (next : s.result.nextOrder ≤ t.result.nextOrder) :
    t.SettleOrderLaw :=
  ⟨law.1.sublist sub, fun o ho => (law.2 o (sub.subset ho)).trans_le next⟩

/-- Settling is one way to serve the tables. -/
theorem State.Settles.served {s t : State} (h : s.Settles t) (order : s.PushLaw → s.SettleOrderLaw → t.SettleOrderLaw) :
    s.TablesServed t :=
  ⟨h.out, h.queue, h.next, h.law, fun _ => h.unsettled, h.waiting, order⟩

/-- A change elsewhere leaves the tables served. -/
theorem State.TablesServed.of_eq {s t : State} (out : t.cmd.outstanding = s.cmd.outstanding)
    (queue : t.cmd.queue = s.cmd.queue) (next : t.cmd.nextPush = s.cmd.nextPush) (result : t.result = s.result) :
    s.TablesServed t := by
  refine (State.Settles.of_eq out queue next result).served fun _ law => ?_
  simpa [State.SettleOrderLaw, State.waitingOrders, out, queue, result] using law

theorem State.TablesServed.of_cmd {s t : State} (cmd : t.cmd = s.cmd) (result : t.result = s.result) :
    s.TablesServed t :=
  .of_eq (by rw [cmd]) (by rw [cmd]) (by rw [cmd]) result

/-! ### Entries changed in their place -/

/-- What a list shows of its elements shrinks when each shows the same as before or nothing. -/
theorem filterMap_map_sublist {α β : Type} {f : α → α} {g : α → Option β} {l : List α}
    (h : ∀ x ∈ l, g (f x) = none ∨ g (f x) = g x) : ((l.map f).filterMap g).Sublist (l.filterMap g) := by
  induction l with
  | nil => exact .refl _
  | cons x rest ih =>
    have sub := ih fun y hy => h y (List.mem_cons_of_mem x hy)
    rw [List.map_cons, List.filterMap_cons, List.filterMap_cons]
    rcases h x List.mem_cons_self with e | e <;> rw [e]
    · cases g x with
      | none => exact sub
      | some y => exact sub.cons y
    · cases g x with
      | none => exact sub
      | some y => exact sub.cons_cons y

theorem State.unsettledKeys_eq (s : State) :
    s.unsettledKeys = s.cmd.outstanding.filterMap fun e => if e.unsettled then some e.key else none := by
  rw [State.unsettledKeys, ← List.filterMap_eq_map, List.filterMap_filter]
  rfl

/-- Outstanding entries changed in their place, none of them HELD anew and none of them unsettled anew. -/
theorem State.tablesServed_map {s t : State} (f : OutEntry → OutEntry) (out : t.cmd.outstanding = s.cmd.outstanding.map f)
    (queue : t.cmd.queue = s.cmd.queue) (next : t.cmd.nextPush = s.cmd.nextPush) (result : t.result = s.result)
    (key : ∀ e, (f e).key = e.key) (held : ∀ e, (f e).settlement? = none ∨ (f e).settlement? = e.settlement?)
    (unsettled : s.PushLaw → ∀ e ∈ s.cmd.outstanding, (f e).unsettled = true → e.unsettled = true) :
    s.TablesServed t := by
  have orders : t.waitingOrders.Sublist s.waitingOrders := by
    unfold State.waitingOrders
    rw [queue, out]
    refine (List.Sublist.refl _).append (filterMap_map_sublist fun e _ => ?_)
    rcases held e with h | h <;> simp [h]
  refine ⟨?_, by rw [queue], next, ?_, fun law => ?_, ?_,
    fun _ law => State.settleOrderLaw_of_sublist law orders (by rw [result])⟩
  · rw [out, List.map_map, show OutEntry.key ∘ f = OutEntry.key from funext key]
  · rintro ⟨room, full⟩
    rw [State.ResponseLaw, result]
    exact ⟨room, fun waits => full fun empty => waits (List.sublist_nil.1 (empty ▸ orders))⟩
  · rw [State.unsettledKeys_eq, State.unsettledKeys_eq, out]
    refine filterMap_map_sublist fun e m => ?_
    cases h : (f e).unsettled with
    | false => exact .inl rfl
    | true => exact .inr (by rw [key e, unsettled law e m h])
  · rw [State.waitingKeys, queue]
    exact .refl _

/-- Where push orders tell entries apart, the entry that has one is the one found by it. -/
theorem State.eq_of_push {s : State} {e f : OutEntry} (law : s.PushLaw) (he : e ∈ s.cmd.outstanding)
    (hf : f ∈ s.cmd.outstanding) (same : f.push = e.push) : f = e := by
  have found := State.out?_of_mem law hf
  rw [same, State.out?_of_mem law he] at found
  exact (Option.some.inj found).symm

/-- One unsettled entry put in another condition that is not HELD (R101, R105 to R108, R113). -/
theorem State.tablesServed_updateOut {s : State} {e : OutEntry} (mem : e ∈ s.cmd.outstanding)
    (unsettled : e.unsettled = true) {f : OutEntry → OutEntry} (key : ∀ x, (f x).key = x.key)
    (held : ∀ x, (f x).settlement? = none ∨ (f x).settlement? = x.settlement?) :
    s.TablesServed (s.updateOut e.push f) := by
  refine State.tablesServed_map (fun x => if x.push = e.push then f x else x) rfl rfl rfl rfl ?_ ?_ ?_
  · intro x
    split
    · exact key x
    · rfl
  · intro x
    split
    · exact held x
    · exact .inr rfl
  · intro law x hx h
    split at h
    · next same => rw [State.eq_of_push law mem hx same, unsettled]
    · exact h

/-! ### Settle orders -/

/-- One element that showed no number shows one now. -/
theorem filterMap_update_perm {α : Type} {key : α → Nat} {g : α → Option Nat} {f : α → α} {x : α} {n : Nat} {l : List α}
    (nodup : (l.map key).Nodup) (mem : x ∈ l) (before : g x = none) (after : g (f x) = some n) :
    ((l.map fun y => if key y = key x then f y else y).filterMap g).Perm (n :: l.filterMap g) := by
  induction l with
  | nil => cases mem
  | cons y rest ih =>
    obtain ⟨fresh, nodup⟩ := List.nodup_cons.1 nodup
    rw [List.map_cons]
    rcases List.mem_cons.1 mem with rfl | mem
    · have others : rest.map (fun z => if key z = key x then f z else z) = rest := by
        refine (List.map_congr_left fun z hz => if_neg fun same => fresh ?_).trans (List.map_id rest)
        exact same ▸ List.mem_map_of_mem hz
      rw [if_pos rfl, others, List.filterMap_cons_some after, List.filterMap_cons_none before]
    · have ne : key y ≠ key x := fun same => fresh (same ▸ List.mem_map_of_mem mem)
      rw [if_neg ne, List.filterMap_cons, List.filterMap_cons]
      cases g y with
      | none => exact ih nodup mem
      | some k => exact ((ih nodup mem).cons k).trans (.swap n k _)

/-- The next settle order joins those that wait (R120, R129). -/
theorem State.settleOrderLaw_cons {s t : State} (law : s.SettleOrderLaw)
    (orders : t.waitingOrders.Perm (s.result.nextOrder :: s.waitingOrders))
    (next : t.result.nextOrder = s.result.nextOrder + 1) : t.SettleOrderLaw := by
  obtain ⟨nodup, below⟩ := law
  refine ⟨orders.nodup_iff.2 (List.nodup_cons.2 ⟨fun mem => (below _ mem).ne rfl, nodup⟩), fun o mem => ?_⟩
  rw [next]
  rcases List.mem_cons.1 (orders.subset mem) with rfl | mem
  · exact Nat.lt_succ_self _
  · exact (below o mem).trans (Nat.lt_succ_self _)

/-- A place freed: nothing waits that did not wait before. -/
theorem State.freeOut_orders (s : State) (p : Nat) : (s.freeOut p).waitingOrders.Sublist s.waitingOrders :=
  (List.Sublist.refl _).append (List.filter_sublist.filterMap _)

/-- See `State.freeOut_orders`. -/
theorem State.freeQueue_orders (s : State) (p : Nat) : (s.freeQueue p).waitingOrders.Sublist s.waitingOrders :=
  (List.filter_sublist.filterMap _).append (List.Sublist.refl _)

theorem State.settleOut_order {s : State} (p : Nat) (st : Status) (c : Byte) (d : List Byte) (push : s.PushLaw)
    (law : s.SettleOrderLaw) : (s.settleOut p st c d).SettleOrderLaw := by
  unfold State.settleOut
  split
  · exact law
  · next e found =>
    obtain ⟨mem, rfl⟩ := State.out?_some found
    dsimp only
    split
    · exact law
    · next unsettled =>
      split
      · exact State.settleOrderLaw_of_sublist law (State.freeOut_orders _ _) (Nat.le_succ _)
      · have unheld : e.settlement? = none := by
          unfold OutEntry.unsettled at unsettled
          unfold OutEntry.settlement?
          split <;> simp_all
        refine State.settleOrderLaw_cons law ?_ rfl
        exact (List.Perm.append_left _ (filterMap_update_perm (push.1.of_append_right) mem (by simp [unheld]) rfl)).trans
          List.perm_middle

theorem State.settleQueue_order {s : State} (p : Nat) (push : s.PushLaw) (law : s.SettleOrderLaw) :
    (s.settleQueue p).SettleOrderLaw := by
  unfold State.settleQueue
  split
  · exact law
  · next q found =>
    obtain ⟨mem, rfl⟩ := State.queued?_some found
    dsimp only
    split
    · exact law
    · next waiting =>
      split
      · exact State.settleOrderLaw_of_sublist law (State.freeQueue_orders _ _) (Nat.le_succ _)
      · have undoomed : q.doomed = none := by simpa [QueueEntry.waiting] using waiting
        refine State.settleOrderLaw_cons law ?_ rfl
        exact (filterMap_update_perm (push.1.of_append_left) mem (by simp [undoomed]) rfl).append_right _

/-! ### Settlement serves the tables -/

theorem State.settleOut_served (s : State) (p : Nat) (st : Status) (c : Byte) (d : List Byte) :
    s.TablesServed (s.settleOut p st c d) :=
  (s.settleOut_settles p st c d).served (State.settleOut_order p st c d)

theorem State.settleQueue_served (s : State) (p : Nat) : s.TablesServed (s.settleQueue p) :=
  (s.settleQueue_settles p).served (State.settleQueue_order p)

theorem State.settleAll_served (s : State) (ps : List Nat) (st : Status) : s.TablesServed (s.settleAll ps st) := by
  induction ps generalizing s with
  | nil => exact .of_cmd rfl rfl
  | cons p rest ih => exact (s.settleOut_served p st 0 []).trans (ih _)

theorem State.settleAllQueued_served (s : State) (ps : List Nat) : s.TablesServed (s.settleAllQueued ps) := by
  induction ps generalizing s with
  | nil => exact .of_cmd rfl rfl
  | cons p rest ih => exact (s.settleQueue_served p).trans (ih _)

theorem State.clearMark_served (s : State) : s.TablesServed s.clearMark := .of_eq rfl rfl rfl rfl

theorem State.dropEndedMark_served (s : State) : s.TablesServed s.dropEndedMark := .of_eq rfl rfl rfl rfl

theorem State.abortTransactions_served (s : State) : s.TablesServed s.abortTransactions :=
  (s.settleAll_served _ _).trans (State.clearMark_served _)

theorem State.takeNodeDown_served (s : State) (n : NodeAddr) : s.TablesServed (s.takeNodeDown n) := by
  have settled := s.settleAll_served (s.unsettledPushes fun e => e.node == n) .nodeDown
  unfold State.takeNodeDown
  dsimp only
  split
  · exact (settled.trans (State.clearMark_served _)).trans (State.settleAllQueued_served _ _)
  · exact settled.trans (State.settleAllQueued_served _ _)

/-- The entry that a mark finds in AWAIT_ACK is in the table, and unsettled (R104). -/
theorem State.awaiting_mem {s : State} {mark : Option Nat} {e : OutEntry} (h : s.awaiting mark = some e) :
    e ∈ s.cmd.outstanding ∧ e.state = .awaitAck := by
  unfold State.awaiting at h
  repeat' split at h
  all_goals cases h
  next found state => exact ⟨(State.out?_some found).1, state⟩

theorem OutEntry.unsettled_of_awaitAck {e : OutEntry} (h : e.state = .awaitAck) : e.unsettled = true := by
  simp [OutEntry.unsettled, h]

theorem State.applyAck_served {s : State} {e : OutEntry} (mem : e ∈ s.cmd.outstanding) (unsettled : e.unsettled = true)
    (v : AckVerdict) : s.TablesServed (s.applyAck e v) := by
  have updated {f : OutEntry → OutEntry} (key : ∀ x, (f x).key = x.key) (held : ∀ x, (f x).settlement? = none) :
      s.TablesServed (s.updateOut e.push f) := State.tablesServed_updateOut mem unsettled key fun x => .inl (held x)
  unfold State.applyAck
  split
  · unfold State.ackAccept
    split
    · exact s.settleOut_served _ _ _ _
    all_goals exact updated (fun _ => rfl) fun _ => rfl
  · have counted : s.TablesServed (s.updateOut e.push fun e => { e with busy := e.busy + 1 }) :=
      State.tablesServed_updateOut mem unsettled (fun _ => rfl) fun _ => .inr rfl
    unfold State.ackBusy
    dsimp only
    split
    · exact counted.trans (State.settleOut_served _ _ _ _ _)
    · have mem' : { e with busy := e.busy + 1 } ∈ (s.updateOut e.push fun e => { e with busy := e.busy + 1 }).cmd.outstanding :=
        List.mem_map.2 ⟨e, mem, if_pos rfl⟩
      refine counted.trans (State.tablesServed_updateOut (e := { e with busy := e.busy + 1 }) mem' unsettled ?_ ?_)
      · exact fun _ => rfl
      · exact fun _ => .inl rfl
  · exact s.settleOut_served _ _ _ _
  all_goals
    unfold State.ackMissed
    split
    · exact s.settleOut_served _ _ _ _
    · exact updated (fun _ => rfl) fun _ => rfl

theorem State.takeAck_served (s : State) (v : AckVerdict) : s.TablesServed (s.takeAck v) := by
  unfold State.takeAck
  split
  · split
    · exact .of_cmd rfl rfl
    · next e found =>
      obtain ⟨mem, state⟩ := State.awaiting_mem found
      exact s.clearMark_served.trans (State.applyAck_served (s := s.clearMark) mem (OutEntry.unsettled_of_awaitAck state) v)
  · split
    · exact s.dropEndedMark_served
    · next e found =>
      obtain ⟨mem, state⟩ := State.awaiting_mem found
      exact s.dropEndedMark_served.trans
        (State.applyAck_served (s := s.dropEndedMark) mem (OutEntry.unsettled_of_awaitAck state) v)

theorem State.takeAbandon_served (s : State) : s.TablesServed s.takeAbandon := by
  unfold State.takeAbandon
  split
  · exact .of_cmd rfl rfl
  · next e found =>
    obtain ⟨mem, state⟩ := State.awaiting_mem found
    refine State.TablesServed.trans (State.tablesServed_updateOut mem (OutEntry.unsettled_of_awaitAck state) ?_ ?_)
      (State.clearMark_served _)
    · exact fun _ => rfl
    · exact fun _ => .inl rfl

theorem State.broadcastSent_served (s : State) : s.TablesServed s.broadcastSent := by
  unfold State.broadcastSent
  split
  · exact .of_cmd rfl rfl
  · exact (s.settleOut_served _ _ _ _).trans (State.clearMark_served _)

theorem State.takeTrailer_served (s : State) (n : NodeAddr) (tag : Byte) (serial outcome : BitVec 4) (data : List Byte) :
    s.TablesServed (s.takeTrailer n tag serial outcome data) := by
  unfold State.takeTrailer
  split
  · exact .of_cmd rfl rfl
  · split <;> exact s.settleOut_served _ _ _ _

theorem State.takeTimeouts_served (s : State) : s.TablesServed s.takeTimeouts := by
  have counted : s.TablesServed { s with
      cmd := { s.cmd with outstanding := s.cmd.outstanding.map OutEntry.countDown } } := by
    refine State.tablesServed_map OutEntry.countDown rfl rfl rfl rfl ?_ ?_ ?_
    · intro e
      unfold OutEntry.countDown
      split <;> rfl
    · intro e
      unfold OutEntry.countDown
      split <;> exact .inr rfl
    · intro _ e _ h
      unfold OutEntry.countDown at h
      split at h <;> exact h
  exact counted.trans (State.settleAll_served _ _ _)

/-! ### The response queue -/

/-- Posting a waiting item frees one place and adds one record (R131). -/
theorem State.postWaiting_cases {s : State} {o : Nat} (waits : o ∈ s.waitingOrders) :
    ∃ r p, s.postWaiting o = (s.appendResponse r).freeOut p ∨ s.postWaiting o = (s.appendResponse r).freeQueue p := by
  unfold State.postWaiting
  split
  · next e found =>
    have order := List.find?_some found
    cases h : e.settlement? with
    | none => simp [h] at order
    | some st => exact ⟨_, _, .inl rfl⟩
  · next missing =>
    rcases List.mem_append.1 waits with inQueue | inTable
    · obtain ⟨q, mem, order⟩ := List.mem_filterMap.1 inQueue
      split
      · next r found =>
        have order := List.find?_some found
        cases h : r.doomed with
        | none => simp [h] at order
        | some st => exact ⟨_, _, .inr rfl⟩
      · next unfound => exact absurd (List.find?_eq_none.1 unfound q mem) (by simp [order])
    · obtain ⟨e, mem, order⟩ := List.mem_filterMap.1 inTable
      exact absurd (List.find?_eq_none.1 missing e mem) (by simp [order])

/-- Taking a response with a waiting item posts one in its place, so the queue is as long as it was (R132). -/
theorem State.takeResponse_served (s : State) : s.TablesServed s.takeResponse := by
  unfold State.takeResponse
  split
  · exact .of_cmd rfl rfl
  · next r rest responses =>
    dsimp only
    split
    · next noneWaits =>
      rw [lowestBy_eq_none] at noneWaits
      refine ⟨.refl _, .refl _, rfl, fun law => ⟨?_, fun waits => absurd noneWaits waits⟩, fun _ => .refl _, .refl _,
        fun _ => id⟩
      have := law.1
      rw [responses] at this
      exact (Nat.le_succ _).trans this
    · next o lowest =>
      obtain ⟨waits, -⟩ := lowestBy_some lowest
      have full (law : s.ResponseLaw) : (rest ++ [r]).length = 16 := by
        have := law.2 fun empty => List.not_mem_nil (empty ▸ waits : o ∈ [])
        simpa [responses] using this
      obtain ⟨x, p, posted | posted⟩ := State.postWaiting_cases waits <;> rw [posted]
      · exact ⟨List.filter_sublist.map _, .refl _, rfl,
          fun law => ⟨by simpa using (full law).le, fun _ => by simpa using full law⟩,
          fun _ => State.freeOut_unsettledKeys _ _, .refl _,
          fun _ law => State.settleOrderLaw_of_sublist law (State.freeOut_orders _ _) le_rfl⟩
      · exact ⟨.refl _, List.filter_sublist.map _, rfl,
          fun law => ⟨by simpa using (full law).le, fun _ => by simpa using full law⟩,
          fun _ => .refl _, (List.filter_sublist.filter _).map _,
          fun _ law => State.settleOrderLaw_of_sublist law (State.freeQueue_orders _ _) le_rfl⟩

/-- A retry: the entry chosen is in RETRY, unsettled (R97, R101). -/
theorem State.sendRetry_served {s : State} {e : OutEntry} (chosen : s.chooseRetry = some e) :
    s.TablesServed (s.sendRetry e) := by
  obtain ⟨mem, state⟩ : e ∈ s.cmd.outstanding ∧ e.state = .retry := by
    have := (lowestBy_some chosen).1
    simp only [List.mem_filter, Bool.and_eq_true, decide_eq_true_eq] at this
    exact ⟨this.1, this.2.1⟩
  have unsettled : e.unsettled = true := by simp [OutEntry.unsettled, state]
  have sent : s.TablesServed (s.updateOut e.push fun e => { e with state := .awaitAck }) :=
    State.tablesServed_updateOut mem unsettled (fun _ => rfl) fun _ => .inl rfl
  exact sent.trans (.of_eq rfl rfl rfl rfl)

end Sys2Proof.Machine
end

section
/-! PROOFS. The laws of the command engine and the result unit kept: by what serves the tables and heeds the nodes, by a put,
by a first transmission, by a node-down notice and by a reset (R91 to R93, R95 to R100, R111, R120, R129, R130, R134). -/

namespace Sys2Proof.Machine

open Sys2Proof

/-! ### The nodes heeded -/

/-- How the node table goes on: a node that is live no longer has its node-down notice handed, no notice is taken off, and only
a node that is not live gets another credit (R51, R53, R62, R68). -/
structure State.NodesHeeded (s t : State) : Prop where
  live : ∀ n, s.isLive n = true → t.isLive n = true ∨ Instr.nodeDownNotice n ∈ t.due
  noticed : ∀ n, Instr.nodeDownNotice n ∈ s.due → Instr.nodeDownNotice n ∈ t.due
  credit : ∀ n, t.credit n = s.credit n ∨ s.isLive n = false ∨ Instr.nodeDownNotice n ∈ t.due

theorem State.NodesHeeded.trans {s t u : State} (h : s.NodesHeeded t) (h' : t.NodesHeeded u) : s.NodesHeeded u where
  live n live := by
    rcases h.live n live with live | noticed
    · exact h'.live n live
    · exact .inr (h'.noticed n noticed)
  noticed n := h'.noticed n ∘ h.noticed n
  credit n := by
    rcases h.credit n with same | dead | noticed
    · rcases h'.credit n with same' | dead | noticed
      · exact .inl (same'.trans same)
      · cases live : s.isLive n with
        | false => exact .inr (.inl rfl)
        | true =>
          rcases h.live n live with live | noticed
          · exact absurd live (by simp [dead])
          · exact .inr (.inr (h'.noticed n noticed))
      · exact .inr (.inr noticed)
    · exact .inr (.inl dead)
    · exact .inr (.inr (h'.noticed n noticed))

theorem State.credit_congr {s t : State} {n : NodeAddr} (h : t.node? n = s.node? n) : t.credit n = s.credit n := by
  simp only [State.credit, h]

theorem State.credit_of_node? {s : State} {n : NodeAddr} {e : NodeEntry} (h : s.node? n = some e) :
    s.credit n = e.credit.toNat := by
  simp [State.credit, h]

theorem State.NodesHeeded.of_entries {s t : State} (same : t.nodes.entries = s.nodes.entries)
    (noticed : ∀ n, Instr.nodeDownNotice n ∈ s.due → Instr.nodeDownNotice n ∈ t.due) : s.NodesHeeded t where
  live n live := .inl ((State.isLive_congr (State.node?_congr same n)).trans live)
  noticed := noticed
  credit n := .inl (State.credit_congr (State.node?_congr same n))

theorem State.NodesHeeded.of_nodes {s t : State} (same : t.nodes = s.nodes)
    (noticed : ∀ n, Instr.nodeDownNotice n ∈ s.due → Instr.nodeDownNotice n ∈ t.due) : s.NodesHeeded t :=
  .of_entries (by rw [same]) noticed

/-- One entry stored: the node stays live or its notice is handed, and it was not live if its credit changes. -/
theorem State.nodesHeeded_setNode {s t : State} {n : NodeAddr} {e f : NodeEntry} (h : s.node? n = some e)
    (stored : t.nodes.entries = (s.setNode n f).nodes.entries)
    (noticed : ∀ m, Instr.nodeDownNotice m ∈ s.due → Instr.nodeDownNotice m ∈ t.due)
    (live : e.state.isLive = true → f.state.isLive = true ∨ Instr.nodeDownNotice n ∈ t.due)
    (credit : f.credit = e.credit ∨ e.state.isLive = false) : s.NodesHeeded t := by
  have other {m : NodeAddr} (ne : m ≠ n) : t.node? m = s.node? m :=
    (State.node?_congr stored m).trans (State.node?_setNode_ne s f ne)
  have self : t.node? n = some f :=
    (State.node?_congr stored n).trans (State.node?_setNode s f (State.node?_ne_zero h))
  refine ⟨fun m => ?_, noticed, fun m => ?_⟩ <;> by_cases hm : m = n
  · subst hm
    rw [State.isLive_of_node? h, State.isLive_of_node? self]
    exact live
  · exact fun alive => .inl ((State.isLive_congr (other hm)).trans alive)
  · subst hm
    rw [State.isLive_of_node? h, State.credit_of_node? h, State.credit_of_node? self]
    rcases credit with same | dead
    · exact .inl (by rw [same])
    · exact .inr (.inl dead)
  · exact .inl (State.credit_congr (other hm))

/-! ### The laws kept -/

/-- The capacities, and that an item waits only at a full response queue (R93, R95, R130, R134). -/
def State.QueueLaws (s : State) : Prop := s.CapacityLaw ∧ s.ResponseLaw

/-- The push order, the tag law, the third part of the miss law and the credit law (R61, R91, R92, R97). -/
def State.TransactionLaws (s : State) : Prop := s.PushLaw ∧ s.TagLaw ∧ s.NodeDownLaw ∧ s.CreditLaw

/-- The push order and the settle order (R92, R120). -/
def State.OrderLaws (s : State) : Prop := s.PushLaw ∧ s.SettleOrderLaw

/-- What holds of the command engine and the result unit goes on holding. -/
structure State.KeepsLaws (s t : State) : Prop where
  queues : s.QueueLaws → t.QueueLaws
  transactions : s.TransactionLaws → t.TransactionLaws
  orders : s.OrderLaws → t.OrderLaws

theorem State.KeepsLaws.refl (s : State) : s.KeepsLaws s := ⟨id, id, id⟩

theorem State.KeepsLaws.trans {s t u : State} (h : s.KeepsLaws t) (h' : t.KeepsLaws u) : s.KeepsLaws u :=
  ⟨h'.queues ∘ h.queues, h'.transactions ∘ h.transactions, h'.orders ∘ h.orders⟩

/-- Unsettled and WAITING transactions that all were so before meet the third part of the miss law (R61). -/
theorem State.nodeDownLaw_of {s t : State} (law : s.NodeDownLaw) (nodes : s.NodesHeeded t)
    (keys : t.unsettledKeys ++ t.waitingKeys ⊆ s.unsettledKeys ++ s.waitingKeys) : t.NodeDownLaw := by
  rw [State.nodeDownLaw_iff] at law ⊢
  intro k hk ne
  rcases law k (keys hk) ne with live | noticed
  · exact nodes.live _ live
  · exact .inr (nodes.noticed _ noticed)

/-- A node that is not live, with no notice to be taken, has nothing in flight (R61, R96). -/
theorem State.inFlight_eq_zero {s : State} {n : NodeAddr} (law : s.NodeDownLaw) (ne : n ≠ 0) (dead : s.isLive n = false)
    (taken : Instr.nodeDownNotice n ∉ s.due) : s.inFlight n = 0 := by
  rw [State.nodeDownLaw_iff] at law
  rw [State.inFlight_eq, List.countP_eq_zero]
  intro k hk same
  obtain rfl : k.2.1 = n := by simpa using same
  rcases law k (List.mem_append_left _ hk) ne with live | noticed
  · simp [dead] at live
  · exact taken noticed

/-- In-flight counts that do not rise, or rise within the credit of a live node, meet the credit law (R97). -/
theorem State.creditLaw_of {s t : State} (down : s.NodeDownLaw) (law : s.CreditLaw) (nodes : s.NodesHeeded t)
    (counts : ∀ n, n ≠ 0 → t.inFlight n ≤ s.inFlight n ∨ s.isLive n = true ∧ t.inFlight n ≤ s.credit n) :
    t.CreditLaw := by
  intro n ne taken
  have taken' : Instr.nodeDownNotice n ∉ s.due := taken ∘ nodes.noticed n
  rcases nodes.credit n with same | dead | noticed
  · have within := law n ne taken'
    rw [same]
    rcases counts n ne with count | ⟨-, count⟩ <;> omega
  · have settled := State.inFlight_eq_zero down ne dead taken'
    rcases counts n ne with count | ⟨live, -⟩
    · omega
    · simp [dead] at live
  · exact absurd noticed taken

theorem State.TablesServed.queueLaws {s t : State} (h : s.TablesServed t) : s.QueueLaws → t.QueueLaws := by
  rintro ⟨⟨queue, out, -⟩, response⟩
  have queue' := h.queue.length_le
  have out' := h.out.length_le
  simp only [List.length_map] at queue' out'
  have response' := h.response response
  exact ⟨⟨queue'.trans queue, out'.trans out, response'.1⟩, response'⟩

theorem State.TablesServed.orderLaws {s t : State} (h : s.TablesServed t) : s.OrderLaws → t.OrderLaws :=
  fun ⟨push, order⟩ => ⟨h.pushLaw push, h.order push order⟩

theorem State.TablesServed.tagLaw {s t : State} (h : s.TablesServed t) (law : s.TagLaw) : t.TagLaw :=
  State.tagLaw_of_keys law h.keys.subperm

theorem State.TablesServed.inFlight_le {s t : State} (h : s.TablesServed t) (law : s.PushLaw) (n : NodeAddr) :
    t.inFlight n ≤ s.inFlight n := by
  rw [State.inFlight_eq, State.inFlight_eq]
  exact (h.unsettled law).countP_le

theorem State.KeepsLaws.of_served {s t : State} (tables : s.TablesServed t) (nodes : s.NodesHeeded t) :
    s.KeepsLaws t where
  queues := tables.queueLaws
  transactions := by
    rintro ⟨push, tag, down, credit⟩
    exact ⟨tables.pushLaw push, tables.tagLaw tag,
      State.nodeDownLaw_of down nodes ((tables.unsettled push).append tables.waiting).subset,
      State.creditLaw_of down credit nodes fun n _ => .inl (tables.inFlight_le push n)⟩
  orders := tables.orderLaws

/-- A change of the node table alone. -/
theorem State.KeepsLaws.of_heeded {s t : State} (cmd : t.cmd = s.cmd) (result : t.result = s.result)
    (nodes : s.NodesHeeded t) : s.KeepsLaws t := .of_served (.of_cmd cmd result) nodes

/-- A change of the tables alone. -/
theorem State.KeepsLaws.of_tables {s t : State} (tables : s.TablesServed t) (nodes : t.nodes = s.nodes)
    (due : t.due = s.due) : s.KeepsLaws t := .of_served tables (.of_nodes nodes fun _ h => due ▸ h)

/-- A change elsewhere. -/
theorem State.KeepsLaws.of_aside {s t : State} (cmd : t.cmd = s.cmd) (result : t.result = s.result)
    (nodes : t.nodes = s.nodes) (noticed : ∀ n, Instr.nodeDownNotice n ∈ t.due ↔ Instr.nodeDownNotice n ∈ s.due) :
    s.KeepsLaws t := .of_heeded cmd result (.of_nodes nodes fun n => (noticed n).2)

/-- Empty tables and an empty response queue meet every law: a reset (R118, R119, R137). -/
theorem State.KeepsLaws.of_empty {s t : State} (queue : t.cmd.queue = []) (out : t.cmd.outstanding = [])
    (responses : t.result.responses = []) : s.KeepsLaws t := by
  have waits : t.waitingOrders = [] := by simp [State.waitingOrders, queue, out]
  have push : t.PushLaw := by simp [State.PushLaw, queue, out]
  refine ⟨fun _ => ⟨?_, ?_⟩, fun _ => ⟨push, ?_, ?_, fun n _ _ => ?_⟩, fun _ => ⟨push, ?_⟩⟩
  · simp [State.CapacityLaw, queue, out, responses]
  · simp [State.ResponseLaw, responses, waits]
  · simp [State.TagLaw, queue, out]
  · simp [State.NodeDownLaw, queue, out]
  · simp [State.inFlight, out]
  · simp [State.SettleOrderLaw, waits]

/-! ### A first transmission -/

/-- The conditions of a first transmission are those that an opportunity checks (R97, R98). -/
theorem State.mayStart_iff {s : State} {q : QueueEntry} : s.MayStart q ↔ q ∈ s.cmd.queue ∧ s.eligible q = true := by
  have barrier : q.isBarrier = true ↔ q.barrier = true ∨ q.node = 0 := by simp [QueueEntry.isBarrier]
  have below : s.unsettledBelow q.push = false ↔ (∀ r ∈ s.cmd.queue, r.waiting = true → q.push ≤ r.push)
      ∧ ∀ e ∈ s.cmd.outstanding, e.unsettled = true → q.push ≤ e.push := by
    simp [State.unsettledBelow]
  have held : s.barrierBelow q.push = false ↔
      (∀ r ∈ s.cmd.queue, r.waiting = true → (r.barrier = true ∨ r.node = 0) → q.push ≤ r.push)
      ∧ ∀ e ∈ s.cmd.outstanding, e.unsettled = true → s.cmd.barrierSent = some e.push → q.push ≤ e.push := by
    simp [State.barrierBelow, QueueEntry.isBarrier]
  have oldest : (s.cmd.queue.any fun r => r.waiting && r.node == q.node && decide (r.push < q.push)) = false ↔
      ∀ r ∈ s.cmd.queue, r.waiting = true → r.node = q.node → q.push ≤ r.push := by
    simp
  have node : ((q.node == 0 || s.isLive q.node) = true
      ∧ (q.node == 0 || decide (s.inFlight q.node < s.credit q.node)) = true) ↔
      q.node = 0 ∨ s.isLive q.node = true ∧ s.inFlight q.node < s.credit q.node := by
    simp only [Bool.or_eq_true, beq_iff_eq, decide_eq_true_eq]
    exact or_and_left.symm
  have first : (!(q.isBarrier && s.unsettledBelow q.push)) = true ↔
      (q.isBarrier = true → s.unsettledBelow q.push = false) := by
    cases q.isBarrier <;> simp
  have checks : s.eligible q = true ↔ q.waiting = true
      ∧ (q.node = 0 ∨ s.isLive q.node = true ∧ s.inFlight q.node < s.credit q.node) ∧ s.cmd.outstanding.length < 8
      ∧ (∀ r ∈ s.cmd.queue, r.waiting = true → r.node = q.node → q.push ≤ r.push)
      ∧ (q.barrier = true ∨ q.node = 0 → s.unsettledBelow q.push = false) ∧ s.barrierBelow q.push = false := by
    rw [← node, ← oldest, ← barrier, ← first]
    simp only [State.eligible, Bool.and_eq_true, decide_eq_true_eq, Bool.not_eq_true', and_assoc]
    rfl
  rw [checks, below, held]
  constructor
  · rintro ⟨⟨mem, waiting⟩, node, place, oldest, barrier, held⟩
    exact ⟨mem, waiting, node, place, oldest, barrier, held⟩
  · rintro ⟨mem, waiting, node, place, oldest, barrier, held⟩
    exact ⟨⟨mem, waiting⟩, node, place, oldest, barrier, held⟩

/-- The first transmission chosen may start, and is the one with the lowest push order that may (R97). -/
theorem State.chooseFirst_some {s : State} {q : QueueEntry} (chosen : s.chooseFirst = some q) :
    s.MayStart q ∧ ∀ r, s.MayStart r → q.push ≤ r.push := by
  obtain ⟨mem, lowest⟩ := lowestBy_some chosen
  exact ⟨State.mayStart_iff.2 (List.mem_filter.1 mem), fun r may => lowest r (List.mem_filter.2 (State.mayStart_iff.1 may))⟩

/-- What a first transmission makes of the command engine (R100, R104, log entries 10 and 32). -/
theorem State.sendFirst_cmd (s : State) (q : QueueEntry) : (s.sendFirst q).cmd = { s.cmd with
    queue := s.cmd.queue.filter fun x => x.push != q.push
    outstanding := s.cmd.outstanding ++ [s.firstEntry q]
    inFlightMark := some q.push
    endedMarks := s.marksLeft
    barrierSent := if q.isBarrier then some q.push else s.cmd.barrierSent } := by
  simp only [State.sendFirst, State.marksLeft, State.advanceSerial_frame]
  rfl

/-- The serial counter is the node table's, and freeing a queue entry is not. -/
theorem State.advanceSerial_freeQueue (s : State) (p : Nat) (n : NodeAddr) :
    (s.freeQueue p).advanceSerial n = { s.advanceSerial n with cmd := (s.freeQueue p).cmd } := by
  have same : (s.freeQueue p).node? n = s.node? n := State.node?_congr rfl n
  unfold State.advanceSerial
  rw [same]
  cases s.node? n with
  | none => rfl
  | some e =>
    dsimp only
    unfold State.setNode
    split <;> rfl

/-- A first transmission, by what it makes of the command engine and of the serial counter (R100, R102). -/
theorem State.sendFirst_eq (s : State) (q : QueueEntry) :
    s.sendFirst q = { s.advanceSerial q.node with cmd := (s.sendFirst q).cmd } := by
  rw [State.sendFirst, State.advanceSerial_freeQueue]

/-- A first transmission advances the serial counter of its node and changes the node table in nothing else. -/
theorem State.sendFirst_nodesHeeded (s : State) (q : QueueEntry) : s.NodesHeeded (s.sendFirst q) := by
  have advanced : s.NodesHeeded (s.advanceSerial q.node) := by
    unfold State.advanceSerial
    split
    · exact .of_nodes rfl fun _ => id
    · next e h =>
      exact State.nodesHeeded_setNode (f := { e with serial := e.serial + 1 }) h rfl (by simp) .inl (.inl rfl)
  rw [State.sendFirst_eq]
  exact advanced.trans (.of_nodes rfl fun _ => id)

/-- An element taken out by a number that tells the elements apart. -/
theorem perm_cons_filter_ne {α : Type} {key : α → Nat} {x : α} {l : List α} (nodup : (l.map key).Nodup) (mem : x ∈ l) :
    l.Perm (x :: l.filter fun y => key y != key x) := by
  induction l with
  | nil => cases mem
  | cons y rest ih =>
    obtain ⟨fresh, nodup⟩ := List.nodup_cons.1 nodup
    rcases List.mem_cons.1 mem with rfl | mem
    · have others : rest.filter (fun y => key y != key x) = rest :=
        List.filter_eq_self.2 fun z hz => by
          simpa using fun same : key z = key x => fresh (same ▸ List.mem_map_of_mem hz)
      rw [List.filter_cons_of_neg (by simp), others]
    · have ne : key y ≠ key x := fun same => fresh (same ▸ List.mem_map_of_mem mem)
      rw [List.filter_cons_of_pos (by simpa using ne)]
      exact ((ih nodup mem).cons y).trans (.swap x y _)

section
variable {s : State} {q : QueueEntry}

/-- A first transmission moves its key from the queue to the outstanding table (R100). -/
theorem State.sendFirst_keys (push : s.PushLaw) (mem : q ∈ s.cmd.queue) : (s.sendFirst q).keys.Perm s.keys := by
  have moved := (perm_cons_filter_ne push.1.of_append_left mem).map QueueEntry.key
  unfold State.keys
  rw [State.sendFirst_cmd, List.map_append, ← List.append_assoc]
  exact (List.perm_append_singleton q.key _).trans (moved.symm.append_right _)

theorem State.sendFirst_unsettledKeys : (s.sendFirst q).unsettledKeys = s.unsettledKeys ++ [q.key] := by
  unfold State.unsettledKeys
  rw [State.sendFirst_cmd, List.filter_append, List.map_append]
  rfl

theorem State.sendFirst_waitingKeys : (s.sendFirst q).waitingKeys.Sublist s.waitingKeys := by
  unfold State.waitingKeys
  rw [State.sendFirst_cmd]
  exact (List.filter_sublist.filter _).map _

theorem State.sendFirst_waitingOrders : (s.sendFirst q).waitingOrders.Sublist s.waitingOrders := by
  unfold State.waitingOrders
  rw [State.sendFirst_cmd, List.filterMap_append]
  refine (List.filter_sublist.filterMap _).append ?_
  simp [OutEntry.settlement?, State.firstEntry]

theorem State.sendFirst_keeps (may : s.MayStart q) : s.KeepsLaws (s.sendFirst q) := by
  obtain ⟨⟨mem, waiting⟩, node, place, -, -, -⟩ := may
  have result : (s.sendFirst q).result = s.result := by simp
  have next : (s.sendFirst q).cmd.nextPush = s.cmd.nextPush := by rw [State.sendFirst_cmd]
  refine ⟨?_, ?_, ?_⟩
  · rintro ⟨⟨queue, out, responses⟩, response⟩
    refine ⟨⟨?_, ?_, by rwa [result]⟩, by rw [result]; exact responses, fun waits => ?_⟩
    · rw [State.sendFirst_cmd]
      exact (List.length_filter_le _ _).trans queue
    · rw [State.sendFirst_cmd]
      simpa using place
    · rw [result]
      exact response.2 fun empty => waits (List.sublist_nil.1 (empty ▸ State.sendFirst_waitingOrders))
  · rintro ⟨push, tag, down, credit⟩
    have keys := (State.sendFirst_keys push mem).subperm
    have nodes := s.sendFirst_nodesHeeded q
    refine ⟨State.pushLaw_of_keys push keys next, State.tagLaw_of_keys tag keys, State.nodeDownLaw_of down nodes ?_,
      State.creditLaw_of down credit nodes fun n ne => ?_⟩
    · rw [State.sendFirst_unsettledKeys]
      have inQueue : q.key ∈ s.waitingKeys := List.mem_map_of_mem (List.mem_filter.2 ⟨mem, waiting⟩)
      intro k hk
      simp only [List.mem_append, List.mem_singleton] at hk ⊢
      rcases hk with (hk | rfl) | hk
      · exact .inl hk
      · exact .inr inQueue
      · exact .inr (State.sendFirst_waitingKeys.subset hk)
    · rw [State.inFlight_eq, State.inFlight_eq s n, State.sendFirst_unsettledKeys, List.countP_append]
      by_cases same : q.node = n
      · subst same
        obtain ⟨live, spare⟩ := node.resolve_left ne
        rw [State.inFlight_eq] at spare
        exact .inr ⟨live, by simpa [QueueEntry.key] using spare⟩
      · exact .inl (by simp [QueueEntry.key, same])
  · rintro ⟨push, order⟩
    exact ⟨State.pushLaw_of_keys push (State.sendFirst_keys push mem).subperm next,
      State.settleOrderLaw_of_sublist order State.sendFirst_waitingOrders (by rw [result])⟩

end

end Sys2Proof.Machine
end

section
/-! PROOFS. A put and a node-down notice keep the laws of the command engine and the result unit (R91, R92, R111). -/

namespace Sys2Proof.Machine

open Sys2Proof

/-! ### What settles -/

/-- A WAITING entry that settles is WAITING no longer (R111). -/
theorem State.settleQueue_done {s : State} (law : s.PushLaw) (p : Nat) :
    ∀ q ∈ (s.settleQueue p).cmd.queue, q.push = p → q.waiting = false := by
  intro q mem push
  unfold State.settleQueue at mem
  split at mem
  · next missing =>
    rw [← push, State.queued?_of_mem law mem] at missing
    cases missing
  · next r found =>
    dsimp only at mem
    split at mem
    · next doomed =>
      rw [← push, State.queued?_of_mem law mem] at found
      cases found
      simpa using doomed
    · split at mem
      · simp [push] at mem
      · obtain ⟨x, -, rfl⟩ := List.mem_map.1 mem
        split at push
        · next same => simp [same, QueueEntry.waiting]
        · next other => exact absurd push other

/-- Every entry named is WAITING no longer (R111). -/
theorem State.settleAllQueued_done {s : State} (law : s.PushLaw) (ps : List Nat) :
    ∀ p ∈ ps, ∀ q ∈ (s.settleAllQueued ps).cmd.queue, q.push = p → q.waiting = false := by
  induction ps generalizing s with
  | nil => simp
  | cons p rest ih =>
    intro r hr q mem push
    have law' := (s.settleQueue_settles p).pushLaw law
    rcases List.mem_cons.1 hr with rfl | hr
    · by_contra waiting
      obtain ⟨x, hx, wx, key⟩ := ((s.settleQueue r).settleAllQueued_settles rest).waiting_mem mem (by simpa using waiting)
      have same : x.push = q.push := congrArg (·.2.2) key
      simp [State.settleQueue_done law r x hx (same.trans push)] at wx
    · exact ih law' r hr q mem push

/-- A node-down notice leaves no unsettled and no WAITING entry of its node (R111). -/
theorem State.takeNodeDown_done {s : State} (law : s.PushLaw) (n : NodeAddr) :
    (∀ e ∈ (s.takeNodeDown n).cmd.outstanding, e.node = n → e.unsettled = false)
    ∧ ∀ q ∈ (s.takeNodeDown n).cmd.queue, q.node = n → q.waiting = false := by
  let settled := s.settleAll (s.unsettledPushes fun e => e.node == n) .nodeDown
  have settles : s.Settles settled := s.settleAll_settles _ _
  obtain ⟨u, down, out, queue, law'⟩ : ∃ u : State, s.takeNodeDown n = u.settleAllQueued (u.waitingPushes n)
      ∧ u.cmd.outstanding = settled.cmd.outstanding ∧ u.cmd.queue = settled.cmd.queue ∧ u.PushLaw := by
    unfold State.takeNodeDown
    dsimp only
    split
    · exact ⟨_, rfl, rfl, rfl, settles.pushLaw law⟩
    · exact ⟨_, rfl, rfl, rfl, settles.pushLaw law⟩
  rw [down]
  constructor
  · intro e mem node
    rw [(u.settleAllQueued_outstanding _).1, out] at mem
    by_contra unsettled
    obtain ⟨f, hf, uf, key⟩ := settles.unsettled_mem mem (by simpa using unsettled)
    have named : f.node = e.node := congrArg (·.2.1) key
    have push : f.push = e.push := congrArg (·.2.2) key
    have chosen := (State.mem_unsettledPushes (f := fun e => e.node == n)).2
      ⟨f, hf, uf, by simp [named, node], rfl⟩
    exact unsettled (State.settleAll_done law _ .nodeDown f.push chosen e mem push.symm)
  · intro q mem node
    by_contra waiting
    obtain ⟨r, hr, wr, key⟩ := (u.settleAllQueued_settles _).waiting_mem mem (by simpa using waiting)
    have named : r.node = q.node := congrArg (·.2.1) key
    have push : r.push = q.push := congrArg (·.2.2) key
    have chosen := State.mem_waitingPushes.2 ⟨r, hr, wr, named.trans node, rfl⟩
    exact waiting (State.settleAllQueued_done law' _ r.push chosen q mem push.symm)

/-! ### A node-down notice -/

/-- A node-down notice taken: what it is for has settled, so the laws hold without it (R61, R97, R111). -/
theorem State.nodeDownNotice_keeps (s : State) (n : NodeAddr) :
    s.KeepsLaws ((s.takeDue (.nodeDownNotice n)).takeNodeDown n) := by
  have done := State.takeNodeDown_done (s := s.takeDue (.nodeDownNotice n)) (n := n)
  have taken : s.TablesServed (s.takeDue (.nodeDownNotice n)) := .of_cmd rfl rfl
  have tables := taken.trans (State.takeNodeDown_served _ n)
  have nodes : ((s.takeDue (.nodeDownNotice n)).takeNodeDown n).nodes = s.nodes := by simp
  have due : ((s.takeDue (.nodeDownNotice n)).takeNodeDown n).due = s.due.erase (.nodeDownNotice n) := by simp
  generalize (s.takeDue (.nodeDownNotice n)).takeNodeDown n = t at done tables nodes due ⊢
  have noticed {m : NodeAddr} (ne : m ≠ n) : Instr.nodeDownNotice m ∈ t.due ↔ Instr.nodeDownNotice m ∈ s.due := by
    rw [due]
    exact List.mem_erase_of_ne (by simpa using ne)
  have node (m : NodeAddr) : t.node? m = s.node? m := State.node?_congr (by rw [nodes]) m
  refine ⟨tables.queueLaws, ?_, tables.orderLaws⟩
  rintro ⟨push, tag, down, credit⟩
  obtain ⟨settled, doomed⟩ := done push
  refine ⟨tables.pushLaw push, tables.tagLaw tag, State.nodeDownLaw_iff.2 fun k hk ne => ?_, fun m ne taken => ?_⟩
  · have other : k.2.1 ≠ n := by
      intro same
      rcases List.mem_append.1 hk with hk | hk
      · obtain ⟨e, mem, rfl⟩ := List.mem_map.1 hk
        obtain ⟨mem, unsettled⟩ := List.mem_filter.1 mem
        simp [settled e mem same] at unsettled
      · obtain ⟨q, mem, rfl⟩ := List.mem_map.1 hk
        obtain ⟨mem, waiting⟩ := List.mem_filter.1 mem
        simp [doomed q mem same] at waiting
    rw [noticed other, State.isLive_congr (node k.2.1)]
    exact State.nodeDownLaw_iff.1 down k (((tables.unsettled push).append tables.waiting).subset hk) ne
  · rw [State.credit_congr (node m)]
    by_cases same : m = n
    · subst same
      have settledAll : t.inFlight m = 0 := by
        rw [State.inFlight, List.length_eq_zero_iff, List.filter_eq_nil_iff]
        intro e mem
        simpa using fun unsettled => fun named => by simp [settled e mem named] at unsettled
      omega
    · exact (tables.inFlight_le push m).trans (credit m ne (taken ∘ (noticed same).2))

/-! ### A put -/

/-- CPUTST takes a status (R91). -/
def State.tellPut (s : State) (st : PutStatus) : State := { s with cmd := { s.cmd with putStatus := st } }

@[simp] theorem State.tellPut_due (s : State) (st : PutStatus) : (s.tellPut st).due = s.due := rfl

/-- A put that fails its check changes CPUTST alone, and H_PUSH is raised (R91). -/
theorem State.put_refused {s : State} (refused : s.checkPut ≠ .putOk) :
    s.put = (s.tellPut s.checkPut).raise .hPush s.cmd.staging.node (BitVec.ofNat 16 s.checkPut.number) := by
  unfold State.put
  dsimp only
  split
  · next passed _ => exact absurd passed refused
  · rfl

/-- A put that passes its check is accepted (R91). -/
theorem State.put_accepted {s : State} {op : Op} (passed : s.checkPut = .putOk) (code : Op.ofCode s.cmd.staging.op = some op) :
    s.put = (s.tellPut .putOk).acceptPut op := by
  simp only [State.put, passed, code]
  rfl

/-- The check of a put is passed with valid fields, a free tag and room in the queue (R91). -/
theorem State.checkPut_eq_putOk {s : State} : s.checkPut = .putOk ↔
    s.cmd.staging.fieldsValid = true ∧ s.tagHeld s.cmd.staging.tag = false ∧ s.cmd.queue.length < 16 := by
  unfold State.checkPut
  split
  · next invalid => simp_all
  · split
    · next held => simp_all
    · split
      · next full => exact ⟨nofun, fun h => absurd h.2.2 (Nat.not_lt.2 full)⟩
      · next room => simp_all [Config.queueCapacity]

/-- A command that has joined the tail of the queue with the next push-order number (R92). -/
def State.joined (s : State) (op : Op) : State :=
  { s with cmd := { s.cmd with
      nextPush := s.cmd.nextPush + 1
      queue := s.cmd.queue ++ [s.cmd.staging.entry op s.cmd.nextPush] } }

theorem State.acceptPut_eq (s : State) (op : Op) : s.acceptPut op
    = if s.cmd.staging.node = 0 ∨ s.isLive s.cmd.staging.node = true then s.joined op
      else (s.joined op).settleQueue s.cmd.nextPush := rfl

section
variable {s : State} (op : Op)

/-- The key of the command that joins. -/
def State.newKey (s : State) : Byte × NodeAddr × Nat := (s.cmd.staging.tag, s.cmd.staging.node, s.cmd.nextPush)

theorem State.joined_keys : (s.joined op).keys.Perm (s.newKey :: s.keys) := by
  simp only [State.keys, State.joined, List.map_append, List.append_assoc]
  exact List.perm_middle

theorem State.joined_unsettledKeys : (s.joined op).unsettledKeys = s.unsettledKeys := rfl

theorem State.joined_waitingKeys : (s.joined op).waitingKeys = s.waitingKeys ++ [s.newKey] := by
  simp only [State.waitingKeys, State.joined, List.filter_append, List.map_append]
  rfl

theorem State.joined_waitingOrders : (s.joined op).waitingOrders = s.waitingOrders := by
  simp [State.waitingOrders, State.joined, Staging.entry]

theorem State.joined_pushLaw (law : s.PushLaw) : (s.joined op).PushLaw := by
  obtain ⟨nodup, below⟩ := State.pushLaw_iff.1 law
  refine State.pushLaw_iff.2 ⟨((State.joined_keys op).map _).nodup_iff.2 (List.nodup_cons.2 ⟨fun mem => ?_, nodup⟩),
    fun k hk => ?_⟩
  · obtain ⟨k, hk, same⟩ := List.mem_map.1 mem
    exact (below k hk).ne same
  · rcases List.mem_cons.1 ((State.joined_keys op).subset hk) with rfl | hk
    · exact Nat.lt_succ_self _
    · exact (below k hk).trans (Nat.lt_succ_self _)

theorem State.joined_tagLaw (law : s.TagLaw) (free : s.tagHeld s.cmd.staging.tag = false) : (s.joined op).TagLaw := by
  refine State.tagLaw_iff.2 (((State.joined_keys op).map _).nodup_iff.2 (List.nodup_cons.2
    ⟨fun mem => ?_, State.tagLaw_iff.1 law⟩))
  simp only [State.tagHeld, Bool.or_eq_false_iff, List.any_eq_false, beq_iff_eq] at free
  obtain ⟨k, hk, same⟩ := List.mem_map.1 mem
  rcases List.mem_append.1 hk with hk | hk
  · obtain ⟨q, mem, rfl⟩ := List.mem_map.1 hk
    exact free.1 q mem same
  · obtain ⟨e, mem, rfl⟩ := List.mem_map.1 hk
    exact free.2 e mem same

theorem State.joined_queueLaws (laws : s.QueueLaws) (room : s.cmd.queue.length < 16) : (s.joined op).QueueLaws := by
  obtain ⟨⟨-, out, responses⟩, response⟩ := laws
  refine ⟨⟨?_, out, responses⟩, response.1, fun waits => response.2 ?_⟩
  · simpa [State.joined] using room
  · rwa [State.joined_waitingOrders] at waits

theorem State.joined_orderLaws (laws : s.OrderLaws) : (s.joined op).OrderLaws :=
  ⟨State.joined_pushLaw op laws.1,
    State.settleOrderLaw_of_sublist laws.2 (by rw [State.joined_waitingOrders]) le_rfl⟩

/-- A command put for node 0 or a live node waits; for any other it has settled by the end of the event (R91, R92). -/
theorem State.acceptPut_keeps (free : s.tagHeld s.cmd.staging.tag = false) (room : s.cmd.queue.length < 16) :
    s.KeepsLaws (s.acceptPut op) := by
  rw [State.acceptPut_eq]
  split
  · next waits =>
    have nodes : s.NodesHeeded (s.joined op) := .of_nodes rfl fun _ => id
    refine ⟨fun laws => State.joined_queueLaws op laws room, ?_, State.joined_orderLaws op⟩
    rintro ⟨push, tag, down, credit⟩
    refine ⟨State.joined_pushLaw op push, State.joined_tagLaw op tag free, State.nodeDownLaw_iff.2 ?_,
      State.creditLaw_of down credit nodes fun _ _ => .inl le_rfl⟩
    rw [State.joined_unsettledKeys, State.joined_waitingKeys, ← List.append_assoc]
    intro k hk ne
    rcases List.mem_append.1 hk with hk | hk
    · exact State.nodeDownLaw_iff.1 down k hk ne
    · rw [List.mem_singleton.1 hk] at ne ⊢
      exact .inl (waits.resolve_left ne)
  · have tables := (s.joined op).settleQueue_served s.cmd.nextPush
    have nodes : s.NodesHeeded ((s.joined op).settleQueue s.cmd.nextPush) :=
      .of_nodes (by simp [State.joined]) (by simp [State.joined])
    refine ⟨fun laws => tables.queueLaws (State.joined_queueLaws op laws room), ?_,
      fun laws => tables.orderLaws (State.joined_orderLaws op laws)⟩
    rintro ⟨push, tag, down, credit⟩
    have push' := State.joined_pushLaw op push
    refine ⟨tables.pushLaw push', tables.tagLaw (State.joined_tagLaw op tag free), State.nodeDownLaw_of down nodes ?_,
      State.creditLaw_of down credit nodes fun n _ => .inl (tables.inFlight_le push' n)⟩
    intro k hk
    rcases List.mem_append.1 hk with hk | hk
    · exact List.mem_append_left _ ((tables.unsettled push').subset hk)
    · have before := tables.waiting.subset hk
      rw [State.joined_waitingKeys] at before
      rcases List.mem_append.1 before with old | new
      · exact List.mem_append_right _ old
      · obtain ⟨q, mem, same⟩ := List.mem_map.1 hk
        obtain ⟨mem, waiting⟩ := List.mem_filter.1 mem
        have push : q.push = s.cmd.nextPush := congrArg (·.2.2) (same.trans (List.mem_singleton.1 new))
        simp [State.settleQueue_done push' _ q mem push] at waiting

end

theorem State.put_keeps (s : State) : s.KeepsLaws s.put := by
  by_cases passed : s.checkPut = .putOk
  · obtain ⟨valid, free, room⟩ := State.checkPut_eq_putOk.1 passed
    obtain ⟨op, code⟩ : ∃ op, Op.ofCode s.cmd.staging.op = some op := by
      unfold Staging.fieldsValid at valid
      split at valid
      · cases valid
      · next code => exact ⟨_, code⟩
      all_goals next code => exact ⟨_, code⟩
    rw [State.put_accepted passed code]
    have told : s.KeepsLaws (s.tellPut .putOk) := .of_tables (.of_eq rfl rfl rfl rfl) rfl rfl
    exact told.trans (State.acceptPut_keeps (s := s.tellPut .putOk) op free room)
  · rw [State.put_refused passed]
    exact .of_served (.of_eq rfl rfl rfl rfl) (.of_nodes rfl fun n h => by simp [h])

end Sys2Proof.Machine
end

section
/-! PROOFS. Every step keeps the laws of the command engine and the result unit (R61, R62, R91 to R93, R95 to R97, R111, R120,
R129, R130, R134). -/

namespace Sys2Proof.Machine

open Sys2Proof

/-! ### The node table -/

theorem State.goodReply_heeded {s : State} {n : NodeAddr} {e : NodeEntry} (h : s.node? n = some e) :
    s.NodesHeeded (s.goodReply n e) := by
  unfold State.goodReply
  split
  · exact State.nodesHeeded_setNode h rfl (by simp) .inl (.inl rfl)
  · exact State.nodesHeeded_setNode (f := { e with state := .online, missCount := 0 }) h rfl (by simp)
      (fun _ => .inl rfl) (.inl rfl)
  all_goals exact .of_nodes rfl fun _ => id

theorem State.miss_heeded {s : State} {n : NodeAddr} {e : NodeEntry} (h : s.node? n = some e) (k : SlotIndex) :
    s.NodesHeeded (s.miss n e k) := by
  unfold State.miss
  split
  · exact .of_nodes rfl fun _ => id
  · split
    · exact State.nodesHeeded_setNode (f := { e with state := .offline, missCount := 0 }) h rfl
        (fun m hm => by simp [hm]) (fun _ => .inr (by simp)) (.inl rfl)
    · have missed (t : State) (entries : t.nodes.entries
          = (s.setNode n { e with state := .lagging, missCount := e.missCount + 1 }).nodes.entries) (due : t.due = s.due) :
          s.NodesHeeded t :=
        State.nodesHeeded_setNode h entries (fun m hm => due ▸ hm) (fun _ => .inl rfl) (.inl rfl)
      dsimp only
      split
      · exact missed _ rfl (by simp)
      · exact missed _ rfl (by simp)

theorem State.countBad_heeded (s : State) (n : NodeAddr) (k : SlotIndex) (c : BadCause) :
    s.NodesHeeded (s.countBad n k c) := by
  unfold State.countBad
  split
  · exact .of_nodes rfl fun _ => id
  · next e h =>
    exact State.nodesHeeded_setNode (f := { e with badCount := saturate e.badCount }) h rfl (fun m hm => by simp [hm])
      .inl (.inl rfl)

/-- A node that is not live in the end was OFFLINE before (R59, R63). -/
theorem State.identReceived_heeded {s : State} {n : NodeAddr} {e : NodeEntry} (h : s.node? n = some e) (r : IdentRecord) :
    s.NodesHeeded (s.identReceived n e r) := by
  unfold State.identReceived
  split
  · exact .of_nodes rfl fun _ => id
  · next offline =>
    have dead : e.state.isLive = false := by rw [not_not.1 offline]; rfl
    split
    · exact State.nodesHeeded_setNode (f := { e with state := .online, missCount := 0, ident := some r }) h rfl (by simp)
        (fun _ => .inl rfl) (.inl rfl)
    · exact State.nodesHeeded_setNode (f := { e with state := .mismatch, missCount := 0, ident := some r }) h rfl
        (fun m hm => by simp [hm]) (fun live => by simp [dead] at live) (.inl rfl)

theorem State.takeOutcome_heeded (s : State) (n : NodeAddr) (kind : WindowKind) (k : SlotIndex) (v : Verdict) :
    s.NodesHeeded (s.takeOutcome n kind k v) := by
  unfold State.takeOutcome
  split
  · exact .of_nodes rfl fun _ => id
  · next e h =>
    split
    · exact .of_nodes rfl fun _ => id
    · split
      · exact State.identReceived_heeded h _
      · exact s.countBad_heeded n k _
      · exact .of_nodes rfl fun _ => id
      · exact State.goodReply_heeded h
      · exact State.miss_heeded h k
      · exact (State.miss_heeded h k).trans (State.countBad_heeded _ n k _)

theorem State.takeLate_heeded (s : State) (n : NodeAddr) (k : SlotIndex) : s.NodesHeeded (s.takeLate n k) := by
  unfold State.takeLate
  split
  · exact .of_nodes rfl fun _ => id
  · next e h =>
    split
    · exact .of_nodes rfl fun _ => id
    · exact State.nodesHeeded_setNode (f := { e with lateCount := saturate e.lateCount }) h rfl (fun m hm => by simp [hm])
        .inl (.inl rfl)

theorem State.haltNode_heeded (s : State) (n : NodeAddr) : s.NodesHeeded (s.haltNode n) := by
  unfold State.haltNode
  split
  · exact .of_nodes rfl fun _ => id
  · next e h =>
    split
    · exact State.nodesHeeded_setNode (f := { e with state := .offline, missCount := 0 }) h rfl
        (fun m hm => by simp [hm]) (fun _ => .inr (by simp)) (.inl rfl)
    · exact .of_nodes rfl fun _ => id

theorem State.haltNodes_heeded (s : State) (ns : List NodeAddr) : s.NodesHeeded (s.haltNodes ns) := by
  induction ns generalizing s with
  | nil => exact .of_nodes rfl fun _ => id
  | cons n rest ih => exact (s.haltNode_heeded n).trans (ih _)

/-! ### Register writes of the node table -/

theorem State.enableNode_heeded {s : State} {n : NodeAddr} {e : NodeEntry} (h : s.node? n = some e)
    (disabled : e.state.isEnabled = false) : s.NodesHeeded (s.enableNode n e) := by
  have dead : e.state.isLive = false := by
    revert disabled
    cases e.state <;> simp [NodeState.isEnabled, NodeState.isLive]
  unfold State.enableNode
  split
  · exact .of_nodes rfl fun m hm => by simp [hm]
  · exact State.nodesHeeded_setNode (f := { e with state := .offline, missCount := 0 }) h rfl (by simp)
      (fun live => by simp [dead] at live) (.inl rfl)

theorem State.takeEnable_heeded (s : State) (n : NodeAddr) (enable : Bool) : s.NodesHeeded (s.takeEnable n enable) := by
  unfold State.takeEnable
  split
  · exact .of_nodes rfl fun _ => id
  · next e h =>
    split
    · next disabled => exact State.enableNode_heeded h disabled
    · exact State.nodesHeeded_setNode (f := { e with state := .disabled, missCount := 0 }) h rfl
        (fun m hm => by simp [State.disableNode, hm]) (fun _ => .inr (by simp [State.disableNode])) (.inl rfl)
    all_goals exact .of_nodes rfl fun _ => id

/-- Only a DISABLED node is given another credit (R51). -/
theorem State.takeLimits_heeded {s : State} {n : NodeAddr} {e : NodeEntry} (h : s.node? n = some e) (v : Word) :
    s.NodesHeeded (s.takeLimits n e v) := by
  unfold State.takeLimits
  dsimp only
  split
  · exact State.nodesHeeded_setNode h rfl (by simp) .inl (.inl rfl)
  · split
    · exact State.nodesHeeded_setNode (f := { e with missLimit := takenMissLimit (v.extractLsb' 8 4) }) h rfl
        (fun m hm => by simp [hm]) .inl (.inl rfl)
    · next disabled =>
      refine State.nodesHeeded_setNode h rfl (by simp) .inl (.inr ?_)
      revert disabled
      cases e.state <;> simp [NodeState.isEnabled, NodeState.isLive]

theorem State.writeNode_heeded (s : State) (r : NodeWriteReg) (v : Word) : s.NodesHeeded (s.writeNode r v) := by
  have offset (offset : Word) {f : NodeEntry → NodeEntry} (state : ∀ e, (f e).state = e.state)
      (credit : ∀ e, (f e).credit = e.credit) : s.NodesHeeded (s.writeSliceOffset offset f) := by
    unfold State.writeSliceOffset
    dsimp only
    split
    · exact .of_nodes rfl fun _ => id
    · next e h =>
      split
      · exact .of_nodes rfl fun m hm => by simp [hm]
      · exact State.nodesHeeded_setNode h rfl (by simp) (by rw [state]; exact .inl) (.inl (credit e))
  unfold State.writeNode
  split
  · exact .of_nodes (by simp) fun m hm => by simp [hm]
  · cases r with
    | ncfg =>
      show s.NodesHeeded (s.writeNcfg v)
      unfold State.writeNcfg
      dsimp only
      split
      · exact .of_nodes rfl fun _ => id
      · next e h => exact (State.takeLimits_heeded h v).trans (State.takeEnable_heeded _ _ _)
    | noutoff => exact offset _ (fun _ => rfl) fun _ => rfl
    | ninoff => exact offset _ (fun _ => rfl) fun _ => rfl
    | nlen =>
      show s.NodesHeeded (s.writeNlen v)
      unfold State.writeNlen
      dsimp only
      split
      · exact .of_nodes rfl fun _ => id
      · next e h =>
        have stored := State.nodesHeeded_setNode (t := s.setNode s.selected
          { e with outLen := v.extractLsb' 0 7, inLen := v.extractLsb' 8 7 }) h rfl (by simp) .inl (.inl rfl)
        repeat' split
        · exact .of_nodes rfl fun m hm => by simp [hm]
        · exact .of_nodes rfl fun m hm => by simp [hm]
        · exact .of_nodes rfl fun m hm => by simp [hm]
        · exact stored
    | ncnt =>
      show s.NodesHeeded s.writeNcnt
      unfold State.writeNcnt
      dsimp only
      split
      · exact .of_nodes rfl fun _ => id
      · next e h => exact State.nodesHeeded_setNode h rfl (by simp) .inl (.inl rfl)

theorem State.writeNode_tables (s : State) (r : NodeWriteReg) (v : Word) :
    (s.writeNode r v).cmd = s.cmd ∧ (s.writeNode r v).result = s.result := by
  unfold State.writeNode
  split
  · simp
  · cases r <;> simp

/-! ### The run and the slots -/

theorem State.cmdAbort_keeps (s : State) : s.KeepsLaws s.cmdAbort := by
  have cut : s.KeepsLaws s.cutLine := .of_aside (by simp) (by simp) (by simp) (by simp)
  have aborted := State.KeepsLaws.of_tables s.cutLine.abortTransactions_served (by simp) (by simp)
  have stopped : s.cutLine.abortTransactions.KeepsLaws s.cutLine.abortTransactions.enterStopped :=
    .of_aside (by simp) (by simp) (by simp) (by simp)
  unfold State.cmdAbort
  split
  case h_6 => exact .refl s
  case h_7 => exact .refl s
  all_goals exact (cut.trans aborted).trans stopped

theorem State.enterHalted_keeps (s : State) (code : FaultCode) (detail : Word) : s.KeepsLaws (s.enterHalted code detail) := by
  have run : s.KeepsLaws s.haltRun := .of_aside (by simp) (by simp) (by simp) (by simp)
  have aborted := State.KeepsLaws.of_tables s.haltRun.abortTransactions_served (by simp) (by simp)
  have halted := State.KeepsLaws.of_heeded (by simp) (by simp) (s.haltRun.abortTransactions.haltNodes_heeded nodeAddresses)
  unfold State.enterHalted
  exact ((run.trans aborted).trans halted).trans (.of_aside (by simp) (by simp) (by simp) (by simp))

theorem State.takeActivityReport_keeps (s : State) : s.KeepsLaws s.takeActivityReport := by
  unfold State.takeActivityReport
  split
  · dsimp only
    have counted : s.KeepsLaws (s.setRestarts (s.run.restarts + 1)) := .of_aside rfl rfl rfl fun _ => .rfl
    split
    · exact counted.trans (State.enterHalted_keeps _ _ _)
    · exact counted
  all_goals exact .refl s

theorem State.takeLinkFault_keeps (s : State) (kind : LinkFaultKind) : s.KeepsLaws (s.takeLinkFault kind) := by
  unfold State.takeLinkFault
  split
  · exact .of_aside (by simp) (by simp) (by simp) (by simp)
  · exact .of_aside (by simp) (by simp) (by simp) (by simp)
  · exact s.enterHalted_keeps _ _
  all_goals exact .refl s

theorem State.selectCommand_keeps {s t : State} {e : OutEntry} (chosen : s.selectCommand = some (e, t)) : s.KeepsLaws t := by
  unfold State.selectCommand at chosen
  split at chosen
  · next retry =>
    cases chosen
    exact .of_tables (State.sendRetry_served retry) rfl rfl
  · split at chosen
    · next first =>
      cases chosen
      exact State.sendFirst_keeps (State.chooseFirst_some first).1
    · cases chosen

theorem State.slotStart_keeps (s : State) (k : SlotIndex) : s.KeepsLaws (s.slotStart k) := by
  have entered : s.KeepsLaws (s.enterSlot k (s.sched.record s.sched.active k)) := .of_aside rfl rfl rfl fun _ => .rfl
  unfold State.slotStart
  dsimp only
  split
  · next e t chosen =>
    split at chosen
    · exact (entered.trans (State.selectCommand_keeps chosen)).trans (.of_aside (by simp) (by simp) (by simp) (by simp))
    · cases chosen
  · exact entered.trans (.of_aside (by simp) (by simp) (by simp) (by simp))

theorem State.slotEnd_keeps (s : State) : s.KeepsLaws s.slotEnd := by
  have cut : s.KeepsLaws s.cutSlot.dropLineTimers := .of_aside (by simp) (by simp) (by simp) (by simp)
  unfold State.slotEnd State.afterSlot
  split
  · split
    · exact cut.trans (State.slotStart_keeps _ _)
    · exact cut.trans (.of_aside (by simp) (by simp) (by simp) (by simp))
  all_goals exact .refl s

theorem State.headEnd_keeps (s : State) : s.KeepsLaws s.headEnd := by
  have dropped : s.KeepsLaws s.dropLineTimers := .of_aside rfl rfl rfl (by simp)
  unfold State.headEnd
  split
  · exact dropped.trans (State.slotStart_keeps _ _)
  · exact .refl s

theorem State.frameEnd_keeps (s : State) : s.KeepsLaws s.frameEnd := by
  have after (u : State) : u.TablesServed u.afterFrame := by
    unfold State.afterFrame
    split
    case h_5 => exact u.broadcastSent_served.trans (.of_cmd rfl rfl)
    all_goals exact .of_cmd rfl rfl
  refine .of_tables ?_ (by simp) (by simp)
  by_cases sends : s.link.state = .send ∧ s.timers.cut = none
  · rw [State.frameEnd_send sends.1 sends.2]
    exact State.TablesServed.trans (t := s.frameSent) (.of_cmd rfl rfl) (after _)
  · have same : s.frameEnd = s := by
      unfold State.frameEnd
      split
      · next send => rw [if_pos (Option.isSome_iff_ne_none.2 fun whole => sends ⟨send, whole⟩)]
      all_goals rfl
    exact .of_cmd (by rw [same]) (by rw [same])

/-! ### Register writes -/

theorem State.writeRcmd_keeps (s : State) (v : Word) : s.KeepsLaws (s.writeRcmd v) := by
  unfold State.writeRcmd
  split
  · exact .of_aside (by simp) (by simp) (by simp) (by simp)
  · exact .of_aside (by simp) (by simp) (by simp) (by simp)
  · exact s.cmdAbort_keeps
  · exact .of_aside (by simp) (by simp) (by simp) (by simp)
  · exact .of_empty (by simp [CmdEngine.controllerReset]) (by simp [CmdEngine.controllerReset]) (by simp [ResultUnit.reset])
  · exact .of_aside rfl rfl rfl (by simp)

/-- A settings register holds nothing that the laws speak of (R117). -/
theorem State.writeSetting_keeps (s : State) (offset : Word) {f : State → State} (kept : s.KeepsLaws (f s)) :
    s.KeepsLaws (s.writeSetting offset f) := by
  unfold State.writeSetting
  split
  · exact kept
  · exact .of_aside rfl rfl rfl (by simp)

theorem State.takeResponse_keeps (s : State) : s.KeepsLaws s.takeResponse := by
  refine .of_served s.takeResponse_served (.of_nodes (by simp) fun n h => ?_)
  unfold State.takeResponse
  split
  · simp [h]
  · dsimp only
    split
    · exact h
    · simpa using h

theorem State.writeRegister_keeps (s : State) (r : WriteReg) (v : Word) : s.KeepsLaws (s.writeRegister r v) := by
  cases r with
  | rcmd => exact s.writeRcmd_keeps v
  | node r => exact .of_heeded (s.writeNode_tables r v).1 (s.writeNode_tables r v).2 (s.writeNode_heeded r v)
  | lset =>
    refine State.writeSetting_keeps s 0x04 (f := fun s => _) ?_
    exact .of_aside rfl rfl rfl fun _ => .rfl
  | cset =>
    refine State.writeSetting_keeps s 0x06 (f := fun s => _) ?_
    exact .of_tables (.of_eq rfl rfl rfl rfl) rfl rfl
  | tset =>
    refine State.writeSetting_keeps s 0x08 (f := fun s => _) ?_
    exact .of_tables (.of_eq rfl rfl rfl rfl) rfl rfl
  | cqput => exact s.put_keeps
  | rqtake => exact s.takeResponse_keeps
  | ctag => exact .of_tables (.of_eq rfl rfl rfl rfl) rfl rfl
  | cop => exact .of_tables (.of_eq rfl rfl rfl rfl) rfl rfl
  | cparam => exact .of_tables (.of_eq rfl rfl rfl rfl) rfl rfl
  | cdata k => exact .of_tables (.of_eq rfl rfl rfl rfl) rfl rfl
  | chg h => exact .of_heeded rfl rfl (.of_entries rfl fun _ => id)
  | nsel => exact .of_heeded rfl rfl (.of_entries rfl fun _ => id)
  | sctl =>
    show s.KeepsLaws (s.writeSctl v)
    unfold State.writeSctl
    split
    · exact .of_aside (by simp) (by simp) (by simp) (by simp)
    · exact .of_aside rfl rfl rfl fun _ => .rfl
    · exact .refl s
  | _ =>
    refine .of_aside ?_ ?_ ?_ ?_ <;>
      simp [State.writeRegister, State.writeSrule, State.writeSnodeb, State.writeSlen]

theorem State.carryOut_keeps (s : State) (a : Access) : s.KeepsLaws (s.carryOut a).1 := by
  rcases s.carryOut_cases a with e | ⟨-, o, e⟩ | ⟨-, r, v, e⟩ | ⟨-, e⟩ | ⟨-, e⟩ <;> rw [e]
  · exact .refl s
  · exact .of_aside (by simp) (by simp) (by simp) (by simp)
  · exact s.writeRegister_keeps r v
  · exact .of_aside (by simp) (by simp) (by simp) (by simp)
  · exact .of_aside (by simp) (by simp) (by simp) (by simp)

/-! ### Steps -/

theorem State.setPort_keeps (s : State) (p : Port) : s.KeepsLaws (s.setPort p) := .of_aside rfl rfl rfl fun _ => .rfl

/-- Every event but a node-down notice keeps the laws from the state in which it is due no longer. -/
theorem eventEffect_keeps (s : State) {c : Instr} (other : ∀ n, c ≠ .nodeDownNotice n) :
    s.KeepsLaws (eventEffect c s) := by
  cases c with
  | waitingAccessTaken =>
    exact State.takeWaiting_keeps s.KeepsLaws (fun u p h => h.trans (u.setPort_keeps p))
      (fun u a h => h.trans (u.carryOut_keeps a)) (.refl s)
  | slotEnd => exact s.slotEnd_keeps
  | headSegmentEnd => exact s.headEnd_keeps
  | frameEnd => exact s.frameEnd_keeps
  | activityReport => exact s.takeActivityReport_keeps
  | linkFault kind => exact s.takeLinkFault_keeps kind
  | nodeOutcome n kind k v => exact .of_heeded (by simp [eventEffect]) (by simp [eventEffect]) (s.takeOutcome_heeded n kind k v)
  | lateNotice n k => exact .of_heeded (by simp [eventEffect]) (by simp [eventEffect]) (s.takeLate_heeded n k)
  | ackOutcome v => exact .of_tables (s.takeAck_served v) (by simp [eventEffect]) (by simp [eventEffect])
  | resultTrailer n tag serial outcome data =>
    refine .of_served (s.takeTrailer_served n tag serial outcome data) (.of_nodes (by simp [eventEffect]) fun m h => ?_)
    simp only [eventEffect, State.takeTrailer]
    split
    · simp [h]
    · split <;> simpa using h
  | nodeDownNotice n => exact absurd rfl (other n)
  | abandonNotice => exact .of_tables s.takeAbandon_served (by simp [eventEffect]) (by simp [eventEffect])
  | resultTimeout => exact .of_tables s.takeTimeouts_served (by simp [eventEffect]) (by simp [eventEffect])
  | _ => exact .of_aside (by simp [eventEffect]) (by simp [eventEffect]) (by simp [eventEffect]) (by simp [eventEffect])

theorem exec_keepsLaws {c : Instr} {s t : State} (h : exec c s = .next t) : s.KeepsLaws t := by
  rcases exec_cases h with rfl | ⟨p, rfl, -⟩ | ⟨-, level, rfl⟩ | ⟨a, -, rfl⟩ | ⟨-, rfl⟩ | ⟨-, rfl⟩ | ⟨-, rfl⟩
  · exact .refl t
  · exact s.setPort_keeps p
  · exact .of_aside rfl rfl rfl fun _ => .rfl
  · exact (s.carryOut_keeps a).trans (State.setPort_keeps _ _)
  · exact .of_empty rfl rfl rfl
  · exact .of_aside rfl rfl rfl fun _ => .rfl
  · by_cases notice : ∃ n, c = .nodeDownNotice n
    · obtain ⟨n, rfl⟩ := notice
      exact s.nodeDownNotice_keeps n
    · have other (n : NodeAddr) : c ≠ .nodeDownNotice n := fun e => notice ⟨n, e⟩
      have taken : s.KeepsLaws (s.takeDue c) := .of_aside rfl rfl rfl fun n => mem_takeDue_notice (other n) s
      exact taken.trans (eventEffect_keeps _ other)

theorem step_keepsLaws {s t : State} (next : step s = .next t) : s.KeepsLaws t := by
  rcases step_cases next with ⟨c, rest, -, run⟩ | ⟨c, rest, -, -, run⟩ | ⟨-, -, rfl⟩
  · have fetched : s.KeepsLaws { s with pending := rest } := .of_aside rfl rfl rfl fun _ => .rfl
    exact fetched.trans (exec_keepsLaws run)
  · exact exec_keepsLaws run
  · obtain ⟨l, line, link, timers, tick, expiries, -⟩ := s.tick_cases
    rw [tick]
    refine .of_aside rfl rfl rfl fun n => ?_
    have unnoticed : Instr.nodeDownNotice n ∉ l := fun mem => absurd (expiries _ mem) (by simp [isExpiry])
    simp [unnoticed]

/-- Settles O52: what serves the tables brings no entry and lets none wait at a queue with room; a put and a first transmission
check for room. -/
theorem stepKeepsQueueLaws : Obligations.StepKeepsQueueLaws := by
  unfold Obligations.StepKeepsQueueLaws
  intro s t capacity response next
  exact (step_keepsLaws next).queues ⟨capacity, response⟩

/-- Settles O53, by the keys of the entries, the node-down notices due and the settle orders that wait. -/
theorem stepKeepsTransactionLaws : Obligations.StepKeepsTransactionLaws := by
  unfold Obligations.StepKeepsTransactionLaws
  refine ⟨fun s t push tag down credit next => ?_, fun s t push order next => ?_⟩
  · exact (step_keepsLaws next).transactions ⟨push, tag, down, credit⟩
  · exact ((step_keepsLaws next).orders ⟨push, order⟩).2

end Sys2Proof.Machine
end

section
/-! PROOFS. The check of a put, and what an accepted put leaves (R90 to R92). -/

namespace Sys2Proof.Machine

open Sys2Proof

/-! ### The check -/

theorem Op.ofCode_eq_none {c : BitVec 3} : Op.ofCode c = none ↔ ¬ (1 ≤ c.toNat ∧ c.toNat ≤ 4) := by
  revert c; decide

theorem Op.ofCode_eq_read {c : BitVec 3} : Op.ofCode c = some .read ↔ c = 1 := by
  revert c; decide

/-- Step 1 of the check of a put, by the op it names (R91). -/
theorem Staging.fieldsValid_iff {r : Staging} : r.fieldsValid = true ↔
    ∃ op, Op.ofCode r.op = some op ∧ r.len.toNat ≤ 32 ∧ (op = .read → 1 ≤ r.len.toNat ∧ r.node ≠ 0) := by
  unfold Staging.fieldsValid
  cases code : Op.ofCode r.op with
  | none => simp
  | some op =>
    cases op with
    | read => simp; tauto
    | _ => simp

/-- Step 1 of the check of a put, by the code of its op (R91). -/
theorem Staging.fieldsValid_iff_code {r : Staging} : r.fieldsValid = true ↔
    (1 ≤ r.op.toNat ∧ r.op.toNat ≤ 4) ∧ r.len.toNat ≤ 32 ∧ (r.op = 1 → 1 ≤ r.len.toNat ∧ r.node ≠ 0) := by
  rw [Staging.fieldsValid_iff, ← Op.ofCode_eq_read]
  have named := not_iff_comm.1 (Op.ofCode_eq_none (c := r.op)).symm
  rw [← named]
  cases Op.ofCode r.op <;> simp

theorem State.tagHeld_iff {s : State} {tag : Byte} : s.tagHeld tag = true ↔
    (∃ q ∈ s.cmd.queue, q.tag = tag) ∨ ∃ e ∈ s.cmd.outstanding, e.tag = tag := by
  simp [State.tagHeld]

section
variable {s : State}

theorem State.checkPut_badPut (bad : s.cmd.staging.fieldsValid = false) : s.checkPut = .badPut := by
  simp [State.checkPut, bad]

theorem State.checkPut_tagBusy (valid : s.cmd.staging.fieldsValid = true) (held : s.tagHeld s.cmd.staging.tag = true) :
    s.checkPut = .tagBusy := by
  simp [State.checkPut, valid, held]

theorem State.checkPut_full (valid : s.cmd.staging.fieldsValid = true) (free : s.tagHeld s.cmd.staging.tag = false)
    (full : 16 ≤ s.cmd.queue.length) : s.checkPut = .full := by
  simp [State.checkPut, valid, free, Config.queueCapacity, full]

theorem exec_cqput (ready : s.Ready) (v : Word) : exec (.cqput v) s = .next s.put.written :=
  s.hostWrite_ready .cqput v ready

theorem exec_creset (ready : s.Ready) : exec .creset s = .next s.cmdCreset.written := s.hostWrite_ready .rcmd 5 ready

/-- A put refused for a known reason (R91). -/
theorem exec_cqput_refused (ready : s.Ready) (v : Word) {st : PutStatus} (check : s.checkPut = st) (refused : st ≠ .putOk) :
    exec (.cqput v) s = .next ((s.tellPut st).reported .hPush s.cmd.staging.node (BitVec.ofNat 16 st.number)).written := by
  subst check
  rw [exec_cqput ready, State.put_refused refused]
  rfl

end

/-- Settles O25: each refusal by the first check that fails, and a put that passes by the command that joins. -/
theorem putChecked : Obligations.PutChecked := by
  unfold Obligations.PutChecked
  intro s v ready
  dsimp only
  rw [← Staging.fieldsValid_iff_code, ← State.tagHeld_iff, not_not, Bool.not_eq_true, Bool.not_eq_true]
  refine ⟨fun bad => ?_, fun valid held => ?_, fun valid free full => ?_, fun valid free room => ?_, rfl,
    _, exec_creset ready, ?_⟩
  · exact exec_cqput_refused ready v (State.checkPut_badPut bad) (by simp)
  · exact exec_cqput_refused ready v (State.checkPut_tagBusy valid held) (by simp)
  · exact exec_cqput_refused ready v (State.checkPut_full valid free full) (by simp)
  · obtain ⟨op, code, -⟩ := Staging.fieldsValid_iff.1 valid
    refine ⟨_, exec_cqput ready v, ?_⟩
    rw [State.put_accepted (State.checkPut_eq_putOk.2 ⟨valid, free, room⟩) code, State.acceptPut_eq]
    split
    · exact ⟨rfl, rfl, rfl⟩
    · simp [State.written, State.joined, State.tellPut]
  · simp [State.written, CmdEngine.controllerReset]

/-! ### A put accepted -/

section
variable {s : State} {op : Op}

/-- A command that has joined for a node that is not live settles as a WAITING entry does (R92). -/
theorem State.joined_settleQueue (law : s.PushLaw) : (s.joined op).settleQueue s.cmd.nextPush
    = (s.joined op).settledQueueAs (s.cmd.staging.entry op s.cmd.nextPush) :=
  State.settleQueue_eq (State.joined_pushLaw op law) (List.mem_append_right _ List.mem_cons_self) rfl

/-- Every command in the queue has a lower push order than the next (R92). -/
theorem State.queue_push_ne (law : s.PushLaw) {q : QueueEntry} (mem : q ∈ s.cmd.queue) : q.push ≠ s.cmd.nextPush :=
  (law.2 q.push (List.mem_append_left _ (List.mem_map_of_mem mem))).ne

/-- Posted at once: the queue is as it was before the command joined (R130, R131). -/
theorem State.acceptPut_posted (law : s.PushLaw) (dead : ¬ (s.cmd.staging.node = 0 ∨ s.isLive s.cmd.staging.node = true))
    (room : s.result.responses.length < 16) (noneWaits : s.waitingOrders = []) : s.acceptPut op = { s with
      cmd := { s.cmd with nextPush := s.cmd.nextPush + 1 }
      result := { responses := s.result.responses ++
                    [{ tag := s.cmd.staging.tag, node := s.cmd.staging.node, op := op, status := .nodeDown, code := 0,
                       cycle := s.sched.cycleNumber, data := [] }]
                  nextOrder := s.result.nextOrder + 1 } } := by
  have left : (s.cmd.queue ++ [s.cmd.staging.entry op s.cmd.nextPush]).filter (fun x => x.push != s.cmd.nextPush)
      = s.cmd.queue := by
    rw [List.filter_append, List.filter_eq_self.2 fun q mem => by simpa using State.queue_push_ne law mem]
    simp [Staging.entry]
  rw [State.acceptPut_eq, if_neg dead, State.joined_settleQueue law, State.settledQueueAs,
    if_pos ⟨room, (State.joined_waitingOrders op).trans noneWaits⟩]
  exact congrArg (fun l => ({ s with
    cmd := { s.cmd with nextPush := s.cmd.nextPush + 1, queue := l }
    result := { responses := _, nextOrder := _ } } : State)) left

/-- DOOMED in the queue (R92, R130). -/
theorem State.acceptPut_doomed (law : s.PushLaw) (dead : ¬ (s.cmd.staging.node = 0 ∨ s.isLive s.cmd.staging.node = true))
    (waits : 16 ≤ s.result.responses.length ∨ s.waitingOrders ≠ []) : s.acceptPut op = { s with
      cmd := { s.cmd with
        nextPush := s.cmd.nextPush + 1
        queue := s.cmd.queue ++ [{ s.cmd.staging.entry op s.cmd.nextPush with doomed := some {
          order := s.result.nextOrder, cycle := s.sched.cycleNumber, status := .nodeDown, code := 0, data := [] } }] }
      result := { s.result with nextOrder := s.result.nextOrder + 1 } } := by
  have kept (d : QueueEntry) : (s.cmd.queue ++ [s.cmd.staging.entry op s.cmd.nextPush]).map
      (fun x => if x.push = s.cmd.nextPush then d else x) = s.cmd.queue ++ [d] := by
    rw [List.map_append, (List.map_congr_left fun q mem => if_neg (State.queue_push_ne law mem)).trans (List.map_id' _)]
    simp [Staging.entry]
  rw [State.acceptPut_eq, if_neg dead, State.joined_settleQueue law, State.settledQueueAs, if_neg]
  · exact congrArg (fun l => ({ s with
      cmd := { s.cmd with nextPush := s.cmd.nextPush + 1, queue := l }
      result := { responses := _, nextOrder := _ } } : State)) (kept _)
  · rw [State.joined_waitingOrders]
    exact fun ⟨room, noneWaits⟩ => waits.elim (fun full => Nat.not_lt.2 full room) fun some => some noneWaits

end

/-- Settles O26: the command joins, and for a node that is not live settles as a WAITING entry does. -/
theorem putAccepted : Obligations.PutAccepted := by
  unfold Obligations.PutAccepted
  refine ⟨rfl, fun s ready => ⟨_, exec_creset ready, by simp [State.written, CmdEngine.controllerReset]⟩, ?_⟩
  intro s v op ready law
  dsimp only
  intro code len read free free' room
  have held : s.tagHeld s.cmd.staging.tag = false := by
    rw [← Bool.not_eq_true, State.tagHeld_iff]
    rintro (⟨q, mem, same⟩ | ⟨e, mem, same⟩)
    · exact free q mem same
    · exact free' e mem same
  have passed := State.checkPut_eq_putOk.2 ⟨Staging.fieldsValid_iff.2 ⟨op, code, len, read⟩, held, room⟩
  have dead (ne : s.cmd.staging.node ≠ 0) (dead : s.isLive s.cmd.staging.node = false) :
      ¬ (s.cmd.staging.node = 0 ∨ s.isLive s.cmd.staging.node = true) :=
    not_or.2 ⟨ne, by rw [dead]; simp⟩
  have put (u : State) (accepted : (s.tellPut .putOk).acceptPut op = u) : exec (.cqput v) s = .next u.written := by
    rw [exec_cqput ready, State.put_accepted passed code, accepted]
  refine ⟨fun waits => ?_, fun ne off room noneWaits => ?_, fun ne off waits => ?_⟩
  · exact put _ (((s.tellPut .putOk).acceptPut_eq op).trans (if_pos waits))
  · exact put _ (State.acceptPut_posted (s := s.tellPut .putOk) law (dead ne off) room noneWaits)
  · exact put _ (State.acceptPut_doomed (s := s.tellPut .putOk) law (dead ne off) waits)

end Sys2Proof.Machine
end

section
/-! PROOFS. What an ACK outcome and an abandon notice do to the entry of their slot (R104 to R108, R113). -/

namespace Sys2Proof.Machine

open Sys2Proof

theorem exec_ackOutcome {s : State} (out : s.inReset = false) (v : AckVerdict) :
    exec (.ackOutcome v) s = .next ((s.takeDue (.ackOutcome v)).takeAck v) :=
  congrArg _ (State.event_ready s _ _ out)

theorem exec_abandonNotice {s : State} (out : s.inReset = false) :
    exec .abandonNotice s = .next (s.takeDue .abandonNotice).takeAbandon :=
  congrArg _ (State.event_ready s _ _ out)

/-! ### The outcome taken -/

/-- An ACK outcome taken off the events due, with the mark of its slot cleared (R104, log entry 32). -/
def State.ackTaken (s : State) (cleared : CmdEngine) (v : AckVerdict) : State :=
  { s with cmd := cleared, due := s.due.erase (.ackOutcome v) }

/-- Clearing the mark of a slot leaves the tables and the settings. -/
theorem State.AckReaches.cleared_eq {s : State} {e : OutEntry} {cleared : CmdEngine} (reaches : s.AckReaches e cleared) :
    cleared.queue = s.cmd.queue ∧ cleared.outstanding = s.cmd.outstanding ∧ cleared.nextPush = s.cmd.nextPush
      ∧ cleared.resultTimeout = s.cmd.resultTimeout := by
  rcases reaches with ⟨-, -, rfl⟩ | ⟨rest, -, rfl⟩ <;> exact ⟨rfl, rfl, rfl, rfl⟩

section
variable {s : State} {e : OutEntry} {cleared : CmdEngine} (out : s.inReset = false) (law : s.PushLaw)
  (mem : e ∈ s.cmd.outstanding) (state : e.state = .awaitAck) (reaches : s.AckReaches e cleared) (v : AckVerdict)
include out law mem state reaches

/-- An outcome is applied to the entry that it reaches, in the state in which it has been taken. -/
theorem exec_ackOutcome_reaches : exec (.ackOutcome v) s = .next ((s.ackTaken cleared v).applyAck e v) := by
  rw [exec_ackOutcome out]
  exact congrArg _ (State.takeAck_eq (s := s.takeDue (.ackOutcome v)) law mem state reaches v)

omit out mem state in
theorem State.ackTaken_pushLaw : (s.ackTaken cleared v).PushLaw := by
  obtain ⟨queue, table, next, -⟩ := reaches.cleared_eq
  unfold State.PushLaw
  simp only [State.ackTaken, queue, table, next]
  exact law

omit out law state in
theorem State.mem_ackTaken : e ∈ (s.ackTaken cleared v).cmd.outstanding := by
  simpa only [State.ackTaken, reaches.cleared_eq.2.1] using mem

/-- An outcome that puts the entry in another condition. -/
theorem exec_ackOutcome_updates {f : OutEntry → OutEntry} (push : (f e).push = e.push)
    (applied : (s.ackTaken cleared v).applyAck e v = (s.ackTaken cleared v).updateOut e.push f) :
    exec (.ackOutcome v) s = .next ((s.ackTaken cleared v).withEntry (f e)) := by
  rw [exec_ackOutcome_reaches out law mem state reaches v, applied,
    State.updateOut_eq (State.ackTaken_pushLaw law reaches v) (State.mem_ackTaken mem reaches v) f push]

/-- An outcome that settles the entry. -/
theorem exec_ackOutcome_settles {st : Status} {c : Byte} {d : List Byte}
    (applied : (s.ackTaken cleared v).applyAck e v = (s.ackTaken cleared v).settleOut e.push st c d) :
    exec (.ackOutcome v) s = .next ((s.ackTaken cleared v).settledAs e st c d) := by
  rw [exec_ackOutcome_reaches out law mem state reaches v, applied,
    State.settleOut_eq st c d (State.ackTaken_pushLaw law reaches v) (State.mem_ackTaken mem reaches v)
      (OutEntry.unsettled_of_awaitAck state)]

end

/-! ### ACCEPT and BUSY -/

/-- Two changes of one entry are one change. -/
theorem State.updateOut_updateOut (s : State) (p : Nat) {f g : OutEntry → OutEntry} (push : ∀ e, (f e).push = e.push) :
    (s.updateOut p f).updateOut p g = s.updateOut p (g ∘ f) := by
  have once : (s.cmd.outstanding.map fun e => if e.push = p then f e else e).map (fun e => if e.push = p then g e else e)
      = s.cmd.outstanding.map fun e => if e.push = p then (g ∘ f) e else e := by
    rw [List.map_map]
    refine List.map_congr_left fun e _ => ?_
    by_cases same : e.push = p <;> simp [same, push]
  unfold State.updateOut
  rw [once]

theorem State.ackAccept_reset {s : State} {e : OutEntry} (op : e.op = .reset) :
    s.ackAccept e = s.settleOut e.push .done 0 [] := by
  simp [State.ackAccept, op]

theorem State.ackAccept_other {s : State} {e : OutEntry} (op : e.op ≠ .reset) : s.ackAccept e
    = s.updateOut e.push fun e => { e with state := .accepted, cyclesLeft := s.cmd.resultTimeout } := by
  unfold State.ackAccept
  split
  · next reset => exact absurd reset op
  all_goals rfl

theorem State.ackBusy_below {s : State} {e : OutEntry} (below : e.busy.toNat < 14) : s.ackBusy e
    = s.updateOut e.push fun e => { e with busy := e.busy + 1, state := .retry } := by
  unfold State.ackBusy
  rw [if_neg (by simp [Config.busyLimit]; omega), State.updateOut_updateOut]
  · rfl
  · exact fun _ => rfl

/-- The fifteenth BUSY settles the entry with its count at 15 (R106). -/
theorem State.ackBusy_fifteenth {s : State} {e : OutEntry} (law : s.PushLaw) (mem : e ∈ s.cmd.outstanding)
    (state : e.state = .awaitAck) (busy : e.busy = 14) : s.ackBusy e = s.settledAs { e with busy := 15 } .nodeBusy 0 [] := by
  have unsettled := OutEntry.unsettled_of_awaitAck state
  have counted : s.updateOut e.push (fun e => { e with busy := e.busy + 1 }) = s.withEntry { e with busy := 15 } := by
    rw [State.updateOut_eq law mem (fun e => { e with busy := e.busy + 1 }) rfl, busy]
    rfl
  unfold State.ackBusy
  rw [if_pos (by simp [busy, Config.busyLimit]), counted]
  exact State.settleOut_withEntry (e' := { e with busy := 15 }) .nodeBusy 0 [] law mem rfl unsettled unsettled

/-- Settles O28: the outcome reaches the entry of its slot, and is applied to it as R105 and R106 say. -/
theorem acceptAndBusyTaken : Obligations.AcceptAndBusyTaken := by
  unfold Obligations.AcceptAndBusyTaken
  intro s e cleared out law mem state reaches
  dsimp only
  refine ⟨fun op => ?_, fun op => ?_, fun below => ?_, fun fifteenth => ?_⟩
  · rw [← reaches.cleared_eq.2.2.2]
    exact exec_ackOutcome_updates out law mem state reaches .accept (f := fun e =>
      { e with state := .accepted, cyclesLeft := cleared.resultTimeout }) rfl (State.ackAccept_other op)
  · exact exec_ackOutcome_settles out law mem state reaches .accept (State.ackAccept_reset op)
  · exact exec_ackOutcome_updates out law mem state reaches .busy (f := fun e =>
      { e with busy := e.busy + 1, state := .retry }) rfl (State.ackBusy_below below)
  · rw [exec_ackOutcome_reaches out law mem state reaches .busy]
    exact congrArg _ (State.ackBusy_fifteenth (State.ackTaken_pushLaw law reaches .busy)
      (State.mem_ackTaken mem reaches .busy) state fifteenth)

/-! ### REJECT and a miss -/

theorem State.ackMissed_last {s : State} {e : OutEntry} (last : e.retries = 0) :
    s.ackMissed e = s.settleOut e.push .noAck 0 [] := by
  simp [State.ackMissed, last]

theorem State.ackMissed_left {s : State} {e : OutEntry} (left : e.retries ≠ 0) :
    s.ackMissed e = s.updateOut e.push fun e => { e with retries := e.retries - 1, state := .retry } := if_neg left

/-- Settles O29: the outcome reaches the entry of its slot, and is applied to it as R107 and R108 say. -/
theorem rejectAndMissTaken : Obligations.RejectAndMissTaken := by
  unfold Obligations.RejectAndMissTaken
  intro s e cleared out law mem state reaches
  dsimp only
  refine ⟨fun reason => ?_, fun v missed => ?_⟩
  · exact exec_ackOutcome_settles out law mem state reaches (.reject reason) rfl
  · have applied (u : State) : u.applyAck e v = u.ackMissed e := by
      rcases missed with rfl | rfl <;> rfl
    refine ⟨fun last => ?_, fun left => ?_⟩
    · exact exec_ackOutcome_settles out law mem state reaches v ((applied _).trans (State.ackMissed_last last))
    · exact exec_ackOutcome_updates out law mem state reaches v (f := fun e =>
        { e with retries := e.retries - 1, state := .retry }) rfl ((applied _).trans (State.ackMissed_left left))

/-! ### Void outcomes and abandon notices -/

/-- A mark that names no entry in AWAIT_ACK finds none (R104). -/
theorem State.awaiting_none {s : State} {mark : Option Nat}
    (void : ∀ p, mark = some p → ∀ e ∈ s.cmd.outstanding, e.push = p → e.state ≠ .awaitAck) :
    s.awaiting mark = none := by
  cases found : s.awaiting mark with
  | none => rfl
  | some e =>
    unfold State.awaiting at found
    repeat' split at found
    all_goals cases found
    next p _ named state =>
      obtain ⟨mem, push⟩ := State.out?_some named
      exact absurd state (void p rfl e mem push)

/-- Settles O30: an outcome or a notice goes by its mark, and only an entry in AWAIT_ACK is taken to RETRY. -/
theorem abandonedOrderRetries : Obligations.AbandonedOrderRetries := by
  unfold Obligations.AbandonedOrderRetries
  intro s out
  refine ⟨fun void => ?_, fun m rest ended void v => ?_, fun e mem law state marked => ?_⟩
  · have missing : s.awaiting s.cmd.inFlightMark = none := State.awaiting_none fun p marked e mem push => by
      rcases void with clear | ⟨q, named, void⟩
      · simp [clear] at marked
      · exact void e mem (push.trans (Option.some.inj (marked.symm.trans named)))
    refine ⟨fun ended v => ?_, ?_⟩
    · have kept : (s.takeDue (.ackOutcome v)).takeAck v = s.takeDue (.ackOutcome v) := by
        have missing' : (s.takeDue (.ackOutcome v)).markedAwaiting = none := missing
        simp only [State.takeAck, State.takeDue_cmd, ended, missing']
      rw [exec_ackOutcome out, kept]
      rfl
    · have missing' : (s.takeDue .abandonNotice).markedAwaiting = none := missing
      rw [exec_abandonNotice out, State.takeAbandon, missing']
      rfl
  · have missing : (s.takeDue (.ackOutcome v)).awaiting m = none := State.awaiting_none (s := s.takeDue (.ackOutcome v)) void
    have dropped : (s.takeDue (.ackOutcome v)).takeAck v = (s.takeDue (.ackOutcome v)).dropEndedMark := by
      simp only [State.takeAck, State.takeDue_cmd, ended, missing]
    rw [exec_ackOutcome out, dropped]
    simp only [State.dropEndedMark, State.takeDue_cmd, ended]
    rfl
  · have named := State.markedAwaiting_eq (s := s.takeDue .abandonNotice) law mem state marked
    rw [exec_abandonNotice out, State.takeAbandon, named]
    dsimp only
    rw [State.updateOut_eq (s := s.takeDue .abandonNotice) law mem (fun e => { e with state := .retry }) rfl]
    rfl

end Sys2Proof.Machine
end

section
/-! PROOFS. What a node-down notice settles, and what it leaves (R110, R111, R129 to R131). -/

namespace Sys2Proof.Machine

open Sys2Proof

theorem exec_nodeDownNotice {s : State} (out : s.inReset = false) {n : NodeAddr} (ne : n ≠ 0) :
    exec (.nodeDownNotice n) s = .next ((s.takeDue (.nodeDownNotice n)).takeNodeDown n) := by
  have fits : (Instr.nodeDownNotice n).wellFormed = true := by simpa [Instr.wellFormed] using ne
  show execNodeDownNotice n s = _
  unfold execNodeDownNotice
  rw [if_pos fits, State.event_ready s _ _ out]

/-! ### What settling leaves -/

/-- Settling outstanding entries changes the outstanding table and the result unit alone. -/
theorem State.settleAll_changes (s : State) (ps : List Nat) (st : Status) :
    ∃ out result, s.settleAll ps st = { s with cmd := { s.cmd with outstanding := out }, result := result } := by
  induction ps generalizing s with
  | nil => exact ⟨_, _, rfl⟩
  | cons p rest ih =>
    have one : ∃ out result,
        s.settleOut p st 0 [] = { s with cmd := { s.cmd with outstanding := out }, result := result } := by
      unfold State.settleOut
      dsimp only
      repeat' split
      all_goals exact ⟨_, _, rfl⟩
    obtain ⟨out, result, first⟩ := one
    obtain ⟨out', result', others⟩ := ih (s.settleOut p st 0 [])
    exact ⟨out', result', by rw [State.settleAll, others, first]⟩

/-- Settling queue entries changes the queue and the result unit alone. -/
theorem State.settleAllQueued_changes (s : State) (ps : List Nat) :
    ∃ queue result, s.settleAllQueued ps = { s with cmd := { s.cmd with queue := queue }, result := result } := by
  induction ps generalizing s with
  | nil => exact ⟨_, _, rfl⟩
  | cons p rest ih =>
    have one : ∃ queue result, s.settleQueue p = { s with cmd := { s.cmd with queue := queue }, result := result } := by
      unfold State.settleQueue
      dsimp only
      repeat' split
      all_goals exact ⟨_, _, rfl⟩
    obtain ⟨queue, result, first⟩ := one
    obtain ⟨queue', result', others⟩ := ih (s.settleQueue p)
    exact ⟨queue', result', by rw [State.settleAllQueued, others, first]⟩

/-- The outstanding entries of the other nodes. -/
def State.outElsewhere (s : State) (n : NodeAddr) : List OutEntry := s.cmd.outstanding.filter fun e => e.node != n

/-- The queue entries of the other nodes. -/
def State.queueElsewhere (s : State) (n : NodeAddr) : List QueueEntry := s.cmd.queue.filter fun q => q.node != n

/-- Elements dropped that a filter drops anyway. -/
theorem filter_filter_of_imp {α : Type} {l : List α} {p q : α → Bool} (h : ∀ x ∈ l, q x = true → p x = true) :
    (l.filter p).filter q = l.filter q := by
  rw [List.filter_filter]
  refine List.filter_congr fun x mem => ?_
  cases hq : q x with
  | false => rfl
  | true => rw [h x mem hq]; rfl

/-- Elements changed that a filter drops before and after. -/
theorem filter_map_of_dropped {α : Type} {l : List α} {f : α → α} {q : α → Bool}
    (h : ∀ x ∈ l, f x = x ∨ q x = false ∧ q (f x) = false) : (l.map f).filter q = l.filter q := by
  induction l with
  | nil => rfl
  | cons x rest ih =>
    have others := ih fun y hy => h y (List.mem_cons_of_mem x hy)
    rw [List.map_cons]
    rcases h x List.mem_cons_self with same | ⟨before, after⟩
    · rw [same, List.filter_cons, List.filter_cons, others]
    · rw [List.filter_cons_of_neg (by simp [after]), List.filter_cons_of_neg (by simp [before]), others]

/-- Settling an entry of a node leaves the entries of the others (R111). -/
theorem State.settleOut_elsewhere {s : State} {n : NodeAddr} {p : Nat} (st : Status) (c : Byte) (d : List Byte)
    (named : ∀ e ∈ s.cmd.outstanding, e.push = p → e.node = n) :
    (s.settleOut p st c d).outElsewhere n = s.outElsewhere n := by
  unfold State.settleOut
  split
  · rfl
  · dsimp only
    split
    · rfl
    · split
      · refine filter_filter_of_imp fun e mem other => ?_
        simpa using fun push => by simp [named e mem push] at other
      · refine filter_map_of_dropped fun e mem => ?_
        by_cases push : e.push = p
        · exact .inr (by simp [push, named e mem push])
        · exact .inl (if_neg push)

theorem State.settleQueue_elsewhere {s : State} {n : NodeAddr} {p : Nat}
    (named : ∀ q ∈ s.cmd.queue, q.push = p → q.node = n) : (s.settleQueue p).queueElsewhere n = s.queueElsewhere n := by
  unfold State.settleQueue
  split
  · rfl
  · dsimp only
    split
    · rfl
    · split
      · refine filter_filter_of_imp fun q mem other => ?_
        simpa using fun push => by simp [named q mem push] at other
      · refine filter_map_of_dropped fun q mem => ?_
        by_cases push : q.push = p
        · exact .inr (by simp [push, named q mem push])
        · exact .inl (if_neg push)

/-- The push orders named are those of entries of a node. -/
def State.OutNamed (s : State) (ps : List Nat) (n : NodeAddr) : Prop :=
  ∀ k ∈ s.cmd.outstanding.map OutEntry.key, k.2.2 ∈ ps → k.2.1 = n

/-- See `State.OutNamed`. -/
def State.QueueNamed (s : State) (ps : List Nat) (n : NodeAddr) : Prop :=
  ∀ k ∈ s.cmd.queue.map QueueEntry.key, k.2.2 ∈ ps → k.2.1 = n

theorem State.settleAll_elsewhere {s : State} {ps : List Nat} {n : NodeAddr} (named : s.OutNamed ps n) (st : Status) :
    (s.settleAll ps st).outElsewhere n = s.outElsewhere n := by
  induction ps generalizing s with
  | nil => rfl
  | cons p rest ih =>
    have first := State.settleOut_elsewhere (p := p) st 0 [] fun e mem push =>
      named e.key (List.mem_map_of_mem mem) (by simp [OutEntry.key, push])
    refine (ih fun k mem inRest => ?_).trans first
    exact named k ((s.settleOut_settles p st 0 []).out.subset mem) (List.mem_cons_of_mem p inRest)

theorem State.settleAllQueued_elsewhere {s : State} {ps : List Nat} {n : NodeAddr} (named : s.QueueNamed ps n) :
    (s.settleAllQueued ps).queueElsewhere n = s.queueElsewhere n := by
  induction ps generalizing s with
  | nil => rfl
  | cons p rest ih =>
    have first := State.settleQueue_elsewhere (p := p) fun q mem push =>
      named q.key (List.mem_map_of_mem mem) (by simp [QueueEntry.key, push])
    refine (ih fun k mem inRest => ?_).trans first
    exact named k ((s.settleQueue_settles p).queue.subset mem) (List.mem_cons_of_mem p inRest)

/-! ### What is posted -/

/-- What is posted while a queue entry settles (R92, R131). -/
theorem State.settleQueue_posts (s : State) (p : Nat) :
    ∃ l, (s.settleQueue p).result.responses = s.result.responses ++ l
      ∧ ∀ r ∈ l, r.status = .nodeDown ∧ r.code = 0 ∧ r.data = [] ∧ ∃ q ∈ s.cmd.queue, q.push = p ∧ r.node = q.node := by
  unfold State.settleQueue
  split
  · exact ⟨[], by simp⟩
  · next q found =>
    dsimp only
    split
    · exact ⟨[], by simp⟩
    · split
      · refine ⟨[Response.ofQueue q (s.settlementNow .nodeDown 0 [])], by simp, ?_⟩
        simp only [List.mem_singleton, forall_eq]
        exact ⟨rfl, rfl, rfl, q, (State.queued?_some found).1, (State.queued?_some found).2, rfl⟩
      · exact ⟨[], by simp⟩

/-- The records posted while entries of a node settle NODE_DOWN. -/
def State.PostsDown (s t : State) (n : NodeAddr) : Prop :=
  ∃ l, t.result.responses = s.result.responses ++ l
    ∧ ∀ r ∈ l, r.node = n ∧ r.status = .nodeDown ∧ r.code = 0 ∧ r.data = []

theorem State.PostsDown.trans {s t u : State} {n : NodeAddr} (h : s.PostsDown t n) (h' : t.PostsDown u n) :
    s.PostsDown u n := by
  obtain ⟨l, more, posted⟩ := h
  obtain ⟨l', more', posted'⟩ := h'
  exact ⟨l ++ l', by rw [more', more, List.append_assoc],
    fun r mem => (List.mem_append.1 mem).elim (posted r) (posted' r)⟩

theorem State.settleAll_postsDown {s : State} {ps : List Nat} {n : NodeAddr} (named : s.OutNamed ps n) :
    s.PostsDown (s.settleAll ps .nodeDown) n := by
  obtain ⟨l, more, posted⟩ := s.settleAll_posts ps .nodeDown
  refine ⟨l, more, fun r mem => ?_⟩
  obtain ⟨status, code, data, -, p, hp, k, hk, push, node, -⟩ := posted r mem
  exact ⟨node.trans (named k hk (push ▸ hp)), status, code, data⟩

theorem State.settleAllQueued_postsDown {s : State} {ps : List Nat} {n : NodeAddr} (named : s.QueueNamed ps n) :
    s.PostsDown (s.settleAllQueued ps) n := by
  induction ps generalizing s with
  | nil => exact ⟨[], by simp [State.settleAllQueued]⟩
  | cons p rest ih =>
    have first : s.PostsDown (s.settleQueue p) n := by
      obtain ⟨l, more, posted⟩ := s.settleQueue_posts p
      refine ⟨l, more, fun r mem => ?_⟩
      obtain ⟨status, code, data, q, hq, push, node⟩ := posted r mem
      exact ⟨node.trans (named q.key (List.mem_map_of_mem hq) (by simp [QueueEntry.key, push])), status, code, data⟩
    refine first.trans (ih fun k mem inRest => ?_)
    exact named k ((s.settleQueue_settles p).queue.subset mem) (List.mem_cons_of_mem p inRest)

/-! ### The notice -/

/-- The outstanding entries of a node settled, and the mark of one of them cleared (R104, R111). -/
def State.outDowned (s : State) (n : NodeAddr) : State :=
  let t := s.settleAll (s.unsettledPushes fun e => e.node == n) .nodeDown
  if s.markNames n then t.clearMark else t

theorem State.takeNodeDown_eq (s : State) (n : NodeAddr) :
    s.takeNodeDown n = (s.outDowned n).settleAllQueued ((s.outDowned n).waitingPushes n) := rfl

section
variable {s : State} (n : NodeAddr)

theorem State.unsettledPushes_named (law : s.PushLaw) : s.OutNamed (s.unsettledPushes fun e => e.node == n) n := by
  intro k hk chosen
  obtain ⟨e, mem, rfl⟩ := List.mem_map.1 hk
  obtain ⟨f, hf, -, node, push⟩ := State.mem_unsettledPushes.1 chosen
  rw [State.eq_of_push law mem hf push] at node
  exact beq_iff_eq.1 node

theorem State.waitingPushes_named (law : s.PushLaw) : s.QueueNamed (s.waitingPushes n) n := by
  intro k hk chosen
  obtain ⟨q, mem, rfl⟩ := List.mem_map.1 hk
  obtain ⟨r, hr, -, node, push⟩ := State.mem_waitingPushes.1 chosen
  have found := State.queued?_of_mem law hr
  rw [show r.push = q.push from push, State.queued?_of_mem law mem] at found
  exact Option.some.inj found ▸ node

theorem State.outDowned_changes : ∃ out result mark,
    s.outDowned n = { s with cmd := { s.cmd with outstanding := out, inFlightMark := mark }, result := result } := by
  obtain ⟨out, result, settled⟩ := s.settleAll_changes (s.unsettledPushes fun e => e.node == n) .nodeDown
  unfold State.outDowned
  dsimp only
  split <;> rw [settled]
  · exact ⟨out, result, none, rfl⟩
  · exact ⟨out, result, s.cmd.inFlightMark, rfl⟩

theorem State.outDowned_eq : ((s.outDowned n).cmd.outstanding
      = (s.settleAll (s.unsettledPushes fun e => e.node == n) .nodeDown).cmd.outstanding
    ∧ (s.outDowned n).result = (s.settleAll (s.unsettledPushes fun e => e.node == n) .nodeDown).result)
    ∧ (s.markNames n = true → (s.outDowned n).cmd.inFlightMark = none) := by
  unfold State.outDowned
  dsimp only
  split
  · exact ⟨⟨rfl, rfl⟩, fun _ => rfl⟩
  · next unnamed => exact ⟨⟨rfl, rfl⟩, fun named => absurd named unnamed⟩

theorem State.outDowned_queue : (s.outDowned n).cmd.queue = s.cmd.queue := by
  obtain ⟨_, _, _, downed⟩ := State.outDowned_changes (s := s) n
  rw [downed]

theorem State.outDowned_pushLaw (law : s.PushLaw) : (s.outDowned n).PushLaw := by
  have settled := (s.settleAll_settles (s.unsettledPushes fun e => e.node == n) .nodeDown).pushLaw law
  unfold State.outDowned
  dsimp only
  split <;> exact settled

/-- The frame of a node-down notice: the tables, the mark and the result unit change, and nothing else. -/
theorem State.takeNodeDown_changes : s.takeNodeDown n = { s with
    cmd := { s.cmd with
      queue := (s.takeNodeDown n).cmd.queue
      outstanding := (s.takeNodeDown n).cmd.outstanding
      inFlightMark := (s.takeNodeDown n).cmd.inFlightMark }
    result := (s.takeNodeDown n).result } := by
  obtain ⟨out, result, mark, downed⟩ := State.outDowned_changes (s := s) n
  obtain ⟨queue, result', settled⟩ := (s.outDowned n).settleAllQueued_changes ((s.outDowned n).waitingPushes n)
  have both : s.takeNodeDown n = { s with
      cmd := { s.cmd with queue := queue, outstanding := out, inFlightMark := mark }, result := result' } := by
    rw [State.takeNodeDown_eq, settled, downed]
  rw [both]

theorem State.takeNodeDown_elsewhere (law : s.PushLaw) : (s.takeNodeDown n).outElsewhere n = s.outElsewhere n
    ∧ (s.takeNodeDown n).queueElsewhere n = s.queueElsewhere n := by
  have out := State.settleAll_elsewhere (State.unsettledPushes_named n law) .nodeDown
  have queue := State.settleAllQueued_elsewhere (State.waitingPushes_named n (State.outDowned_pushLaw n law))
  rw [State.takeNodeDown_eq]
  constructor
  · rw [← out, State.outElsewhere, ((s.outDowned n).settleAllQueued_outstanding _).1, (State.outDowned_eq n).1.1]
    rfl
  · rw [queue, State.queueElsewhere, State.outDowned_queue]
    rfl

theorem State.takeNodeDown_postsDown (law : s.PushLaw) : s.PostsDown (s.takeNodeDown n) n := by
  have out : s.PostsDown (s.outDowned n) n := by
    obtain ⟨l, more, posted⟩ := State.settleAll_postsDown (State.unsettledPushes_named n law)
    exact ⟨l, by rw [(State.outDowned_eq n).1.2, more], posted⟩
  exact out.trans (State.settleAllQueued_postsDown (State.waitingPushes_named n (State.outDowned_pushLaw n law)))

/-- The notice settles the entries of its node as they are listed in push order, the outstanding ones first (R110, R111). -/
theorem State.takeNodeDown_settles (law : s.PushLaw) {es : List OutEntry} {qs : List QueueEntry}
    (out : s.OutInOrder es fun e => e.unsettled = true ∧ e.node = n)
    (queue : s.QueueInOrder qs fun q => q.waiting = true ∧ q.node = n) :
    (s.takeNodeDown n).cmd.outstanding = ((s.settledEach es .nodeDown).settledEachQueued qs).cmd.outstanding
      ∧ (s.takeNodeDown n).cmd.queue = ((s.settledEach es .nodeDown).settledEachQueued qs).cmd.queue
      ∧ (s.takeNodeDown n).result = ((s.settledEach es .nodeDown).settledEachQueued qs).result := by
  have settled : s.settleAll (s.unsettledPushes fun e => e.node == n) .nodeDown = s.settledEach es .nodeDown := by
    rw [State.unsettledPushes_eq law out fun e => by simp]
    exact State.settleAll_eq .nodeDown law (fun e mem => ⟨((out.2 e).1 mem).1, ((out.2 e).1 mem).2.1⟩) out.1
  obtain ⟨⟨table, result⟩, -⟩ := State.outDowned_eq (s := s) n
  rw [settled] at table result
  have law' := State.outDowned_pushLaw n law
  have queue' : (s.outDowned n).QueueInOrder qs fun q => q.waiting = true ∧ q.node = n := by
    unfold State.QueueInOrder
    rw [State.outDowned_queue]
    exact queue
  have settled' : s.takeNodeDown n = (s.outDowned n).settledEachQueued qs := by
    rw [State.takeNodeDown_eq, State.waitingPushes_eq law' queue']
    exact State.settleAllQueued_eq law' (fun q mem => ⟨((queue'.2 q).1 mem).1, ((queue'.2 q).1 mem).2.1⟩) queue'.1
  have untouched : (s.settledEach es .nodeDown).cmd.queue = s.cmd.queue
      ∧ (s.settledEach es .nodeDown).sched.cycleNumber = s.sched.cycleNumber := by
    rw [← settled]
    simp
  have number : (s.outDowned n).sched.cycleNumber = s.sched.cycleNumber := by
    obtain ⟨_, _, _, downed⟩ := State.outDowned_changes (s := s) n
    rw [downed]
  rw [settled']
  obtain ⟨h1, h2, h3, -⟩ := State.settledEachQueued_congr (s := s.settledEach es .nodeDown) (t := s.outDowned n) qs table
    ((State.outDowned_queue n).trans untouched.1.symm) result (number.trans untouched.2.symm)
  exact ⟨h1, h2, h3⟩

end

/-- Settles O32: the notice settles the entries of its node in push order, one after another, and touches no other. -/
theorem nodeDownSettlesItsNode : Obligations.NodeDownSettlesItsNode := by
  unfold Obligations.NodeDownSettlesItsNode
  intro s n out ne law
  let u := s.takeDue (.nodeDownNotice n)
  have law' : u.PushLaw := law
  obtain ⟨settled, doomed⟩ := State.takeNodeDown_done law' n
  obtain ⟨elsewhere, elsewhere'⟩ := State.takeNodeDown_elsewhere n law'
  refine ⟨u.takeNodeDown n, exec_nodeDownNotice out ne, State.takeNodeDown_changes (s := u) n, settled, doomed, elsewhere,
    elsewhere', fun p marked named => ?_, fun es qs inOrder inOrder' => ?_, State.takeNodeDown_postsDown n law'⟩
  · have names : u.markNames n = true := by
      obtain ⟨e, mem, push, node, unsettled⟩ := named
      have marked' : u.cmd.inFlightMark = some p := marked
      simp only [State.markNames, marked', List.any_eq_true, Bool.and_eq_true, beq_iff_eq]
      exact ⟨e, mem, ⟨push, unsettled⟩, node⟩
    rw [State.takeNodeDown_eq, ((u.outDowned n).settleAllQueued_outstanding _).2.2.1]
    exact (State.outDowned_eq n).2 names
  · obtain ⟨table, queue, result⟩ := State.takeNodeDown_settles n law' (es := es) (qs := qs) inOrder inOrder'
    obtain ⟨o, q, r, k⟩ := State.settledEach_congr (s := s) (t := u) es .nodeDown rfl rfl rfl rfl
    obtain ⟨o', q', r', -⟩ := State.settledEachQueued_congr qs o q r k
    exact ⟨table.trans o', queue.trans q', result.trans r'⟩

end Sys2Proof.Machine
end

section
/-! PROOFS. What a command opportunity chooses and sends (R97, R98, R100 to R102, R104). -/

namespace Sys2Proof.Machine

open Sys2Proof

section
variable {s : State}

/-- A retry is chosen from the entries in RETRY whose node is live or 0 (R97). -/
theorem State.mem_retries {e : OutEntry} :
    (e ∈ s.cmd.outstanding.filter fun e => decide (e.state = .retry) && (e.node == 0 || s.isLive e.node))
      ↔ e ∈ s.cmd.outstanding ∧ e.state = .retry ∧ (e.node = 0 ∨ s.isLive e.node = true) := by
  simp only [List.mem_filter, Bool.and_eq_true, Bool.or_eq_true, decide_eq_true_eq, beq_iff_eq]

theorem State.chooseFirst_none (unchosen : s.chooseFirst = none) (q : QueueEntry) : ¬ s.MayStart q := by
  intro may
  have mem := List.mem_filter.2 (State.mayStart_iff.1 may)
  rw [lowestBy_eq_none.1 unchosen] at mem
  cases mem

theorem State.selectCommand_retry {e : OutEntry} (retry : s.chooseRetry = some e) :
    s.selectCommand = some (e, s.sendRetry e) := by
  simp [State.selectCommand, retry]

theorem State.selectCommand_first {q : QueueEntry} (noRetry : s.chooseRetry = none) (first : s.chooseFirst = some q) :
    s.selectCommand = some (s.firstEntry q, s.sendFirst q) := by
  simp [State.selectCommand, noRetry, first]

end

/-- Settles O34: the choices are the lowest push orders of what may retry and may start, and the entry chosen is sent. -/
theorem selectionKeepsItsConditions : Obligations.SelectionKeepsItsConditions := by
  unfold Obligations.SelectionKeepsItsConditions
  intro s
  dsimp only
  refine ⟨fun e retry => ?_, fun noRetry e may => ?_, fun q first => State.chooseFirst_some first,
    State.chooseFirst_none, fun noRetry noFirst => ?_, fun e retry => State.selectCommand_retry retry,
    fun q noRetry first => ?_⟩
  · obtain ⟨mem, lowest⟩ := lowestBy_some retry
    exact ⟨State.mem_retries.1 mem, fun f may => lowest f (State.mem_retries.2 may)⟩
  · have mem := State.mem_retries.2 may
    rw [lowestBy_eq_none.1 noRetry] at mem
    cases mem
  · simp [State.selectCommand, noRetry, noFirst]
  · have barrier : (if q.isBarrier = true then some q.push else s.cmd.barrierSent)
        = if q.barrier = true ∨ q.node = 0 then some q.push else s.cmd.barrierSent :=
      if_congr (by simp [QueueEntry.isBarrier]) rfl rfl
    rw [State.selectCommand_first noRetry first, State.sendFirst_eq, State.sendFirst_cmd, barrier]
    refine ⟨fun broadcast => ?_, fun n h => ?_⟩
    · have missing : s.node? q.node = none := broadcast ▸ s.node?_zero
      simp only [State.firstEntry, State.serialFor, State.advanceSerial, missing]
      rfl
    · simp only [State.firstEntry, State.serialFor, State.advanceSerial, h]
      rfl

end Sys2Proof.Machine
end

section
/-! PROOFS. What RQTAKE removes from the response queue, and what it posts (R131, R132). -/

namespace Sys2Proof.Machine

open Sys2Proof

/-! ### The waiting item posted -/

section
variable {s : State} (orders : s.waitingOrders.Nodup)
include orders

/-- The settle order of a HELD entry names that entry (R131). -/
theorem State.postWaiting_held {e : OutEntry} {st : Settlement} (mem : e ∈ s.cmd.outstanding) (held : e.state = .held st) :
    s.postWaiting st.order = (s.appendResponse (Response.ofOut e st)).freeOut e.push := by
  have settlement : e.settlement? = some st := by simp [OutEntry.settlement?, held]
  have found := find?_image orders.of_append_right mem (by rw [settlement]; rfl)
  simp only [State.postWaiting, found, settlement]

/-- The settle order of a DOOMED entry names that entry, as no HELD one shares it (R131). -/
theorem State.postWaiting_doomed {q : QueueEntry} {st : Settlement} (mem : q ∈ s.cmd.queue) (doomed : q.doomed = some st) :
    s.postWaiting st.order = (s.appendResponse (Response.ofQueue q st)).freeQueue q.push := by
  have inQueue : st.order ∈ s.cmd.queue.filterMap fun q => q.doomed.map (·.order) :=
    List.mem_filterMap.2 ⟨q, mem, by rw [doomed]; rfl⟩
  have notHeld := find?_image_none (List.disjoint_of_nodup_append orders inQueue)
  have found := find?_image orders.of_append_left mem (by rw [doomed]; rfl)
  simp only [State.postWaiting, notHeld, found, doomed]

end

/-! ### The head record taken -/

/-- The response queue with its head record removed. -/
def State.headTaken (s : State) (rest : List Response) : State :=
  { s with result := { s.result with responses := rest } }

theorem exec_rqtake {s : State} (ready : s.Ready) (v : Word) : exec (.rqtake v) s = .next s.takeResponse.written :=
  s.hostWrite_ready .rqtake v ready

theorem State.takeResponse_empty {s : State} (empty : s.result.responses = []) : s.takeResponse = s.raise .hPop 0 0 := by
  simp [State.takeResponse, empty]

section
variable {s : State} {r : Response} {rest : List Response} (responses : s.result.responses = r :: rest)
include responses

theorem State.takeResponse_noneWaits (noneWaits : s.waitingOrders = []) : s.takeResponse = s.headTaken rest := by
  have unchosen : lowestBy id (s.headTaken rest).waitingOrders = none := lowestBy_eq_none.2 noneWaits
  unfold State.headTaken at unchosen
  simp only [State.takeResponse, responses, unchosen]
  rfl

theorem State.takeResponse_lowest {o : Nat} (waits : o ∈ s.waitingOrders) (lowest : ∀ k ∈ s.waitingOrders, o ≤ k) :
    s.takeResponse = (s.headTaken rest).postWaiting o := by
  have chosen : lowestBy id (s.headTaken rest).waitingOrders = some o := lowestBy_id waits lowest
  unfold State.headTaken at chosen
  simp only [State.takeResponse, responses, chosen]
  rfl

end

/-- Settles O27: the head record is removed, and the lowest settle order names the HELD or the DOOMED entry to post. -/
theorem responseTaken : Obligations.ResponseTaken := by
  unfold Obligations.ResponseTaken
  intro s v ready
  rw [exec_rqtake ready]
  refine ⟨fun empty => ?_, fun r rest responses noneWaits => ?_, fun r rest e st responses mem held orders lowest => ?_,
    fun r rest q st responses mem doomed orders lowest => ?_⟩
  · rw [State.takeResponse_empty empty]
    rfl
  · rw [State.takeResponse_noneWaits responses noneWaits]
    rfl
  · rw [State.takeResponse_lowest responses (State.held_mem_waitingOrders mem held) lowest,
      State.postWaiting_held (s := s.headTaken rest) orders mem held]
    rfl
  · rw [State.takeResponse_lowest responses (State.doomed_mem_waitingOrders mem doomed) lowest,
      State.postWaiting_doomed (s := s.headTaken rest) orders mem doomed]
    rfl

end Sys2Proof.Machine
end

section
/-! PROOFS. Which entry a result trailer matches, and how it settles (R121, R122, R124). -/

namespace Sys2Proof.Machine

open Sys2Proof

/-! ### The entry matched -/

/-- Tags tell outstanding entries apart (R91). -/
theorem State.eq_of_tag {s : State} {e f : OutEntry} (law : s.TagLaw) (he : e ∈ s.cmd.outstanding)
    (hf : f ∈ s.cmd.outstanding) (same : e.tag = f.tag) : e = f :=
  List.inj_on_of_nodup_map law.of_append_right he hf same

/-- What the match of a trailer asks of an entry (R121). -/
theorem trailerMatches_iff {e : OutEntry} {n : NodeAddr} {tag : Byte} {serial : BitVec 4} :
    (e.node == n && e.tag == tag && e.serial == serial && e.unsettled) = true
      ↔ e.node = n ∧ e.tag = tag ∧ e.serial = serial ∧ e.unsettled = true := by
  simp only [Bool.and_eq_true, beq_iff_eq, and_assoc]

theorem State.matchTrailer_none {s : State} {n : NodeAddr} {tag : Byte} {serial : BitVec 4}
    (settled : ∀ e ∈ s.cmd.outstanding, e.node = n → e.tag = tag → e.serial = serial → e.unsettled = false) :
    s.matchTrailer n tag serial = none := by
  refine List.find?_eq_none.2 fun e mem matched => ?_
  obtain ⟨node, tag, serial, unsettled⟩ := trailerMatches_iff.1 matched
  simp [settled e mem node tag serial] at unsettled

/-- A match is the only one, as no two outstanding entries share a tag (R91, R121). -/
theorem State.matchTrailer_eq {s : State} {e : OutEntry} (law : s.TagLaw) (mem : e ∈ s.cmd.outstanding)
    (unsettled : e.unsettled = true) : s.matchTrailer e.node e.tag e.serial = some e := by
  cases found : s.matchTrailer e.node e.tag e.serial with
  | none => exact absurd (trailerMatches_iff.2 ⟨rfl, rfl, rfl, unsettled⟩) (List.find?_eq_none.1 found e mem)
  | some f =>
    unfold State.matchTrailer at found
    have matched := List.find?_some found
    obtain ⟨-, tag, -⟩ := trailerMatches_iff.1 matched
    rw [State.eq_of_tag law (List.mem_of_find?_eq_some found) mem tag]

/-! ### The trailer taken -/

theorem exec_resultTrailer {s : State} (out : s.inReset = false) {n : NodeAddr} (ne : n ≠ 0) (tag : Byte)
    (serial outcome : BitVec 4) {data : List Byte} (short : data.length ≤ 32) :
    exec (.resultTrailer n tag serial outcome data) s = .next
      ((s.takeDue (.resultTrailer n tag serial outcome data)).takeTrailer n tag serial outcome data) := by
  have fits : (Instr.resultTrailer n tag serial outcome data).wellFormed = true := by
    simpa [Instr.wellFormed, short] using ne
  show execResultTrailer n tag serial outcome data s = _
  unfold execResultTrailer
  rw [if_pos fits, State.event_ready s _ _ out]

/-- The data kept, by the op (R122). -/
theorem OutEntry.keptData_eq (e : OutEntry) (data : List Byte) :
    e.keptData data = if e.op = .read ∨ e.op = .invoke then data else [] := by
  unfold OutEntry.keptData
  cases e.op <;> simp

/-- A match settles its entry by the outcome of the trailer (R122). -/
theorem State.takeTrailer_match {s : State} {e : OutEntry} {n : NodeAddr} {tag : Byte} {serial : BitVec 4}
    (found : s.matchTrailer n tag serial = some e) (outcome : BitVec 4) (data : List Byte) :
    s.takeTrailer n tag serial outcome data
      = s.settleOut e.push (if outcome = 0 then .done else .nodeError) (outcome.setWidth 8)
          (if outcome = 0 ∧ (e.op = .read ∨ e.op = .invoke) then data else []) := by
  unfold State.takeTrailer
  rw [found]
  dsimp only
  split
  · next done => simp [done, OutEntry.keptData_eq]
  · next error => rw [if_neg fun kept => error kept.1]

/-- Settles O31: an entry that is matched settles by the outcome, and a trailer that matches none raises N_STRAY alone. -/
theorem trailerSettlesOrIsStray : Obligations.TrailerSettlesOrIsStray := by
  unfold Obligations.TrailerSettlesOrIsStray
  intro s n tag serial outcome data out ne short
  dsimp only
  rw [exec_resultTrailer out ne tag serial outcome short]
  refine ⟨fun settled => ?_, ?_⟩
  · have unmatched : (s.takeDue (.resultTrailer n tag serial outcome data)).matchTrailer n tag serial = none :=
      State.matchTrailer_none settled
    rw [State.takeTrailer, unmatched]
    rfl
  · rintro e mem pushLaw tagLaw rfl rfl rfl unsettled
    have found := State.matchTrailer_eq (s := s.takeDue (.resultTrailer e.node e.tag e.serial outcome data)) tagLaw mem
      unsettled
    rw [State.takeTrailer_match found]
    exact congrArg _ (State.settleOut_eq (s := s.takeDue _) _ _ _ pushLaw mem unsettled)

end Sys2Proof.Machine
end

section
/-! PROOFS. The result timeouts of a cycle start: the count of the ACCEPTED entries, and those that it settles (R126,
R129). -/

namespace Sys2Proof.Machine

open Sys2Proof

/-! ### The count -/

/-- An ACCEPTED entry that the count has left without cycles (R126). -/
def OutEntry.spent (e : OutEntry) : Bool := decide (e.state = .accepted) && decide (e.cyclesLeft = 0)

/-- Every ACCEPTED entry with its cycles left counted down (R126). -/
def State.counted (s : State) : State :=
  { s with cmd := { s.cmd with outstanding := s.cmd.outstanding.map OutEntry.countDown } }

theorem State.takeTimeouts_eq (s : State) :
    s.takeTimeouts = s.counted.settleAll (s.unsettledPushes OutEntry.expiring) .resultTimeout := rfl

@[simp] theorem OutEntry.countDown_push (e : OutEntry) : e.countDown.push = e.push := by
  unfold OutEntry.countDown
  split <;> rfl

theorem OutEntry.unsettled_of_accepted {e : OutEntry} (state : e.state = .accepted) : e.unsettled = true := by
  simp [OutEntry.unsettled, state]

theorem OutEntry.settlement?_of_unsettled {e : OutEntry} (unsettled : e.unsettled = true) : e.settlement? = none := by
  cases state : e.state with
  | held st => simp [OutEntry.unsettled, state] at unsettled
  | _ => simp [OutEntry.settlement?, state]

theorem OutEntry.countDown_accepted {e : OutEntry} (state : e.state = .accepted) :
    e.countDown = { e with cyclesLeft := e.cyclesLeft - 1 } := if_pos state

theorem OutEntry.countDown_other {e : OutEntry} (state : e.state ≠ .accepted) : e.countDown = e := if_neg state

theorem State.counted_pushLaw {s : State} (law : s.PushLaw) : s.counted.PushLaw := by
  have pushes : s.counted.cmd.outstanding.map (·.push) = s.cmd.outstanding.map (·.push) := by
    simp [State.counted, Function.comp_def]
  unfold State.PushLaw
  rw [pushes]
  exact law

/-- The entries that reach 0 are those that the count leaves spent, as long as no ACCEPTED entry stands at 0 before it. -/
theorem OutEntry.spent_countDown {e : OutEntry} (left : e.state = .accepted → 1 ≤ e.cyclesLeft.toNat) :
    (e.countDown.unsettled && e.countDown.spent) = (e.unsettled && e.expiring) := by
  by_cases state : e.state = .accepted
  · have last : e.cyclesLeft - 1 = 0 ↔ e.cyclesLeft.toNat ≤ 1 := by
      have := left state
      bv_omega
    rw [OutEntry.countDown_accepted state, OutEntry.spent, OutEntry.expiring, decide_eq_decide.2 last]
    rfl
  · simp [OutEntry.countDown_other state, OutEntry.spent, OutEntry.expiring, state]

theorem State.unsettledPushes_counted {s : State}
    (left : ∀ e ∈ s.cmd.outstanding, e.state = .accepted → 1 ≤ e.cyclesLeft.toNat) :
    s.counted.unsettledPushes OutEntry.spent = s.unsettledPushes OutEntry.expiring := by
  have same : (s.cmd.outstanding.filter fun e => e.countDown.unsettled && e.countDown.spent)
      = s.cmd.outstanding.filter fun e => e.unsettled && e.expiring :=
    List.filter_congr fun e mem => OutEntry.spent_countDown (left e mem)
  simp only [State.unsettledPushes, State.counted, List.filter_map, List.map_map, Function.comp_def,
    OutEntry.countDown_push, same]

/-! ### The entries that expire -/

/-- Where no ACCEPTED entry is at its last cycle, the count is all (R126). -/
theorem State.takeTimeouts_none {s : State}
    (left : ∀ e ∈ s.cmd.outstanding, e.state = .accepted → 2 ≤ e.cyclesLeft.toNat) : s.takeTimeouts = s.counted := by
  have unexpired : s.unsettledPushes OutEntry.expiring = [] := by
    refine List.eq_nil_iff_forall_not_mem.2 fun p mem => ?_
    obtain ⟨e, mem, -, expiring, -⟩ := State.mem_unsettledPushes.1 mem
    simp only [OutEntry.expiring, Bool.and_eq_true, decide_eq_true_eq] at expiring
    have := left e mem expiring.1
    omega
  rw [State.takeTimeouts_eq, unexpired, State.settleAll]

/-- The entries that expire settle one after another as they are listed in push order (R110, R126). -/
theorem State.takeTimeouts_settles {s : State} (law : s.PushLaw)
    (left : ∀ e ∈ s.cmd.outstanding, e.state = .accepted → 1 ≤ e.cyclesLeft.toNat) {es : List OutEntry}
    (inOrder : s.counted.OutInOrder es fun e => e.state = .accepted ∧ e.cyclesLeft = 0) :
    s.takeTimeouts = s.counted.settledEach es .resultTimeout := by
  have law' := State.counted_pushLaw law
  have spent (e : OutEntry) : (e.state = .accepted ∧ e.cyclesLeft = 0) ↔ e.unsettled = true ∧ e.spent = true := by
    simp only [OutEntry.spent, Bool.and_eq_true, decide_eq_true_eq]
    exact ⟨fun h => ⟨OutEntry.unsettled_of_accepted h.1, h⟩, And.right⟩
  rw [State.takeTimeouts_eq, ← State.unsettledPushes_counted left, State.unsettledPushes_eq law' inOrder spent]
  refine State.settleAll_eq .resultTimeout law' (fun e mem => ?_) inOrder.1
  obtain ⟨mem, state, -⟩ := (inOrder.2 e).1 mem
  exact ⟨mem, OutEntry.unsettled_of_accepted state⟩

/-- A lone entry that is changed and settled at once is settled in its changed form; no other entry has to be told apart from
it. -/
theorem State.settleOut_lone {s : State} {e e' : OutEntry} (lone : s.cmd.outstanding = [e]) (push : e'.push = e.push)
    (unsettled : e.unsettled = true) (unsettled' : e'.unsettled = true) (st : Status) (c : Byte) (d : List Byte) :
    (s.withEntry e').settleOut e'.push st c d = s.settledAs e' st c d := by
  have found : (s.withEntry e').out? e'.push = some e' := by simp [State.out?, State.withEntry, lone, push]
  have orders : (s.withEntry e').waitingOrders = s.waitingOrders := by
    simp [State.waitingOrders, State.withEntry, lone, push, OutEntry.settlement?_of_unsettled unsettled,
      OutEntry.settlement?_of_unsettled unsettled']
  have posts : (s.withEntry e').canPost = true ↔ s.result.responses.length < 16 ∧ s.waitingOrders = [] := by
    rw [State.canPost_iff, orders]
    rfl
  unfold State.settledAs
  split
  · next room =>
    rw [State.settleOut_posted _ e' st c d found unsettled' (posts.2 room)]
    simp [State.freeOut, State.appendResponse, State.advanceOrder, State.withEntry, lone, push, Response.ofOut,
      State.settlementNow]
  · next noRoom =>
    rw [State.settleOut_held _ e' st c d found unsettled' (Bool.eq_false_iff.2 fun h => noRoom (posts.1 h))]
    simp [State.updateOut, State.advanceOrder, State.withEntry, lone, push, State.settlementNow]

/-- A lone entry at its last cycle settles with none left (R126). -/
theorem State.takeTimeouts_lone {s : State} {e : OutEntry} (lone : s.cmd.outstanding = [e]) (state : e.state = .accepted)
    (last : e.cyclesLeft = 1) : s.takeTimeouts = s.settledAs { e with cyclesLeft := 0 } .resultTimeout 0 [] := by
  have unsettled := OutEntry.unsettled_of_accepted state
  have expired : s.unsettledPushes OutEntry.expiring = [e.push] := by
    simp [State.unsettledPushes, lone, unsettled, OutEntry.expiring, state, last, sorted]
  have counted : s.counted = s.withEntry { e with cyclesLeft := 0 } := by
    simp [State.counted, State.withEntry, lone, OutEntry.countDown_accepted state, last]
  rw [State.takeTimeouts_eq, expired, counted]
  exact State.settleOut_lone (e' := { e with cyclesLeft := 0 }) lone rfl unsettled unsettled .resultTimeout 0 []

theorem exec_resultTimeout {s : State} (out : s.inReset = false) :
    exec .resultTimeout s = .next (s.takeDue .resultTimeout).takeTimeouts :=
  congrArg _ (State.event_ready s _ _ out)

/-- Settles O33: the count goes through the table, and the entries that it leaves spent settle in push order. -/
theorem resultTimeoutsTaken : Obligations.ResultTimeoutsTaken := by
  unfold Obligations.ResultTimeoutsTaken
  intro s out
  rw [exec_resultTimeout out]
  refine ⟨fun left => ?_, fun e lone state last => ?_, fun law left => ?_⟩
  · exact congrArg _ (State.takeTimeouts_none (s := s.takeDue .resultTimeout) left)
  · exact congrArg _ (State.takeTimeouts_lone (s := s.takeDue .resultTimeout) lone state last)
  · exact fun es inOrder => congrArg _
      (State.takeTimeouts_settles (s := s.takeDue .resultTimeout) law left inOrder)

end Sys2Proof.Machine
end

section
/-! PROOFS. The settings change only in STOPPED (R1, R33, R117, R153). -/

namespace Sys2Proof.Machine

open Sys2Proof

/-- What the settings registers hold: LSET, CSET and TSET (R1, R33, R117). -/
def State.settings (s : State) : BitVec 2 × Byte × BitVec 2 × BitVec 3 × Byte :=
  (s.link.rate, s.link.window, s.sched.pacingSetting, s.cmd.retryLimit, s.cmd.resultTimeout)

/-! ### Register writes -/

/-- The three registers that hold settings (R153). -/
def WriteReg.isSetting : WriteReg → Bool
  | .lset | .cset | .tset => true
  | _ => false

theorem State.writeRcmd_settings (s : State) (v : Word) : (s.writeRcmd v).settings = s.settings := by
  unfold State.writeRcmd
  split <;> simp [State.settings, Sched.controllerReset, CmdEngine.controllerReset]

theorem State.writeSctl_settings (s : State) (v : Word) : (s.writeSctl v).settings = s.settings := by
  unfold State.writeSctl
  split <;> simp [State.settings, State.cancelSwitch]

theorem State.writeNode_settings (s : State) (r : NodeWriteReg) (v : Word) :
    (s.writeNode r v).settings = s.settings := by
  unfold State.writeNode
  split
  · simp [State.settings]
  · cases r <;> simp [State.settings]

theorem State.writeSetting_settings {s : State} (running : s.run.state ≠ .stopped) (offset : Word) (f : State → State) :
    (s.writeSetting offset f).settings = s.settings := by
  rw [State.writeSetting_locked running]
  rfl

/-- Outside STOPPED no register write changes a setting, and in STOPPED only one to LSET, CSET or TSET does (R153). -/
theorem State.writeRegister_settings (s : State) {r : WriteReg} (v : Word)
    (h : r.isSetting = true → s.run.state ≠ .stopped) : (s.writeRegister r v).settings = s.settings := by
  cases r with
  | rcmd => exact s.writeRcmd_settings v
  | lset => exact State.writeSetting_settings (h rfl) _ _
  | cset => exact State.writeSetting_settings (h rfl) _ _
  | tset => exact State.writeSetting_settings (h rfl) _ _
  | sctl => exact s.writeSctl_settings v
  | node r => exact s.writeNode_settings r v
  | _ => simp [State.writeRegister, State.settings, State.writeSrule, State.writeSnodeb, State.writeSlen]

/-! ### Accesses and events -/

theorem State.carryOut_settings {s : State} (running : s.run.state ≠ .stopped) (a : Access) :
    (s.carryOut a).1.settings = s.settings := by
  rcases s.carryOut_cases a with e | ⟨-, o, e⟩ | ⟨-, r, v, e⟩ | ⟨-, e⟩ | ⟨-, e⟩ <;> rw [e]
  · simp [State.settings]
  · exact s.writeRegister_settings v fun _ => running
  · simp [State.settings]
  · simp [State.settings]

/-- An access to the image window reaches neither a setting nor the run controller, and the fault unit by a report at most
(R71). -/
theorem State.carryOut_image {s : State} {a : Access} (image : a.window = .image) :
    (s.carryOut a).1.settings = s.settings ∧ (s.carryOut a).1.run = s.run ∧ (s.carryOut a).1.fault = s.fault := by
  rcases s.carryOut_cases a with e | ⟨registers, -⟩ | ⟨registers, -⟩ | ⟨-, e⟩ | ⟨-, e⟩
  · rw [e]
    exact ⟨rfl, rfl, rfl⟩
  · simp [image] at registers
  · simp [image] at registers
  · simp [e, State.settings]
  · simp [e, State.settings]

/-- The first of two waiting accesses reaches the image window only, so that the second still finds the run state of the
wait (R171, R177, R178). -/
theorem State.takeWaiting_settings {s : State} (port : s.PortLaw) (running : s.run.state ≠ .stopped) :
    s.takeWaiting.settings = s.settings := by
  refine State.takeWaiting_leads (fun u => u.settings = s.settings ∧ u.run = s.run) (fun u => u.settings = s.settings)
    (fun _ _ h => h) (fun _ _ h => h) (fun u a first h => ?_) (fun u a _ h => ?_) (fun _ h => h.1) ⟨rfl, rfl⟩
  · obtain ⟨settings, run, -⟩ := u.carryOut_image (port a first)
    exact ⟨settings.trans h.1, run.trans h.2⟩
  · exact (State.carryOut_settings (by rwa [h.2]) a).trans h.1

/-- No event but the taking of a waiting access reaches a setting (R153). -/
theorem eventEffect_settings (s : State) {c : Instr} (other : c ≠ .waitingAccessTaken) :
    (eventEffect c s).settings = s.settings := by
  cases c with
  | waitingAccessTaken => exact absurd rfl other
  | _ => simp [eventEffect, State.settings]

theorem exec_settings {c : Instr} {s t : State} (port : s.PortLaw) (noReset : c ≠ .hardwareReset)
    (running : s.run.state ≠ .stopped) (next : exec c s = .next t) : t.settings = s.settings := by
  rcases exec_cases next with rfl | ⟨p, rfl, -⟩ | ⟨-, level, rfl⟩ | ⟨a, -, rfl⟩ | ⟨reset, -⟩ | ⟨-, rfl⟩ | ⟨-, rfl⟩
  · rfl
  · rfl
  · rfl
  · exact State.carryOut_settings running a
  · exact absurd reset noReset
  · rfl
  · by_cases waiting : c = .waitingAccessTaken
    · rw [waiting]
      exact State.takeWaiting_settings (s := s.takeDue .waitingAccessTaken) port running
    · exact eventEffect_settings (s.takeDue c) waiting

theorem State.tick_settings (s : State) : s.tick.settings = s.settings := by
  obtain ⟨l, line, link, timers, tick, -, ticks, -⟩ := s.tick_cases
  rw [tick]
  rcases ticks with ⟨same, -⟩ | ⟨-, begun⟩
  · simp [State.settings, same]
  · simp [State.settings, begun]

theorem State.settings_eq_iff {s t : State} : t.settings = s.settings ↔ t.link.rate = s.link.rate
    ∧ t.link.window = s.link.window ∧ t.sched.pacingSetting = s.sched.pacingSetting
    ∧ t.cmd.retryLimit = s.cmd.retryLimit ∧ t.cmd.resultTimeout = s.cmd.resultTimeout := by
  simp [State.settings]

/-- Settles O57, by what a command can do: an access finds the settings locked, and no event or tick reaches them. -/
theorem settingsChangeOnlyInStopped : Obligations.SettingsChangeOnlyInStopped := by
  unfold Obligations.SettingsChangeOnlyInStopped
  refine ⟨fun c s t port noReset running next => ?_, fun s => ?_⟩
  · exact State.settings_eq_iff.1 (exec_settings port noReset running next)
  · exact State.settings_eq_iff.1 s.tick_settings

end Sys2Proof.Machine
end

section
/-! PROOFS. Every change of the run state is one of those listed and latches RUNCHG (R141 to R154, R170). -/

namespace Sys2Proof.Machine

open Sys2Proof

/-! ### The RUNCHG latch -/

/-- RUNCHG is latched (R154, R166). -/
def State.runchg (s : State) : Bool := s.fault.latches.getLsbD 4

theorem runchg_bit (x : Word) : (x ||| 0x0010#16).getLsbD 4 = true := by simp

theorem State.changeRun_runchg (s : State) (r : RunState) : (s.changeRun r).runchg = true := by
  rw [State.runchg, State.changeRun_fault_latches]
  exact runchg_bit _

theorem State.takePendingSwitch_runchg (s : State) : s.takePendingSwitch.runchg = s.runchg := by
  rw [State.runchg, State.takePendingSwitch_fault, State.runchg]
  split <;> simp

theorem State.takePendingPublish_runchg (s : State) : s.takePendingPublish.runchg = s.runchg := by
  rw [State.runchg, State.takePendingPublish_fault, State.runchg]
  split <;> simp

theorem State.cycleStart_runchg (s : State) : s.cycleStart.runchg = s.runchg := by
  rw [State.runchg, State.cycleStart_latches, State.runchg]
  simp

theorem State.cycleEndSwap_runchg (s : State) : s.cycleEndSwap.runchg = s.runchg := by
  rw [State.runchg, State.cycleEndSwap_bit, State.runchg]
  simp

theorem State.enterStopped_runchg (s : State) : s.enterStopped.runchg = true := by
  unfold State.enterStopped
  rw [State.takePendingPublish_runchg, State.takePendingSwitch_runchg]
  exact State.changeRun_runchg _ _

theorem State.enterStopped_run (s : State) : s.enterStopped.run = { s.run with state := .stopped } := by
  obtain ⟨run, -⟩ := s.enterStopped_spec
  exact run

theorem State.enterHalted_run (s : State) (code : FaultCode) (detail : Word) :
    (s.enterHalted code detail).run = { s.run with state := .halted } := by
  simp [State.enterHalted, State.haltRun]

theorem State.enterHalted_runchg (s : State) (code : FaultCode) (detail : Word) :
    (s.enterHalted code detail).runchg = true := by
  rw [State.runchg, State.enterHalted, State.latch_fault_latches]
  exact runchg_bit _

/-! ### How the run state moves -/

/-- What a command can do to the run state: leave it and latch no RUNCHG, change it as R154 lists with RUNCHG latched, or
reset the run controller with the fault and interrupt unit (R170). -/
def State.RunMoves (s t : State) : Prop :=
  t.run.state = s.run.state ∧ (t.runchg = true → s.runchg = true)
  ∨ s.run.state.changesTo t.run.state = true ∧ t.runchg = true
  ∨ t.run = RunControl.reset ∧ t.fault = FaultUnit.reset

theorem State.RunMoves.kept {s t : State} (run : t.run.state = s.run.state) (latch : t.runchg = true → s.runchg = true) :
    s.RunMoves t := .inl ⟨run, latch⟩

theorem State.RunMoves.moved {s t : State} (listed : s.run.state.changesTo t.run.state = true) (latch : t.runchg = true) :
    s.RunMoves t := .inr (.inl ⟨listed, latch⟩)

theorem State.RunMoves.of_reset {s t : State} (run : t.run = RunControl.reset) (fault : t.fault = FaultUnit.reset) :
    s.RunMoves t := .inr (.inr ⟨run, fault⟩)

theorem State.RunMoves.refl (s : State) : s.RunMoves s := .kept rfl id

/-- What leaves the run state and the latches. -/
theorem State.RunMoves.of_same {s t : State} (run : t.run = s.run) (latches : t.fault.latches = s.fault.latches) :
    s.RunMoves t :=
  .kept (by rw [run]) (by simp [State.runchg, latches])

/-- Only the run state and the latches before matter. -/
theorem State.RunMoves.weaken {s u t : State} (h : u.RunMoves t) (run : u.run = s.run)
    (latch : u.runchg = true → s.runchg = true) : s.RunMoves t := by
  unfold State.RunMoves at *
  rw [run] at h
  exact h.imp_left fun ⟨same, kept⟩ => ⟨same, latch ∘ kept⟩

theorem State.runMoves_enterStopped {s : State} (listed : s.run.state.changesTo .stopped = true) (u : State) :
    s.RunMoves u.enterStopped :=
  .moved (by rw [u.enterStopped_run]; exact listed) u.enterStopped_runchg

theorem RunState.changesTo_irrefl (r : RunState) : r.changesTo r = false := by cases r <;> rfl

/-- The relation says what R154 and R170 ask. -/
theorem State.RunMoves.latched {s t : State} (h : s.RunMoves t) :
    (t.run.state ≠ s.run.state →
      t.fault.latches.getLsbD 4 = true ∧ s.run.state.changesTo t.run.state = true
      ∨ t.run = RunControl.reset ∧ t.fault = FaultUnit.reset)
    ∧ (t.run.state = s.run.state → t.fault.latches.getLsbD 4 = true → s.fault.latches.getLsbD 4 = true) := by
  rcases h with ⟨same, kept⟩ | ⟨listed, latch⟩ | ⟨run, fault⟩
  · exact ⟨fun moved => absurd same moved, fun _ => kept⟩
  · refine ⟨fun _ => .inl ⟨latch, listed⟩, fun same => ?_⟩
    simp [same, RunState.changesTo_irrefl] at listed
  · refine ⟨fun _ => .inr ⟨run, fault⟩, fun _ latch => ?_⟩
    simp [fault, FaultUnit.reset] at latch

/-! ### The run commands -/

theorem State.cmdRun_moves (s : State) : s.RunMoves s.cmdRun := by
  unfold State.cmdRun
  split
  · next stopped =>
    dsimp only
    split
    · refine .moved ?_ ?_
      · simp [stopped, State.startRun, RunState.changesTo]
      · simp [State.runchg, State.startRun]
    all_goals exact .of_same (by simp) (by simp)
  all_goals exact .of_same (by simp) (by simp)

theorem State.cmdStop_moves (s : State) : s.RunMoves s.cmdStop := by
  unfold State.cmdStop
  split
  case h_1 run => exact State.runMoves_enterStopped (by simp [run, RunState.changesTo]) _
  case h_2 run => exact State.runMoves_enterStopped (by simp [run, RunState.changesTo]) _
  case h_3 run => exact .moved (by simp [run, RunState.changesTo]) (s.changeRun_runchg _)
  case h_4 run => exact .moved (by simp [run, RunState.changesTo]) (s.changeRun_runchg _)
  all_goals exact .refl s

theorem RunState.inRun_changesTo_stopped {r : RunState} (h : r.inRun = true) : r.changesTo .stopped = true := by
  revert h
  cases r <;> decide

theorem State.cmdAbort_eq (s : State) :
    s.cmdAbort = if s.run.state.inRun then s.cutLine.abortTransactions.enterStopped else s := by
  unfold State.cmdAbort
  cases s.run.state <;> rfl

theorem State.cmdAbort_moves (s : State) : s.RunMoves s.cmdAbort := by
  rw [State.cmdAbort_eq]
  split
  · next inRun => exact State.runMoves_enterStopped (RunState.inRun_changesTo_stopped inRun) _
  · exact .refl s

theorem State.cmdRestart_moves (s : State) : s.RunMoves s.cmdRestart := by
  unfold State.cmdRestart
  split
  case h_1 run => exact State.runMoves_enterStopped (by simp [run, RunState.changesTo]) _
  all_goals exact .of_same (by simp) (by simp)

theorem State.writeRcmd_moves (s : State) (v : Word) : s.RunMoves (s.writeRcmd v) := by
  unfold State.writeRcmd
  split
  · exact s.cmdRun_moves
  · exact s.cmdStop_moves
  · exact s.cmdAbort_moves
  · exact s.cmdRestart_moves
  · exact .of_reset (by simp) (by simp)
  · exact .of_same rfl rfl

/-! ### Register writes -/

theorem State.requestSwitch_runchg (s : State) (t : TableId) : (s.requestSwitch t).runchg = s.runchg := by
  unfold State.requestSwitch State.runchg
  dsimp only
  split
  · simp
  · split
    · split <;> simp
    all_goals simp

theorem State.requestPublish_runchg (s : State) : s.requestPublish.runchg = s.runchg := by
  unfold State.requestPublish
  dsimp only
  split
  · rfl
  · split
    · exact State.takePendingPublish_runchg _
    · rfl

theorem State.writeIctl_runchg (s : State) (v : Word) : (s.writeIctl v).runchg = s.runchg := by
  unfold State.writeIctl
  dsimp only
  split
  · exact State.requestPublish_runchg _
  · rfl

theorem State.clearLatches_runchg {s : State} {v : Word} (h : (s.clearLatches v).runchg = true) : s.runchg = true := by
  simp only [State.runchg, State.clearLatches, BitVec.getLsbD_and, Bool.and_eq_true] at h
  exact h.1

theorem State.writeSetting_moves (s : State) (offset : Word) {f : State → State} (run : (f s).run = s.run)
    (fault : (f s).fault = s.fault) : s.RunMoves (s.writeSetting offset f) := by
  unfold State.writeSetting
  split
  · exact .of_same run (by rw [fault])
  · exact .of_same (by simp) (by simp)

theorem State.writeNode_moves (s : State) (r : NodeWriteReg) (v : Word) : s.RunMoves (s.writeNode r v) := by
  unfold State.writeNode
  split
  · exact .of_same (by simp) (by simp)
  · cases r <;> exact .of_same (by simp) (by simp)

/-- Of the register writes those to RCMD change the run state, and none other latches RUNCHG (R140, R154). -/
theorem State.writeRegister_moves (s : State) (r : WriteReg) (v : Word) : s.RunMoves (s.writeRegister r v) := by
  cases r with
  | rcmd => exact s.writeRcmd_moves v
  | lset => exact s.writeSetting_moves _ rfl rfl
  | cset => exact s.writeSetting_moves _ rfl rfl
  | tset => exact s.writeSetting_moves _ rfl rfl
  | sctl =>
    show s.RunMoves (s.writeSctl v)
    unfold State.writeSctl
    split
    · exact .kept (by simp) (by rw [State.requestSwitch_runchg]; exact id)
    · exact .refl s
    · exact .refl s
  | node r => exact s.writeNode_moves r v
  | ictl => exact .kept (by simp [State.writeRegister]) (by rw [State.writeRegister, s.writeIctl_runchg]; exact id)
  | ipend => exact .kept rfl State.clearLatches_runchg
  | ien => exact .of_same rfl rfl
  | fccode => exact .of_same rfl rfl
  | fflag half => cases half <;> exact .of_same rfl rfl
  | _ =>
    refine .of_same ?_ ?_ <;>
      simp [State.writeRegister, State.writeSrule, State.writeSnodeb, State.writeSlen]

/-! ### Accesses and events -/

theorem State.carryOut_moves (s : State) (a : Access) : s.RunMoves (s.carryOut a).1 := by
  rcases s.carryOut_cases a with e | ⟨-, o, e⟩ | ⟨-, r, v, e⟩ | ⟨-, e⟩ | ⟨-, e⟩ <;> rw [e]
  · exact .refl s
  · exact .of_same (by simp) (by simp)
  · exact s.writeRegister_moves r v
  · exact .of_same (by simp) (by simp)
  · exact .of_same (by simp) (by simp)

/-- The first of two waiting accesses reaches the image window only, so that the run state moves at the second alone (R171,
R177, R178). -/
theorem State.takeWaiting_moves {s : State} (port : s.PortLaw) : s.RunMoves s.takeWaiting := by
  refine State.takeWaiting_leads (fun u => u.run = s.run ∧ u.fault = s.fault) s.RunMoves
    (fun _ _ h => h) (fun _ _ h => h) (fun u a first h => ?_) (fun u a _ h => ?_)
    (fun _ h => .of_same h.1 (by rw [h.2])) ⟨rfl, rfl⟩
  · obtain ⟨-, run, fault⟩ := u.carryOut_image (port a first)
    exact ⟨run.trans h.1, fault.trans h.2⟩
  · exact (u.carryOut_moves a).weaken h.1 (by simp [State.runchg, h.2])

theorem State.cycleEnd_moves (s : State) : s.RunMoves s.cycleEnd := by
  have swap : s.schedIdle.cycleEndSwap.runchg = s.runchg := State.cycleEndSwap_runchg _
  rcases s.cycleEnd_cases with ⟨run, e⟩ | ⟨run, e⟩ | ⟨run, e⟩ | ⟨-, e⟩ <;> rw [e]
  · exact .kept (by simp) (by rw [State.cycleStart_runchg, swap]; exact id)
  · exact .moved (by simp [run, RunState.changesTo]) (by rw [State.cycleStart_runchg, State.changeRun_runchg])
  · exact State.runMoves_enterStopped (by simp [run, RunState.changesTo]) _
  · exact .kept (by simp) (by rw [← swap]; simp [State.runchg])

theorem State.slotEnd_moves (s : State) : s.RunMoves s.slotEnd := by
  have cut : s.cutSlot.dropLineTimers.run = s.run ∧ s.cutSlot.dropLineTimers.fault = s.fault := by simp
  unfold State.slotEnd State.afterSlot
  split
  · split
    · exact .of_same (by simp) (by simp)
    · exact (State.cycleEnd_moves _).weaken cut.1 (by simp [State.runchg])
  all_goals exact .refl s

theorem State.takeLineQuiet_moves (s : State) : s.RunMoves s.takeLineQuiet := by
  unfold State.takeLineQuiet
  split
  · split
    case h_1 run =>
      exact .moved (by simp [run, RunState.changesTo]) (by rw [State.cycleStart_runchg, State.changeRun_runchg])
    case h_2 run =>
      exact .moved (by simp [run, RunState.changesTo]) (by rw [State.cycleStart_runchg, State.changeRun_runchg])
    all_goals exact .refl s
  · exact .refl s

theorem State.takeActivityReport_moves (s : State) : s.RunMoves s.takeActivityReport := by
  unfold State.takeActivityReport
  split
  · next run =>
    dsimp only
    split
    · refine .moved ?_ (State.enterHalted_runchg _ _ _)
      rw [State.enterHalted_run, run]
      rfl
    · exact .kept rfl id
  all_goals exact .refl s

theorem State.takeLinkFault_moves (s : State) (kind : LinkFaultKind) : s.RunMoves (s.takeLinkFault kind) := by
  unfold State.takeLinkFault
  split
  case h_1 run => exact .moved (by simp [run, RunState.changesTo]) (by simp [State.runchg])
  case h_2 run => exact State.runMoves_enterStopped (by simp [run, RunState.changesTo]) _
  case h_3 run =>
    refine .moved ?_ (State.enterHalted_runchg _ _ _)
    rw [State.enterHalted_run, run]
    rfl
  all_goals exact .refl s

theorem State.publishAfterLine_runchg (s : State) (k : BitVec 6) : (s.publishAfterLine k).runchg = s.runchg := by
  unfold State.publishAfterLine
  split
  · exact s.takePendingPublish_runchg
  · rfl

theorem State.copyLine_runchg (s : State) : s.copyLine.runchg = s.runchg := by
  cases next : s.image.nextLine with
  | none =>
    rw [State.copyLine_none next]
    rfl
  | some line =>
    obtain ⟨_ | _, k⟩ := line
    · rw [State.copyLine_output next, State.publishAfterLine_runchg]
      rfl
    · rw [State.copyLine_input next]
      rfl

theorem State.lineCopy_runchg (s : State) : s.lineCopy.runchg = s.runchg := by
  rcases s.lineCopy_cases with e | e | e
  · rw [e]
  · rw [e, s.copyLine_runchg]
  · rw [e]
    exact s.copyLine_runchg

/-- Of the events those of the run controller and of the cycle end change the run state (R143, R144, R147 to R150). -/
theorem eventEffect_moves {s : State} (port : s.PortLaw) (c : Instr) : s.RunMoves (eventEffect c s) := by
  cases c with
  | waitingAccessTaken => exact State.takeWaiting_moves port
  | slotEnd => exact s.slotEnd_moves
  | lineQuiet => exact s.takeLineQuiet_moves
  | activityReport => exact s.takeActivityReport_moves
  | linkFault kind => exact s.takeLinkFault_moves kind
  | lineCopy => exact .kept (by simp [eventEffect]) (by rw [eventEffect, s.lineCopy_runchg]; exact id)
  | faultReport r => exact .of_same rfl (by simp [eventEffect])
  | _ => exact .of_same (by simp [eventEffect]) (by simp [eventEffect])

/-- Settles O58, by what a command can do: the run commands and the events of the run controller make the changes listed. -/
theorem runChangesAreLatched : Obligations.RunChangesAreLatched := by
  unfold Obligations.RunChangesAreLatched
  refine ⟨fun c s t port next => State.RunMoves.latched ?_, fun s => ?_⟩
  · rcases exec_cases next with rfl | ⟨p, rfl, -⟩ | ⟨-, level, rfl⟩ | ⟨a, -, rfl⟩ | ⟨-, rfl⟩ | ⟨-, rfl⟩ | ⟨-, rfl⟩
    · exact .refl t
    · exact .of_same rfl rfl
    · exact .of_same rfl rfl
    · exact s.carryOut_moves a
    · exact .of_reset rfl rfl
    · exact .of_same rfl rfl
    · exact eventEffect_moves (s := s.takeDue c) port c
  · obtain ⟨l, line, link, timers, tick, -⟩ := s.tick_cases
    rw [tick]
    exact ⟨rfl, rfl⟩

end Sys2Proof.Machine
end

section
/-! PROOFS. What changes the slice lengths of the nodes: NLEN writes and a hardware reset alone (R54, R55). -/

namespace Sys2Proof.Machine

open Sys2Proof

/-- The configured slice lengths of every node, output and input. -/
def State.lengths (s : State) : NodeAddr → Nat × Nat := fun n => (s.outLen n, s.inLen n)

theorem State.lengths_congr {s t : State} (entries : t.nodes.entries = s.nodes.entries) : t.lengths = s.lengths := by
  funext n
  simp only [State.lengths, State.outLen, State.inLen, State.node?_congr entries]

theorem State.lengths_of_nodes {s t : State} (nodes : t.nodes = s.nodes) : t.lengths = s.lengths :=
  State.lengths_congr (by rw [nodes])

theorem State.lengths_setNode {s : State} {n : NodeAddr} (f : NodeEntry) (ne : n ≠ 0) :
    (s.setNode n f).lengths = fun m => if m = n then (f.outLen.toNat, f.inLen.toNat) else s.lengths m := by
  funext m
  by_cases same : m = n
  · subst same
    simp only [State.lengths, State.outLen, State.inLen, State.node?_setNode s f ne, if_true]
  · simp only [State.lengths, State.outLen, State.inLen, State.node?_setNode_ne s f same, if_neg same]

/-- An entry stored with the lengths of the one before. -/
theorem State.lengths_setNode_same {s : State} {n : NodeAddr} {e f : NodeEntry} (h : s.node? n = some e)
    (out : f.outLen = e.outLen) (inp : f.inLen = e.inLen) : (s.setNode n f).lengths = s.lengths := by
  rw [State.lengths_setNode f (State.node?_ne_zero h)]
  funext m
  split
  · next same => simp [State.lengths, State.outLen, State.inLen, same, h, out, inp]
  · rfl

/-! ### The node state machine -/

@[simp] theorem State.latch_lengths (s : State) (c : EventCause) : (s.latch c).lengths = s.lengths := rfl

@[simp] theorem State.raise_lengths (s : State) (code : FaultCode) (n : NodeAddr) (d : Word) :
    (s.raise code n d).lengths = s.lengths := rfl

section
variable {s : State} {n : NodeAddr} {e : NodeEntry} (h : s.node? n = some e)
include h

theorem State.goodReply_lengths : (s.goodReply n e).lengths = s.lengths := by
  unfold State.goodReply
  split
  · exact State.lengths_setNode_same h rfl rfl
  · exact State.lengths_setNode_same h rfl rfl
  all_goals rfl

theorem State.miss_lengths (k : SlotIndex) : (s.miss n e k).lengths = s.lengths := by
  unfold State.miss
  dsimp only
  repeat' split
  · rfl
  all_goals exact State.lengths_setNode_same h rfl rfl

theorem State.identReceived_lengths (r : IdentRecord) : (s.identReceived n e r).lengths = s.lengths := by
  unfold State.identReceived
  repeat' split
  · rfl
  all_goals exact State.lengths_setNode_same h rfl rfl

theorem State.enableNode_lengths : (s.enableNode n e).lengths = s.lengths := by
  unfold State.enableNode
  split
  · rfl
  · exact State.lengths_setNode_same h rfl rfl

theorem State.takeLimits_lengths (v : Word) : (s.takeLimits n e v).lengths = s.lengths := by
  unfold State.takeLimits
  dsimp only
  repeat' split
  all_goals exact State.lengths_setNode_same h rfl rfl

end

theorem State.countBad_lengths (s : State) (n : NodeAddr) (k : SlotIndex) (c : BadCause) :
    (s.countBad n k c).lengths = s.lengths := by
  unfold State.countBad
  split
  · rfl
  · next e h => exact State.lengths_setNode_same h rfl rfl

theorem State.takeOutcome_lengths (s : State) (n : NodeAddr) (kind : WindowKind) (k : SlotIndex) (v : Verdict) :
    (s.takeOutcome n kind k v).lengths = s.lengths := by
  unfold State.takeOutcome
  split
  · rfl
  · next e h =>
    split
    · rfl
    · split
      · exact State.identReceived_lengths h _
      · exact s.countBad_lengths n k _
      · rfl
      · exact State.goodReply_lengths h
      · exact State.miss_lengths h k
      · exact (State.countBad_lengths _ n k _).trans (State.miss_lengths h k)

theorem State.takeLate_lengths (s : State) (n : NodeAddr) (k : SlotIndex) : (s.takeLate n k).lengths = s.lengths := by
  unfold State.takeLate
  split
  · rfl
  · next e h =>
    split
    · rfl
    · exact State.lengths_setNode_same h rfl rfl

theorem State.haltNodes_lengths (s : State) (ns : List NodeAddr) : (s.haltNodes ns).lengths = s.lengths := by
  have one (u : State) (n : NodeAddr) : (u.haltNode n).lengths = u.lengths := by
    unfold State.haltNode
    split
    · rfl
    · next e h =>
      split
      · exact State.lengths_setNode_same h rfl rfl
      · rfl
  induction ns generalizing s with
  | nil => rfl
  | cons n rest ih => exact (ih _).trans (one s n)

theorem State.enterHalted_lengths (s : State) (code : FaultCode) (detail : Word) :
    (s.enterHalted code detail).lengths = s.lengths := by
  rw [State.enterHalted, State.latch_lengths, State.raise_lengths, State.haltNodes_lengths]
  exact State.lengths_of_nodes (by simp)

/-! ### Register writes and slot starts -/

theorem State.takeEnable_lengths (s : State) (n : NodeAddr) (enable : Bool) :
    (s.takeEnable n enable).lengths = s.lengths := by
  unfold State.takeEnable
  split
  · rfl
  · next e h =>
    split
    · exact State.enableNode_lengths h
    · exact State.lengths_setNode_same h rfl rfl
    all_goals rfl

/-- Of the node registers NLEN alone holds the lengths (R54, R55). -/
theorem State.writeNode_lengths (s : State) {r : NodeWriteReg} (other : r ≠ .nlen) (v : Word) :
    (s.writeNode r v).lengths = s.lengths := by
  have offset (o : Word) {f : NodeEntry → NodeEntry} (out : ∀ e, (f e).outLen = e.outLen)
      (inp : ∀ e, (f e).inLen = e.inLen) : (s.writeSliceOffset o f).lengths = s.lengths := by
    unfold State.writeSliceOffset
    dsimp only
    split
    · rfl
    · next e h =>
      split
      · rfl
      · exact State.lengths_setNode_same h (out e) (inp e)
  unfold State.writeNode
  split
  · rfl
  · cases r with
    | ncfg =>
      show (s.writeNcfg v).lengths = s.lengths
      unfold State.writeNcfg
      dsimp only
      split
      · rfl
      · next e h => exact (State.takeEnable_lengths _ _ _).trans (State.takeLimits_lengths h v)
    | noutoff => exact offset _ (fun _ => rfl) fun _ => rfl
    | ninoff => exact offset _ (fun _ => rfl) fun _ => rfl
    | nlen => exact absurd rfl other
    | ncnt =>
      show s.writeNcnt.lengths = s.lengths
      unfold State.writeNcnt
      dsimp only
      split
      · rfl
      · next e h => exact State.lengths_setNode_same h rfl rfl

theorem State.slotStart_lengths (s : State) (k : SlotIndex) : (s.slotStart k).lengths = s.lengths := by
  have selected {u t : State} {e : OutEntry} (chosen : u.selectCommand = some (e, t)) : t.lengths = u.lengths := by
    unfold State.selectCommand at chosen
    split at chosen
    · cases chosen
      rfl
    · split at chosen
      · next q _ =>
        cases chosen
        show ((u.freeQueue q.push).advanceSerial q.node).lengths = _
        unfold State.advanceSerial
        split
        · rfl
        · next e h => exact State.lengths_setNode_same h rfl rfl
      · cases chosen
  unfold State.slotStart
  dsimp only
  split
  · next e t chosen =>
    split at chosen
    · have sent := selected chosen
      exact (State.lengths_of_nodes (s := t) (by simp)).trans sent
    · cases chosen
  · exact State.lengths_of_nodes (by simp)

theorem State.slotEnd_lengths (s : State) : s.slotEnd.lengths = s.lengths := by
  have cut : s.cutSlot.dropLineTimers.lengths = s.lengths := State.lengths_of_nodes (by simp)
  unfold State.slotEnd State.afterSlot
  split
  · split
    · exact (State.slotStart_lengths _ _).trans cut
    · exact (State.lengths_of_nodes (by simp)).trans cut
  all_goals rfl

theorem State.headEnd_lengths (s : State) : s.headEnd.lengths = s.lengths := by
  unfold State.headEnd
  split
  · exact s.dropLineTimers.slotStart_lengths _
  · rfl

theorem State.takeActivityReport_lengths (s : State) : s.takeActivityReport.lengths = s.lengths := by
  unfold State.takeActivityReport
  split
  · dsimp only
    split
    · exact State.enterHalted_lengths _ _ _
    · rfl
  all_goals rfl

theorem State.takeLinkFault_lengths (s : State) (kind : LinkFaultKind) : (s.takeLinkFault kind).lengths = s.lengths := by
  unfold State.takeLinkFault
  split
  · exact State.lengths_of_nodes (by simp)
  · exact State.lengths_of_nodes (by simp)
  · exact s.enterHalted_lengths _ _
  all_goals rfl

/-- No event changes a slice length, but for those that take a waiting access (R54). -/
theorem eventEffect_lengths (s : State) {c : Instr} (other : c ≠ .waitingAccessTaken) :
    (eventEffect c s).lengths = s.lengths := by
  cases c with
  | waitingAccessTaken => exact absurd rfl other
  | slotEnd => exact s.slotEnd_lengths
  | headSegmentEnd => exact s.headEnd_lengths
  | activityReport => exact s.takeActivityReport_lengths
  | linkFault kind => exact s.takeLinkFault_lengths kind
  | nodeOutcome n kind k v => exact s.takeOutcome_lengths n kind k v
  | lateNotice n k => exact s.takeLate_lengths n k
  | _ => exact State.lengths_of_nodes (by simp [eventEffect])

end Sys2Proof.Machine
end

section
/-! PROOFS. Every step keeps what STOPPED means, the budget law and the ranges of the settings (R1, R26, R35, R40, R42, R75,
R117, R139). -/

namespace Sys2Proof.Machine

open Sys2Proof

/-! ### The line unused -/

/-- A line that is not used is off, or is held by the abort mark or by the frame that the mark cuts (R4, R139). -/
theorem State.LineUnused.phase {s : State} (h : s.LineUnused) :
    s.link.state = .linkOff ∨ s.link.state = .mark ∨ s.link.state = .send ∧ s.timers.cut.isSome = true := by
  unfold State.LineUnused State.marking at h
  cases phase : s.link.state <;> simp_all

/-- Whether the line is used goes by the phase of the link engine, the cut in progress and the direction after the mark. -/
theorem State.LineUnused.congr {s t : State} (h : s.LineUnused) (phase : t.link.state = s.link.state)
    (quiet : t.link.quietAfterMark = s.link.quietAfterMark) (cut : t.timers.cut = s.timers.cut) : t.LineUnused := by
  unfold State.LineUnused State.marking at *
  rwa [phase, quiet, cut]

theorem State.setRxd_lineUnused {s : State} (h : s.LineUnused) (level : Bool) : (s.setRxd level).LineUnused :=
  h.congr rfl rfl rfl

/-- An onset on a line that is not used has no effect but on the level (R4, R13). -/
theorem State.onset_lineUnused {s : State} (h : s.LineUnused) : s.onset.LineUnused := by
  have same : s.onset = s.setRxd false := by
    rcases h.phase with phase | phase | ⟨phase, -⟩ <;> simp only [State.onset, phase]
  rw [same]
  exact State.setRxd_lineUnused h false

/-- The end of the mark leaves a line that is directed off unused (R4). -/
theorem State.markEnd_lineUnused {s : State} (h : s.LineUnused) : s.markEnd.LineUnused := by
  rcases h.phase with phase | phase | ⟨phase, -⟩
  · simpa only [State.markEnd, phase] using h
  · have off : s.link.quietAfterMark = false := by
      rcases h with ⟨linkOff, -⟩ | ⟨-, off⟩
      · simp [phase] at linkOff
      · exact off
    simp only [State.markEnd, phase, off]
    exact .inl ⟨rfl, rfl⟩
  · simpa only [State.markEnd, phase] using h

theorem State.lineReturns_lineUnused {s : State} (h : s.LineUnused) : s.lineReturns.LineUnused := by
  have level := State.setRxd_lineUnused h true
  unfold State.lineReturns
  dsimp only
  split
  · exact h
  · split
    · exact level.congr rfl rfl rfl
    all_goals exact level

/-- The events of the line at the link engine. -/
def isLineEvent : Instr → Bool
  | .activityOnset | .characterEnd .. | .characterGap | .windowClose | .window2Open | .frameEnd | .lReadback ..
  | .markEnd | .lineReturnsTo1 => true
  | _ => false

/-- A line that is not used stays so at its events: it has no window and no reply, its frame does not end, and no level is read
back (R4, R13, R156). -/
theorem eventEffect_lineUnused {s : State} (h : s.LineUnused) {c : Instr} (ofLine : isLineEvent c = true) :
    (eventEffect c s).LineUnused := by
  have unmoved {t : State} (same : t = s) : t.LineUnused := same ▸ h
  cases c with
  | activityOnset => exact State.onset_lineUnused h
  | markEnd => exact State.markEnd_lineUnused h
  | lineReturnsTo1 => exact State.lineReturns_lineUnused h
  | characterEnd b stop =>
    refine unmoved ?_
    rcases h.phase with phase | phase | ⟨phase, -⟩ <;> simp only [eventEffect, State.characterEnd, phase]
  | characterGap =>
    refine unmoved ?_
    rcases h.phase with phase | phase | ⟨phase, -⟩ <;> simp only [eventEffect, State.characterGap, phase]
  | windowClose =>
    refine unmoved ?_
    rcases h.phase with phase | phase | ⟨phase, -⟩ <;> simp only [eventEffect, State.windowClose, phase]
  | window2Open =>
    refine unmoved ?_
    rcases h.phase with phase | phase | ⟨phase, -⟩ <;> simp [eventEffect, State.window2Open, phase]
  | frameEnd =>
    refine unmoved ?_
    rcases h.phase with phase | phase | ⟨phase, cut⟩
    · simp only [eventEffect, State.frameEnd, phase]
    · simp only [eventEffect, State.frameEnd, phase]
    · simp only [eventEffect, State.frameEnd, phase, cut, if_true]
  | lReadback level =>
    refine unmoved ?_
    rcases h.phase with phase | phase | ⟨phase, cut⟩
    · simp only [eventEffect, State.readback, phase]
    · simp only [eventEffect, State.readback, phase]
    · simp only [eventEffect, State.readback, phase, cut, Bool.true_or, if_true]
  | _ => cases ofLine

/-! ### STOPPED -/

/-- What STOPPED means: schedule unit and line at rest, no switch pending, and a publish pending only while an output catch-up
copy runs (R26, R42, R75, R139). -/
def State.AtRest (s : State) : Prop :=
  s.sched.state = .idle ∧ s.LineUnused ∧ s.sched.pendingSwitch = none
    ∧ (s.image.publishPending = true → s.image.outCopy.isSome = true)

theorem State.stoppedLaw_of_running {s : State} (running : s.run.state ≠ .stopped) : s.StoppedLaw :=
  fun stopped => absurd stopped running

theorem State.stoppedLaw_of_atRest {s : State} (rest : s.AtRest) : s.StoppedLaw := fun _ => rest

/-- What keeps the run state keeps the law, if it keeps the rest. -/
theorem State.StoppedLaw.of_rest {s t : State} (law : s.StoppedLaw) (run : t.run.state = s.run.state)
    (rest : s.AtRest → t.AtRest) : t.StoppedLaw := fun stopped => rest (law (run.symm.trans stopped))

theorem State.enterStopped_atRest {s : State} (line : s.LineUnused) : s.enterStopped.AtRest := by
  obtain ⟨-, sched, timers, -, -⟩ := s.enterStopped_spec
  refine ⟨by rw [sched], line.of_same (by simp) (by rw [timers]), by rw [sched], ?_⟩
  exact State.takePendingPublish_settled _

/-! ### Budgets -/

theorem State.slotMinimum_congr {s t : State} (settings : t.settings = s.settings) (lengths : t.lengths = s.lengths)
    (r : SlotRecord) : t.slotMinimum r = s.slotMinimum r := by
  obtain ⟨-, window, -⟩ := State.settings_eq_iff.1 settings
  have out : t.outLen = s.outLen := funext fun n => congrArg (fun l => (l n).1) lengths
  have inp : t.inLen = s.inLen := funext fun n => congrArg (fun l => (l n).2) lengths
  simp only [State.slotMinimum, State.windowLength, window, out, inp]

theorem State.TableFits.congr {s t : State} {x : TableId} (fits : s.TableFits x)
    (table : t.sched.table x = s.sched.table x) (settings : t.settings = s.settings) (lengths : t.lengths = s.lengths) :
    t.TableFits x := by
  intro k
  simp only [Sched.record, table, State.slotMinimum_congr settings lengths]
  exact fits k

/-- A table that passes validation fits (R35, R38). -/
theorem State.tableFits_of_pass {s : State} {x : TableId} (pass : s.validate x = .pass) : s.TableFits x := by
  intro k nonzero
  obtain ⟨-, -, -, budget⟩ := (State.validate_eq_pass.1 pass).2 k nonzero
  exact budget

/-! ### States that follow one another -/

/-- The laws of the run: what STOPPED means, the budget law and the ranges of the settings (R1, R40, R117, R139). -/
structure State.RunLaws (s : State) : Prop where
  stopped : s.StoppedLaw
  budget : s.BudgetLaw
  settings : s.SettingsLaw

/-- A state that follows another without a new setting, slice length, slot record, pending switch or run: at most the pending
switch is taken or dropped, and the run ends or goes on. -/
structure State.RunFollows (s t : State) : Prop where
  settings : t.settings = s.settings
  lengths : t.lengths = s.lengths
  tables : t.sched.tableA = s.sched.tableA ∧ t.sched.tableB = s.sched.tableB
  active : t.sched.active = s.sched.active ∨ s.sched.pendingSwitch = some t.sched.active
  pending : t.sched.pendingSwitch = none ∨ t.sched.pendingSwitch = s.sched.pendingSwitch
  inRun : t.run.state.inRun = true → s.run.state.inRun = true
  stopped : s.StoppedLaw → t.StoppedLaw

theorem Sched.table_congr {u v : Sched} (tables : v.tableA = u.tableA ∧ v.tableB = u.tableB) (x : TableId) :
    v.table x = u.table x := by
  obtain ⟨a, b⟩ := tables
  cases x
  · exact a
  · exact b

theorem State.RunFollows.runLaws {s t : State} (h : s.RunFollows t) (law : s.RunLaws) : t.RunLaws := by
  obtain ⟨activeFits, pendingFits⟩ := law.budget
  have fits {x : TableId} (before : s.TableFits x) : t.TableFits x :=
    before.congr (Sched.table_congr h.tables x) h.settings h.lengths
  refine ⟨h.stopped law.stopped, ⟨fun inRun => fits ?_, fun x pending => fits (pendingFits x ?_)⟩, ?_⟩
  · rcases h.active with same | taken
    · rw [same]
      exact activeFits (h.inRun inRun)
    · exact pendingFits _ taken
  · rcases h.pending with none | same
    · simp [none] at pending
    · exact same.symm.trans pending
  · obtain ⟨-, window, -, -, timeout⟩ := State.settings_eq_iff.1 h.settings
    unfold State.SettingsLaw
    rw [window, timeout]
    exact law.settings

theorem State.RunFollows.refl (s : State) : s.RunFollows s :=
  ⟨rfl, rfl, ⟨rfl, rfl⟩, .inl rfl, .inr rfl, id, id⟩

theorem State.RunFollows.trans {s t u : State} (h : s.RunFollows t) (h' : t.RunFollows u) : s.RunFollows u where
  settings := h'.settings.trans h.settings
  lengths := h'.lengths.trans h.lengths
  tables := ⟨h'.tables.1.trans h.tables.1, h'.tables.2.trans h.tables.2⟩
  active := by
    rcases h'.active with same | taken
    · rw [same]
      exact h.active
    · rcases h.pending with none | same
      · simp [none] at taken
      · exact .inr (same.symm.trans taken)
  pending := by
    rcases h'.pending with none | same
    · exact .inl none
    · rw [same]
      exact h.pending
  inRun := h.inRun ∘ h'.inRun
  stopped := h'.stopped ∘ h.stopped

/-- The tables and which of them are active and pending: what the budget law says of the schedule unit. -/
def Sched.served (u : Sched) : Vector SlotRecord 16 × Vector SlotRecord 16 × TableId × Option TableId :=
  (u.tableA, u.tableB, u.active, u.pendingSwitch)

theorem State.RunFollows.of_served {s t : State} (settings : t.settings = s.settings) (lengths : t.lengths = s.lengths)
    (served : t.sched.served = s.sched.served) (inRun : t.run.state.inRun = true → s.run.state.inRun = true)
    (stopped : s.StoppedLaw → t.StoppedLaw) : s.RunFollows t := by
  simp only [Sched.served, Prod.mk.injEq] at served
  obtain ⟨tableA, tableB, active, pending⟩ := served
  exact ⟨settings, lengths, ⟨tableA, tableB⟩, .inl active, .inr pending, inRun, stopped⟩

/-- A change within the run state: only what STOPPED means is to be kept. -/
theorem State.RunFollows.of_rest {s t : State} (settings : t.settings = s.settings) (lengths : t.lengths = s.lengths)
    (served : t.sched.served = s.sched.served) (run : t.run.state = s.run.state) (rest : s.AtRest → t.AtRest) :
    s.RunFollows t :=
  .of_served settings lengths served (fun h => by rwa [run] at h) fun law => law.of_rest run rest

/-- A change of the line and of what keeps it busy, within the run state. -/
theorem State.RunFollows.of_line {s t : State} (settings : t.settings = s.settings) (nodes : t.nodes = s.nodes)
    (sched : t.sched = s.sched ∨ t.sched = { s.sched with state := .idle }) (image : t.image = s.image)
    (run : t.run = s.run) (line : s.LineUnused → t.LineUnused) : s.RunFollows t := by
  have served : t.sched.served = s.sched.served := by
    rcases sched with e | e
    · rw [e]
    · rw [e]
      rfl
  refine .of_rest settings (State.lengths_of_nodes nodes) served (by rw [run]) ?_
  rintro ⟨still, unused, free, settled⟩
  refine ⟨?_, line unused, ?_, by rwa [image]⟩
  · rcases sched with e | e
    · rwa [e]
    · rw [e]
  · rcases sched with e | e <;> rw [e] <;> exact free

/-- A change that reaches neither line, schedule nor run, and no image register but those of the input side. -/
theorem State.RunFollows.of_aside {s t : State} (settings : t.settings = s.settings) (lengths : t.lengths = s.lengths)
    (served : t.sched.served = s.sched.served) (run : t.run = s.run) (idle : t.sched.state = s.sched.state)
    (line : t.link = s.link ∧ t.timers.cut = s.timers.cut)
    (image : t.image.publishPending = s.image.publishPending ∧ t.image.outCopy = s.image.outCopy) : s.RunFollows t := by
  refine .of_rest settings lengths served (by rw [run]) ?_
  rintro ⟨still, unused, free, settled⟩
  simp only [Sched.served, Prod.mk.injEq] at served
  obtain ⟨-, -, -, pending⟩ := served
  exact ⟨idle.trans still, unused.of_same line.1 line.2, pending.trans free, by rwa [image.1, image.2]⟩

/-- A change in a run, or in HALTED: nothing is to be said of STOPPED. -/
theorem State.RunFollows.of_running {s t : State} (settings : t.settings = s.settings) (lengths : t.lengths = s.lengths)
    (served : t.sched.served = s.sched.served) (inRun : t.run.state.inRun = true → s.run.state.inRun = true)
    (running : t.run.state ≠ .stopped) : s.RunFollows t :=
  .of_served settings lengths served inRun fun _ => State.stoppedLaw_of_running running

/-- A change after which the pending switch is taken (R42). -/
theorem State.RunFollows.of_taken {s t : State} (settings : t.settings = s.settings) (lengths : t.lengths = s.lengths)
    (served : t.sched.served
      = (s.sched.tableA, s.sched.tableB, s.sched.pendingSwitch.getD s.sched.active, none))
    (inRun : t.run.state.inRun = true → s.run.state.inRun = true) (stopped : t.StoppedLaw) : s.RunFollows t := by
  simp only [Sched.served, Prod.mk.injEq] at served
  obtain ⟨tableA, tableB, active, pending⟩ := served
  refine ⟨settings, lengths, ⟨tableA, tableB⟩, ?_, .inl pending, inRun, fun _ => stopped⟩
  rw [active]
  cases s.sched.pendingSwitch <;> simp

/-- STOPPED entered from a state that leaves the line unused (R42, R75, R141). -/
theorem State.runFollows_enterStopped {s u : State} (settings : u.settings = s.settings) (nodes : u.nodes = s.nodes)
    (served : u.sched.served = s.sched.served) (line : u.LineUnused) : s.RunFollows u.enterStopped := by
  obtain ⟨run, entered, -⟩ := u.enterStopped_spec
  simp only [Sched.served, Prod.mk.injEq] at served
  obtain ⟨tableA, tableB, active, pending⟩ := served
  refine .of_taken ?_ (State.lengths_of_nodes (by simp [nodes])) ?_ ?_
    (State.stoppedLaw_of_atRest (State.enterStopped_atRest line))
  · rw [← settings]
    simp [State.settings]
  · simp [entered, Sched.served, tableA, tableB, active, pending]
  · simp [run, RunState.inRun]

/-- A cycle start in a run (R42, R44). -/
theorem State.runFollows_cycleStart {s u : State} (settings : u.settings = s.settings) (nodes : u.nodes = s.nodes)
    (served : u.sched.served = s.sched.served) (inRun : s.run.state.inRun = true) (running : u.run.state ≠ .stopped) :
    s.RunFollows u.cycleStart := by
  simp only [Sched.served, Prod.mk.injEq] at served
  obtain ⟨tableA, tableB, active, pending⟩ := served
  refine .of_taken ?_ (State.lengths_of_nodes (by simp [nodes])) ?_ (fun _ => inRun)
    (State.stoppedLaw_of_running (by simpa using running))
  · rw [← settings]
    simp [State.settings]
  · simp [State.cycleStart, Sched.served, State.takePendingSwitch_sched, tableA, tableB, active, pending]

end Sys2Proof.Machine
end

section
/-! PROOFS. What the events do to the laws of the run (R40, R42, R75, R139). -/

namespace Sys2Proof.Machine

open Sys2Proof

/-! ### The cycle -/

theorem State.cycleEnd_runFollows {s : State} (running : s.run.state ≠ .stopped) : s.RunFollows s.cycleEnd := by
  have settings : s.schedIdle.cycleEndSwap.settings = s.settings := by simp [State.settings]
  have served : s.schedIdle.cycleEndSwap.sched.served = s.sched.served := by simp [Sched.served]
  rcases s.cycleEnd_cases with ⟨run, e⟩ | ⟨run, e⟩ | ⟨run, e⟩ | ⟨-, e⟩ <;> rw [e]
  · exact State.runFollows_cycleStart settings (by simp) served (by simp [run, RunState.inRun]) (by simp [run])
  · refine State.runFollows_cycleStart ?_ (by simp) ?_ (by simp [run, RunState.inRun]) (by simp)
    · rw [← settings]
      rfl
    · rw [← served]
      rfl
  · refine State.runFollows_enterStopped ?_ (by simp) ?_ (State.directOff_line _)
    · rw [← settings]
      simp [State.settings]
    · rw [← served]
      simp
  · refine .of_running ?_ (State.lengths_of_nodes (by simp)) ?_ (by simp) (by simpa using running)
    · rw [← settings]
      simp [State.settings]
    · rw [← served]
      simp

theorem State.slotStart_served (s : State) (k : SlotIndex) : (s.slotStart k).sched.served = s.sched.served := by
  unfold State.slotStart
  dsimp only
  split
  · next e t chosen =>
    split at chosen
    · obtain ⟨-, -, sched, -⟩ := State.selectCommand_frame _ _ _ chosen
      simp [Sched.served, State.startFrame, State.setPacing, sched, State.enterSlot]
    · cases chosen
  · unfold State.decreasePacing
    split <;> simp [Sched.served, State.setPacing, State.enterSlot]

theorem State.slotStart_runFollows {s : State} (k : SlotIndex) (running : s.run.state ≠ .stopped) :
    s.RunFollows (s.slotStart k) :=
  .of_running (by simp [State.settings]) (s.slotStart_lengths k) (s.slotStart_served k) (by simp) (by simpa using running)

/-- In STOPPED no slot and no head segment is in progress (R139). -/
theorem State.StoppedLaw.running {s : State} (law : s.StoppedLaw) (busy : s.sched.state ≠ .idle) :
    s.run.state ≠ .stopped := fun stopped => busy (law stopped).1

theorem State.slotEnd_runFollows {s : State} (law : s.StoppedLaw) : s.RunFollows s.slotEnd := by
  unfold State.slotEnd
  split
  · next k busy =>
    have running : s.cutSlot.dropLineTimers.run.state ≠ .stopped := by simpa using law.running (by simp [busy])
    have cut : s.RunFollows s.cutSlot.dropLineTimers :=
      .of_running (by simp [State.settings]) (State.lengths_of_nodes (by simp)) (by simp) (by simp) running
    refine cut.trans ?_
    unfold State.afterSlot
    split
    · exact State.slotStart_runFollows _ running
    · exact State.cycleEnd_runFollows running
  all_goals exact .refl s

theorem State.headEnd_runFollows {s : State} (law : s.StoppedLaw) : s.RunFollows s.headEnd := by
  unfold State.headEnd
  split
  · next k busy _ =>
    have dropped : s.RunFollows s.dropLineTimers := .of_aside rfl rfl rfl rfl rfl ⟨rfl, rfl⟩ ⟨rfl, rfl⟩
    exact dropped.trans (State.slotStart_runFollows k (law.running (by simp [busy])))
  · exact .refl s

/-! ### Events of the line -/

theorem State.linkFault_sched (s : State) (kind : LinkFaultKind) (node : NodeAddr) :
    (s.linkFault kind node).sched = { s.sched with state := .idle } := by
  rw [State.linkFault_eq]

theorem State.onset_sched (s : State) : s.onset.sched = s.sched ∨ s.onset.sched = { s.sched with state := .idle } := by
  cases phase : s.link.state with
  | guarding =>
    rw [State.onset_guarding phase]
    exact .inr (s.linkFault_sched .foreign (s.link.lastDecided.getD 0))
  | _ => exact .inl (by simp [State.onset, phase])

theorem State.readback_sched (s : State) (level : Bool) :
    (s.readback level).sched = s.sched ∨ (s.readback level).sched = { s.sched with state := .idle } := by
  unfold State.readback
  split
  · split
    · exact .inl rfl
    · exact .inr (s.linkFault_sched .readback s.link.exchange.address)
  all_goals exact .inl rfl

/-- An event of the line leaves the schedule unit, or a link fault sets it to IDLE (R21). -/
theorem eventEffect_lineEvent_sched (s : State) {c : Instr} (ofLine : isLineEvent c = true) :
    (eventEffect c s).sched = s.sched ∨ (eventEffect c s).sched = { s.sched with state := .idle } := by
  cases c with
  | activityOnset => exact s.onset_sched
  | lReadback level => exact s.readback_sched level
  | characterEnd | characterGap | windowClose | window2Open | frameEnd | markEnd | lineReturnsTo1 =>
    exact .inl (by simp [eventEffect])
  | _ => cases ofLine

/-- An event of the line reaches neither the node table nor the image nor the run. -/
theorem eventEffect_lineEvent_frame (s : State) {c : Instr} (ofLine : isLineEvent c = true) :
    (eventEffect c s).nodes = s.nodes ∧ (eventEffect c s).image = s.image ∧ (eventEffect c s).run = s.run := by
  cases c with
  | activityOnset | lReadback | characterEnd | characterGap | windowClose | window2Open | frameEnd | markEnd
  | lineReturnsTo1 => simp [eventEffect]
  | _ => cases ofLine

theorem State.takeLineQuiet_runFollows (s : State) : s.RunFollows s.takeLineQuiet := by
  unfold State.takeLineQuiet
  split
  · split
    case h_1 run =>
      exact State.runFollows_cycleStart rfl rfl rfl (by simp [run, RunState.inRun]) (by simp)
    case h_2 run =>
      exact State.runFollows_cycleStart rfl rfl rfl (by simp [run, RunState.inRun]) (by simp)
    all_goals exact .refl s
  · exact .refl s

theorem State.enterHalted_sched (s : State) (code : FaultCode) (detail : Word) :
    (s.enterHalted code detail).sched = { s.sched with state := .idle } := by
  have halted : s.haltRun.sched = { s.sched with state := .idle } := by simp [State.haltRun]
  simp [State.enterHalted, halted]

theorem State.enterHalted_runFollows (s : State) (code : FaultCode) (detail : Word) :
    s.RunFollows (s.enterHalted code detail) :=
  .of_running (by simp [State.settings]) (s.enterHalted_lengths code detail) (by rw [State.enterHalted_sched]; rfl)
    (by simp [State.enterHalted_run, RunState.inRun]) (by simp [State.enterHalted_run])

theorem State.takeActivityReport_runFollows (s : State) : s.RunFollows s.takeActivityReport := by
  unfold State.takeActivityReport
  split
  · next run =>
    have counted : s.RunFollows (s.setRestarts (s.run.restarts + 1)) :=
      .of_running rfl rfl rfl id (by simp [State.setRestarts, run])
    dsimp only
    split
    · exact counted.trans (State.enterHalted_runFollows _ _ _)
    · exact counted
  all_goals exact .refl s

theorem State.takeLinkFault_runFollows (s : State) (kind : LinkFaultKind) : s.RunFollows (s.takeLinkFault kind) := by
  unfold State.takeLinkFault
  split
  case h_1 run =>
    exact .of_running (by simp [State.settings]) (State.lengths_of_nodes (by simp)) (by simp [Sched.served])
      (fun _ => by simp [run, RunState.inRun]) (by simp)
  case h_2 run =>
    exact State.runFollows_enterStopped (by simp [State.settings]) (by simp) (by simp) s.directOff_line
  case h_3 run => exact s.enterHalted_runFollows _ _
  all_goals exact .refl s

/-! ### Line copies -/

theorem State.copyLine_atRest {s : State} (stopped : s.run.state = .stopped) (rest : s.AtRest) : s.copyLine.AtRest := by
  obtain ⟨idle, line, free, settled⟩ := rest
  refine ⟨by simpa using idle, line.of_same (by simp) (by simp), by simpa using free, ?_⟩
  cases next : s.image.nextLine with
  | none =>
    rw [State.copyLine_none next]
    exact settled
  | some line =>
    obtain ⟨_ | _, k⟩ := line
    · rw [State.copyLine_output next]
      unfold State.publishAfterLine
      split
      · exact State.takePendingPublish_settled _
      · next inside =>
        have more : k ≠ 63 := fun last => inside ⟨last, stopped⟩
        exact fun _ => by simpa [State.outputMoved] using more
    · rw [State.copyLine_input next]
      exact settled

theorem State.copyLine_runFollows (s : State) : s.RunFollows s.copyLine := by
  refine .of_served (by simp [State.settings]) (State.lengths_of_nodes (by simp)) (by simp) (by simp) fun law stopped => ?_
  have before : s.run.state = .stopped := by simpa using stopped
  exact State.copyLine_atRest before (law before)

theorem State.lineCopy_runFollows (s : State) : s.RunFollows s.lineCopy := by
  rcases s.lineCopy_cases with e | e | e <;> rw [e]
  · exact .refl s
  · exact s.copyLine_runFollows
  · exact s.copyLine_runFollows.trans (.of_aside rfl rfl rfl rfl rfl ⟨rfl, rfl⟩ ⟨rfl, rfl⟩)

/-- A stored reply reaches the input side only (R79). -/
theorem State.storeReply_outputSide (s : State) (n : NodeAddr) (bytes : List Byte) :
    (s.storeReply n bytes).image.publishPending = s.image.publishPending
      ∧ (s.storeReply n bytes).image.outCopy = s.image.outCopy := by
  unfold State.storeReply
  split <;> simp [State.setImage]

/-- An event other than the taking of a waiting access changes no setting, slice length or slot record, and ends or goes on
with a run. -/
theorem eventEffect_runFollows {s : State} (law : s.StoppedLaw) {c : Instr} (other : c ≠ .waitingAccessTaken) :
    s.RunFollows (eventEffect c s) := by
  by_cases ofLine : isLineEvent c = true
  · obtain ⟨nodes, image, run⟩ := eventEffect_lineEvent_frame s ofLine
    exact .of_line (eventEffect_settings s other) nodes (eventEffect_lineEvent_sched s ofLine) image run
      (eventEffect_lineUnused · ofLine)
  · cases c with
    | slotEnd => exact State.slotEnd_runFollows law
    | headSegmentEnd => exact State.headEnd_runFollows law
    | lineQuiet => exact s.takeLineQuiet_runFollows
    | activityReport => exact s.takeActivityReport_runFollows
    | linkFault kind => exact s.takeLinkFault_runFollows kind
    | lineCopy => exact s.lineCopy_runFollows
    | replyStorage n bytes =>
      exact .of_aside (eventEffect_settings s other) (eventEffect_lengths s other) (by simp [eventEffect])
        (by simp [eventEffect]) (by simp [eventEffect]) (by simp [eventEffect]) (s.storeReply_outputSide n bytes)
    | waitingAccessTaken => exact absurd rfl other
    | activityOnset | lReadback | characterEnd | characterGap | windowClose | window2Open | frameEnd | markEnd
    | lineReturnsTo1 => exact absurd rfl ofLine
    | _ =>
      exact .of_aside (eventEffect_settings s other) (eventEffect_lengths s other) (by simp [eventEffect])
        (by simp [eventEffect]) (by simp [eventEffect]) (by simp [eventEffect]) (by simp [eventEffect])

end Sys2Proof.Machine
end

section
/-! PROOFS. What the register writes do to the laws of the run, and that every step keeps them (R1, R26, R40, R42, R75, R117,
R139). -/

namespace Sys2Proof.Machine

open Sys2Proof

theorem State.raise_runFollows (s : State) (code : FaultCode) (n : NodeAddr) (detail : Word) :
    s.RunFollows (s.raise code n detail) :=
  .of_aside rfl rfl rfl rfl rfl ⟨rfl, rfl⟩ ⟨rfl, rfl⟩

theorem State.recordValidation_sched (s : State) (v : Validation) :
    (s.recordValidation v).sched = { s.sched with validation := v } := by
  unfold State.recordValidation
  split <;> rfl

theorem State.recordValidation_runFollows (s : State) (v : Validation) : s.RunFollows (s.recordValidation v) :=
  .of_aside (by simp [State.settings]) (State.lengths_of_nodes (by simp)) (by rw [State.recordValidation_sched]; rfl)
    (by simp) (by rw [State.recordValidation_sched]) (by simp) (by simp)

/-- In STOPPED, at rest, the budget law says nothing (R40). -/
theorem State.runLaws_of_stopped {t : State} (stopped : t.run.state = .stopped) (rest : t.AtRest)
    (settings : t.SettingsLaw) : t.RunLaws := by
  have ⟨_, _, free, _⟩ := rest
  refine ⟨State.stoppedLaw_of_atRest rest, ⟨fun inRun => ?_, fun x pending => ?_⟩, settings⟩
  · simp [stopped, RunState.inRun] at inRun
  · simp [free] at pending

theorem State.SettingsLaw.congr {s t : State} (law : s.SettingsLaw) (same : t.settings = s.settings) : t.SettingsLaw := by
  obtain ⟨-, window, -, -, timeout⟩ := State.settings_eq_iff.1 same
  unfold State.SettingsLaw
  rwa [window, timeout]

/-! ### The run commands -/

/-- RUN is taken with a table that passes validation, so that it fits (R40, R142). -/
theorem State.startRun_runLaws {s : State} (law : s.RunLaws) (stopped : s.run.state = .stopped)
    (pass : s.validate s.sched.active = .pass) : (s.recordValidation .pass).startRun.RunLaws := by
  have settings : (s.recordValidation .pass).startRun.settings = s.settings := by simp [State.settings]
  have sched : (s.recordValidation .pass).startRun.sched = { s.sched with validation := .pass, pacing := 0 } := by
    simp [State.startRun, State.setPacing, State.recordValidation_sched]
  refine ⟨State.stoppedLaw_of_running (by simp [State.startRun]), ⟨fun _ => ?_, fun x pending => ?_⟩,
    law.settings.congr settings⟩
  · rw [sched]
    exact (State.tableFits_of_pass pass).congr (by rw [sched]; exact Sched.table_congr ⟨rfl, rfl⟩ _) settings
      (State.lengths_of_nodes (by simp))
  · obtain ⟨-, -, free, -⟩ := law.stopped stopped
    simp [sched, free] at pending

theorem State.cmdRun_runLaws {s : State} (law : s.RunLaws) : s.cmdRun.RunLaws := by
  unfold State.cmdRun
  split
  · next stopped =>
    dsimp only
    split
    · next pass =>
      rw [pass]
      exact State.startRun_runLaws law stopped pass
    all_goals exact (s.recordValidation_runFollows _).runLaws law
  all_goals exact (s.raise_runFollows _ _ _).runLaws law

theorem State.cmdStop_runFollows (s : State) : s.RunFollows s.cmdStop := by
  have left : s.RunFollows s.directOff.enterStopped :=
    State.runFollows_enterStopped (by simp [State.settings]) (by simp) (by simp) s.directOff_line
  have drained (inRun : s.run.state.inRun = true) : s.RunFollows (s.changeRun .draining) :=
    .of_running rfl rfl rfl (fun _ => inRun) (by simp)
  unfold State.cmdStop
  split
  case h_1 | h_2 => exact left
  case h_3 run | h_4 run => exact drained (by rw [run]; rfl)
  all_goals exact .refl s

theorem State.cmdAbort_runFollows (s : State) : s.RunFollows s.cmdAbort := by
  rw [State.cmdAbort_eq]
  split
  · exact State.runFollows_enterStopped (by simp [State.settings]) (by simp) (by simp)
      (s.cutLine_line.of_same (by simp) (by simp))
  · exact .refl s

theorem State.cmdRestart_runFollows (s : State) : s.RunFollows s.cmdRestart := by
  unfold State.cmdRestart
  split
  · exact State.runFollows_enterStopped (by simp [State.settings]) (by simp) (by simp) s.directOff_line
  all_goals exact s.raise_runFollows _ _ _

theorem State.cmdCreset_atRest (s : State) : s.cmdCreset.AtRest := by
  obtain ⟨link, timers, -, image⟩ := s.cmdCreset_rest
  refine ⟨by simp [Sched.controllerReset], s.cutLine_line.of_same link (by rw [timers]),
    by simp [Sched.controllerReset], ?_⟩
  rw [image]
  exact s.takePendingPublish_settled

theorem State.writeRcmd_runLaws {s : State} (law : s.RunLaws) (v : Word) : (s.writeRcmd v).RunLaws := by
  have settings := s.writeRcmd_settings v
  revert settings
  unfold State.writeRcmd
  split <;> intro settings
  case h_1 => exact State.cmdRun_runLaws law
  case h_2 => exact s.cmdStop_runFollows.runLaws law
  case h_3 => exact s.cmdAbort_runFollows.runLaws law
  case h_4 => exact s.cmdRestart_runFollows.runLaws law
  case h_5 => exact State.runLaws_of_stopped (by simp [RunControl.reset]) s.cmdCreset_atRest (law.settings.congr settings)
  case h_6 => exact (s.raise_runFollows _ _ _).runLaws law

/-! ### The settings -/

theorem takenWindow_least (w : Byte) : 8 ≤ (takenWindow w).toNat := by
  unfold takenWindow
  split
  · decide
  · next long => exact not_lt.1 long

theorem takenTimeout_least (t : Byte) : 1 ≤ (takenTimeout t).toNat := by
  unfold takenTimeout
  split
  · decide
  · next some => exact Nat.one_le_iff_ne_zero.2 fun zero => some (BitVec.eq_of_toNat_eq zero)

/-- The settings are written in STOPPED only, where the budget law says nothing (R40, R153). -/
theorem State.writeSetting_runLaws {s : State} (law : s.RunLaws) (offset : Word) {f : State → State}
    (run : (f s).run = s.run) (rest : s.AtRest → (f s).AtRest) (settings : (f s).SettingsLaw) :
    (s.writeSetting offset f).RunLaws := by
  unfold State.writeSetting
  split
  · next stopped =>
    exact State.runLaws_of_stopped (by rw [run, stopped]) (rest (law.stopped stopped)) settings
  · exact (s.raise_runFollows _ _ _).runLaws law

/-! ### The tables -/

/-- A table that passes becomes active at once in STOPPED, and pending in any other run state (R41). -/
theorem State.requestSwitch_runLaws {s : State} (law : s.RunLaws) (x : TableId) : (s.requestSwitch x).RunLaws := by
  by_cases refused : x = s.sched.active ∨ s.sched.pendingSwitch.isSome = true
  · rw [State.requestSwitch_refused refused]
    exact (s.raise_runFollows _ _ _).runLaws law
  · obtain ⟨other, free⟩ := not_or.1 refused
    rw [State.requestSwitch_judged other (by simpa using free)]
    cases judged : s.validate x with
    | unset => exact (s.recordValidation_runFollows _).runLaws law
    | fail => exact (s.recordValidation_runFollows _).runLaws law
    | pass =>
      have fits := State.tableFits_of_pass judged
      dsimp only
      split
      · next stopped =>
        obtain ⟨idle, line, -, settled⟩ := law.stopped stopped
        refine State.runLaws_of_stopped (by simpa using stopped) ⟨?_, ?_, rfl, ?_⟩ (law.settings.congr rfl)
        · exact idle
        · exact line.of_same rfl rfl
        · exact settled
      · next running =>
        refine ⟨State.stoppedLaw_of_running running, ⟨fun inRun => ?_, fun y pending => ?_⟩, law.settings.congr rfl⟩
        · exact (law.budget.1 inRun).congr (Sched.table_congr ⟨rfl, rfl⟩ _) rfl rfl
        · cases pending
          exact fits.congr (Sched.table_congr ⟨rfl, rfl⟩ _) rfl rfl

theorem State.cancelSwitch_runFollows (s : State) : s.RunFollows s.cancelSwitch := by
  refine ⟨rfl, rfl, ⟨rfl, rfl⟩, .inl rfl, .inl rfl, id, fun law stopped => ?_⟩
  obtain ⟨idle, line, -, settled⟩ := law stopped
  exact ⟨idle, line.of_same rfl rfl, rfl, settled⟩

theorem State.writeSctl_runLaws {s : State} (law : s.RunLaws) (v : Word) : (s.writeSctl v).RunLaws := by
  unfold State.writeSctl
  split
  · exact State.requestSwitch_runLaws law _
  · exact s.cancelSwitch_runFollows.runLaws law
  · exact law

theorem Sched.setRecord_table_ne (u : Sched) {x y : TableId} (ne : y ≠ x) (k : SlotIndex) (r : SlotRecord) :
    (u.setRecord x k r).table y = u.table y := by
  cases x with
  | a => cases y with
    | a => exact absurd rfl ne
    | b => rfl
  | b => cases y with
    | a => rfl
    | b => exact absurd rfl ne

/-- The active table of a run and a pending table are locked against writes (R26, R40). -/
theorem State.writeSlotRecord_runLaws {s : State} (law : s.RunLaws) (offset : Word) (f : SlotRecord → SlotRecord) :
    (s.writeSlotRecord offset f).RunLaws := by
  cases locked : s.tableLocked s.sched.selTable with
  | true =>
    rw [State.writeSlotRecord_locked locked]
    exact (s.raise_runFollows _ _ _).runLaws law
  | false =>
    obtain ⟨notActive, notPending⟩ := not_or.1 (State.tableLocked_iff.not.1 (ne_true_of_eq_false locked))
    rw [State.writeSlotRecord_unlocked locked]
    have kept {y : TableId} (fits : s.TableFits y) (ne : y ≠ s.sched.selTable) : State.TableFits { s with
        sched := s.sched.setRecord s.sched.selTable s.sched.selSlot <|
          f <| s.sched.record s.sched.selTable s.sched.selSlot } y :=
      fits.congr (s.sched.setRecord_table_ne ne _ _) (by simp [State.settings]) rfl
    refine ⟨law.stopped.of_rest rfl ?_, ⟨fun inRun => ?_, fun y pending => ?_⟩,
      law.settings.congr (by simp [State.settings])⟩
    · rintro ⟨idle, line, free, settled⟩
      exact ⟨by simpa using idle, line.of_same rfl rfl, by simpa using free, settled⟩
    · rw [show ({ s with sched := s.sched.setRecord s.sched.selTable s.sched.selSlot <|
          f <| s.sched.record s.sched.selTable s.sched.selSlot } : State).sched.active = s.sched.active by simp]
      refine kept (law.budget.1 inRun) fun same => notActive ⟨same.symm, fun stopped => ?_⟩
      simp [stopped, RunState.inRun] at inRun
    · have before : s.sched.pendingSwitch = some y := by simpa using pending
      exact kept (law.budget.2 y before) fun same => notPending (same ▸ before)

/-! ### The node table -/

/-- The minimum of a slot goes by the slice lengths of the nodes it names (R35). -/
theorem slotMinimum_of_named {w : Nat} {o o' i i' : NodeAddr → Nat} {r : SlotRecord}
    (same : ∀ m ∈ r.namedNodes, o' m = o m ∧ i' m = i m) : slotMinimum w o' i' r = slotMinimum w o i r := by
  unfold SlotRecord.namedNodes at same
  unfold slotMinimum
  split
  · rfl
  · next rule => simp [rule] at same; simp [same]
  · next rule => simp [rule] at same; simp [same]
  · next rule => simp [rule] at same; simp [same]
  · rfl
  · rfl

/-- Slice lengths that pass the budget check keep the tables that it looks at within budget (R40, R54). -/
theorem State.setNode_tableFits {s : State} {n : NodeAddr} {f : NodeEntry} (ne : n ≠ 0) {x : TableId}
    (served : x = s.sched.active ∨ s.sched.pendingSwitch = some x)
    (passes : s.budgetPasses n f.outLen.toNat f.inLen.toNat = true) (fits : s.TableFits x) :
    (s.setNode n f).TableFits x := by
  have lengths (m : NodeAddr) := congrFun (State.lengths_setNode (s := s) f ne) m
  have out : (s.setNode n f).outLen = fun m => if m = n then f.outLen.toNat else s.outLen m := by
    funext m
    rw [show (s.setNode n f).outLen m = _ from congrArg Prod.fst (lengths m)]
    split <;> rfl
  have inp : (s.setNode n f).inLen = fun m => if m = n then f.inLen.toNat else s.inLen m := by
    funext m
    rw [show (s.setNode n f).inLen m = _ from congrArg Prod.snd (lengths m)]
    split <;> rfl
  have sched : (s.setNode n f).sched = s.sched := by simp
  have window : (s.setNode n f).windowLength = s.windowLength := by simp [State.windowLength]
  intro k
  simp only [State.slotMinimum, out, inp, sched, window]
  intro nonzero
  by_cases named : n ∈ (s.sched.record x k).namedNodes
  · exact (budgetCheckLooksAtNamedSlots s n _ _).1 passes x served k nonzero named
  · refine le_trans (le_of_eq (slotMinimum_of_named fun m hm => ?_)) (fits k nonzero)
    have other : m ≠ n := fun same => named (same ▸ hm)
    simp [other]

/-- In STOPPED the lengths are free, and in a run they pass the budget check (R40, R54). -/
theorem State.setNode_runLaws {s : State} (law : s.RunLaws) {n : NodeAddr} {f : NodeEntry} (ne : n ≠ 0)
    (passes : ¬ (s.run.state ≠ .stopped ∧ s.budgetPasses n f.outLen.toNat f.inLen.toNat = false)) :
    (s.setNode n f).RunLaws := by
  have run : (s.setNode n f).run = s.run := by simp
  have sched : (s.setNode n f).sched = s.sched := by simp
  have settings : (s.setNode n f).SettingsLaw := law.settings.congr (by simp [State.settings])
  have rest (h : s.AtRest) : (s.setNode n f).AtRest := by
    obtain ⟨idle, line, free, settled⟩ := h
    exact ⟨by rwa [sched], line.of_same (by simp) (by simp), by rwa [sched], by simpa using settled⟩
  by_cases stopped : s.run.state = .stopped
  · exact State.runLaws_of_stopped (by rwa [run]) (rest (law.stopped stopped)) settings
  · have checked : s.budgetPasses n f.outLen.toNat f.inLen.toNat = true := by simpa [stopped] using passes
    obtain ⟨active, pending⟩ := law.budget
    refine ⟨State.stoppedLaw_of_running (by rwa [run]), ⟨fun inRun => ?_, fun x h => ?_⟩, settings⟩
    · rw [run] at inRun
      rw [sched]
      exact State.setNode_tableFits ne (.inl rfl) checked (active inRun)
    · rw [sched] at h
      exact State.setNode_tableFits ne (.inr h) checked (pending x h)

theorem State.writeNlen_runLaws {s : State} (law : s.RunLaws) (v : Word) : (s.writeNlen v).RunLaws := by
  unfold State.writeNlen
  dsimp only
  split
  · exact law
  · next e h =>
    split_ifs with enabled long exceeds
    · exact (s.raise_runFollows _ _ _).runLaws law
    · exact (s.raise_runFollows _ _ _).runLaws law
    · exact (s.raise_runFollows _ _ _).runLaws law
    · exact State.setNode_runLaws law (State.node?_ne_zero h) exceeds

/-- Of the image a node that is disabled loses its slice copy, and nothing else (R56). -/
theorem State.writeNcfg_outputSide (s : State) (v : Word) :
    (s.writeNcfg v).image.publishPending = s.image.publishPending ∧ (s.writeNcfg v).image.outCopy = s.image.outCopy := by
  unfold State.writeNcfg
  dsimp only
  split
  · simp
  · unfold State.takeEnable
    split
    · simp
    · split <;> simp [State.disableNode, State.dropSlice, State.setImage]

/-- A node register is the node table's matter. -/
theorem State.writeNode_aside (s : State) (r : NodeWriteReg) (v : Word) : (s.writeNode r v).sched = s.sched
    ∧ (s.writeNode r v).run = s.run ∧ (s.writeNode r v).link = s.link ∧ (s.writeNode r v).timers.cut = s.timers.cut
    ∧ (s.writeNode r v).image.publishPending = s.image.publishPending
    ∧ (s.writeNode r v).image.outCopy = s.image.outCopy := by
  unfold State.writeNode
  split
  · simp
  · cases r with
    | ncfg => simp [s.writeNcfg_outputSide v]
    | _ => simp

theorem State.writeNode_runLaws {s : State} (law : s.RunLaws) (r : NodeWriteReg) (v : Word) :
    (s.writeNode r v).RunLaws := by
  by_cases lengths : r = .nlen
  · subst lengths
    unfold State.writeNode
    split
    · exact (s.raise_runFollows _ _ _).runLaws law
    · exact State.writeNlen_runLaws law v
  · obtain ⟨sched, run, link, cut, publish, copy⟩ := s.writeNode_aside r v
    refine State.RunFollows.runLaws (s := s) ?_ law
    exact .of_aside (s.writeNode_settings r v) (s.writeNode_lengths lengths v) (by rw [sched]) run (by rw [sched])
      ⟨link, cut⟩ ⟨publish, copy⟩

/-! ### Every register -/

theorem State.requestPublish_runFollows (s : State) : s.RunFollows s.requestPublish := by
  refine .of_served (by simp [State.settings]) (State.lengths_of_nodes (by simp)) (by simp) (by simp) fun law stopped => ?_
  have before : s.run.state = .stopped := by simpa using stopped
  obtain ⟨idle, line, free, settled⟩ := law before
  refine ⟨by simpa using idle, line.of_same (by simp) (by simp), by simpa using free, ?_⟩
  unfold State.requestPublish
  split
  · exact settled
  · dsimp only
    rw [if_pos (by exact before)]
    exact State.takePendingPublish_settled _

theorem State.writeIctl_runFollows (s : State) (v : Word) : s.RunFollows (s.writeIctl v) := by
  have stored (hold ptest : Bool) : s.RunFollows (s.setImage { s.image with ptest := ptest, hold := hold }) :=
    .of_aside rfl rfl rfl rfl rfl ⟨rfl, rfl⟩ ⟨rfl, rfl⟩
  unfold State.writeIctl
  dsimp only
  split
  · exact (stored _ _).trans (State.requestPublish_runFollows _)
  · exact stored _ _

theorem State.writeLset_runLaws {s : State} (law : s.RunLaws) (v : Word) : (s.writeLset v).RunLaws := by
  obtain ⟨-, timeout⟩ := law.settings
  refine State.writeSetting_runLaws law _ rfl (fun rest => ?_) ⟨takenWindow_least _, timeout⟩
  obtain ⟨idle, unused, rest⟩ := rest
  exact ⟨idle, unused.congr rfl rfl rfl, rest⟩

theorem State.writeCset_runLaws {s : State} (law : s.RunLaws) (v : Word) : (s.writeCset v).RunLaws :=
  State.writeSetting_runLaws law _ rfl id law.settings

theorem State.writeTset_runLaws {s : State} (law : s.RunLaws) (v : Word) : (s.writeTset v).RunLaws := by
  obtain ⟨window, -⟩ := law.settings
  exact State.writeSetting_runLaws law _ rfl id ⟨window, takenTimeout_least _⟩

theorem State.writeSsel_runFollows (s : State) (v : Word) : s.RunFollows (s.writeSsel v) :=
  .of_aside rfl rfl rfl rfl rfl ⟨rfl, rfl⟩ ⟨rfl, rfl⟩

theorem State.writeRegister_runLaws {s : State} (law : s.RunLaws) (r : WriteReg) (v : Word) :
    (s.writeRegister r v).RunLaws := by
  cases r with
  | rcmd => exact State.writeRcmd_runLaws law v
  | lset => exact State.writeLset_runLaws law v
  | cset => exact State.writeCset_runLaws law v
  | tset => exact State.writeTset_runLaws law v
  | sctl => exact State.writeSctl_runLaws law v
  | ssel => exact (s.writeSsel_runFollows v).runLaws law
  | srule =>
    show (s.writeSrule v).RunLaws
    exact State.writeSlotRecord_runLaws law _ _
  | snodeb =>
    show (s.writeSnodeb v).RunLaws
    exact State.writeSlotRecord_runLaws law _ _
  | slen =>
    show (s.writeSlen v).RunLaws
    exact State.writeSlotRecord_runLaws law _ _
  | node r => exact State.writeNode_runLaws law r v
  | ictl => exact (s.writeIctl_runFollows v).runLaws law
  | _ =>
    refine State.RunFollows.runLaws (s := s) ?_ law
    exact .of_aside (State.writeRegister_settings s v nofun) (State.lengths_congr (by simp [State.writeRegister]))
      (by simp [State.writeRegister]) (by simp [State.writeRegister]) (by simp [State.writeRegister])
      (by simp [State.writeRegister]) (by simp [State.writeRegister])

/-! ### Steps -/

theorem State.delayCopies_runFollows (s : State) : s.RunFollows s.delayCopies := by
  unfold State.delayCopies
  split
  · exact .of_aside rfl rfl rfl rfl rfl ⟨rfl, rfl⟩ ⟨rfl, rfl⟩
  · exact .refl s

theorem State.imageWrite_runFollows (s : State) (lanes : Lanes) (addr : BitVec 11) (data : Word) :
    s.RunFollows (s.imageWrite lanes addr data) := by
  refine s.delayCopies_runFollows.trans ?_
  unfold State.imageWrite
  dsimp only
  split
  · exact .refl _
  · split
    · exact .of_aside rfl rfl rfl rfl rfl ⟨rfl, rfl⟩ (by simp [State.setImage])
    · exact State.raise_runFollows _ _ _ _

theorem State.imageRead_runFollows (s : State) (lanes : Lanes) (addr : BitVec 11) :
    s.RunFollows (s.imageRead lanes addr).1 := by
  refine s.delayCopies_runFollows.trans ?_
  unfold State.imageRead
  dsimp only
  split
  · exact .refl _
  · exact State.raise_runFollows _ _ _ _

theorem State.carryOut_runLaws {s : State} (law : s.RunLaws) (a : Access) : (s.carryOut a).1.RunLaws := by
  rcases s.carryOut_cases a with e | ⟨-, o, e⟩ | ⟨-, r, v, e⟩ | ⟨-, e⟩ | ⟨-, e⟩ <;> rw [e]
  · exact law
  · exact (s.raise_runFollows _ _ _).runLaws law
  · exact State.writeRegister_runLaws law r v
  · exact (s.imageWrite_runFollows _ _ _).runLaws law
  · exact (s.imageRead_runFollows _ _).runLaws law

/-- The run laws ask nothing of the port, of what is due or pending, or of the reset pin. -/
theorem State.RunLaws.of_same {s t : State} (law : s.RunLaws) (core : t.link = s.link ∧ t.sched = s.sched
    ∧ t.nodes = s.nodes ∧ t.image = s.image ∧ t.cmd = s.cmd ∧ t.run = s.run ∧ t.timers = s.timers) : t.RunLaws := by
  obtain ⟨link, sched, nodes, image, cmd, run, timers⟩ := core
  refine State.RunFollows.runLaws (s := s) ?_ law
  exact .of_aside (by simp [State.settings, link, sched, cmd]) (State.lengths_of_nodes nodes) (by rw [sched]) run
    (by rw [sched]) ⟨link, by rw [timers]⟩ ⟨by rw [image], by rw [image]⟩

theorem State.setRxd_runFollows (s : State) (level : Bool) : s.RunFollows (s.setRxd level) :=
  .of_line rfl rfl (.inl rfl) rfl rfl (State.setRxd_lineUnused · level)

theorem State.reset_settingsLaw : State.reset.SettingsLaw := by
  unfold State.SettingsLaw
  decide

/-- A hardware reset enters STOPPED with every setting at its reset value (R153, R180). -/
theorem State.assertReset_runLaws (s : State) : s.assertReset.RunLaws :=
  State.runLaws_of_stopped rfl ⟨rfl, .inl ⟨rfl, rfl⟩, rfl, nofun⟩ State.reset_settingsLaw

theorem exec_runLaws {s : State} (law : s.RunLaws) {c : Instr} {t : State} (next : exec c s = .next t) : t.RunLaws := by
  rcases exec_cases next with rfl | ⟨p, rfl, -⟩ | ⟨-, level, rfl⟩ | ⟨a, -, rfl⟩ | ⟨-, rfl⟩ | ⟨-, rfl⟩ | ⟨-, rfl⟩
  · exact law
  · exact law.of_same ⟨rfl, rfl, rfl, rfl, rfl, rfl, rfl⟩
  · exact (s.setRxd_runFollows level).runLaws law
  · exact (State.carryOut_runLaws law a).of_same ⟨rfl, rfl, rfl, rfl, rfl, rfl, rfl⟩
  · exact s.assertReset_runLaws
  · exact law.of_same ⟨rfl, rfl, rfl, rfl, rfl, rfl, rfl⟩
  · have taken : (s.takeDue c).RunLaws := law.of_same ⟨rfl, rfl, rfl, rfl, rfl, rfl, rfl⟩
    by_cases waiting : c = .waitingAccessTaken
    · rw [waiting] at taken ⊢
      exact State.takeWaiting_keeps State.RunLaws (fun u p h => h.of_same ⟨rfl, rfl, rfl, rfl, rfl, rfl, rfl⟩)
        (fun u a h => State.carryOut_runLaws h a) taken
    · exact (eventEffect_runFollows taken.stopped waiting).runLaws taken

/-- A tick counts timers, begins the abort mark at the end of the cut bit, and may begin a line copy (R4, R77). -/
theorem State.tick_runFollows (s : State) : s.RunFollows s.tick := by
  obtain ⟨l, line, link, timers, tick, -, ticks, -⟩ := s.tick_cases
  refine .of_rest s.tick_settings (State.lengths_of_nodes (by rw [tick])) (by rw [tick]) (by rw [tick]) ?_
  rintro ⟨idle, unused, free, settled⟩
  rw [tick]
  refine ⟨idle, ?_, free, settled⟩
  show State.LineUnused { s with link := link, timers := timers }
  rcases ticks with ⟨same, cut⟩ | ⟨cut, rfl⟩
  · unfold State.LineUnused State.marking at *
    rw [same]
    simpa only [← Option.isNone_iff_eq_none, ← Option.not_isSome, cut] using unused
  · rcases unused with ⟨-, whole⟩ | ⟨-, off⟩
    · simp [whole] at cut
    · exact .inr ⟨rfl, off⟩

/-- Settles O55, by what a step can do: each command and the tick keep the laws of the run. -/
theorem stepKeepsRunLaws : Obligations.StepKeepsRunLaws := by
  unfold Obligations.StepKeepsRunLaws
  intro s t stopped budget settings next
  have law : s.RunLaws := ⟨stopped, budget, settings⟩
  have after : t.RunLaws := by
    rcases step_cases next with ⟨c, rest, -, run⟩ | ⟨c, rest, -, -, run⟩ | ⟨-, -, rfl⟩
    · exact exec_runLaws (s := { s with pending := rest }) (law.of_same ⟨rfl, rfl, rfl, rfl, rfl, rfl, rfl⟩) run
    · exact exec_runLaws law run
    · exact s.tick_runFollows.runLaws law
  exact ⟨after.stopped, after.budget, after.settings⟩

end Sys2Proof.Machine
end

section
/-! PROOFS. RUN, STOP and RESTART by the run state (R4, R39, R42, R74, R75, R141, R142, R145, R151). -/

namespace Sys2Proof.Machine

open Sys2Proof

/-! ### The run commands at the port -/

section
variable {s : State} (ready : s.Ready)
include ready

theorem exec_run : exec .run s = .next s.cmdRun.written := s.hostWrite_ready .rcmd 1 ready

theorem exec_stop : exec .stop s = .next s.cmdStop.written := s.hostWrite_ready .rcmd 2 ready

theorem exec_abort : exec .abort s = .next s.cmdAbort.written := s.hostWrite_ready .rcmd 3 ready

theorem exec_restart : exec .restart s = .next s.cmdRestart.written := s.hostWrite_ready .rcmd 4 ready

end

/-! ### RUN -/

/-- The direction into QUIET_WAIT reaches the link engine and its timers only (R4, R142). -/
theorem State.directQuiet_eq (s : State) :
    s.directQuiet = { s with link := s.directQuiet.link, timers := s.directQuiet.timers } := by
  unfold State.directQuiet
  split <;> rfl

theorem State.directQuiet_unmarked {s : State} (unmarked : s.marking = false) : s.directQuiet = s.startQuiet := by
  simp [State.directQuiet, unmarked]

theorem State.directQuiet_marking {s : State} (marking : s.marking = true) :
    s.directQuiet = s.directAfterMark true := by
  simp [State.directQuiet, marking]

theorem State.cmdRun_pass {s : State} (stopped : s.run.state = .stopped) (pass : s.validate s.sched.active = .pass) :
    s.cmdRun = (s.recordValidation .pass).startRun := by
  simp only [State.cmdRun, stopped, pass]

theorem State.cmdRun_fail {s : State} {t : TableId} {k : SlotIndex} {reason : FailReason}
    (stopped : s.run.state = .stopped) (fail : s.validate s.sched.active = .fail t k reason) :
    s.cmdRun = s.recordValidation (.fail t k reason) := by
  simp only [State.cmdRun, stopped, fail]

theorem State.cmdRun_refused {s : State} (running : s.run.state ≠ .stopped) : s.cmdRun = s.refuseRun := by
  unfold State.cmdRun
  split
  · next stopped => exact absurd stopped running
  all_goals rfl

/-- Settles O5: the line is directed as the mark in progress leaves it, and the rest is what RUN sets. -/
theorem runStartsSettling : Obligations.RunStartsSettling := by
  unfold Obligations.RunStartsSettling
  intro s ready stopped pass
  obtain ⟨u, begun⟩ : ∃ u : State, u = { s with
      sched := { s.sched with validation := .pass, pacing := 0 }
      run := { s.run with state := .settling }
      fault := { s.fault with latches := s.fault.latches ||| 0x0010#16 } } := ⟨_, rfl⟩
  have effect : s.cmdRun = u.directQuiet := by
    rw [State.cmdRun_pass stopped pass, begun]
    rfl
  have marking : u.marking = s.marking := by
    rw [begun]
    rfl
  refine ⟨_, exec_run ready, ?_, fun unmarked => ?_, fun marked => ?_⟩
  · rw [effect, u.directQuiet_eq, begun]
    rfl
  · rw [effect, State.directQuiet_unmarked (marking.trans unmarked)]
    exact ⟨rfl, rfl, rfl, rfl⟩
  · rw [effect, State.directQuiet_marking (marking.trans marked), begun]
    exact ⟨rfl, rfl⟩

/-- Settles O6: RUN by the validation in STOPPED, and refused in any other run state. -/
theorem runRefused : Obligations.RunRefused := by
  unfold Obligations.RunRefused
  refine fun s ready => ⟨fun t k reason stopped fail => ?_, fun running => ?_⟩
  · rw [exec_run ready, State.cmdRun_fail stopped fail]
    rfl
  · rw [exec_run ready, State.cmdRun_refused running]
    rfl

/-! ### STOPPED entered -/

/-- What an entry into STOPPED leaves, it leaves when the write that enters it has been taken (R171). -/
theorem State.EntersStopped.written {s t : State} (h : s.EntersStopped t) : s.EntersStopped t.written :=
  ⟨h.run, h.line, h.sched, h.publishTaken, h.publishKept, h.banks, h.fault, h.latched⟩

theorem State.directOff_enters (s : State) : s.EntersStopped s.directOff.enterStopped :=
  State.enterStopped_enters s _ (by simp) (by simp) (by simp) (by simp) s.directOff_line

/-! ### STOP -/

/-- Settles O7, by the run state: no effect, a run that ends with its cycle, or STOPPED entered. -/
theorem stopByRunState : Obligations.StopByRunState := by
  unfold Obligations.StopByRunState
  refine fun s ready => ⟨fun unaffected => ?_, fun cycling => ?_, fun waiting => ?_⟩
  · have same : s.cmdStop = s := by rcases unaffected with run | run | run <;> simp only [State.cmdStop, run]
    rw [exec_stop ready, same]
  · have drains : s.cmdStop = s.changeRun .draining := by rcases cycling with run | run <;> simp only [State.cmdStop, run]
    rw [exec_stop ready, drains]
    rfl
  · have stops : s.cmdStop = s.directOff.enterStopped := by
      rcases waiting with run | run <;> simp only [State.cmdStop, run]
    rw [exec_stop ready, stops]
    refine ⟨_, rfl, s.directOff_enters.written, rfl, ?_⟩
    simp [State.written]

/-! ### RESTART -/

/-- Settles O9: RESTART enters STOPPED from HALTED, and is refused in any other run state. -/
theorem restartByRunState : Obligations.RestartByRunState := by
  unfold Obligations.RestartByRunState
  refine fun s ready => ⟨fun halted => ?_, fun running => ?_⟩
  · have stops : s.cmdRestart = s.directOff.enterStopped := by simp only [State.cmdRestart, halted]
    rw [exec_restart ready, stops]
    refine ⟨_, rfl, s.directOff_enters.written, rfl, ?_⟩
    simp [State.written]
  · have refused : s.cmdRestart = s.refuseRun := by
      unfold State.cmdRestart
      split
      · next halted => exact absurd halted running
      all_goals rfl
    rw [exec_restart ready, refused]
    rfl

end Sys2Proof.Machine
end

section
/-! PROOFS. ABORT: the transactions aborted, the line cut, and STOPPED entered (R4, R42, R74, R75, R110, R114, R146). -/

namespace Sys2Proof.Machine

open Sys2Proof

/-! ### The transactions aborted -/

/-- What aborting the transactions leaves (R110, R114): no unsettled entry and no in-flight mark, the queue as it was, and the
unsettled entries settled ABORTED in push order, posted or HELD. -/
structure State.AbortsTransactions (s t : State) : Prop where
  settled : (∀ e ∈ t.cmd.outstanding, e.unsettled = false) ∧ t.cmd.inFlightMark = none ∧ t.cmd.queue = s.cmd.queue
  aborted : ∀ es, s.OutInOrder es (fun e => e.unsettled = true) →
    t.cmd.outstanding = (s.settledEach es .aborted).cmd.outstanding ∧ t.result = (s.settledEach es .aborted).result
  posted : ∃ l, t.result.responses = s.result.responses ++ l
    ∧ ∀ r ∈ l, r.status = .aborted ∧ r.code = 0 ∧ r.data = [] ∧ r.cycle = s.sched.cycleNumber

/-- The unsettled entries are settled one after another in push order (R110, R114). -/
theorem State.abortTransactions_settledEach {s : State} (law : s.PushLaw) {es : List OutEntry}
    (order : s.OutInOrder es fun e => e.unsettled = true) :
    s.abortTransactions = (s.settledEach es .aborted).clearMark := by
  have pushes : (s.unsettledPushes fun _ => true) = es.map (·.push) := State.unsettledPushes_eq law order (by simp)
  rw [State.abortTransactions, pushes, State.settleAll_eq .aborted law (fun e mem => (order.2 e).1 mem) order.1]

/-- The abort goes by the command engine, the result unit and the cycle number alone. -/
theorem State.abortTransactions_aborts {s u : State} (law : s.PushLaw) (cmd : u.cmd = s.cmd) (result : u.result = s.result)
    (number : u.sched.cycleNumber = s.sched.cycleNumber) : s.AbortsTransactions u.abortTransactions := by
  have before : u.PushLaw := by
    unfold State.PushLaw
    rwa [cmd]
  obtain ⟨settled, mark⟩ := State.abortTransactions_done before
  obtain ⟨out, res, changes⟩ := u.settleAll_changes (u.unsettledPushes fun _ => true) .aborted
  obtain ⟨l, more, posted⟩ := u.settleAll_posts (u.unsettledPushes fun _ => true) .aborted
  refine ⟨⟨settled, mark, ?_⟩, fun es order => ?_, l, ?_, fun r mem => ?_⟩
  · rw [State.abortTransactions, changes, ← cmd]
    rfl
  · have same : u.OutInOrder es fun e => e.unsettled = true := by
      unfold State.OutInOrder
      rwa [cmd]
    obtain ⟨outstanding, -, res, -⟩ := State.settledEach_congr es .aborted (by rw [cmd]) (by rw [cmd]) result number
    rw [State.abortTransactions_settledEach before same]
    exact ⟨outstanding, res⟩
  · rw [← result]
    exact more
  · obtain ⟨status, code, data, cycle, -⟩ := posted r mem
    exact ⟨status, code, data, cycle.trans number⟩

/-! ### The line cut -/

/-- An ABORT in a run. -/
def State.abortedRun (s : State) : State := s.cutLine.abortTransactions.enterStopped

theorem State.cmdAbort_inRun {s : State} (inRun : s.run.state.inRun = true) : s.cmdAbort = s.abortedRun := by
  rw [State.cmdAbort_eq, if_pos inRun]
  rfl

theorem State.cmdAbort_outside {s : State} (outside : s.run.state.inRun = false) : s.cmdAbort = s := by
  rw [State.cmdAbort_eq, if_neg (by simp [outside])]

/-- The line is left as the cut leaves it (R4, R146). -/
theorem State.abortedRun_line (s : State) : s.abortedRun.link = s.cutLine.link
    ∧ s.abortedRun.timers = { s.cutLine.timers with segment := none } := by
  obtain ⟨-, -, timers, -⟩ := s.cutLine.abortTransactions.enterStopped_spec
  exact ⟨by simp [State.abortedRun], timers.trans (by simp)⟩

theorem State.abortedRun_enters (s : State) : s.EntersStopped s.abortedRun :=
  State.enterStopped_enters s _ (by simp) (by simp) (by simp) (by simp) (s.cutLine_line.of_same (by simp) (by simp))

/-- Inside a bit, the bit goes on to its boundary, where the abort mark begins (R4). -/
theorem State.abortedRun_inside {s : State} (send : s.link.state = .send) (whole : s.timers.cut = none)
    (left : s.restOfBit ≠ 0) : s.abortedRun.link.state = .send ∧ s.abortedRun.timers.cut = some s.restOfBit
      ∧ s.abortedRun.timers.frame = s.timers.frame ∧ s.abortedRun.link.frame = s.link.frame
      ∧ s.abortedRun.transmitData = s.transmitData ∧ s.abortedRun.driverEnable = true := by
  obtain ⟨link, timers⟩ := s.abortedRun_line
  rw [s.cutLine_send send whole, s.startMark_line.2 left] at link timers
  have sends : s.abortedRun.link.state = .send := by rw [link, State.beginCut_link_state]
  have same : s.abortedRun.transmitData = s.beginCut.transmitData := State.transmitData_congr link (by rw [timers])
  exact ⟨sends, by rw [timers, State.beginCut_timers_cut], by rw [timers, State.beginCut_timers_frame],
    by rw [link, State.beginCut_link_frame], same.trans (State.beginCut_transmitData send),
    by simp only [State.driverEnable, sends]⟩

/-- On a bit boundary the abort mark begins in the event itself (R4, log entry 6). -/
theorem State.abortedRun_boundary {s : State} (send : s.link.state = .send) (whole : s.timers.cut = none)
    (left : s.restOfBit = 0) : s.abortedRun.link.state = .mark
      ∧ s.abortedRun.timers.mark = some (20 * Config.ticksPerBit s.link.frameRate) := by
  obtain ⟨link, timers⟩ := s.abortedRun_line
  rw [s.cutLine_send send whole, s.startMark_line.1 left] at link timers
  exact ⟨by rw [link, State.enterMark_link_state], by rw [timers, State.enterMark_timers_mark]; rfl⟩

/-- A frame that is being cut gets no second mark (R4). -/
theorem State.abortedRun_marking {s : State} (marking : s.marking = true) :
    s.abortedRun.link = { s.link with quietAfterMark := false } ∧ s.abortedRun.timers.cut = s.timers.cut
      ∧ s.abortedRun.timers.mark = s.timers.mark := by
  obtain ⟨link, timers⟩ := s.abortedRun_line
  rw [s.cutLine_marking marking] at link timers
  exact ⟨link, by rw [timers]; rfl, by rw [timers]; rfl⟩

/-- With no frame on the line the link engine enters LINK_OFF (R146). -/
theorem State.abortedRun_off {s : State} (send : s.link.state ≠ .send) (mark : s.link.state ≠ .mark) :
    s.abortedRun.link.state = .linkOff := by
  obtain ⟨link, -⟩ := s.abortedRun_line
  rw [link, s.cutLine_off send mark, State.linkOff_link_state]

/-- The transactions are aborted as they stand at the write (R114). -/
theorem State.abortedRun_aborts {s : State} (law : s.PushLaw) : s.AbortsTransactions s.abortedRun := by
  obtain ⟨settled, aborted, posted⟩ :=
    State.abortTransactions_aborts (s := s) (u := s.cutLine) law (by simp) (by simp) (by simp)
  have cmd : s.abortedRun.cmd = s.cutLine.abortTransactions.cmd := by simp [State.abortedRun]
  have result : s.abortedRun.result = s.cutLine.abortTransactions.result := by simp [State.abortedRun]
  rw [← cmd] at settled aborted
  rw [← result] at aborted posted
  exact ⟨settled, aborted, posted⟩

/-- Settles O8, by the run state: no effect, or the line cut, the transactions aborted and STOPPED entered. -/
theorem abortByRunState : Obligations.AbortByRunState := by
  unfold Obligations.AbortByRunState
  refine fun s ready => ⟨fun outside => ?_, fun inRun law => ?_⟩
  · rw [exec_abort ready, State.cmdAbort_outside outside]
  · obtain ⟨⟨settled, mark, queue⟩, aborted, posted⟩ := State.abortedRun_aborts law
    rw [exec_abort ready, State.cmdAbort_inRun inRun]
    exact ⟨_, rfl, s.abortedRun_enters.written, rfl, by simp [State.written, State.abortedRun], State.abortedRun_inside,
      State.abortedRun_boundary, State.abortedRun_marking, State.abortedRun_off, queue, mark, settled, aborted, posted⟩

end Sys2Proof.Machine
end

section
/-! PROOFS. Line quiet, activity reports and link faults by the run state (R42, R68, R74, R75, R115, R143, R147 to R150). -/

namespace Sys2Proof.Machine

open Sys2Proof

section
variable {s : State} (out : s.inReset = false)
include out

theorem exec_lineQuiet : exec .lineQuiet s = .next (s.takeDue .lineQuiet).takeLineQuiet := by
  simp [exec, execLineQuiet, State.event_ready, out]

theorem exec_activityReport : exec .activityReport s = .next (s.takeDue .activityReport).takeActivityReport := by
  simp [exec, execActivityReport, State.event_ready, out]

theorem exec_linkFault (kind : LinkFaultKind) :
    exec (.linkFault kind) s = .next ((s.takeDue (.linkFault kind)).takeLinkFault kind) := by
  simp [exec, execLinkFault, State.event_ready, out]

end

/-! ### Line quiet -/

/-- RUNCHG is a cause that no cycle start latches (R154). -/
theorem State.changeRun_bit (s : State) (r : RunState) (k : Nat) :
    (s.changeRun r).fault.latches.getLsbD k = (s.fault.latches.getLsbD k || k == 4) := by
  have bit := causeBit 4 (by omega) true k
  rw [State.changeRun_fault_latches, BitVec.getLsbD_or]
  exact congrArg _ (by simpa using bit)

/-- A cycle starts in a run state just entered (R143, R149). -/
theorem State.changeRun_cycleStart (s : State) (c : Instr) (r : RunState) :
    s.StartsCycle ((s.takeDue c).changeRun r).cycleStart
      ∧ ((s.takeDue c).changeRun r).cycleStart.run = { s.run with state := r }
      ∧ ((s.takeDue c).changeRun r).cycleStart.fault.latches &&& 0x0010#16 = 0x0010#16 := by
  refine ⟨State.cycleStart_starts s _ rfl ⟨rfl, rfl, rfl, rfl⟩ (fun k small => ?_) ⟨rfl, rfl, rfl⟩ rfl, by simp, ?_⟩
  · rw [State.changeRun_bit]
    simp [show k ≠ 4 by omega]
  · refine latched_of_getLsbD (i := 4) (by omega) ?_
    rw [State.cycleStart_latches, State.changeRun_bit]
    simp

section
variable {s : State} (quiet : s.link.state = .quietWait ∧ s.link.quietRunning = true)
include quiet

theorem State.takeLineQuiet_settling (run : s.run.state = .settling) :
    s.takeLineQuiet = (s.changeRun .running).cycleStart := by
  simp only [State.takeLineQuiet, if_pos quiet, run]

theorem State.takeLineQuiet_recovery (run : s.run.state = .recovery) :
    s.takeLineQuiet = (s.changeRun .resuming).cycleStart := by
  simp only [State.takeLineQuiet, if_pos quiet, run]

end

/-! ### HALTED entered -/

theorem nodeAddresses_nodup : nodeAddresses.Nodup :=
  nodeAddresses_rising.imp fun below same => absurd (congrArg BitVec.toNat same) (Nat.ne_of_lt below)

theorem NodeState.isLive_iff {st : NodeState} : st.isLive = true ↔ st = .online ∨ st = .lagging := by
  cases st <;> simp [NodeState.isLive]

/-- The end of the run in HALTED leaves what is due of fault reports and node-down notices (R155, R156). -/
theorem State.haltRun_due (s : State) :
    s.haltRun.due = (s.due.filter fun c => !isLineTimer c).filter fun c => !isRunReport c := by
  simp [State.haltRun]

theorem State.enterHalted_line (s : State) (code : FaultCode) (detail : Word) :
    (s.enterHalted code detail).LineUnused := by
  refine s.directOff_line.of_same (by simp [State.enterHalted, State.haltRun]) ?_
  simp only [State.enterHalted, State.latch_timers, State.raise_timers, State.haltNodes_frame,
    State.abortTransactions_frame]
  rfl

theorem State.isLive_zero (s : State) : s.isLive 0 = false := by
  simp only [State.isLive, State.nodeState, State.node?_zero]
  rfl

theorem State.isLive_listed {s : State} {n : NodeAddr} : n ∈ nodeAddresses ∧ s.isLive n = true ↔ s.isLive n = true := by
  refine and_iff_right_of_imp fun alive => mem_nodeAddresses.2 ?_
  rintro rfl
  rw [State.isLive_zero] at alive
  cases alive

/-- The nodes at the entry into HALTED: each live one goes to OFFLINE, joins the change set and has its node-down notice
handed, and the halt fault is handed behind them (R68, R150). -/
theorem State.enterHalted_nodeTable (s : State) (code : FaultCode) (detail : Word) :
    (∀ n e, s.node? n = some e → (s.enterHalted code detail).node? n
      = some (if e.state = .online ∨ e.state = .lagging then { e with state := .offline, missCount := 0 } else e))
    ∧ (s.enterHalted code detail).due = s.haltRun.due ++ (nodeAddresses.filter s.isLive).map .nodeDownNotice
      ++ [.faultReport { code := code, node := 0, detail := detail }]
    ∧ ∀ n, NodeSet.has (s.enterHalted code detail).nodes.changeSet n = true ↔
      NodeSet.has s.nodes.changeSet n = true ∨ s.isLive n = true := by
  obtain ⟨u, aborted⟩ : ∃ u, u = s.haltRun.abortTransactions := ⟨_, rfl⟩
  have nodes : u.nodes = s.nodes := by simp [aborted]
  have entry (n : NodeAddr) : u.node? n = s.node? n := State.node?_congr (by rw [nodes]) n
  have live : u.isLive = s.isLive := funext fun n => State.isLive_congr (entry n)
  have halted : s.enterHalted code detail = ((u.haltNodes nodeAddresses).raise code 0 detail).latch .runchg := by
    rw [aborted]
    rfl
  obtain ⟨entries, due, changeSet⟩ := u.haltNodes_spec nodeAddresses nodeAddresses_nodup
    fun n mem => mem_nodeAddresses.1 mem
  rw [live] at entries due changeSet
  generalize u.haltNodes nodeAddresses = v at halted entries due changeSet
  refine ⟨fun n e h => ?_, ?_, fun n => ?_⟩
  · have same : (s.enterHalted code detail).node? n = v.node? n := State.node?_congr (by rw [halted]; rfl) n
    rw [same, entries n e ((entry n).trans h)]
    simp only [mem_nodeAddresses, State.node?_ne_zero h, State.isLive_of_node? h, NodeState.isLive_iff, ne_eq,
      not_false_eq_true, true_and]
  · rw [halted, State.latch_due, State.raise_due, due, aborted]
    simp
  · have same : (s.enterHalted code detail).nodes = v.nodes := by rw [halted]; rfl
    rw [same, changeSet, nodes, Bool.or_eq_true, Bool.and_eq_true, decide_eq_true_eq, State.isLive_listed]

/-- After the entry into HALTED no node is live (R68). -/
theorem State.enterHalted_noneLive (s : State) (code : FaultCode) (detail : Word) (n : NodeAddr) :
    (s.enterHalted code detail).isLive n = false := by
  obtain ⟨entries, -⟩ := s.enterHalted_nodeTable code detail
  by_cases ne : n = 0
  · rw [ne, State.isLive_zero]
  · obtain ⟨e, h⟩ := Option.isSome_iff_exists.1 ((State.node?_isSome (s := s)).2 ne)
    rw [State.isLive_of_node? (entries n e h)]
    split
    · rfl
    · next dead => exact Bool.eq_false_iff.2 (NodeState.isLive_iff.not.2 dead)

theorem State.enterHalted_fault (s : State) (code : FaultCode) (detail : Word) :
    (s.enterHalted code detail).fault = { s.fault with latches := s.fault.latches ||| 0x0010#16 } := by
  obtain ⟨u, halted⟩ : ∃ u, u = s.haltRun.abortTransactions.haltNodes nodeAddresses := ⟨_, rfl⟩
  have kept : u.fault = s.fault := by simp [halted]
  rw [State.enterHalted, ← halted, ← kept]
  rfl

/-- What the entry into HALTED leaves, from a state that has the blocks of an earlier one but for the link engine and the run
controller, and the same fault reports and node-down notices due (R68, R115, R150). -/
theorem State.enterHalted_halts {s u : State} (law : s.PushLaw) (sched : u.sched = s.sched) (nodes : u.nodes = s.nodes)
    (cmd : u.cmd = s.cmd) (result : u.result = s.result) (fault : u.fault = s.fault) (image : u.image = s.image)
    (reports : ∀ r, Instr.faultReport r ∈ u.due ↔ Instr.faultReport r ∈ s.due)
    (notices : ∀ n, Instr.nodeDownNotice n ∈ u.due ↔ Instr.nodeDownNotice n ∈ s.due) (code : FaultCode) (detail : Word) :
    s.EntersHalted (u.enterHalted code detail) code detail := by
  obtain ⟨entries, due, changeSet⟩ := u.enterHalted_nodeTable code detail
  have entry (n : NodeAddr) : u.node? n = s.node? n := State.node?_congr (by rw [nodes]) n
  have live (n : NodeAddr) : u.isLive n = s.isLive n := State.isLive_congr (entry n)
  have notified (n : NodeAddr) : Instr.nodeDownNotice n ∈ (nodeAddresses.filter u.isLive).map Instr.nodeDownNotice
      ↔ s.isLive n = true := by
    rw [List.mem_map_of_injective fun a b same => Instr.nodeDownNotice.inj same, List.mem_filter, State.isLive_listed, live]
  have transactions : s.AbortsTransactions (u.enterHalted code detail) := by
    obtain ⟨settled, aborted, posted⟩ := State.abortTransactions_aborts (u := u.haltRun) law (by simp [cmd])
      (by simp [result]) (by simp [sched])
    have cmd : (u.enterHalted code detail).cmd = u.haltRun.abortTransactions.cmd := by simp [State.enterHalted]
    have result : (u.enterHalted code detail).result = u.haltRun.abortTransactions.result := by simp [State.enterHalted]
    rw [← cmd] at settled aborted
    rw [← result] at aborted posted
    exact ⟨settled, aborted, posted⟩
  exact {
    halted := by simp [State.enterHalted_run]
    idle := by rw [State.enterHalted_sched, sched]
    line := u.enterHalted_line code detail
    settled := transactions.settled
    aborted := transactions.aborted
    nodes := fun n e h => entries n e ((entry n).trans h)
    changed := ⟨by simp [nodes], fun n => by rw [changeSet, live, nodes]⟩
    noneLive := u.enterHalted_noneLive code detail
    reported := fun r => by simp [due, State.haltRun_due, reports, isLineTimer, isRunReport]
    noticed := fun n => by
      simp only [due, List.mem_append, notified]
      simp [State.haltRun_due, notices, isLineTimer, isRunReport]
    fault := by rw [State.enterHalted_fault, fault]
    image := by simp [image] }

/-- A report to the run controller that is taken leaves the fault reports and the node-down notices due. -/
theorem State.takeDue_kept (s : State) {c : Instr} (report : isRunReport c = true) :
    (∀ r, Instr.faultReport r ∈ (s.takeDue c).due ↔ Instr.faultReport r ∈ s.due)
      ∧ ∀ n, Instr.nodeDownNotice n ∈ (s.takeDue c).due ↔ Instr.nodeDownNotice n ∈ s.due := by
  refine ⟨fun r => List.mem_erase_of_ne ?_, fun n => List.mem_erase_of_ne ?_⟩
  · rintro rfl
    cases report
  · rintro rfl
    cases report

/-- HALTED entered at a report, with the restart counter at a value (R148, R150). -/
theorem State.enterHalted_afterReport (s : State) (law : s.PushLaw) {c : Instr} (report : isRunReport c = true)
    (restarts : BitVec 4) (code : FaultCode) (detail : Word) :
    s.EntersHalted (((s.takeDue c).setRestarts restarts).enterHalted code detail) code detail := by
  obtain ⟨reports, notices⟩ := s.takeDue_kept report
  exact State.enterHalted_halts (u := (s.takeDue c).setRestarts restarts) law rfl rfl rfl rfl rfl rfl reports notices code detail

/-! ### Activity reports -/

section
variable {s : State}

theorem State.takeActivityReport_outside (run : s.run.state ≠ .recovery) : s.takeActivityReport = s := by
  unfold State.takeActivityReport
  split
  · next recovery => exact absurd recovery run
  all_goals rfl

variable (run : s.run.state = .recovery)
include run

/-- The restart counter stays below the limit of nine (R148). -/
theorem State.takeActivityReport_counts (below : s.run.restarts.toNat < 8) :
    s.takeActivityReport = s.setRestarts (s.run.restarts + 1) := by
  have counted : (s.run.restarts + 1).toNat < Config.restartLimit := by
    rw [BitVec.toNat_add]
    exact lt_of_le_of_lt (Nat.mod_le _ _) (Nat.succ_lt_succ below)
  simp only [State.takeActivityReport, run]
  exact if_neg (not_le.2 counted)

/-- The ninth report halts the part (R148). -/
theorem State.takeActivityReport_halts (last : s.run.restarts = 8) :
    s.takeActivityReport = (s.setRestarts 9).enterHalted .xRecovery 9 := by
  have counted : s.run.restarts + 1 = 9 := by rw [last]; rfl
  simp only [State.takeActivityReport, run, counted]
  exact if_pos (show Config.restartLimit ≤ (9 : BitVec 4).toNat by decide)

end

/-! ### Link faults -/

section
variable {s : State} (kind : LinkFaultKind)

theorem State.takeLinkFault_running (run : s.run.state = .running) : s.takeLinkFault kind
    = ((s.schedIdle.dropLineTimers.changeRun .recovery).setRestarts 0).directQuiet := by
  simp only [State.takeLinkFault, run]

theorem State.takeLinkFault_draining (run : s.run.state = .draining) :
    s.takeLinkFault kind = s.directOff.enterStopped := by
  simp only [State.takeLinkFault, run]

theorem State.takeLinkFault_resuming (run : s.run.state = .resuming) :
    s.takeLinkFault kind = s.enterHalted .xResume (linkFaultNumber kind) := by
  simp only [State.takeLinkFault, run]

theorem State.takeLinkFault_ignored (run : s.run.state = .stopped ∨ s.run.state = .settling ∨ s.run.state = .recovery
    ∨ s.run.state = .halted) : s.takeLinkFault kind = s := by
  rcases run with run | run | run | run <;> simp only [State.takeLinkFault, run]

end

/-- Settles O48, by the event and the run state in which it is taken. -/
theorem lineEventsMoveTheRun : Obligations.LineEventsMoveTheRun := by
  unfold Obligations.LineEventsMoveTheRun
  intro s out
  refine ⟨fun waits running => ⟨fun run => ?_, fun run => ?_⟩, fun run => ?_, fun run below => ?_, fun run last law => ?_,
    fun kind => ⟨fun run => ?_, fun run => ?_, fun run law => ?_, fun run => ?_⟩⟩
  · rw [exec_lineQuiet out, State.takeLineQuiet_settling (by exact ⟨waits, running⟩) (by exact run)]
    exact ⟨_, rfl, s.changeRun_cycleStart .lineQuiet .running⟩
  · rw [exec_lineQuiet out, State.takeLineQuiet_recovery (by exact ⟨waits, running⟩) (by exact run)]
    exact ⟨_, rfl, s.changeRun_cycleStart .lineQuiet .resuming⟩
  · rw [exec_activityReport out, State.takeActivityReport_outside (by exact run)]
    rfl
  · rw [exec_activityReport out, State.takeActivityReport_counts (by exact run) (by exact below)]
    rfl
  · rw [exec_activityReport out, State.takeActivityReport_halts (by exact run) (by exact last)]
    refine ⟨_, rfl, ?_, by rw [State.enterHalted_run]; rfl⟩
    exact s.enterHalted_afterReport law rfl 9 .xRecovery 9
  · rw [exec_linkFault out, State.takeLinkFault_running kind (by exact run)]
    refine ⟨_, rfl, by simp [State.setRestarts, State.changeRun, State.latch], by simp, fun unmarked => ?_, ?_, ?_⟩
    · rw [State.directQuiet_unmarked (by exact unmarked)]
      exact ⟨rfl, rfl, rfl⟩
    · simp only [State.directQuiet_frame]
      rfl
    · simp
  · rw [exec_linkFault out, State.takeLinkFault_draining kind (by exact run)]
    refine ⟨_, rfl, ?_, by simp, by simp, by simp⟩
    exact State.enterStopped_enters s _ (by simp) (by simp) (by simp) (by simp) (State.directOff_line _)
  · rw [exec_linkFault out, State.takeLinkFault_resuming kind (by exact run)]
    have halts := s.enterHalted_afterReport law (c := .linkFault kind) rfl s.run.restarts .xResume (linkFaultNumber kind)
    exact ⟨_, rfl, by cases kind <;> exact halts, by rw [State.enterHalted_run]; rfl⟩
  · rw [exec_linkFault out, State.takeLinkFault_ignored kind (by exact run)]
    rfl

end Sys2Proof.Machine
end

section
/-! PROOFS. Every step keeps what the port latches, the values of a part held in reset, and that only event causes are
latched (R166, R168, R171, R177, R180). -/

namespace Sys2Proof.Machine

open Sys2Proof

/-! ### The host bus port -/

/-- A port with no access latched. -/
theorem State.portLaw_of_empty {s : State} (empty : s.port.first = none) : s.PortLaw := by
  intro a first
  rw [empty] at first
  cases first

/-- Once the waiting accesses are taken none is latched (R177, R178). -/
theorem State.takeWaiting_port (s : State) : s.takeWaiting = s ∨ s.takeWaiting.port.first = none := by
  have after {released : Bool} {p : Port} (empty : p.first = none) : (portAfter released p).first = none := by
    cases released
    · exact empty
    · rfl
  have latched (u : State) (a : Option Access) (empty : u.port.first = none) :
      (u.takeLatched a).port.first = none := by
    cases a with
    | none => exact empty
    | some a => rfl
  unfold State.takeWaiting
  split
  · refine .inr ?_
    dsimp only
    split
    · show Port.first (if s.port.nullHeld then _ else _) = none
      split
      · rfl
      · exact after (latched _ _ rfl)
    · exact after rfl
  all_goals exact .inl rfl

/-- No event but the taking of a waiting access reaches the port. -/
theorem eventEffect_port (s : State) {c : Instr} (other : c ≠ .waitingAccessTaken) : (eventEffect c s).port = s.port := by
  cases c with
  | waitingAccessTaken => exact absurd rfl other
  | _ => simp [eventEffect]

theorem exec_portLaw {c : Instr} {s t : State} (law : s.PortLaw) (next : exec c s = .next t) : t.PortLaw := by
  rcases exec_cases next with rfl | ⟨p, rfl, follows⟩ | ⟨-, level, rfl⟩ | ⟨a, -, rfl⟩ | ⟨-, rfl⟩ | ⟨-, rfl⟩ | ⟨-, rfl⟩
  · exact law
  · exact fun a first => (follows a first).elim (law a) id
  · exact law
  · exact State.portLaw_of_empty rfl
  · exact State.portLaw_of_empty rfl
  · exact State.portLaw_of_empty rfl
  · have taken : (s.takeDue c).PortLaw := law
    by_cases waiting : c = .waitingAccessTaken
    · subst waiting
      rcases (s.takeDue .waitingAccessTaken).takeWaiting_port with same | empty
      · show State.PortLaw (State.takeWaiting _)
        rw [same]
        exact taken
      · exact State.portLaw_of_empty empty
    · unfold State.PortLaw
      rw [eventEffect_port _ waiting]
      exact taken

/-! ### The part in reset -/

/-- The reset pin is the host's: no event moves it. -/
theorem eventEffect_inReset (s : State) (c : Instr) : (eventEffect c s).inReset = s.inReset := by
  cases c with
  | waitingAccessTaken =>
    exact State.takeWaiting_keeps (fun u => u.inReset = s.inReset) (fun _ _ h => h)
      (fun u a h => (by simp : (u.carryOut a).1.inReset = u.inReset).trans h) rfl
  | _ => simp [eventEffect]

theorem State.resetLaw_of_out {s : State} (out : s.inReset = false) : s.ResetLaw := by
  intro inReset
  rw [out] at inReset
  cases inReset

/-- The reset pin puts every block into its hardware-reset state (R180). -/
theorem State.assertReset_resetLaw (s : State) : s.assertReset.ResetLaw :=
  fun _ => ⟨rfl, rfl, rfl, rfl, rfl, rfl, rfl, rfl, rfl, rfl⟩

/-- In reset the level of the line is followed, and no block sees it (R180). -/
theorem State.setRxd_resetLaw {s : State} (law : s.ResetLaw) (level : Bool) : (s.setRxd level).ResetLaw := by
  intro inReset
  obtain ⟨link, sched, nodes, image, cmd, result, run, fault, timers, due⟩ := law inReset
  refine ⟨?_, sched, nodes, image, cmd, result, run, fault, ?_, due⟩
  · rw [State.setRxd_link, link]
  · rw [State.setRxd_timers, timers]
    rfl

theorem exec_resetLaw {c : Instr} {s t : State} (law : s.ResetLaw) (next : exec c s = .next t) : t.ResetLaw := by
  rcases exec_cases next with rfl | ⟨p, rfl, -⟩ | ⟨-, level, rfl⟩ | ⟨a, out, rfl⟩ | ⟨-, rfl⟩ | ⟨-, rfl⟩ | ⟨takes, rfl⟩
  · exact law
  · exact law
  · exact State.setRxd_resetLaw law level
  · have kept : (s.carryOut a).1.inReset = s.inReset := by simp
    exact State.resetLaw_of_out (kept.trans out)
  · exact s.assertReset_resetLaw
  · exact State.resetLaw_of_out rfl
  · exact State.resetLaw_of_out ((eventEffect_inReset _ c).trans takes.ready)

/-! ### The latches outside the event causes -/

/-- The latches at positions that hold no event cause (section 10.7). -/
def State.strayLatches (s : State) : Word := s.fault.latches &&& 0xFFE0#16

theorem State.strayLatches_eq {s t : State} (same : t.fault.latches = s.fault.latches) :
    t.strayLatches = s.strayLatches := by
  rw [State.strayLatches, same, State.strayLatches]

theorem State.LatchLaw.of_strayLatches {s t : State} (law : s.LatchLaw) (same : t.strayLatches = s.strayLatches) :
    t.LatchLaw := same.trans law

theorem State.LatchLaw.of_latches {s t : State} (law : s.LatchLaw) (same : t.fault.latches = s.fault.latches) :
    t.LatchLaw := law.of_strayLatches (State.strayLatches_eq same)

theorem State.latchLaw_of_reset {s : State} (fault : s.fault = FaultUnit.reset) : s.LatchLaw := by
  unfold State.LatchLaw
  rw [fault]
  rfl

/-- An event cause lies at one of the five positions (R166). -/
@[simp] theorem State.latch_strayLatches (s : State) (c : EventCause) : (s.latch c).strayLatches = s.strayLatches := by
  have place : c.mask &&& 0xFFE0#16 = 0#16 := by cases c <;> decide
  rw [State.strayLatches, State.latch_fault_latches, BitVec.and_or_distrib_right, place, BitVec.or_zero, State.strayLatches]

@[simp] theorem State.directQuiet_strayLatches (s : State) : s.directQuiet.strayLatches = s.strayLatches :=
  State.strayLatches_eq (by simp)

@[simp] theorem State.changeRun_strayLatches (s : State) (r : RunState) :
    (s.changeRun r).strayLatches = s.strayLatches := State.latch_strayLatches _ .runchg

@[simp] theorem State.takePendingSwitch_strayLatches (s : State) :
    s.takePendingSwitch.strayLatches = s.strayLatches := by
  unfold State.takePendingSwitch
  split
  · rfl
  · exact State.latch_strayLatches _ .switch

@[simp] theorem State.takePendingPublish_strayLatches (s : State) :
    s.takePendingPublish.strayLatches = s.strayLatches := by
  unfold State.takePendingPublish
  split
  · exact State.latch_strayLatches _ .publ
  · rfl

@[simp] theorem State.cycleEndSwap_strayLatches (s : State) : s.cycleEndSwap.strayLatches = s.strayLatches := by
  unfold State.cycleEndSwap
  split
  · exact State.latch_strayLatches _ .snap
  · rfl

/-! ### The latches of a run -/

@[simp] theorem State.enterStopped_strayLatches (s : State) : s.enterStopped.strayLatches = s.strayLatches := by
  unfold State.enterStopped
  rw [State.takePendingPublish_strayLatches, State.takePendingSwitch_strayLatches, State.changeRun_strayLatches]
  rfl

/-- The line ended in one way or another, and STOPPED entered (R141). -/
theorem State.strayLatches_enterStopped {s u : State} (same : u.fault.latches = s.fault.latches) :
    u.enterStopped.strayLatches = s.strayLatches :=
  u.enterStopped_strayLatches.trans (State.strayLatches_eq same)

@[simp] theorem State.enterHalted_strayLatches (s : State) (code : FaultCode) (detail : Word) :
    (s.enterHalted code detail).strayLatches = s.strayLatches := by
  unfold State.enterHalted
  rw [State.latch_strayLatches]
  exact State.strayLatches_eq (by simp)

@[simp] theorem State.cycleStart_strayLatches (s : State) : s.cycleStart.strayLatches = s.strayLatches := by
  unfold State.cycleStart
  refine (State.latch_strayLatches _ .cyc).trans ?_
  refine (State.strayLatches_eq (congrArg FaultUnit.latches (State.startFrame_fault _ _ _))).trans ?_
  exact (State.takePendingPublish_strayLatches _).trans s.takePendingSwitch_strayLatches

theorem State.cycleEnd_strayLatches (s : State) : s.cycleEnd.strayLatches = s.strayLatches := by
  have swap : s.schedIdle.cycleEndSwap.strayLatches = s.strayLatches := State.cycleEndSwap_strayLatches _
  rcases s.cycleEnd_cases with ⟨-, e⟩ | ⟨-, e⟩ | ⟨-, e⟩ | ⟨-, e⟩ <;> rw [e]
  · rw [State.cycleStart_strayLatches, swap]
  · rw [State.cycleStart_strayLatches, State.changeRun_strayLatches, swap]
  · exact (State.strayLatches_enterStopped (by simp)).trans swap
  · exact (State.strayLatches_eq (by simp)).trans swap

theorem State.slotEnd_strayLatches (s : State) : s.slotEnd.strayLatches = s.strayLatches := by
  unfold State.slotEnd State.afterSlot
  split
  · split
    · exact State.strayLatches_eq (by simp)
    · exact (State.cycleEnd_strayLatches _).trans (State.strayLatches_eq (by simp))
  all_goals rfl

theorem State.takeLineQuiet_strayLatches (s : State) : s.takeLineQuiet.strayLatches = s.strayLatches := by
  unfold State.takeLineQuiet
  split
  · split
    case h_1 | h_2 => rw [State.cycleStart_strayLatches, State.changeRun_strayLatches]
    all_goals rfl
  · rfl

theorem State.takeActivityReport_strayLatches (s : State) : s.takeActivityReport.strayLatches = s.strayLatches := by
  unfold State.takeActivityReport
  split
  · dsimp only
    split
    · exact State.enterHalted_strayLatches _ _ _
    · rfl
  all_goals rfl

theorem State.takeLinkFault_strayLatches (s : State) (kind : LinkFaultKind) :
    (s.takeLinkFault kind).strayLatches = s.strayLatches := by
  unfold State.takeLinkFault
  split
  case h_1 =>
    rw [State.directQuiet_strayLatches]
    exact State.changeRun_strayLatches _ .recovery
  case h_2 => exact State.strayLatches_enterStopped (by simp)
  case h_3 => exact s.enterHalted_strayLatches _ _
  all_goals rfl

theorem State.copyLine_strayLatches (s : State) : s.copyLine.strayLatches = s.strayLatches := by
  cases next : s.image.nextLine with
  | none =>
    rw [State.copyLine_none next]
    rfl
  | some line =>
    obtain ⟨_ | _, k⟩ := line
    · rw [State.copyLine_output next, State.publishAfterLine]
      split
      · exact State.takePendingPublish_strayLatches _
      · rfl
    · rw [State.copyLine_input next]
      rfl

theorem State.lineCopy_strayLatches (s : State) : s.lineCopy.strayLatches = s.strayLatches := by
  rcases s.lineCopy_cases with e | e | e <;> rw [e]
  · exact s.copyLine_strayLatches
  · exact s.copyLine_strayLatches

/-- Every event latches an event cause or none (R166). -/
theorem eventEffect_strayLatches (s : State) {c : Instr} (other : c ≠ .waitingAccessTaken) :
    (eventEffect c s).strayLatches = s.strayLatches := by
  cases c with
  | waitingAccessTaken => exact absurd rfl other
  | slotEnd => exact s.slotEnd_strayLatches
  | lineQuiet => exact s.takeLineQuiet_strayLatches
  | activityReport => exact s.takeActivityReport_strayLatches
  | linkFault kind => exact s.takeLinkFault_strayLatches kind
  | lineCopy => exact s.lineCopy_strayLatches
  | _ => exact State.strayLatches_eq (by simp [eventEffect])

/-! ### The latches at a register write -/

theorem State.cmdRun_strayLatches (s : State) : s.cmdRun.strayLatches = s.strayLatches := by
  unfold State.cmdRun
  split
  · dsimp only
    split
    · rw [State.startRun, State.directQuiet_strayLatches, State.changeRun_strayLatches]
      exact State.strayLatches_eq (by simp)
    all_goals exact State.strayLatches_eq (by simp)
  all_goals rfl

theorem State.cmdStop_strayLatches (s : State) : s.cmdStop.strayLatches = s.strayLatches := by
  unfold State.cmdStop
  split
  case h_1 | h_2 => exact State.strayLatches_enterStopped (by simp)
  case h_3 | h_4 => exact s.changeRun_strayLatches _
  all_goals rfl

theorem State.cmdAbort_strayLatches (s : State) : s.cmdAbort.strayLatches = s.strayLatches := by
  rw [State.cmdAbort_eq]
  split
  · exact State.strayLatches_enterStopped (by simp)
  · rfl

theorem State.cmdRestart_strayLatches (s : State) : s.cmdRestart.strayLatches = s.strayLatches := by
  unfold State.cmdRestart
  split
  case h_1 => exact State.strayLatches_enterStopped (by simp)
  all_goals rfl

theorem State.writeRcmd_latchLaw {s : State} (law : s.LatchLaw) (v : Word) : (s.writeRcmd v).LatchLaw := by
  unfold State.writeRcmd
  split
  · exact law.of_strayLatches s.cmdRun_strayLatches
  · exact law.of_strayLatches s.cmdStop_strayLatches
  · exact law.of_strayLatches s.cmdAbort_strayLatches
  · exact law.of_strayLatches s.cmdRestart_strayLatches
  · exact State.latchLaw_of_reset (by simp)
  · exact law

theorem State.requestSwitch_strayLatches (s : State) (x : TableId) : (s.requestSwitch x).strayLatches = s.strayLatches := by
  unfold State.requestSwitch
  dsimp only
  split
  · rfl
  · split
    · have recorded : (s.recordValidation (s.validate x)).strayLatches = s.strayLatches :=
        State.strayLatches_eq (by simp)
      split
      · exact (State.latch_strayLatches _ .switch).trans recorded
      · exact recorded
    all_goals exact State.strayLatches_eq (by simp)

theorem State.writeSctl_strayLatches (s : State) (v : Word) : (s.writeSctl v).strayLatches = s.strayLatches := by
  unfold State.writeSctl
  split
  · exact s.requestSwitch_strayLatches _
  all_goals rfl

theorem State.writeIctl_strayLatches (s : State) (v : Word) : (s.writeIctl v).strayLatches = s.strayLatches := by
  have request (u : State) : u.requestPublish.strayLatches = u.strayLatches := by
    unfold State.requestPublish
    dsimp only
    split
    · rfl
    · split
      · exact State.takePendingPublish_strayLatches _
      · rfl
  unfold State.writeIctl
  dsimp only
  split
  · exact request _
  · rfl

theorem State.writeNode_strayLatches (s : State) (r : NodeWriteReg) (v : Word) :
    (s.writeNode r v).strayLatches = s.strayLatches := by
  unfold State.writeNode
  split
  · rfl
  · cases r <;> exact State.strayLatches_eq (by simp)

theorem State.writeSetting_strayLatches (s : State) (offset : Word) {f : State → State} (fault : (f s).fault = s.fault) :
    (s.writeSetting offset f).strayLatches = s.strayLatches := by
  unfold State.writeSetting
  split
  · exact State.strayLatches_eq (by rw [fault])
  · rfl

/-- A write to IPEND takes latches away, and leaves none at another position (R166). -/
theorem State.clearLatches_latchLaw {s : State} (law : s.LatchLaw) (v : Word) : (s.clearLatches v).LatchLaw := by
  unfold State.LatchLaw at *
  show s.fault.latches &&& ~~~v &&& 0xFFE0#16 = 0
  rw [BitVec.and_assoc, BitVec.and_comm (~~~v), ← BitVec.and_assoc, law]
  exact BitVec.zero_and

theorem State.writeRegister_latchLaw {s : State} (law : s.LatchLaw) (r : WriteReg) (v : Word) :
    (s.writeRegister r v).LatchLaw := by
  cases r with
  | rcmd => exact State.writeRcmd_latchLaw law v
  | lset => exact law.of_strayLatches (s.writeSetting_strayLatches _ rfl)
  | cset => exact law.of_strayLatches (s.writeSetting_strayLatches _ rfl)
  | tset => exact law.of_strayLatches (s.writeSetting_strayLatches _ rfl)
  | sctl => exact law.of_strayLatches (s.writeSctl_strayLatches v)
  | node r => exact law.of_strayLatches (s.writeNode_strayLatches r v)
  | ictl => exact law.of_strayLatches (s.writeIctl_strayLatches v)
  | ipend => exact State.clearLatches_latchLaw law v
  | fflag half => cases half <;> exact law
  | _ =>
    refine law.of_latches ?_
    simp [State.writeRegister, State.writeSrule, State.writeSnodeb, State.writeSlen, State.storeEnables,
      State.emptyCapture]

theorem State.carryOut_latchLaw {s : State} (law : s.LatchLaw) (a : Access) : (s.carryOut a).1.LatchLaw := by
  rcases s.carryOut_cases a with e | ⟨-, o, e⟩ | ⟨-, r, v, e⟩ | ⟨-, e⟩ | ⟨-, e⟩ <;> rw [e]
  · exact law
  · exact law
  · exact State.writeRegister_latchLaw law r v
  · exact law.of_latches (by simp)
  · exact law.of_latches (by simp)

theorem exec_latchLaw {c : Instr} {s t : State} (law : s.LatchLaw) (next : exec c s = .next t) : t.LatchLaw := by
  rcases exec_cases next with rfl | ⟨p, rfl, -⟩ | ⟨-, level, rfl⟩ | ⟨a, -, rfl⟩ | ⟨-, rfl⟩ | ⟨-, rfl⟩ | ⟨-, rfl⟩
  · exact law
  · exact law
  · exact law
  · exact State.carryOut_latchLaw law a
  · exact State.latchLaw_of_reset rfl
  · exact law
  · have taken : (s.takeDue c).LatchLaw := law
    by_cases waiting : c = .waitingAccessTaken
    · subst waiting
      exact State.takeWaiting_keeps State.LatchLaw (fun _ _ h => h) (fun _ a h => State.carryOut_latchLaw h a) taken
    · exact taken.of_strayLatches (eventEffect_strayLatches _ waiting)

/-! ### The laws at a step -/

/-- What every command keeps and every tick keeps, every step keeps, if it asks nothing of the commands that wait. -/
theorem step_keeps {P : State → Prop} (queue : ∀ u rest, P u → P { u with pending := rest })
    (command : ∀ {c : Instr} {u v : State}, P u → exec c u = .next v → P v) (tick : ∀ u : State, P u → P u.tick)
    {s t : State} (h : P s) (next : step s = .next t) : P t := by
  rcases step_cases next with ⟨c, rest, -, run⟩ | ⟨c, rest, -, -, run⟩ | ⟨-, -, rfl⟩
  · exact command (queue s rest h) run
  · exact command h run
  · exact tick s h

theorem State.tick_portLaw {s : State} (law : s.PortLaw) : s.tick.PortLaw := by
  obtain ⟨l, line, link, timers, tick, -⟩ := s.tick_cases
  rw [tick]
  exact law

/-- A part held in reset counts no time (R180). -/
theorem State.tick_resetLaw {s : State} (law : s.ResetLaw) : s.tick.ResetLaw := by
  obtain ⟨l, line, link, timers, tick, -, -, held⟩ := s.tick_cases
  cases pin : s.inReset with
  | true =>
    rw [held pin]
    exact law
  | false =>
    rw [tick]
    exact State.resetLaw_of_out pin

theorem State.tick_latchLaw {s : State} (law : s.LatchLaw) : s.tick.LatchLaw := by
  obtain ⟨l, line, link, timers, tick, -⟩ := s.tick_cases
  rw [tick]
  exact law

/-- Settles O56, law by law, by what a command and a tick can do. -/
theorem stepKeepsPortAndResetLaws : Obligations.StepKeepsPortAndResetLaws := by
  unfold Obligations.StepKeepsPortAndResetLaws
  refine ⟨fun s t port reset next => ⟨?_, ?_⟩, fun s t latch next => ?_⟩
  · exact step_keeps (fun _ _ => id) exec_portLaw (fun _ => State.tick_portLaw) port next
  · exact step_keeps (fun _ _ => id) exec_resetLaw (fun _ => State.tick_resetLaw) reset next
  · exact step_keeps (fun _ _ => id) exec_latchLaw (fun _ => State.tick_latchLaw) latch next

end Sys2Proof.Machine
end

section
/-! PROOFS. The pending and enable sets, the sticky flags and the capture record (R157, R161 to R163, R166 to R169, R181). -/

namespace Sys2Proof.Machine

open Sys2Proof

/-! ### The registers at the port -/

section
variable {s : State} (ready : s.Ready) (v : Word)
include ready

theorem exec_ipendClear : exec (.ipendClear v) s = .next (s.clearLatches v).written := s.hostWrite_ready .ipend v ready

theorem exec_ienWrite : exec (.ienWrite v) s = .next (s.storeEnables v).written := s.hostWrite_ready .ien v ready

theorem exec_fccodeWrite : exec (.fccodeWrite v) s = .next s.emptyCapture.written := s.hostWrite_ready .fccode v ready

theorem exec_flagClear (half : Half) : exec (.flagClear half v) s = .next (s.clearFlags half v).written :=
  s.hostWrite_ready (.fflag half) v ready

end

/-! ### The pending set -/

theorem getLsbD_placeBit (b : Bool) {pos : Nat} (inside : pos < 16) (k : Nat) :
    (placeBit b pos).getLsbD k = (k == pos && b) := by
  cases b
  · simp [placeBit, bit]
  · show (BitVec.twoPow 16 pos).getLsbD k = _
    rw [BitVec.getLsbD_twoPow]
    simp [inside, Bool.beq_eq_decide_eq, eq_comm]

/-- The level conditions at their positions (R167, section 10.7). -/
theorem State.getLsbD_levels (s : State) (k : Nat) : s.levels.getLsbD k =
    (k == 8 && !s.result.responses.isEmpty || k == 9 && decide (s.cmd.queue.length ≤ 4)
      || k == 10 && s.nodes.changeSet != 0 || k == 11 && s.fault.capture.isSome) := by
  simp only [State.levels, BitVec.getLsbD_or, getLsbD_placeBit _ (show 8 < 16 by omega),
    getLsbD_placeBit _ (show 9 < 16 by omega), getLsbD_placeBit _ (show 10 < 16 by omega),
    getLsbD_placeBit _ (show 11 < 16 by omega)]

/-- Above the five event causes nothing is latched (R166). -/
theorem State.LatchLaw.getLsbD_latches {s : State} (law : s.LatchLaw) {k : Nat} (above : 5 ≤ k) (inside : k < 16) :
    s.fault.latches.getLsbD k = false := by
  have masked : (0xFFE0#16).getLsbD k = true := by
    have all : ∀ i : Fin 16, 5 ≤ i.val → (0xFFE0#16).getLsbD i.val = true := by decide
    exact all ⟨k, inside⟩ above
  have bit := congrArg (BitVec.getLsbD · k) law
  simpa [BitVec.getLsbD_and, masked] using bit

/-- IPEND bit by bit: the latches at the positions of the event causes, and the levels above them (R163, R168). -/
theorem State.getLsbD_pendingSet {s : State} (law : s.LatchLaw) {k : Nat} (inside : k < 16) :
    s.pendingSet.getLsbD k = if k < 5 then s.fault.latches.getLsbD k else s.levels.getLsbD k := by
  rw [State.pendingSet, BitVec.getLsbD_or]
  split
  · have level : s.levels.getLsbD k = false := by
      rw [State.getLsbD_levels]
      simp [show k ≠ 8 by omega, show k ≠ 9 by omega, show k ≠ 10 by omega, show k ≠ 11 by omega]
    rw [level, Bool.or_false]
  · rw [law.getLsbD_latches (by omega) inside, Bool.false_or]

/-- Out of reset the interrupt request line is asserted exactly while a cause is pending and enabled (R169). -/
theorem State.interruptAsserted_iff {s : State} (out : s.inReset = false) :
    s.interruptAsserted = true ↔ s.pendingSet &&& s.fault.enables ≠ 0 := by
  simp [State.interruptAsserted, out]

/-- FAULT ceases once the capture record is empty (R163). -/
theorem State.emptyCapture_noFault {s : State} (law : s.LatchLaw) : s.emptyCapture.pendingSet.getLsbD 11 = false := by
  have kept : s.emptyCapture.LatchLaw := law
  rw [State.getLsbD_pendingSet kept (by omega), State.getLsbD_levels]
  simp [State.emptyCapture]

/-- Settles O35: IPEND by its latches and levels, and each write by its register. -/
theorem interruptSets : Obligations.InterruptSets := by
  unfold Obligations.InterruptSets
  intro s v ready law
  refine ⟨fun k inside => ?_, rfl, State.interruptAsserted_iff ready.1, exec_ipendClear ready v, exec_ienWrite ready v,
    _, exec_fccodeWrite ready v, rfl, State.emptyCapture_noFault law⟩
  rw [State.readRegister, State.getLsbD_pendingSet law inside, State.getLsbD_levels]
  refine if_congr Iff.rfl rfl ?_
  rcases (by omega : k = 8 ∨ k = 9 ∨ k = 10 ∨ k = 11 ∨ k ≠ 8 ∧ k ≠ 9 ∧ k ≠ 10 ∧ k ≠ 11) with
    rfl | rfl | rfl | rfl | ⟨h8, h9, h10, h11⟩
  · simp
  · simp
  · simp [bne, Bool.beq_eq_decide_eq]
  · simp
  · simp [h8, h9, h10, h11]

/-! ### The sticky flags -/

/-- Every flag lies inside its register (section 10.7). -/
theorem faultCode_flagPlace_lt (c : FaultCode) : c.flagPlace.2 < 16 := by cases c <;> decide

theorem getLsbD_or_one (x : Word) {k : Nat} (inside : k < 16) (j : Nat) :
    (x ||| (1 : Word) <<< k).getLsbD j = (x.getLsbD j || j == k) := by
  have bit := getLsbD_placeBit true inside j
  rw [Bool.and_true] at bit
  rw [BitVec.getLsbD_or, ← bit]
  rfl

section
variable {c : FaultCode} {k : Nat}

theorem FaultUnit.setFlag_reg0 (u : FaultUnit) (place : c.flagPlace = (.reg0, k)) :
    u.setFlag c = { u with fflag0 := u.fflag0 ||| (1 : Word) <<< k } := by
  simp only [FaultUnit.setFlag, place]

theorem FaultUnit.setFlag_reg1 (u : FaultUnit) (place : c.flagPlace = (.reg1, k)) :
    u.setFlag c = { u with fflag1 := u.fflag1 ||| (1 : Word) <<< k } := by
  simp only [FaultUnit.setFlag, place]

end

/-- A bit set in a word leaves every other as it was. -/
theorem getLsbD_or_one_only (x : Word) {k : Nat} (inside : k < 16) :
    (x ||| (1 : Word) <<< k).getLsbD k = true
      ∧ ∀ j, j ≠ k → (x ||| (1 : Word) <<< k).getLsbD j = x.getLsbD j := by
  refine ⟨?_, fun j other => ?_⟩
  · rw [getLsbD_or_one x inside, beq_self_eq_true, Bool.or_true]
  · rw [getLsbD_or_one x inside, beq_false_of_ne other, Bool.or_false]

/-! ### The capture record -/

section
variable {u : FaultUnit} (r : FaultReport) (cycle : Word)

/-- An empty capture record takes the report (R162). -/
theorem FaultUnit.offer_empty (empty : u.capture = none) :
    (u.offer r cycle).capture = some { code := r.code, node := r.node, detail := r.detail, cycle := cycle } := by
  simp only [FaultUnit.offer, empty]

/-- A capture record that holds a report gives way to a higher class only (R162). -/
theorem FaultUnit.offer_held {c : Capture} (held : u.capture = some c) :
    (u.offer r cycle).capture = if c.code.classNumber < r.code.classNumber then
      some { code := r.code, node := r.node, detail := r.detail, cycle := cycle } else some c := by
  simp only [FaultUnit.offer, held]
  split
  · rfl
  · exact held

end

/-! ### A report -/

/-- Two fault units with the same latches and enables differ in the flags and the capture record at most. -/
theorem FaultUnit.eq_of_sets {u v : FaultUnit} (latches : v.latches = u.latches) (enables : v.enables = u.enables) :
    v = { u with fflag0 := v.fflag0, fflag1 := v.fflag1, capture := v.capture } := by
  rw [← latches, ← enables]

/-- A report reaches the flags and the capture record of the fault and interrupt unit, and nothing else (R157). -/
theorem State.takeReport_eq (s : State) (r : FaultReport) : s.takeReport r = { s with
    fault := { s.fault with
      fflag0 := (s.fault.setFlag r.code).fflag0
      fflag1 := (s.fault.setFlag r.code).fflag1
      capture := ((s.fault.setFlag r.code).offer r s.sched.cycleNumber).capture } } := by
  have unit := FaultUnit.eq_of_sets (u := s.fault) (v := (s.fault.setFlag r.code).offer r s.sched.cycleNumber)
    (by simp) (by simp)
  rw [State.takeReport, unit]
  simp

theorem exec_faultReport {s : State} (out : s.inReset = false) {r : FaultReport}
    (node : r.code.isNodeClass = true → r.node ≠ 0) :
    exec (.faultReport r) s = .next ((s.takeDue (.faultReport r)).takeReport r) := by
  have fits : (Instr.faultReport r).wellFormed = true := by
    cases ofNode : r.code.isNodeClass with
    | true => simpa [Instr.wellFormed, ofNode] using node ofNode
    | false => simp [Instr.wellFormed, ofNode]
  simp only [exec, execFaultReport, fits, if_true]
  rw [State.event_ready _ _ _ out]

/-- Settles O36: the codes one by one, a report by the place of its flag and the class captured, and the writes by their
registers. -/
theorem flagsAndCaptureRecord : Obligations.FlagsAndCaptureRecord := by
  unfold Obligations.FlagsAndCaptureRecord
  refine ⟨fun c => by cases c <;> decide, fun s r out node => ?_, fun s v ready => ?_⟩
  · have unit := State.takeReport_eq (s.takeDue (.faultReport r)) r
    refine ⟨_, exec_faultReport out node, ?_, ?_, fun empty => ?_, fun c held => ?_⟩
    · rw [unit]
      rfl
    · have inside := faultCode_flagPlace_lt r.code
      rw [unit]
      rcases place : r.code.flagPlace with ⟨_ | _, k⟩
      · rw [place] at inside
        simp only [FaultUnit.setFlag_reg0 _ place]
        exact ⟨rfl, getLsbD_or_one_only _ inside⟩
      · rw [place] at inside
        simp only [FaultUnit.setFlag_reg1 _ place]
        exact ⟨rfl, getLsbD_or_one_only _ inside⟩
    · rw [unit]
      exact FaultUnit.offer_empty r _ (by simpa using empty)
    · rw [unit]
      exact FaultUnit.offer_held r _ (by simpa using held)
  · exact ⟨exec_flagClear ready v .reg0, exec_flagClear ready v .reg1, exec_fccodeWrite ready v, rfl, rfl⟩

end Sys2Proof.Machine
end

section
/-! PROOFS. Accesses that wait for the line copy, what they do once taken, and the release of the strobe (R171, R172, R177,
R178). -/

namespace Sys2Proof.Machine

open Sys2Proof

/-! ### Bus cycles -/

theorem execAccessFault_latched {c : BusCycle} {a : Access} (latched : latchCycle c = some a) (s : State) :
    exec (.accessFault c) s = .next (s.present a) := by
  simp only [exec, execAccessFault, latched]

/-- The bus cycle of an access presents that access. -/
theorem latchCycle_cycle (a : Access) : latchCycle a.cycle = some a := by
  obtain ⟨window, write, lanes, addr, data⟩ := a
  cases window <;> cases write <;> rfl

theorem latchCycle_write {c : BusCycle} {a : Access} (latched : latchCycle c = some a) : a.write = c.wr := by
  unfold latchCycle at latched
  split at latched
  · cases latched
    rfl
  · cases latched

/-- A write cycle of the image window alone presents the image write (R171, R173). -/
theorem execAccessFault_imageWrite {c : BusCycle} (rs : c.rs = false) (is : c.is = true) (wr : c.wr = true) (s : State) :
    exec (.accessFault c) s = exec (.imageWrite c.lanes c.addr c.data) s := by
  have latched : latchCycle c = some (Access.toImage true c.lanes c.addr c.data) := by
    simp [latchCycle, Access.toImage, rs, is, wr]
  exact execAccessFault_latched latched s

/-- What a read finds on the data lines is not looked at. -/
theorem State.takeAccess_toImage_read (s : State) (lanes : Lanes) (addr : BitVec 11) (data : Word) :
    s.takeAccess (Access.toImage false lanes addr data) = s.takeAccess (Access.toImage false lanes addr 0) := by
  cases lanes <;> rfl

/-- A read cycle of the image window presents the image read, up to the data lines, which only a waiting access latches
(R171, R173). -/
theorem execAccessFault_imageRead {c : BusCycle} {s : State} (rs : c.rs = false) (is : c.is = true) (rd : c.rd = true)
    (wr : c.wr = false) (unlatched : c.data = 0 ∨ s.ImageReady) :
    exec (.accessFault c) s = exec (.imageRead c.lanes c.addr) s := by
  have latched : latchCycle c = some (Access.toImage false c.lanes c.addr c.data) := by
    simp [latchCycle, Access.toImage, rs, is, rd, wr]
  refine (execAccessFault_latched latched s).trans (congrArg Host.Outcome.next ?_)
  rcases unlatched with zero | ready
  · rw [zero]
  · rw [s.present_image _ ready, s.present_image _ ready, s.takeAccess_toImage_read]

/-- A register write acts by the offset it reaches, whatever the address lines above it (R173). -/
theorem State.takeAccess_writeAt (s : State) (lanes : Lanes) (addr : BitVec 11) (data : Word) :
    s.takeAccess { window := .registers, write := true, lanes := lanes, addr := addr, data := data }
      = s.takeAccess { Access.writeAt (BitVec.ofNat 8 (2 * (addr.toNat % 128))) data with lanes := lanes } := by
  have offset : registerOffset (registerAddress (BitVec.ofNat 8 (2 * (addr.toNat % 128)))) = registerOffset addr := by
    rw [registerOffset_registerAddress, BitVec.toNat_ofNat]
    simp only [registerOffset]
    omega
  cases lanes <;> simp [State.takeAccess, State.carryOut, State.registerAccess, Access.writeAt, Access.nothing, offset]

/-- An address below 80h is the one that its register offset is presented at (R173). -/
theorem registerAddress_ofNat {addr : BitVec 11} (low : addr.toNat < 128) :
    registerAddress (BitVec.ofNat 8 (2 * (addr.toNat % 128))) = addr := by
  apply BitVec.eq_of_toNat_eq
  simp only [registerAddress, BitVec.toNat_setWidth, BitVec.toNat_ushiftRight, BitVec.toNat_ofNat, Nat.shiftRight_one]
  omega

/-- A write cycle of the register window presents the write at the offset it reaches; a waiting access would latch the address
lines above it too (R173). -/
theorem execAccessFault_registerWrite {c : BusCycle} {s : State} (rs : c.rs = true) (wr : c.wr = true)
    (reached : c.addr.toNat < 128 ∨ s.Ready) : exec (.accessFault c) s = .next
      (s.present { Access.writeAt (BitVec.ofNat 8 (2 * (c.addr.toNat % 128))) c.data with lanes := c.lanes }) := by
  have latched : latchCycle c
      = some { window := .registers, write := true, lanes := c.lanes, addr := c.addr, data := c.data } := by
    simp [latchCycle, rs, wr]
  refine (execAccessFault_latched latched s).trans (congrArg Host.Outcome.next ?_)
  rcases reached with low | ready
  · simp only [Access.writeAt, registerAddress_ofNat low]
  · rw [s.present_register _ ready rfl, s.present_register _ ready rfl, s.takeAccess_writeAt]

/-! ### Presentations that wait -/

/-- An image access presented during a line copy waits (R177). -/
theorem State.present_copying {s : State} {lanes : Lanes} {d : Direction} (out : s.inReset = false)
    (free : s.port.state ≠ .waiting) (nonNull : lanes ≠ .null) (copying : s.image.lineInProgress = some d) (write : Bool)
    (addr : BitVec 11) (data : Word) : s.present (Access.toImage write lanes addr data) = s.setPort
      { Port.reset with state := .waiting, first := some (Access.toImage write lanes addr data) } := by
  have waits : s.mustWait (Access.toImage write lanes addr data) = true := by
    simp [State.mustWait, Access.toImage, nonNull, copying]
  unfold State.present
  rw [out]
  cases port : s.port.state with
  | waiting => exact absurd port free
  | idle => simp [waits]
  | taken => simp [waits]

section
variable {s : State} (out : s.inReset = false) (waiting : s.port.state = .waiting)
include out waiting

theorem State.present_waiting (a : Access) : s.present a = s.presentBehind a := by
  simp [State.present, out, waiting]

/-- Behind a second latched access a strobe presents nothing (R178). -/
theorem execAccessFault_behindSecond {c : BusCycle} {a : Access} (latched : latchCycle c = some a)
    (second : s.port.second.isSome = true) : exec (.accessFault c) s = .next s := by
  rw [execAccessFault_latched latched, State.present_waiting out waiting, State.presentBehind, if_pos second]

/-- An access of some byte is latched behind the waiting one (R178). -/
theorem execAccessFault_second {c : BusCycle} {a : Access} (latched : latchCycle c = some a) (alone : s.port.second = none)
    (nonNull : a.lanes ≠ .null) : exec (.accessFault c) s = .next (s.setPort { s.port with
      firstReleased := true, second := some a, secondReleased := false, nullHeld := false, dataOut := none }) := by
  rw [execAccessFault_latched latched, State.present_waiting out waiting]
  simp [State.presentBehind, alone, nonNull]

/-- A null access behind the waiting one completes at once (R172). -/
theorem execAccessFault_nullBehind {c : BusCycle} {a : Access} (latched : latchCycle c = some a)
    (alone : s.port.second = none) (null : a.lanes = .null) : exec (.accessFault c) s = .next (s.setPort { s.port with
      firstReleased := true, nullHeld := true, dataOut := if c.wr = true then none else some 0 }) := by
  rw [execAccessFault_latched latched, State.present_waiting out waiting]
  simp [State.presentBehind, alone, null, Access.nothing, latchCycle_write latched]

/-! ### Waiting accesses taken -/

/-- The only waiting access is taken by the freed port, which then follows the null access or the strobe (R177, R178). -/
theorem exec_waitingAccessTaken_single {a : Access} (idle : s.image.lineInProgress = none)
    (first : s.port.first = some a) (alone : s.port.second = none) :
    exec .waitingAccessTaken s = .next ((s.atAccess.takeAccess a).setPort
      (if s.port.nullHeld = true then Port.taken s.port.dataOut
        else if s.port.firstReleased = true then Port.reset else (s.atAccess.takeAccess a).port)) := by
  simp only [exec, execWaitingAccessTaken, State.event_ready _ _ _ out, State.takeWaiting, State.takeDue, waiting, idle,
    first, alone]
  rfl

/-- Two waiting accesses are taken one after the other (R178). -/
theorem exec_waitingAccessTaken_both {a b : Access} (idle : s.image.lineInProgress = none)
    (first : s.port.first = some a) (second : s.port.second = some b) :
    exec .waitingAccessTaken s = .next (((s.atAccess.takeAccess a).takeAccess b).setPort
      (if s.port.secondReleased = true then Port.reset else ((s.atAccess.takeAccess a).takeAccess b).port)) := by
  simp only [exec, execWaitingAccessTaken, State.event_ready _ _ _ out, State.takeWaiting, State.takeDue, waiting, idle,
    first, second]
  rfl

end

/-- With no line copy in progress the bus cycle of an access is taken at its presentation (R174, R177). -/
theorem execAccessFault_cycle {s : State} (ready : s.ImageReady) (a : Access) :
    exec (.accessFault a.cycle) s = .next (s.takeAccess a) := by
  rw [execAccessFault_latched (latchCycle_cycle a), s.present_image a ready]

theorem State.atAccess_ready {s : State} (out : s.inReset = false) (idle : s.image.lineInProgress = none) :
    s.atAccess.ImageReady :=
  ⟨⟨out, nofun⟩, idle⟩

/-- An access taken leaves the port free for the next: it begins no line copy (R174, R177). -/
theorem State.takeAccess_ready {s : State} (ready : s.ImageReady) (a : Access) : (s.takeAccess a).ImageReady := by
  obtain ⟨⟨out, -⟩, idle⟩ := ready
  refine ⟨⟨?_, nofun⟩, (s.takeAccess_lineInProgress a).trans idle⟩
  simpa [State.takeAccess] using out

/-- An image read of some byte is taken by the image unit, and its value driven (R171, R176). -/
theorem State.takeAccess_imageRead (s : State) {lanes : Lanes} (addr : BitVec 11) (nonNull : lanes ≠ .null) :
    s.takeAccess (Access.toImage false lanes addr 0)
      = (s.imageRead lanes addr).1.driving (s.image.readValue lanes addr) := by
  rw [State.takeAccess, Access.toImage_carryOut false addr 0 nonNull]
  have value : (s.imageRead lanes addr).2 = s.image.readValue lanes addr := by rw [s.imageRead_eq]
  rw [← value]
  rfl

/-! ### The release of the strobe -/

theorem exec_strobeRelease_taken {s : State} (taken : s.port.state = .taken) :
    exec .strobeRelease s = .next (s.setPort Port.reset) := by
  simp [exec, execStrobeRelease, State.releaseStrobe, taken]

/-- In WAITING the release marks the strobe of the first access (R178). -/
theorem exec_strobeRelease_waiting {s : State} (waiting : s.port.state = .waiting) (alone : s.port.second = none) :
    exec .strobeRelease s
      = .next (s.setPort { s.port with firstReleased := true, nullHeld := false, dataOut := none }) := by
  simp [exec, execStrobeRelease, State.releaseStrobe, waiting, alone]

/-- Behind a second latched access the release marks that one's strobe (R178). -/
theorem exec_strobeRelease_second {s : State} (waiting : s.port.state = .waiting) (second : s.port.second.isSome = true) :
    exec .strobeRelease s = .next (s.setPort { s.port with secondReleased := true, dataOut := none }) := by
  simp [exec, execStrobeRelease, State.releaseStrobe, waiting, second]

/-! ### The statement -/

/-- Settles O40: presentations during a line copy, the accesses taken after it, presentations behind a waiting access, bus
cycles, and the release of the strobe. -/
theorem waitingAccessAndStrobe : Obligations.WaitingAccessAndStrobe := by
  unfold Obligations.WaitingAccessAndStrobe
  intro s out
  refine ⟨fun lanes addr data d free nonNull copying => ?presented,
    fun lanes addr waiting idle alone noNull first nonNull => ?read, fun a waiting idle first => ?taken,
    fun c a latched waiting => ?behind, fun c => ?cycles, fun taken => ?taken_released,
    fun waiting alone => ?waiting_released, fun waiting second => ?second_released⟩
  case presented =>
    have waits := State.present_copying out free nonNull copying
    exact ⟨⟨_, congrArg Host.Outcome.next (waits true addr data), rfl, rfl⟩,
      ⟨_, congrArg Host.Outcome.next (waits false addr 0), rfl, rfl⟩⟩
  case read =>
    have took := exec_waitingAccessTaken_single (a := Access.toImage false lanes addr 0) out waiting idle first alone
    rw [s.atAccess.takeAccess_imageRead addr nonNull, noNull] at took
    refine ⟨_, took, ?_, fun released => ?_, fun held => ?_, ?_⟩
    · cases s.port.firstReleased <;> rfl
    · simp [released]
    · simp only [held]
      rfl
    · simp [State.atAccess]
  case taken =>
    have ready := State.atAccess_ready out idle
    refine ⟨fun alone => ⟨_, execAccessFault_cycle ready a, exec_waitingAccessTaken_single out waiting idle first alone⟩,
      fun b second => ⟨_, _, execAccessFault_cycle ready a, execAccessFault_cycle (State.takeAccess_ready ready a) b,
        exec_waitingAccessTaken_both out waiting idle first second⟩⟩
  case behind =>
    refine ⟨execAccessFault_behindSecond out waiting latched, fun alone nonNull => ?_, fun alone null => ?_⟩
    · exact ⟨_, execAccessFault_second out waiting latched alone nonNull, by simp [State.readyLow, waiting], rfl⟩
    · exact ⟨_, execAccessFault_nullBehind out waiting latched alone null, by simp [State.readyLow, waiting], rfl⟩
  case cycles =>
    refine ⟨fun rs is wr => execAccessFault_imageWrite rs is wr s,
      fun rs is rd wr unlatched => execAccessFault_imageRead rs is rd wr unlatched, fun rs wr reached => ?_⟩
    have presents := execAccessFault_registerWrite rs wr (reached.imp_right fun free => (⟨out, free⟩ : s.Ready))
    refine ⟨fun lanes => ?_, fun lanes => ?_, fun lanes => ?_⟩ <;>
    · rw [lanes] at presents
      exact presents
  case taken_released => exact exec_strobeRelease_taken taken
  case waiting_released =>
    exact ⟨_, exec_strobeRelease_waiting waiting alone, by simp [State.readyLow, waiting], rfl⟩
  case second_released => exact exec_strobeRelease_second waiting second

end Sys2Proof.Machine
end

section
/-! PROOFS. The reset pin: what its assertion leaves, and what has an effect while it is asserted (R180). -/

namespace Sys2Proof.Machine

open Sys2Proof

/-- No event has an effect while the reset pin is asserted (R180). -/
theorem exec_event_inReset {c : Instr} {s : State} (event : isEvent c = true) (fits : c.wellFormed = true)
    (inReset : s.inReset = true) : exec c s = .next s := by
  have still : ∀ f : State → State, Host.Outcome.next (s.event c f) = (.next s : Host.Outcome State Fault Refusal) :=
    fun f => congrArg Host.Outcome.next (s.event_inReset c f inReset)
  cases c with
  | slotEnd => simpa [exec, execSlotEnd, inReset] using still _
  | headSegmentEnd => simpa [exec, execHeadSegmentEnd, inReset] using still _
  | replyStorage n bytes => simpa [exec, execReplyStorage, inReset, fits] using still _
  | nodeOutcome n kind k v => exact (if_pos fits).trans (still _)
  | lateNotice n k => exact (if_pos fits).trans (still _)
  | resultTrailer n tag serial outcome data => exact (if_pos fits).trans (still _)
  | nodeDownNotice n => exact (if_pos fits).trans (still _)
  | faultReport r => exact (if_pos fits).trans (still _)
  | waitingAccessTaken | characterEnd | characterGap | windowClose | window2Open | frameEnd | lReadback | markEnd | lineQuiet
  | activityReport | linkFault | ackOutcome | abandonNotice | resultTimeout | lineCopy => exact still _
  | _ => cases event

/-- A read that waits with its strobe held is completed driving 0, and a write that waits drives nothing (R180). -/
theorem Port.resetData_waiting {p : Port} {a : Access} (waiting : p.state = .waiting) (alone : p.second = none)
    (first : p.first = some a) (held : p.firstReleased = false) : p.resetData = if a.write then none else some 0 := by
  simp [Port.resetData, waiting, alone, first, held, Access.nothing]

/-- Settles O41: the assertion by `State.assertReset_resetLaw`, then the release, accesses, events and the level of the
line. -/
theorem resetPin : Obligations.ResetPin := by
  unfold Obligations.ResetPin
  refine ⟨fun s => ?asserted, fun s out => ?released, fun s inReset => ?held⟩
  case asserted =>
    exact ⟨s.assertReset, rfl, rfl, s.assertReset_resetLaw, rfl, rfl, rfl, rfl,
      fun a waiting alone first held => Port.resetData_waiting waiting alone first held⟩
  case released => simp [exec, execResetPinRelease, State.releaseReset, out]
  case held =>
    have presented (a : Access) : Host.Outcome.next (s.present a)
        = (.next (s.setPort { s.port with dataOut := a.nothing }) : Host.Outcome State Fault Refusal) :=
      congrArg Host.Outcome.next (s.present_inReset a inReset)
    refine ⟨?_, fun c a latched => ?_, fun lanes addr data => presented _, fun lanes addr => presented _, presented _,
      fun c event fits => exec_event_inReset event fits inReset, ?_, ?_⟩
    · simp [exec, execResetPinRelease, State.releaseReset, inReset]
    · rw [execAccessFault_latched latched, presented, Access.nothing, latchCycle_write latched]
      rfl
    · simp [exec, execActivityOnset, inReset, State.setRxd]
    · simp [exec, execLineReturnsTo1, inReset, State.setRxd]

end Sys2Proof.Machine
end

section
/-! PROOFS. Every step keeps the canonical form of the four banks (R70, R76, R77, R79, R84). -/

namespace Sys2Proof.Machine

open Sys2Proof

/-! ### Accesses -/

/-- The memory law asks nothing of any block but the image unit. -/
theorem State.MemoryLaw.of_image {s t : State} (law : s.MemoryLaw) (same : t.image = s.image) : t.MemoryLaw :=
  (Image.Kept.of_eq same).1.canonical law

/-- Of the host's accesses only an image write stores bytes, and those lie inside the output host bank (R71, R76). -/
theorem State.carryOut_memoryLaw {s : State} (law : s.MemoryLaw) (a : Access) : (s.carryOut a).1.MemoryLaw := by
  rcases s.carryOut_cases a with e | ⟨-, o, e⟩ | ⟨-, r, v, e⟩ | ⟨-, e⟩ | ⟨-, e⟩ <;> rw [e]
  · exact law
  · exact law.of_image (by simp)
  · exact (s.writeRegister_image r v).1.canonical law
  · exact (s.imageWrite_image a.lanes a.addr a.data).1 law
  · exact law.of_image (by simp)

/-! ### Replies stored and lines copied -/

/-- A reply that does not run past its bank is stored inside the input link bank (R79). -/
theorem State.storeReply_memoryLaw {s : State} (law : s.MemoryLaw) {n : NodeAddr} {bytes : List Byte}
    (inside : s.storageBeyondBank n bytes = false) : (s.storeReply n bytes).MemoryLaw := by
  unfold State.storeReply
  unfold State.storageBeyondBank at inside
  split
  · exact law
  · next c copy =>
    rw [copy] at inside
    have fits : c.inOff.toNat + bytes.length ≤ 1024 := Nat.not_lt.1 (of_decide_eq_false inside)
    exact Image.linkStore_canonical law _ bytes fits

/-- A line copy moves offsets of one line, which lies inside the bank (R77, R84). -/
theorem State.copyLine_memoryLaw {s : State} (law : s.MemoryLaw) : s.copyLine.MemoryLaw := by
  unfold State.copyLine
  dsimp only
  split
  · exact law
  · exact (State.outputLine_image _ _).1 law
  · exact (State.inputLine_image _ _).1 law

theorem State.lineCopy_memoryLaw {s : State} (law : s.MemoryLaw) : s.lineCopy.MemoryLaw := by
  rcases s.lineCopy_cases with e | e | e <;> rw [e]
  · exact law
  · exact State.copyLine_memoryLaw law
  · exact State.copyLine_memoryLaw law

/-! ### Every step -/

/-- Of the events a waiting access, a stored reply and a line copy store bytes; those of the cycle and of the run only exchange
the roles of the banks. -/
theorem eventEffect_memoryLaw {s : State} (law : s.MemoryLaw) {c : Instr}
    (stored : ∀ n bytes, c = .replyStorage n bytes → s.storageBeyondBank n bytes = false) :
    (eventEffect c s).MemoryLaw := by
  cases c with
  | waitingAccessTaken =>
    exact State.takeWaiting_keeps State.MemoryLaw (fun _ _ h => h) (fun _ a h => State.carryOut_memoryLaw h a) law
  | replyStorage n bytes => exact State.storeReply_memoryLaw law (stored n bytes rfl)
  | lineCopy => exact State.lineCopy_memoryLaw law
  | slotEnd => exact s.slotEnd_image.canonical law
  | headSegmentEnd => exact s.headEnd_image.1.canonical law
  | lineQuiet => exact s.takeLineQuiet_image.1.canonical law
  | linkFault kind => exact (s.takeLinkFault_image kind).1.canonical law
  | _ => exact law.of_image (by simp [eventEffect])

/-- A hardware reset leaves every bank with no byte that differs from the reset byte (R89). -/
theorem State.assertReset_memoryLaw (s : State) : s.assertReset.MemoryLaw :=
  ⟨Memory.canonical_nil, Memory.canonical_nil, Memory.canonical_nil, Memory.canonical_nil⟩

theorem exec_memoryLaw {c : Instr} {s t : State} (law : s.MemoryLaw) (next : exec c s = .next t) : t.MemoryLaw := by
  rcases exec_cases next with rfl | ⟨p, rfl, -⟩ | ⟨-, level, rfl⟩ | ⟨a, -, rfl⟩ | ⟨-, rfl⟩ | ⟨-, rfl⟩ | ⟨takes, rfl⟩
  · exact law
  · exact law.of_image rfl
  · exact law.of_image rfl
  · exact (State.carryOut_memoryLaw law a).of_image rfl
  · exact s.assertReset_memoryLaw
  · exact law.of_image rfl
  · have taken : (s.takeDue c).MemoryLaw := law.of_image rfl
    exact eventEffect_memoryLaw taken takes.stored

/-- Settles O51, by what a step can do: each command keeps the banks canonical, and a tick moves no byte. -/
theorem stepKeepsMemoryLaw : Obligations.StepKeepsMemoryLaw := by
  unfold Obligations.StepKeepsMemoryLaw
  intro s t law next
  rcases step_cases next with ⟨c, rest, -, run⟩ | ⟨c, rest, -, -, run⟩ | ⟨-, -, rfl⟩
  · have fetched : State.MemoryLaw { s with pending := rest } := law.of_image rfl
    exact exec_memoryLaw fetched run
  · exact exec_memoryLaw law run
  · obtain ⟨l, line, link, timers, tick, -⟩ := s.tick_cases
    rw [tick]
    exact law

end Sys2Proof.Machine
end
